-- ==== Sys2Proof/Word.lean ====
section
/-! DEFINITION. The word types of the D96 (R9, R49, R88) and nothing else. -/
namespace Sys2Proof

/-- One byte of memory (R90: a location is one byte). -/
abbrev Byte := BitVec 8
/-- A 16-bit quantity: call depths, barrier generations, f16 and bf16 codes. -/
abbrev W16 := BitVec 16
/-- One lane's vector register (R49), or a 32-bit field. -/
abbrev W32 := BitVec 32
/-- A virtual address, a PC, a register pair or a 64-bit record field. -/
abbrev W64 := BitVec 64
/-- One instruction word (R117): 96 bits. -/
abbrev W96 := BitVec 96
/-- Sixteen bytes: a b128 access or a register quad (R119). -/
abbrev W128 := BitVec 128
/-- A mask of the 32 slots of a wave (R20, R21). -/
abbrev Mask := BitVec 32

end Sys2Proof
end

