-- ==== Sys2Proof/Syntax.lean ====
section
/-! DEFINITION. The steps of the D96 as data: one constructor of `Instr` for each row of the opcode table. The first 183 are
the instructions of R129, each with the operand fields of its word (R117 to R126); the rest are the device's other steps (the
events and commands of the table), each with what the outside world or the unit concerned brings to it. -/
namespace Sys2Proof

/-- The lane source of a register operand (R51). -/
inductive LaneSrc where
  | own    -- no suffix: the lane's own slot
  | left   -- .l: slot i - 1, zero for i = 0
  | right  -- .r: slot i + 1, zero for i = 31
  | bcast  -- .b: the lowest slot set in s.amask
  deriving DecidableEq, Repr

/-- A source operand field (R120), or the 34-bit literal field of a word with L = 1 (R125), which stands in field b. -/
inductive Src where
  | reg (r : Byte) (lane : LaneSrc) (neg abs : Bool)
  | imm (payload : BitVec 15)
  | pool (index : BitVec 15)
  | spec (number : BitVec 15)
  | lit (value : W32)
  deriving DecidableEq, Repr

/-- The field an instruction does not use: all zero (R120), which is register v0 of the own lane. -/
abbrev Src.unused : Src := .reg 0 .own false false

/-- The destination field (R119): the wide flag and a register number. -/
structure Dst where
  wide : Bool
  reg  : Byte
  deriving DecidableEq, Repr

/-- The guard field (R126): bit `bit` of register `reg` must equal `sense`. -/
structure Guard where
  reg   : Byte
  bit   : BitVec 5
  sense : Bool
  deriving DecidableEq, Repr

/-- Everything an instruction word holds besides its opcode (R117). `mod` is the MOD field without its literal bit where the
literal form is meant by `b = .lit _`: MOD[6] of the word is kept in `mod` as the word has it. -/
structure Operands where
  mod   : BitVec 7
  dst   : Dst
  a     : Src
  b     : Src
  c     : Src
  guard : Guard
  sw    : Bool
  ru    : BitVec 3
  yld   : Bool
  deriving DecidableEq, Repr

/-- The PCIe function a host access comes through (R338, R340). -/
inductive Fn where
  | pf
  | vf (k : Nat)
  deriving DecidableEq, Repr

/-- The user page of a queue in the BAR 2 of a function (R339, R343). -/
structure UserPage where
  fn    : Fn
  queue : Nat
  deriving DecidableEq, Repr

/-- What a bring-up stage finds (R357 to R359): the bytes of the boot flash from offset 0, the memory (GiB) whose channels trained, and
the cores that failed the initial scan. -/
structure BootFinding where
  flash       : List Byte
  gib         : Nat
  channelsOk  : Bool
  failedCores : List Nat
  deriving DecidableEq, Repr

/-- The steps of the device, one constructor per row of spec/opcode_table.json. -/
inductive Instr where
  /-- R142: Adds two 32-bit integers per lane, wrapping or saturating. -/
  | iadd (o : Operands)
  /-- R142: Subtracts two 32-bit integers per lane, wrapping or saturating. -/
  | isub (o : Operands)
  /-- R142: Adds three 32-bit integers per lane modulo 2^32. -/
  | iadd3 (o : Operands)
  /-- R142: Writes the low 32 bits of the product of two integers. -/
  | imul (o : Operands)
  /-- R142: Writes the high 32 bits of the exact 64-bit product, signed or unsigned. -/
  | imulh (o : Operands)
  /-- R142: Multiplies two integers and adds a third modulo 2^32. -/
  | imad (o : Operands)
  /-- R142: Multiplies two 32-bit integers and adds a 64-bit pair into a pair destination. -/
  | imadw (o : Operands)
  /-- R142: Writes the smaller of two integers, signed or unsigned. -/
  | imin (o : Operands)
  /-- R142: Writes the larger of two integers, signed or unsigned. -/
  | imax (o : Operands)
  /-- R142: Writes the absolute value of a signed integer, optionally saturating. -/
  | iabs (o : Operands)
  /-- R142: Writes the negation of a signed integer, optionally saturating. -/
  | ineg (o : Operands)
  /-- R142: Clamps an integer between two bounds. -/
  | iclamp (o : Operands)
  /-- R144: Divides integers truncating toward zero, with fixed results for division by zero and overflow. -/
  | idiv (o : Operands)
  /-- R144: Writes the integer remainder with the sign of the dividend. -/
  | irem (o : Operands)
  /-- R145: Bitwise AND of two operands. -/
  | andB (o : Operands)
  /-- R145: Bitwise OR of two operands. -/
  | orB (o : Operands)
  /-- R145: Bitwise exclusive OR of two operands. -/
  | xorB (o : Operands)
  /-- R145: Bitwise AND of a with the complement of b. -/
  | andn (o : Operands)
  /-- R145: Bitwise complement of an operand. -/
  | notB (o : Operands)
  /-- R145: Applies an 8-bit truth table to a, b and the old destination bit by bit. -/
  | lop3 (o : Operands)
  /-- R145: Counts the one bits of an operand. -/
  | popc (o : Operands)
  /-- R145: Counts the leading zero bits of an operand. -/
  | clz (o : Operands)
  /-- R145: Counts the trailing zero bits of an operand. -/
  | ctz (o : Operands)
  /-- R145: Reverses the bit order of an operand. -/
  | brev (o : Operands)
  /-- R146: Extracts a bit field given by a position and length descriptor. -/
  | bfe (o : Operands)
  /-- R146: Inserts the low bits of b into a bit field of a. -/
  | bfi (o : Operands)
  /-- R147: Builds each destination byte from a selected source byte and an operation. -/
  | bperm (o : Operands)
  /-- R142: Accumulates a four-way byte dot product into c, wrapping at 32 bits. -/
  | dp4 (o : Operands)
  /-- R142: Accumulates a two-way halfword-by-byte dot product into c. -/
  | dp2 (o : Operands)
  /-- R142: Accumulates the sum of absolute byte differences into c. -/
  | sad (o : Operands)
  /-- R149: Shifts left by the whole count, giving zero for counts at or above the width. -/
  | shl (o : Operands)
  /-- R149: Shifts right logically by the whole count. -/
  | shr (o : Operands)
  /-- R149: Shifts right arithmetically by the whole count. -/
  | sra (o : Operands)
  /-- R149: Rotates left by the count modulo the width. -/
  | rotl (o : Operands)
  /-- R150: Funnel-shifts or rotates the 64-bit pair {b, a} by a signed count and writes one half. -/
  | shf (o : Operands)
  /-- R151: Compares two 32-bit integers and combines the result into one bit of the destination. -/
  | icmp (o : Operands)
  /-- R151: Compares two 64-bit integers and combines the result into one bit of the destination. -/
  | icmp64 (o : Operands)
  /-- R152: Writes 0, 1 or all ones from one bit of a register. -/
  | setc (o : Operands)
  /-- R152: Selects a or b by one bit of c. -/
  | sel (o : Operands)
  /-- R153: Copies a 32-bit operand to the destination. -/
  | mov (o : Operands)
  /-- R153: Copies a 64-bit operand to a pair destination. -/
  | movl (o : Operands)
  /-- R152: Copies one bit, optionally inverted, into one bit of the destination. -/
  | pmov (o : Operands)
  /-- R152: Combines two predicate bits through a 4-bit truth table into one destination bit. -/
  | plop (o : Operands)
  /-- R154: Forms a + b shifted by N modulo 2^32. -/
  | lea (o : Operands)
  /-- R154: Forms a 64-bit address from a pair and an extended shifted index. -/
  | lea64 (o : Operands)
  /-- R154: Adds two 64-bit values modulo 2^64. -/
  | iadd64 (o : Operands)
  /-- R154: Subtracts two 64-bit values modulo 2^64. -/
  | isub64 (o : Operands)
  /-- R156: Extracts one field of a work identifier. -/
  | wfield (o : Operands)
  /-- R155: Packs two 16-bit halves, optionally clamped, into one word. -/
  | pack (o : Operands)
  /-- R159: Transfers each passing lane to a displacement target after checking it. -/
  | bra (o : Operands)
  /-- R159: Transfers each passing lane to the 64-bit target in a register pair. -/
  | brx (o : Operands)
  /-- R160: Branches to a displacement target, writes the link to v31 and increments call depth. -/
  | call (o : Operands)
  /-- R160: Branches to a register target, writes the link to v31 and increments call depth. -/
  | callx (o : Operands)
  /-- R160: Returns through v31 or a pair and decrements call depth. -/
  | ret (o : Operands)
  /-- R161: Ends each passing thread, completing its block when it is the last. -/
  | exit (o : Operands)
  /-- R164: Arms a rejoin entry for the issue set with target, mask and depth. -/
  | rejoin (o : Operands)
  /-- R165: Waits as a switch marker and files passing threads into reform bins by next PC. -/
  | reform (o : Operands)
  /-- R166: Makes the quadrant pass over the wave on its next n + 1 choices. -/
  | yield (o : Operands)
  /-- R166: Does nothing. -/
  | nop (o : Operands)
  /-- R167: Halts the wave with reason breakpoint when a debugger with breakpoints is attached, else acts as nop. -/
  | brkp (o : Operands)
  /-- R163: Dispatches each lane through a table of signed displacements read from a pool buffer. -/
  | jtbl (o : Operands)
  /-- R162: Decrements a counter and branches while it is non-zero. -/
  | loopd (o : Operands)
  /-- R172: Adds two f32 values rounding once in the given mode. -/
  | fadd (o : Operands)
  /-- R172: Subtracts two f32 values rounding once. -/
  | fsub (o : Operands)
  /-- R172: Multiplies two f32 values rounding once. -/
  | fmul (o : Operands)
  /-- R172: Computes a times b plus c exactly and rounds once. -/
  | fma (o : Operands)
  /-- R173: Writes the rounded sum and its exact error to a register pair. -/
  | ftsum (o : Operands)
  /-- R174: Writes minimumNumber of two f32 values. -/
  | fmin (o : Operands)
  /-- R174: Writes maximumNumber of two f32 values. -/
  | fmax (o : Operands)
  /-- R174: Clamps an f32 value between two bounds. -/
  | fclamp (o : Operands)
  /-- R172: Divides two f32 values, correctly rounded. -/
  | fdiv (o : Operands)
  /-- R172: Writes the correctly rounded reciprocal. -/
  | frcp (o : Operands)
  /-- R175: Writes the correctly rounded reciprocal square root. -/
  | frsq (o : Operands)
  /-- R172: Writes the correctly rounded square root. -/
  | fsqrt (o : Operands)
  /-- R175: Writes 2 to the power a, correctly rounded. -/
  | fexp2 (o : Operands)
  /-- R175: Writes the base-2 logarithm, correctly rounded. -/
  | flog2 (o : Operands)
  /-- R175: Writes the sine, correctly rounded. -/
  | fsin (o : Operands)
  /-- R175: Writes the cosine, correctly rounded. -/
  | fcos (o : Operands)
  /-- R175: Writes the hyperbolic tangent, correctly rounded. -/
  | ftanh (o : Operands)
  /-- R176: Compares two f32 values and combines the result into one destination bit. -/
  | fcmp (o : Operands)
  /-- R177: Writes a one-hot class mask of an f32 value. -/
  | fclass (o : Operands)
  /-- R172: Rounds an f32 value to an integral value in the given direction. -/
  | fround (o : Operands)
  /-- R178: Writes the fractional part of an f32 value rounded toward zero. -/
  | ffrac (o : Operands)
  /-- R172: Multiplies an f32 value by 2 to an integer power, rounding once. -/
  | fldexp (o : Operands)
  /-- R178: Writes the unbiased exponent of an f32 value as an integer. -/
  | fexpo (o : Operands)
  /-- R179: Fused multiply-add on each half of packed f16 pairs. -/
  | hfma2 (o : Operands)
  /-- R179: Adds packed f16 pairs half by half. -/
  | hadd2 (o : Operands)
  /-- R179: Multiplies packed f16 pairs half by half. -/
  | hmul2 (o : Operands)
  /-- R174: minimumNumber on each half of packed f16 pairs. -/
  | hmin2 (o : Operands)
  /-- R174: maximumNumber on each half of packed f16 pairs. -/
  | hmax2 (o : Operands)
  /-- R179: Computes a two-way f16 dot product plus an f32 addend with one rounding. -/
  | fdot2 (o : Operands)
  /-- R181: Converts between f32 and one narrow float element. -/
  | cvtf (o : Operands)
  /-- R182: Converts f32 to an integer type, rounding and saturating. -/
  | cvtfi (o : Operands)
  /-- R182: Converts an integer type to f32. -/
  | cvtif (o : Operands)
  /-- R182: Narrows an integer, keeping low bits or saturating. -/
  | cvti (o : Operands)
  /-- R183: Quantises a value with a scale and zero point into a format code. -/
  | qcvt (o : Operands)
  /-- R183: Dequantises a code with a scale and zero point to f32. -/
  | dqcvt (o : Operands)
  /-- R184: Converts two values and packs them into an element pair of the destination. -/
  | qpack (o : Operands)
  /-- R184: Widens an element pair into a register pair. -/
  | qunpack (o : Operands)
  /-- R185: Writes the E8M0 scale exponent that fits a magnitude to a format. -/
  | scexp (o : Operands)
  /-- R188: Reads a register from a source slot chosen per lane by index, offset or XOR. -/
  | shfl (o : Operands)
  /-- R189: Ballots, tests any, all or equality of one bit across the passing slots. -/
  | vote (o : Operands)
  /-- R189: Writes the mask of passing slots whose value equals the lane's own. -/
  | matchB (o : Operands)
  /-- R190: Sums a register across slots by butterfly. -/
  | redadd (o : Operands)
  /-- R190: Minimum of a register across slots by butterfly. -/
  | redmin (o : Operands)
  /-- R190: Maximum of a register across slots by butterfly. -/
  | redmax (o : Operands)
  /-- R190: Maximum absolute value of a register across slots. -/
  | redabs (o : Operands)
  /-- R190: Bitwise AND, OR or XOR of a register across slots. -/
  | redbit (o : Operands)
  /-- R190: Inclusive prefix operation across slots. -/
  | scan (o : Operands)
  /-- R188: Reads a register from one fixed slot into every passing lane. -/
  | bcast (o : Operands)
  /-- R189: Writes the issue set or the passing set as a mask. -/
  | amask (o : Operands)
  /-- R198: Loads bytes from a global address, optionally acquiring and flagging non-residence. -/
  | ld (o : Operands)
  /-- R198: Stores bytes to a global address, optionally releasing. -/
  | st (o : Operands)
  /-- R199: Loads from a pool buffer with extent and robustness checks. -/
  | ldp (o : Operands)
  /-- R199: Stores to a pool buffer with extent and robustness checks. -/
  | stp (o : Operands)
  /-- R204: Loads from own or peer scratchpad. -/
  | lds (o : Operands)
  /-- R204: Stores to own or peer scratchpad. -/
  | sts (o : Operands)
  /-- R200: Loads through the constant cache. -/
  | ldk (o : Operands)
  /-- R205: Loads from the thread's stack, trapping below the stack limit. -/
  | ldf (o : Operands)
  /-- R205: Stores to the thread's stack, trapping below the stack limit. -/
  | stf (o : Operands)
  /-- R201: Hints a line into L1 or its home slice without faulting. -/
  | pf (o : Operands)
  /-- R215: Issues an asynchronous tile or window gather from a buffer into scratchpad. -/
  | ldt (o : Operands)
  /-- R215: Issues an asynchronous tile store from scratchpad to a buffer. -/
  | stt (o : Operands)
  /-- R207: Maps a stash window of the block onto a global range. -/
  | smap (o : Operands)
  /-- R208: Writes back dirty lines of one or all stash windows. -/
  | swb (o : Operands)
  /-- R208: Writes back and unmaps one or all stash windows. -/
  | sinv (o : Operands)
  /-- R210: Sends a residency request record for a page. -/
  | resq (o : Operands)
  /-- R211: Writes back dirty lines of a range from L1, and optionally from slices to memory. -/
  | cwb (o : Operands)
  /-- R211: Discards the lines of a range from the core's L1. -/
  | cinv (o : Operands)
  /-- R219: Performs an atomic read-modify-write at the home slice and returns the old value. -/
  | atom (o : Operands)
  /-- R219: Compares and swaps at the home slice and returns the old value. -/
  | cas (o : Operands)
  /-- R219: Performs an atomic operation on scratchpad. -/
  | atoms (o : Operands)
  /-- R219: Compares and swaps on scratchpad. -/
  | cass (o : Operands)
  /-- R219: Performs an atomic operation returning no value. -/
  | atomr (o : Operands)
  /-- R219: Takes a global sequencer ticket and performs a sequentially consistent atomic. -/
  | atomsc (o : Operands)
  /-- R222: Arrives at a named barrier and waits for its generation to complete. -/
  | bar (o : Operands)
  /-- R222: Arrives at a named barrier and writes its generation without waiting. -/
  | bara (o : Operands)
  /-- R222: Waits until a named barrier's given generation has completed. -/
  | barw (o : Operands)
  /-- R223: Arrives at and waits on the cluster barrier. -/
  | barc (o : Operands)
  /-- R224: Orders the thread's accesses by kind and scope. -/
  | fence (o : Operands)
  /-- R225: Waits for earlier primitives at the pixel and takes the ordered section. -/
  | osb (o : Operands)
  /-- R225: Releases the ordered section. -/
  | ose (o : Operands)
  /-- R227: Waits until no range-scoreboard entry overlaps a scratchpad range. -/
  | sbwait (o : Operands)
  /-- R227: Writes whether a scoreboard entry overlaps a range, without waiting. -/
  | sbq (o : Operands)
  /-- R227: Waits until the command with a given token has retired. -/
  | await (o : Operands)
  /-- R214: Issues an asynchronous linear copy and returns a token. -/
  | cpy (o : Operands)
  /-- R214: Issues an asynchronous two-dimensional copy. -/
  | cpy2d (o : Operands)
  /-- R214: Issues an asynchronous gather of indexed elements into scratchpad. -/
  | cpyg (o : Operands)
  /-- R214: Issues a copy of one source to several cluster peers' scratchpads. -/
  | coll (o : Operands)
  /-- R229: Sends an active-message record with a payload to a receiving context. -/
  | amsg (o : Operands)
  /-- R231: Pushes a continuation record per passing lane. -/
  | spawn (o : Operands)
  /-- R232: Decrements a join count and pushes its continuation when it reaches zero. -/
  | join (o : Operands)
  /-- R231: Pushes a continuation record read from memory. -/
  | crec (o : Operands)
  /-- R239: Builds a set of lookup table registers from an A tile. -/
  | tbld (o : Operands)
  /-- R241: Writes a table register's image with header and CRC to memory. -/
  | tspill (o : Operands)
  /-- R241: Restores a table register from a checked image. -/
  | tfill (o : Operands)
  /-- R238: Empties the table registers named by a mask. -/
  | tinv (o : Operands)
  /-- R238: Writes a table register's build record. -/
  | tstat (o : Operands)
  /-- R246: Multiplies a table set by a B code tile into an accumulator tile, k-step by k-step. -/
  | mlk (o : Operands)
  /-- R249: Zeros the accumulator tiles named by a mask. -/
  | azero (o : Operands)
  /-- R249: Fills an accumulator tile from scratchpad. -/
  | aload (o : Operands)
  /-- R249: Writes an accumulator tile to scratchpad in a format, optionally zeroing it. -/
  | adrain (o : Operands)
  /-- R252: Checks a tile-task record and queues it with the HTS, returning a token. -/
  | tenq (o : Operands)
  /-- R254: Waits for a tile task to finish and writes its state, trapping on stop or failure. -/
  | twait (o : Operands)
  /-- R254: Writes a tile task's state word, optionally requeueing a stopped task. -/
  | tprog (o : Operands)
  /-- R256: Issues a sliding-window command to an edge-layer engine. -/
  | win (o : Operands)
  /-- R256: Issues a pooling command to an edge-layer engine. -/
  | wpool (o : Operands)
  /-- R257: Issues a crop-and-resize command to a CRU. -/
  | crsz (o : Operands)
  /-- R258: Sends one ray per passing lane once its ray-state record is free. -/
  | trace (o : Operands)
  /-- R260: Writes the state of a ray. -/
  | traceq (o : Operands)
  /-- R260: Rejects, accepts or accepts-and-ends a ray's candidate. -/
  | hitrep (o : Operands)
  /-- R262: Reads vertex components from a buffer and widens them to f32. -/
  | vfetch (o : Operands)
  /-- R263: Emits a vertex to the draw's geometry sequencers. -/
  | prim (o : Operands)
  /-- R260: Pops the oldest hit record of the launch to scratchpad. -/
  | rqpop (o : Operands)
  /-- R264: Evaluates an attribute plane at the pixel's sample position. -/
  | interp (o : Operands)
  /-- R265: Samples a texture record. -/
  | tsamp (o : Operands)
  /-- R265: Converts a colour and stores the pixel's covered samples to a render target. -/
  | pxout (o : Operands)
  /-- R266: Reads a special register. -/
  | srd (o : Operands)
  /-- R266: Writes a special register. -/
  | swr (o : Operands)
  /-- R268: Raises a software user trap. -/
  | trap (o : Operands)
  /-- R268: Returns from a user trap handler. -/
  | tret (o : Operands)
  /-- R267: Stops the threads and sends a system-call record to the host. -/
  | sysc (o : Operands)
  /-- R266: Writes the die counter, optionally after earlier results and commands complete. -/
  | clk (o : Operands)
  /-- R56: A class-V result returns to its destination register and releases waits on it. -/
  | resultReturn (n : Nat)
  /-- R26: A wave with no eligible thread and held threads has its lowest holding rejoin entry disarmed. -/
  | rejoinDisarm (core wslot : Nat)
  /-- R28: A full, aged or last reform bin is drawn into a new wave. -/
  | binDraw (core bin : Nat)
  /-- R106: A request is performed at its home slice. -/
  | sliceAccess (n : Nat)
  /-- R306: A requester answered misdirected recomputes the home and reissues the request. -/
  | misdirectedReissue (n : Nat)
  /-- R212: An asynchronous command performs its last write and release and retires. -/
  | engineCommandRetire (n : Nat)
  /-- R376: Every 50 µs, or on a notify to an unmapped queue, the scheduler maps and unmaps queues. -/
  | queueSchedulerDecision
  /-- R375: The queue scheduler reads the next launch record, starts or rejects it. -/
  | launchRead (q : Nat)
  /-- R377: A launch's last block and continuation complete, releasing at device scope. -/
  | launchComplete (l : Nat)
  /-- R380: The HTS places a block or cluster on cores and starts it. -/
  | blockPlace (p : Nat)
  /-- R45: A continuation record is taken and run as a one-wave block, or rejected. -/
  | continuationStart (p : Nat)
  /-- R230: An active-message record is delivered and its handler starts, or it is discarded. -/
  | messageHandlerStart (p : Nat)
  /-- R252: A tile task whose waits are met is translated and run on a free engine. -/
  | tileTaskDispatch (p : Nat) (tok : W32)
  /-- R253: A tile task writes C, releases and reaches its final state. -/
  | tileTaskComplete (p : Nat) (tok : W32)
  /-- R253: A task stopped by revocation is retranslated and resumed from shadow storage. -/
  | tileTaskResume (p : Nat) (tok : W32)
  /-- R382: A block running longer than MBT is killed and recorded. -/
  | blockTimeExceeded (b : Nat)
  /-- R226: A thread holding an ordered section past the hold limit has its block killed. -/
  | sectionHoldExceeded (core bslot uid : Nat)
  /-- R373: A partition's window opens once the previous occupant has drained or swapped. -/
  | windowStart (p : Nat)
  /-- R373: A partition's window ends and it begins a block-boundary drain. -/
  | windowEnd (p : Nat)
  /-- R384: A drain exceeding MBT halts and swaps out the remaining blocks. -/
  | drainEscalation (p : Nat)
  /-- R385: A record waiting past EVDELAY triggers eviction of lower-class waves. -/
  | partialEviction (p : Nat)
  /-- R386: A selected wave not ready within 10 µs is released and the next candidate taken. -/
  | evictionWaveTimeout (core wslot : Nat)
  /-- R386: An evicted wave is restored when registers and a wave slot are free on its core. -/
  | waveRestore (n : Nat)
  /-- R393: A failed save-area spill is retried every 100 µs. -/
  | saveAreaRetry (p : Nat)
  /-- R393: An unresolved save-area fault after SAVETO ends the context. -/
  | saveAreaTimeout (p : Nat)
  /-- R380: Core sensor scores are refreshed from temperature and droop every 10 µs. -/
  | sensorScoreRefresh (scores : List Nat)
  /-- R407: An invalidation reaches every agent and its token completes. -/
  | tlbInvalComplete (owner : Nat)
  /-- R428: An idle geometry sequencer reads the draw ring's write index at least every 10 µs. -/
  | drawRingPoll (p : Nat)
  /-- R429: A geometry sequencer takes a draw, starts its vertex threads or passes over or rejects it. -/
  | drawTake (p : Nat)
  /-- R429: Emitted vertices are assembled into triangles, culled and binned. -/
  | primitiveAssembly (d : Nat)
  /-- R429: The rasteriser covers pixels of a primitive and writes its plane set. -/
  | rasterise (d : Nat)
  /-- R430: Pixel-quad records start pixel threads of the draw. -/
  | pixelQuadStart (d : Nat)
  /-- R421: A traversal sequencer runs a ray's microcode until it emits, yields or halts. -/
  | traversalStep (n sq : Nat)
  /-- R259: A traversal sequencer reloads a saved ray-state record and continues from UPC. -/
  | rayResume (n sq : Nat)
  /-- R422: An item exceeding 2^20 micro-ops without yield or halt is killed. -/
  | microopLimitKill (n : Nat)
  /-- R420: A geometry, rasteriser or texture sequencer runs one work item from micro-address 0. -/
  | sequencerItem (n : Nat)
  /-- R433: A pipe reaches its first active line and increments its frame count. -/
  | frameStart (pipe : Nat)
  /-- R435: After a rendering's END draw, the signature unit signs its plane and writes the array. -/
  | signatureCompute (pipe layer rend : Nat)
  /-- R437: At FLATCH the compositor compares both renderings' signatures. -/
  | comparePoint (pipe : Nat)
  /-- R437: A LEVEL 3 layer's scanned tiles are re-signed and checked against the agreed signature. -/
  | scanoutSignatureCheck (pipe layer : Nat)
  /-- R440: The warp stage latches the selected buffer 400 µs before each 64-line band. -/
  | bandLatch (pipe : Nat)
  /-- R441: A camera frame completes into the ring and is offered for scan-out. -/
  | cameraFrame (port : Nat) (pixels : List W32)
  /-- R438: A camera layer with no frame for FRESH ms goes to Foxglove with a record. -/
  | cameraFrameStale (pipe layer : Nat)
  /-- R455: After the gap, the next core is taken out of service and its state saved for a scan. -/
  | ringletTakeOut
  /-- R459: A core's scan ends; a pass clears its ranges, a failure writes damage and quarantines it. -/
  | ringletScanComplete (pass : Bool)
  /-- R468: A scan of a quarantined core ends, counting passes and readmitting at three. -/
  | quarantineScanComplete (core : Nat) (pass : Bool)
  /-- R271: A lookup engine without progress for 2 ms is reset and its work killed. -/
  | lookupEngineReset (core : Nat)
  /-- R478: A slice finds a dirty line uncorrectable, poisons it, records it and ends its owner. -/
  | uncorrectableDirtyLine (line ctx : Nat) (wb : Bool)
  /-- R478: Larkspur retires the poisoned line's page at the next command boundary. -/
  | devicePageRetirement
  /-- R478: Larkspur quarantines the poisoned line's way at the next command boundary. -/
  | deviceWayQuarantine
  /-- R465: The scrub reads memory lines in idle slots and retires pages with uncorrectable errors. -/
  | memoryScrub (line : Nat)
  /-- R473: A die crossing the throttle threshold or power limit steps its clock. -/
  | thermalThreshold (die : Nat) (halfDeg : Int) (milliWatt peakMilliWatt : Nat)
  /-- R473: Every 100 µs down or 1 ms up, a throttled die's clock moves by 200 MHz. -/
  | throttleClockStep (die : Nat)
  /-- R473: A die at 125 °C holds every core and sequencer until reset. -/
  | thermalCritical (die : Nat)
  /-- R357: Power-good starts bring-up of the base die. -/
  | powerGood
  /-- R357: A bring-up stage completes and BOOT_STATE advances. -/
  | bootStateAdvance (found : BootFinding)
  /-- R353: Larkspur fails to service its watchdog for the period and the MP is reset alone. -/
  | mpWatchdogFire
  /-- R354: Larkspur restarts, settles the layout set, completes the interrupted block and signals events. -/
  | mpRestart
  /-- R341: A PF function level reset resets the whole device. -/
  | pfFunctionLevelReset
  /-- R341: A VF reset acts as PART_RESET of its partition and discards its pending blocks. -/
  | vfFunctionLevelReset (k : Nat)
  /-- R342: A host write through a BAR 4 window is performed or discarded with a record. -/
  | bar4Write (fn : Fn) (off : Nat) (bytes : List Byte)
  /-- R342: A host read through a BAR 4 window is answered from the home slice or with all ones. -/
  | bar4Read (fn : Fn) (off len : Nat)
  /-- R360: A Gulnos link trains and, with pairing enabled, the handshake completes and offsets are rewritten. -/
  | gulnosLinkUp (link : Nat) (peerStep : Byte) (offset : W64)
  /-- R362: A Gulnos link is lost and pairing state and offsets are updated. -/
  | gulnosLinkDown (link : Nat)
  /-- R361: A remote access arriving over Gulnos is performed or discarded by range. -/
  | remoteAccess (addr : Nat) (data : Option (List Byte)) (len : Nat)
  /-- R361: A remote access unanswered within 1 ms is discarded with a record. -/
  | remoteAccessTimeout (n : Nat)
  /-- R343: A NOTIFY write sets a queue's write index and prompts mapping. -/
  | userQueueNotify (page : UserPage) (idx : W32)
  /-- R345: A NOTIFY write asks the MP to examine a command page. -/
  | commandPageNotify (page : Nat)
  /-- R341: Writing 1 resets the whole device. -/
  | devReset (value : W32)
  /-- R374: A write changing a queue's owner or descriptor first unmaps the queue. -/
  | queueOwnerWrite (q : Nat) (value : W64)
  /-- R414: Writing a SEQ completes a replayable record, replaying or failing what waited on it. -/
  | rdoneSeq (owner : Nat) (sq : W32)
  /-- R395: The HALT bit halts every wave of the attached context. -/
  | debugHalt (p : Nat)
  /-- R395: The RESUME bit resumes every halted wave of the attached context. -/
  | debugResume (p : Nat)
  /-- R396: A halting wave's class-V results return and it stops. -/
  | haltComplete (core wslot : Nat)
  /-- R396: A DATA write sets the selected register, or is refused with BUSY while halting. -/
  | debugDataWrite (p : Nat) (value : W32)
  /-- R440: A write of LSEL selects the latch buffer from the next latch. -/
  | lselWrite (pipe : Nat) (value : W32)
  /-- R428: When a render block's draw ring becomes enabled, the device reads RIDX and takes draws. -/
  | drawRingEnable (p : Nat)
  /-- R11: A write to a register without behaviour of its own updates it by its access code. -/
  | registerWrite (fn : Fn) (off size : Nat) (value : W64)
  /-- R350: Returns identity, form, memory, boot state, cores in service and serial number. -/
  | devInfo (page : Nat)
  /-- R365: Checks a layout table and writes the shadow layout set as PREPARED. -/
  | partPrepare (page : Nat)
  /-- R367: Seals the prepared set, drains changed partitions and flips the active layout. -/
  | partCommit (page : Nat)
  /-- R352: Discards a PREPARED layout set. -/
  | partAbort (page : Nat)
  /-- R394: Kills and destroys a partition's contexts and clears its state, leaving it IDLE. -/
  | partReset (page : Nat)
  /-- R350: Creates a context with its roots, stack, message settings and overflow area. -/
  | ctxCreate (page : Nat)
  /-- R350: Destroys a context and frees its identifier. -/
  | ctxDestroy (page : Nat)
  /-- R392: Swaps a partition's core state out to or in from shadow storage. -/
  | ctxSwap (page : Nat)
  /-- R423: Replaces one sequencer kind's microcode for a context. -/
  | mcodeLoad (page : Nat)
  /-- R445: Changes partitions' interleave domains with write-back, hold, switch and release. -/
  | domainSplit (page : Nat)
  /-- R410: Writes back a context's virtual range to memory. -/
  | rangeWb (page : Nat)
  /-- R466: Retires a 64 KiB physical page. -/
  | pageRetire (page : Nat)
  /-- R467: Removes a cache way of a slice from allocation. -/
  | wayQuarantine (page : Nat)
  /-- R468: Drains, scans and quarantines or permanently retires a core. -/
  | coreQuarantine (page : Nat)
  /-- R468: Scans a quarantined core and reports pass or fail. -/
  | coreTest (page : Nat)
  /-- R468: Returns a commanded-quarantine core to service. -/
  | coreAdmit (page : Nat)
  /-- R469: Quarantines all eight cores of a core group. -/
  | groupQuarantine (page : Nat)
  /-- R469: Returns a quarantined core group to service. -/
  | groupAdmit (page : Nat)
  /-- R454: Enables Ringlet and sets the gap between cores. -/
  | ringletCfg (page : Nat)
  /-- R462: Copies and removes the oldest damage entries of a partition. -/
  | damageRead (page : Nat)
  /-- R412: Sets a delivery lane's consumer index. -/
  | errDrain (page : Nat)
  /-- R432: Configures a display pipe's mode and trains its link. -/
  | displayCfg (page : Nat)
  /-- R434: Configures a layer of a pipe from the next frame. -/
  | layerCfg (page : Nat)
  /-- R438: Stores a tell-tale bitmap in Foxglove's store. -/
  | telltaleLoad (page : Nat)
  /-- R439: Loads the warp stage's mesh image. -/
  | warpCfg (page : Nat)
  /-- R407: Starts invalidation of cached translations and returns a token. -/
  | tlbInval (page : Nat)
  /-- R409: Moves pages of a context by unmap, invalidate, copy and remap. -/
  | migrate (page : Nat)
  /-- R350: Sets a partition's shadow storage share. -/
  | shadowCfg (page : Nat)
  /-- R473: Sets the throttle threshold and sustained power limit. -/
  | thermalCfg (page : Nat)
  /-- R474: Writes the telemetry record to a destination. -/
  | telemetry (page : Nat)
  /-- R472: Injects an error of a given kind into a target unit. -/
  | errInject (page : Nat)
  /-- R353: Sets the MP watchdog period. -/
  | watchdogCfg (page : Nat)
  /-- R349: A hardware step that made its command return TIMEOUT completes later, for example a reset that ends or a split or migration that reaches its end. -/
  | lateStepComplete (n : Nat)
  /-- R435: A waiting draw of rendering B starts once OFFSET µs have passed since rendering A's first draw of the frame started or was passed over. -/
  | renderingBStart (p : Nat)
  /-- R18: Loss of supply ends the power cycle, and the device keeps no health state into the next one. -/
  | powerLoss
  /-- R338: The PCIe host link trains to the highest rate and width both ends support, falling back through the listed rates and widths. -/
  | hostLinkTraining (rate width : Nat)
  deriving DecidableEq, Repr

end Sys2Proof
end

