-- ==== Sys2Proof/Machine/Forms.lean ====
section
/-! DEFINITION. The encoding tables of the instruction chapters as data: for every opcode of R129 its legal MOD values
(R128), and for each of its MOD values what each operand field accepts (R137, R191) and how wide the destination is (R119).
Both the decoder and every operand read go by this one table. -/
namespace Sys2Proof.Machine

/-- The type an operand is read at (R121, R122): it settles how an immediate is widened and what negate and absolute do. -/
inductive Ty where
  | int   -- integer or untyped
  | f32
  | h2    -- two packed f16
  deriving DecidableEq, Repr

/-- The operand classes of R137 and R191. -/
inductive Cls where
  | none                 -- unused: all zero
  | g (ty : Ty)          -- register, immediate, direct-read special register; 32 bits
  | g64                  -- even pair or immediate; 64 bits
  | r                    -- register
  | r64                  -- even pair (r64 and pair)
  | quad                 -- four registers from a multiple of 4
  | i (max : Nat)        -- unsigned immediate, 0 to max
  | disp                 -- branch displacement
  | pool                 -- a buffer record
  | flag                 -- residency flag (R195), or unused
  | op (w : Bool)        -- atomic operation descriptor (R218)
  | prim                 -- the attribute description of prim (R263)
  | spec (w : Bool)      -- special register of srd and swr, with their .w
  deriving DecidableEq, Repr

/-- One source field of a form: its class, and whether it takes negate and absolute (R121). -/
structure Field where
  cls : Cls
  neg : Bool := false
  deriving DecidableEq, Repr

/-- The operand form of one opcode at one MOD value: the number of registers the destination covers (0 for none) and the
three source fields. -/
structure Form where
  dst : Nat
  a   : Field
  b   : Field
  c   : Field
  deriving DecidableEq, Repr

/-- One row of the encoding tables. `lit` says that MOD[6] is the literal bit L (R125). -/
structure Row where
  opc   : Nat
  ins   : Operands → Instr
  lit   : Bool
  legal : Nat → Bool
  form  : Nat → Form

/-- The unused field. -/
abbrev fX : Field := ⟨.none, false⟩
abbrev fG : Field := ⟨.g .int, false⟩
abbrev fGn : Field := ⟨.g .int, true⟩
abbrev fF : Field := ⟨.g .f32, false⟩
abbrev fFn : Field := ⟨.g .f32, true⟩
abbrev fH : Field := ⟨.g .h2, false⟩
abbrev fHn : Field := ⟨.g .h2, true⟩
abbrev fW : Field := ⟨.g64, false⟩
abbrev fWn : Field := ⟨.g64, true⟩
abbrev fR : Field := ⟨.r, false⟩
abbrev fR2 : Field := ⟨.r64, false⟩
abbrev fQ : Field := ⟨.quad, false⟩
abbrev fD : Field := ⟨.disp, false⟩
abbrev fP : Field := ⟨.pool, false⟩
abbrev fFlag : Field := ⟨.flag, false⟩
abbrev fI (max : Nat) : Field := ⟨.i max, false⟩

/-- Membership of a MOD value in a list of closed ranges. -/
def modIn (l : List (Nat × Nat)) (m : Nat) : Bool := l.any fun p => p.1 ≤ m && m ≤ p.2

/-- Legal MOD values of a row with the literal bit: `0` to `top`, with or without L. -/
def modLit (top : Nat) : Nat → Bool := modIn [(0, top), (0x40, 0x40 + top)]

/-- Bit `k` of a MOD value. -/
def modBit (m k : Nat) : Bool := m.testBit k

/-- A row whose form does not depend on MOD. -/
def plain (opc : Nat) (ins : Operands → Instr) (lit : Bool) (legal : Nat → Bool) (dst : Nat) (a b c : Field) : Row :=
  ⟨opc, ins, lit, legal, fun _ => ⟨dst, a, b, c⟩⟩

/-- Bits per element of the format codes 0 to 11 (R63). -/
def fmtBits (f : Nat) : Nat :=
  match f with
  | 0 => 32 | 1 => 16 | 2 => 16 | 3 => 8 | 4 => 8 | 5 => 4 | 6 => 8 | 7 => 8 | 8 => 16 | 9 => 4 | 10 => 4 | 11 => 2
  | 12 => 1 | _ => 8

/-- The activations of a group by table mode (R239). -/
def groupSize (mode : Nat) : Nat := match mode with | 0 => 4 | 1 => 1 | 2 => 2 | _ => 4

/-- The groups one table register holds (R239). -/
def groupsPer (entries : Nat) : Nat := 4096 / (16 * entries)

/-- A number rounded up to a multiple of 4. -/
def round4 (x : Nat) : Nat := (x + 3) / 4 * 4

/-- Whether the shape word of tbld keeps the limits of R239 that it settles with the MOD value: all of them but those on the
registers written, which with a codebook depend on its NENT (`entries` of a table, none while it is not known). -/
def shapeWordOk (fmt mode w : Nat) (entries : Option Nat) : Bool :=
  let ngrp := w / 32 % 128 + 1
  let kb := ngrp * groupSize mode * (fmtBits fmt / 8)
  let p := w / 65536
  let pitch := if p = 0 then round4 kb else p
  w / 4096 % 16 = 0 && pitch % 4 = 0 && kb ≤ pitch && kb ≤ 384 &&
    entries.all fun n =>
      let regs := (ngrp + groupsPer n - 1) / groupsPer n
      regs ≤ 6 && w % 32 + regs ≤ 24

/-- Group 0 (R141). -/
def rowsG0 : List Row :=
  [ plain 0x000 .iadd true (modLit 3) 1 fGn fGn fX,
    plain 0x001 .isub true (modLit 3) 1 fGn fGn fX,
    plain 0x002 .iadd3 false (modIn [(0, 0)]) 1 fGn fGn fGn,
    plain 0x003 .imul true (modLit 0) 1 fG fG fX,
    plain 0x004 .imulh true (modLit 1) 1 fG fG fX,
    plain 0x005 .imad false (modIn [(0, 0)]) 1 fG fG fGn,
    plain 0x006 .imadw false (modIn [(0, 1)]) 2 fG fG fWn,
    plain 0x007 .imin true (modLit 1) 1 fGn fGn fX,
    plain 0x008 .imax true (modLit 1) 1 fGn fGn fX,
    plain 0x009 .iabs false (modIn [(0, 0), (2, 2)]) 1 fG fX fX,
    plain 0x00A .ineg false (modIn [(0, 0), (2, 2)]) 1 fG fX fX,
    plain 0x00B .iclamp false (modIn [(0, 1)]) 1 fG fG fG,
    plain 0x00C .idiv true (modLit 1) 1 fG fG fX,
    plain 0x00D .irem true (modLit 1) 1 fG fG fX,
    plain 0x00E .andB true (modLit 0) 1 fG fG fX,
    plain 0x00F .orB true (modLit 0) 1 fG fG fX,
    plain 0x010 .xorB true (modLit 0) 1 fG fG fX,
    plain 0x011 .andn true (modLit 0) 1 fG fG fX,
    plain 0x012 .notB false (modIn [(0, 0)]) 1 fG fX fX,
    plain 0x013 .lop3 false (modIn [(0, 0)]) 1 fG fG (fI 255),
    plain 0x014 .popc false (modIn [(0, 0)]) 1 fG fX fX,
    plain 0x015 .clz false (modIn [(0, 0)]) 1 fG fX fX,
    plain 0x016 .ctz false (modIn [(0, 0)]) 1 fG fX fX,
    plain 0x017 .brev false (modIn [(0, 0)]) 1 fG fX fX,
    plain 0x018 .bfe true (modLit 1) 1 fG fG fX,
    plain 0x019 .bfi false (modIn [(0, 0)]) 1 fG fG fG,
    plain 0x01A .bperm false (modIn [(0, 0)]) 1 fG fG fG,
    plain 0x01B .dp4 false (modIn [(0, 3)]) 1 fG fG fG,
    plain 0x01C .dp2 false (modIn [(0, 7)]) 1 fG fG fG,
    plain 0x01D .sad false (modIn [(0, 1)]) 1 fG fG fG ]

/-- The form of the four shifts (R148): 64 bits with W. -/
def formShift (m : Nat) : Form := if modBit m 0 then ⟨2, fW, fG, fX⟩ else ⟨1, fG, fG, fX⟩

/-- Group 1 (R148). -/
def rowsG1 : List Row :=
  [ ⟨0x040, .shl, true, modLit 1, formShift⟩,
    ⟨0x041, .shr, true, modLit 1, formShift⟩,
    ⟨0x042, .sra, true, modLit 1, formShift⟩,
    ⟨0x043, .rotl, true, modLit 1, formShift⟩,
    plain 0x044 .shf false (modIn [(0, 3)]) 1 fG fG fG,
    plain 0x045 .icmp false (modIn [(0, 15)]) 1 fGn fGn (fI 127),
    plain 0x046 .icmp64 false (modIn [(0, 15)]) 1 fWn fWn (fI 127),
    plain 0x047 .setc false (modIn [(0, 0x3F)]) 1 fR fX fX,
    ⟨0x048, .sel, false, modIn [(0, 0x3F)], fun m => if modBit m 5 then ⟨2, fW, fW, fR⟩ else ⟨1, fG, fG, fR⟩⟩,
    plain 0x049 .mov false (modIn [(0, 0)]) 1 fG fX fX,
    plain 0x04A .movl false (modIn [(0, 0)]) 2 fW fX fX,
    plain 0x04B .pmov false (modIn [(0, 0x3F)]) 1 fR (fI 31) fX,
    plain 0x04C .plop false (modIn [(0, 0x1F)]) 1 fR fR (fI 0x3FFF),
    plain 0x04D .lea true (modLit 7) 1 fG fG fX,
    plain 0x04E .lea64 true (modLit 15) 2 fW fG fX,
    plain 0x04F .iadd64 true (modLit 0) 2 fWn fWn fX,
    plain 0x050 .isub64 true (modLit 0) 2 fWn fWn fX,
    ⟨0x051, .wfield, false, modIn [(0, 3)], fun m =>
      let d := if modBit m 1 then 2 else 1
      if modBit m 0 then ⟨d, fR2, fG, fI 5⟩ else ⟨d, fI 5, fX, fX⟩⟩,
    plain 0x052 .pack true (modLit 3) 1 fG fG fX ]

/-- Group 2 (R157). -/
def rowsG2 : List Row :=
  [ plain 0x080 .bra false (modIn [(0, 0)]) 0 fD fX fX,
    plain 0x081 .brx false (modIn [(0, 0)]) 0 fR2 fX fX,
    plain 0x082 .call false (modIn [(0, 0)]) 0 fD fX fX,
    plain 0x083 .callx false (modIn [(0, 0)]) 0 fR2 fX fX,
    ⟨0x084, .ret, false, modIn [(0, 1)], fun m => ⟨0, if modBit m 0 then fR2 else fX, fX, fX⟩⟩,
    plain 0x085 .exit false (modIn [(0, 0)]) 0 fX fX fX,
    plain 0x086 .rejoin true (modLit 0) 0 fG fD fX,
    plain 0x087 .reform false (modIn [(0, 0)]) 0 fX fX fX,
    plain 0x088 .yield false (modIn [(0, 0)]) 0 (fI 1023) fX fX,
    plain 0x089 .nop false (modIn [(0, 0)]) 0 fX fX fX,
    plain 0x08A .brkp false (modIn [(0, 0)]) 0 (fI 16383) fX fX,
    plain 0x08B .jtbl false (modIn [(0, 0)]) 0 fG fP fX,
    plain 0x08C .loopd true (modLit 0) 1 fG fD fX ]

/-- Group 3 (R171). -/
def rowsG3 : List Row :=
  [ plain 0x0C0 .fadd true (modLit 3) 1 fFn fFn fX,
    plain 0x0C1 .fsub true (modLit 3) 1 fFn fFn fX,
    plain 0x0C2 .fmul true (modLit 3) 1 fFn fFn fX,
    plain 0x0C3 .fma false (modIn [(0, 3)]) 1 fFn fFn fFn,
    plain 0x0C4 .ftsum false (modIn [(0, 3)]) 2 fFn fFn fX,
    plain 0x0C5 .fmin true (modLit 0) 1 fFn fFn fX,
    plain 0x0C6 .fmax true (modLit 0) 1 fFn fFn fX,
    plain 0x0C7 .fclamp false (modIn [(0, 0)]) 1 fFn fF fF,
    plain 0x0C8 .fdiv true (modLit 3) 1 fFn fFn fX,
    plain 0x0C9 .frcp false (modIn [(0, 3)]) 1 fFn fX fX,
    plain 0x0CA .frsq false (modIn [(0, 0)]) 1 fFn fX fX,
    plain 0x0CB .fsqrt false (modIn [(0, 3)]) 1 fFn fX fX,
    plain 0x0CC .fexp2 false (modIn [(0, 0)]) 1 fFn fX fX,
    plain 0x0CD .flog2 false (modIn [(0, 0)]) 1 fFn fX fX,
    plain 0x0CE .fsin false (modIn [(0, 0)]) 1 fFn fX fX,
    plain 0x0CF .fcos false (modIn [(0, 0)]) 1 fFn fX fX,
    plain 0x0D0 .ftanh false (modIn [(0, 0)]) 1 fFn fX fX,
    plain 0x0D1 .fcmp false (modIn [(0, 7)]) 1 fFn fFn (fI 127),
    plain 0x0D2 .fclass false (modIn [(0, 0)]) 1 fF fX fX,
    plain 0x0D3 .fround false (modIn [(0, 3)]) 1 fFn fX fX,
    plain 0x0D4 .ffrac false (modIn [(0, 0)]) 1 fFn fX fX,
    plain 0x0D5 .fldexp false (modIn [(0, 3)]) 1 fFn fG fX,
    plain 0x0D6 .fexpo false (modIn [(0, 0)]) 1 fFn fX fX,
    plain 0x0D7 .hfma2 false (modIn [(0, 3)]) 1 fHn fHn fHn,
    plain 0x0D8 .hadd2 true (modLit 3) 1 fHn fHn fX,
    plain 0x0D9 .hmul2 true (modLit 3) 1 fHn fHn fX,
    plain 0x0DA .hmin2 true (modLit 0) 1 fHn fHn fX,
    plain 0x0DB .hmax2 true (modLit 0) 1 fHn fHn fX,
    plain 0x0DC .fdot2 false (modIn [(0, 3)]) 1 fHn fHn fFn ]

/-- Group 4 (R180). -/
def rowsG4 : List Row :=
  [ ⟨0x100, .cvtf, false, modIn [(1, 5), (0x11, 0x15), (0x21, 0x25)], fun m =>
      ⟨1, if modBit m 4 then fG else fFn, fI (32 / fmtBits (m % 16) - 1), fX⟩⟩,
    ⟨0x101, .cvtfi, false, modIn [(0, 0x1F)], fun m => ⟨if 6 ≤ m / 4 % 8 then 2 else 1, fFn, fX, fX⟩⟩,
    ⟨0x102, .cvtif, false, modIn [(0, 0x1F)], fun m => ⟨1, if 6 ≤ m / 4 % 8 then fWn else fGn, fX, fX⟩⟩,
    plain 0x103 .cvti false (modIn [(0, 5), (8, 0xD), (0x10, 0x15), (0x18, 0x1D)]) 1 fGn fX fX,
    ⟨0x104, .qcvt, false, modIn [(3, 0xB), (0x13, 0x1B)], fun m => ⟨1, fFn, if modBit m 4 then fG else fF, fG⟩⟩,
    ⟨0x105, .dqcvt, false, modIn [(3, 0xB), (0x13, 0x1B)], fun m => ⟨1, fG, if modBit m 4 then fG else fF, fG⟩⟩,
    ⟨0x106, .qpack, false, modIn [(1, 0xB), (0x11, 0x15)], fun m =>
      let f := if m % 16 ≤ 5 then fFn else fGn
      ⟨1, f, f, fI (16 / fmtBits (m % 16) - 1)⟩⟩,
    ⟨0x107, .qunpack, false, modIn [(1, 0xB)], fun m => ⟨2, fG, fI (16 / fmtBits (m % 16) - 1), fX⟩⟩,
    plain 0x108 .scexp false (modIn [(0, 0xB)]) 1 fF fX fX ]

/-- Group 5 (R186). -/
def rowsG5 : List Row :=
  [ ⟨0x140, .shfl, false, modIn [(0, 7)], fun m => if modBit m 2 then ⟨2, fR2, fG, fX⟩ else ⟨1, fR, fG, fX⟩⟩,
    plain 0x141 .vote false (modIn [(0, 0x7F)]) 1 fR fX fX,
    ⟨0x142, .matchB, false, modIn [(0, 1)], fun m => ⟨1, if modBit m 0 then fR2 else fR, fX, fX⟩⟩,
    plain 0x143 .redadd false (modIn [(0, 1)]) 1 fR fX fX,
    plain 0x144 .redmin false (modIn [(0, 2)]) 1 fR fX fX,
    plain 0x145 .redmax false (modIn [(0, 2)]) 1 fR fX fX,
    plain 0x146 .redabs false (modIn [(0, 0)]) 1 fR fX fX,
    plain 0x147 .redbit false (modIn [(0, 2)]) 1 fR fX fX,
    plain 0x148 .scan false (modIn [(0, 7)]) 1 fR fX fX,
    ⟨0x149, .bcast, false, modIn [(0, 1)], fun m => if modBit m 0 then ⟨2, fR2, fI 31, fX⟩ else ⟨1, fR, fI 31, fX⟩⟩,
    plain 0x14A .amask false (modIn [(0, 1)]) 1 fX fX fX ]

/-- Registers of a load result by width code (R193). -/
def loadRegs (w : Nat) : Nat := if w = 6 then 4 else if w = 5 then 2 else 1

/-- The data field of a store by width code (R193). -/
def storeData (w : Nat) : Field := if w = 6 then fQ else if w = 5 then fR2 else fG

/-- Legal values of a row with an ordering field over the width codes `ws` (R194). -/
def modOrd (ws : List Nat) (m : Nat) : Bool :=
  ws.contains (m % 8) && (if modBit m 3 then m / 16 ≤ 5 else m / 16 = 0)

/-- The legal MOD values of the asynchronous commands (R213), `low` bounding MOD[1:0]. -/
def modFl (low : Nat) (m : Nat) : Bool :=
  m % 4 ≤ low && (if m / 4 % 4 = 0 then m / 16 = 0 else m / 16 ≤ 5)

/-- Group 6 (R197, R203, R206, R209, R213). -/
def rowsG6 : List Row :=
  [ ⟨0x180, .ld, false, modOrd [0, 1, 2, 3, 4, 5, 6], fun m => ⟨loadRegs (m % 8), fR2, fG, fFlag⟩⟩,
    ⟨0x181, .st, false, modOrd [0, 2, 4, 5, 6], fun m => ⟨0, fR2, fG, storeData (m % 8)⟩⟩,
    ⟨0x182, .ldp, false, modOrd [0, 1, 2, 3, 4, 5, 6], fun m => ⟨loadRegs (m % 8), fP, fG, fFlag⟩⟩,
    ⟨0x183, .stp, false, modOrd [0, 2, 4, 5, 6], fun m => ⟨0, fP, fG, storeData (m % 8)⟩⟩,
    ⟨0x184, .lds, false, modIn [(0, 6)], fun m => ⟨loadRegs (m % 8), fG, fG, fX⟩⟩,
    ⟨0x185, .sts, false, modIn [(0, 0), (2, 2), (4, 6)], fun m => ⟨0, fG, fG, storeData (m % 8)⟩⟩,
    ⟨0x186, .ldk, false, modIn [(4, 6)], fun m => ⟨loadRegs (m % 8), fR2, fG, fX⟩⟩,
    ⟨0x187, .ldf, false, modIn [(0, 6)], fun m => ⟨loadRegs (m % 8), fX, fG, fX⟩⟩,
    ⟨0x188, .stf, false, modIn [(0, 0), (2, 2), (4, 6)], fun m => ⟨0, fX, fG, storeData (m % 8)⟩⟩,
    plain 0x189 .pf false (modIn [(0, 1)]) 0 fR2 fG fX,
    plain 0x18A .ldt false (modFl 0) 1 fP fG fG,
    plain 0x18B .stt false (modFl 0) 1 fP fG fG,
    plain 0x18C .smap false (modIn [(0, 0xF)]) 0 fR2 fG fG,
    plain 0x18D .swb false (modIn [(0, 0x10)]) 0 fX fX fX,
    plain 0x18E .sinv false (modIn [(0, 0x10)]) 0 fX fX fX,
    plain 0x18F .resq false (modIn [(0, 0)]) 0 fR2 fG fX,
    plain 0x190 .cwb false (modIn [(0, 1)]) 0 fR2 fG fX,
    plain 0x191 .cinv false (modIn [(0, 0)]) 0 fR2 fG fX ]

/-- The legal MOD values of the atomics (R217): ordering, scope, .w. -/
def modAtom (m : Nat) : Bool := m / 64 = 0 && (if m % 4 = 0 then m / 4 % 8 = 0 else m / 4 % 8 ≤ 5)

/-- The data field of an atomic (R217). -/
def atomData (m : Nat) : Field := if modBit m 5 then fW else fG

/-- The registers of an atomic's old value (R217). -/
def atomRegs (m : Nat) : Nat := if modBit m 5 then 2 else 1

/-- The operation descriptor's field (R218). -/
def fOp (m : Nat) : Field := ⟨.op (modBit m 5), false⟩

/-- Group 7 (R217). -/
def rowsG7 : List Row :=
  [ ⟨0x1C0, .atom, false, modAtom, fun m => ⟨atomRegs m, fR2, atomData m, fOp m⟩⟩,
    ⟨0x1C1, .cas, false, modAtom, fun m => ⟨atomRegs m, fR2, atomData m, atomData m⟩⟩,
    ⟨0x1C2, .atoms, false, modAtom, fun m => ⟨atomRegs m, fG, atomData m, fOp m⟩⟩,
    ⟨0x1C3, .cass, false, modAtom, fun m => ⟨atomRegs m, fG, atomData m, atomData m⟩⟩,
    ⟨0x1C4, .atomr, false, modAtom, fun m => ⟨0, fR2, atomData m, fOp m⟩⟩,
    ⟨0x1C5, .atomsc, false, modIn [(0, 0), (0x20, 0x20)], fun m => ⟨atomRegs m, fR2, atomData m, fOp m⟩⟩ ]

/-- Group 8 (R220). -/
def rowsG8 : List Row :=
  [ plain 0x200 .bar false (modIn [(0, 0)]) 0 fG fG fX,
    plain 0x201 .bara false (modIn [(0, 0)]) 1 fG fG fX,
    plain 0x202 .barw false (modIn [(0, 0)]) 0 fG fG fX,
    plain 0x203 .barc false (modIn [(0, 0)]) 0 fX fX fX,
    plain 0x204 .fence false (fun m => m % 4 ≤ 2 && m / 4 ≤ 5) 0 fX fX fX,
    plain 0x205 .osb false (modIn [(0, 0)]) 0 fX fX fX,
    plain 0x206 .ose false (modIn [(0, 0)]) 0 fX fX fX,
    plain 0x207 .sbwait false (modIn [(0, 0)]) 0 fG fG fX,
    plain 0x208 .sbq false (modIn [(0, 0)]) 1 fG fG fX,
    plain 0x209 .await false (modIn [(0, 0)]) 0 fG fX fX ]

/-- Group 9 (R213, R228). -/
def rowsG9 : List Row :=
  [ plain 0x240 .cpy false (modFl 3) 1 fR2 fR2 fG,
    plain 0x241 .cpy2d false (modFl 3) 1 fR2 fR2 fQ,
    plain 0x242 .cpyg false (modFl 0) 1 fG fP fQ,
    plain 0x243 .coll false (modFl 0) 1 fR2 fG fR2,
    plain 0x244 .amsg false (modIn [(0, 0)]) 0 fQ fR2 fX,
    plain 0x245 .spawn false (modIn [(0, 0x1F)]) 0 fR2 fR2 fR2,
    plain 0x246 .join false (modIn [(0, 0)]) 1 fR2 fX fX,
    plain 0x247 .crec false (modIn [(0, 0)]) 0 fR2 fX fX ]

/-- Group A (R237). -/
def rowsGA : List Row :=
  [ ⟨0x280, .tbld, false, fun m => m / 64 = 0 && [0, 1, 2, 3, 4, 6, 7, 8].contains (m % 16), fun m =>
      ⟨0, fG, fG, if 2 ≤ m / 16 then fP else fX⟩⟩,
    plain 0x281 .tspill false (modIn [(0, 0)]) 0 fR2 (fI 23) fX,
    plain 0x282 .tfill false (modIn [(0, 0)]) 0 fR2 (fI 23) fX,
    plain 0x283 .tinv false (modIn [(0, 0)]) 0 fG fX fX,
    plain 0x284 .tstat false (modIn [(0, 0)]) 1 (fI 23) fX fX,
    plain 0x285 .mlk false (modIn [(0, 1)]) 0 fG fP fG,
    plain 0x286 .azero false (modIn [(0, 0)]) 0 fG fX fX,
    plain 0x287 .aload false (modIn [(0, 2), (6, 6), (8, 8)]) 0 fG fG (fI 31),
    plain 0x288 .adrain false (modIn [(0, 0xA), (0x10, 0x1A)]) 0 fG fG (fI 31),
    plain 0x289 .tenq false (modIn [(0, 0)]) 1 fR2 fX fX,
    plain 0x28A .twait false (modIn [(0, 0)]) 1 fG fX fX,
    plain 0x28B .tprog false (modIn [(0, 1)]) 1 fG fX fX ]

/-- The legal MOD values of trace (R255). -/
def modTrace (m : Nat) : Bool :=
  m % 4 ≤ 2 && !modBit m 3 && (if modBit m 2 then m / 16 ≤ 5 else m / 16 = 0)

/-- Group B (R255). -/
def rowsGB : List Row :=
  [ plain 0x2C0 .win false (modFl 0) 1 fR2 fX fX,
    plain 0x2C1 .wpool false (modFl 0) 1 fR2 fX fX,
    plain 0x2C2 .crsz false (modFl 0) 1 fR2 fX fX,
    plain 0x2C3 .trace false modTrace 1 fQ fQ fP,
    plain 0x2C4 .traceq false (modIn [(0, 0)]) 1 fG fX fX,
    plain 0x2C5 .hitrep false (modIn [(0, 0)]) 0 fG (fI 2) fX,
    ⟨0x2C6, .vfetch, false, fun m => m / 64 = 0 && [0, 1, 2, 6, 7, 8].contains (m % 16), fun m =>
      ⟨if m / 16 = 0 then 1 else if m / 16 = 1 then 2 else 4, fP, fG, fX⟩⟩,
    plain 0x2C7 .prim false (modIn [(0, 0)]) 0 fQ fG ⟨.prim, false⟩,
    plain 0x2C8 .rqpop false (modIn [(0, 0)]) 1 fG fX fX,
    plain 0x2C9 .interp false (modIn [(0, 2)]) 1 (fI 63) fX fX,
    plain 0x2CA .tsamp false (modIn [(0, 0)]) 4 fP fQ fX,
    plain 0x2CB .pxout false (modIn [(0, 0)]) 0 fQ (fI 7) fX ]

/-- Group C (R266). -/
def rowsGC : List Row :=
  [ ⟨0x300, .srd, false, modIn [(0, 1)], fun m => ⟨if modBit m 0 then 2 else 1, ⟨.spec (modBit m 0), false⟩, fX, fX⟩⟩,
    ⟨0x301, .swr, false, modIn [(0, 1)], fun m =>
      ⟨0, ⟨.spec (modBit m 0), false⟩, if modBit m 0 then fW else fG, fX⟩⟩,
    plain 0x302 .trap false (modIn [(0, 0)]) 0 (fI 16383) fX fX,
    plain 0x303 .tret false (modIn [(0, 0)]) 0 fX fX fX,
    plain 0x304 .sysc false (modIn [(0, 0)]) 0 (fI 1023) fX fX,
    plain 0x305 .clk false (modIn [(0, 1)]) 2 fX fX fX ]

/-- The opcode map (R129): OPC[9:6] names the group. -/
def rowsOf (group : Nat) : List Row :=
  match group with
  | 0 => rowsG0 | 1 => rowsG1 | 2 => rowsG2 | 3 => rowsG3 | 4 => rowsG4 | 5 => rowsG5 | 6 => rowsG6 | 7 => rowsG7
  | 8 => rowsG8 | 9 => rowsG9 | 10 => rowsGA | 11 => rowsGB | 12 => rowsGC | _ => []

/-- The row of an opcode; none where R129 assigns it to no instruction. -/
def rowOf (opc : Nat) : Option Row := (rowsOf (opc / 64))[opc % 64]?

end Sys2Proof.Machine
end

