-- ==== Sys2Proof/Machine/Alu.lean ====
section
/-! DEFINITION. What the integer, logic, shift, compare, move and address instructions compute in one lane (R142 to R156):
functions of the operand values of R121 and R122 and of the MOD value, with no state. -/
namespace Sys2Proof.Machine

/-- The 32-bit source as an integer: sign-extended, or zero-extended when `u` (R142). -/
def asInt (u : Bool) (x : W32) : Int := if u then (x.toNat : Int) else x.toInt

/-- Saturation to 32 bits (R142). -/
def sat32 (u : Bool) (x : Int) : W32 :=
  if u then BitVec.ofInt 32 (max 0 (min x 4294967295)) else BitVec.ofInt 32 (max (-2147483648) (min x 2147483647))

/-- The low 32 bits of an exact integer, or its saturation. -/
def narrow32 (sat u : Bool) (x : Int) : W32 := if sat then sat32 u x else BitVec.ofInt 32 x

/-- iadd (R142). -/
def aluIadd (m : Nat) (a b : W32) : W32 :=
  let u := modBit m 0
  narrow32 (modBit m 1) u (asInt u a + asInt u b)

/-- isub (R142). -/
def aluIsub (m : Nat) (a b : W32) : W32 :=
  let u := modBit m 0
  narrow32 (modBit m 1) u (asInt u a - asInt u b)

/-- iadd3 (R142). -/
def aluIadd3 (a b c : W32) : W32 := a + b + c

/-- imul (R142): the low half of the product. -/
def aluImul (a b : W32) : W32 := a * b

/-- imulh (R142): the high half of the exact product. -/
def aluImulh (m : Nat) (a b : W32) : W32 :=
  let u := modBit m 0
  BitVec.ofInt 32 ((asInt u a * asInt u b) / 4294967296)

/-- imad (R142). -/
def aluImad (a b c : W32) : W32 := a * b + c

/-- imadw (R142). -/
def aluImadw (m : Nat) (a b : W32) (c : W64) : W64 :=
  let u := modBit m 0
  BitVec.ofInt 64 (asInt u a * asInt u b) + c

/-- imin (R142). -/
def aluImin (m : Nat) (a b : W32) : W32 :=
  let u := modBit m 0
  if asInt u a ≤ asInt u b then a else b

/-- imax (R142). -/
def aluImax (m : Nat) (a b : W32) : W32 :=
  let u := modBit m 0
  if asInt u a ≤ asInt u b then b else a

/-- iabs (R142). -/
def aluIabs (m : Nat) (a : W32) : W32 := narrow32 (modBit m 1) false (a.toInt.natAbs : Int)

/-- ineg (R142). -/
def aluIneg (m : Nat) (a : W32) : W32 := narrow32 (modBit m 1) false (- a.toInt)

/-- iclamp (R142): B > C gives C. -/
def aluIclamp (m : Nat) (a b c : W32) : W32 := aluImin m (aluImax m a b) c

/-- idiv (R144). -/
def aluIdiv (m : Nat) (a b : W32) : W32 :=
  let u := modBit m 0
  if b = 0 then 0xFFFFFFFF else BitVec.ofInt 32 ((asInt u a).tdiv (asInt u b))

/-- irem (R144). -/
def aluIrem (m : Nat) (a b : W32) : W32 :=
  let u := modBit m 0
  if b = 0 then a else BitVec.ofInt 32 ((asInt u a).tmod (asInt u b))

/-- The bits of a 32-bit word that satisfy `p`, in their places. -/
def bitsWhere (p : Nat → Bool) : W32 := BitVec.ofNat 32 ((List.range 32).foldl (fun s k => s + if p k then 2 ^ k else 0) 0)

/-- lop3 (R145): bit p is f[a[p] + 2·b[p] + 4·old[p]]. -/
def aluLop3 (f : Nat) (a b old : W32) : W32 :=
  bitsWhere fun p =>
    f.testBit ((a.getLsbD p).toNat + 2 * (b.getLsbD p).toNat + 4 * (old.getLsbD p).toNat)

/-- popc (R145). -/
def aluPopc (a : W32) : W32 := BitVec.ofNat 32 ((List.range 32).countP fun k => a.getLsbD k)

/-- clz (R145): the length of the run of zero bits from the top. -/
def aluClz (a : W32) : W32 := BitVec.ofNat 32 (((List.range 32).map fun k => a.getLsbD (31 - k)).takeWhile (!·)).length

/-- ctz (R145): the length of the run of zero bits from the bottom. -/
def aluCtz (a : W32) : W32 := BitVec.ofNat 32 (((List.range 32).map fun k => a.getLsbD k).takeWhile (!·)).length

/-- brev (R145). -/
def aluBrev (a : W32) : W32 := bitsWhere fun p => a.getLsbD (31 - p)

/-- `n` bits of `x` from bit `lo`, as a number. -/
def bitField (x lo n : Nat) : Nat := x / 2 ^ lo % 2 ^ n

/-- A number of `n` bits as a two's-complement integer. -/
def signed (n x : Nat) : Int := if 0 < n ∧ x.testBit (n - 1) then (x : Int) - 2 ^ n else x

/-- bfe (R146), with `b` the field descriptor. -/
def aluBfe (m : Nat) (a b : W32) : W32 :=
  let pos := bitField b.toNat 0 8
  let len := bitField b.toNat 8 8
  if 32 ≤ pos ∨ len = 0 then 0 else
    let n := min len (32 - pos)
    let f := bitField a.toNat pos n
    if modBit m 0 then BitVec.ofNat 32 f else BitVec.ofInt 32 (signed n f)

/-- bfi (R146), with `c` the field descriptor. -/
def aluBfi (a b c : W32) : W32 :=
  let pos := bitField c.toNat 0 8
  let len := bitField c.toNat 8 8
  if 32 ≤ pos ∨ len = 0 then a else
    let n := min len (32 - pos)
    let mask : W32 := BitVec.ofNat 32 ((2 ^ n - 1) * 2 ^ pos)
    (a &&& ~~~mask) ||| ((b <<< pos) &&& mask)

/-- Byte `k` of a word. -/
def byteOf (x : W32) (k : Nat) : Nat := bitField x.toNat (8 * k) 8

/-- One byte of bperm (R147): the selected byte `e` under operation `op`. -/
def bpermByte (op e : Nat) : Nat :=
  match op with
  | 0 => e
  | 1 => 0
  | 2 => 0xFF
  | 3 => if e.testBit 7 then 0xFF else 0
  | 4 => (List.range 8).foldl (fun s p => s + if e.testBit p then 2 ^ (7 - p) else 0) 0
  | 5 => 255 - e
  | 6 => e / 16
  | _ => e % 16

/-- bperm (R147). -/
def aluBperm (a b c : W32) : W32 :=
  let byte (j : Nat) : Nat :=
    let sel := bitField c.toNat (6 * j) 6
    let e := if sel % 8 < 4 then byteOf a (sel % 8) else byteOf b (sel % 8 - 4)
    bpermByte (sel / 8) e
  BitVec.ofNat 32 (byte 0 + 256 * byte 1 + 65536 * byte 2 + 16777216 * byte 3)

/-- The extension of R142: sign-extends an `n`-bit field when `u` is clear. -/
def extField (u : Bool) (n x : Nat) : Int := if u then x else signed n x

/-- The exact sum of products of dp4 (R142). -/
def aluDp4Sum (m : Nat) (a b : W32) : Int :=
  let p (j : Nat) : Int := extField (modBit m 0) 8 (byteOf a j) * extField (modBit m 1) 8 (byteOf b j)
  p 0 + p 1 + p 2 + p 3

/-- dp4 (R142). -/
def aluDp4 (m : Nat) (a b c : W32) : W32 := BitVec.ofInt 32 (c.toInt + aluDp4Sum m a b)

/-- The exact sum of products of dp2 (R142). -/
def aluDp2Sum (m : Nat) (a b : W32) : Int :=
  let h := if modBit m 2 then 2 else 0
  let p (j : Nat) : Int := extField (modBit m 0) 16 (bitField a.toNat (16 * j) 16) * extField (modBit m 1) 8 (byteOf b (h + j))
  p 0 + p 1

/-- dp2 (R142). -/
def aluDp2 (m : Nat) (a b c : W32) : W32 := BitVec.ofInt 32 (c.toInt + aluDp2Sum m a b)

/-- sad (R142). -/
def aluSad (m : Nat) (a b c : W32) : W32 :=
  let p (j : Nat) : Int := ((extField (modBit m 0) 8 (byteOf a j) - extField (modBit m 0) 8 (byteOf b j)).natAbs : Int)
  BitVec.ofInt 32 (c.toInt + (p 0 + p 1 + p 2 + p 3))

/-- The four shifts (R149) on 64-bit values of width `w` (32 or 64), by the whole of `n`. -/
def aluShl (w : Nat) (a : W64) (n : W32) : W64 := if n.toNat < w then BitVec.ofNat 64 (a.toNat * 2 ^ n.toNat % 2 ^ w) else 0
/-- shr (R149). -/
def aluShr (w : Nat) (a : W64) (n : W32) : W64 := if n.toNat < w then BitVec.ofNat 64 (a.toNat % 2 ^ w / 2 ^ n.toNat) else 0
/-- sra (R149). -/
def aluSra (w : Nat) (a : W64) (n : W32) : W64 :=
  let v := signed w (a.toNat % 2 ^ w)
  let r : Int := if n.toNat < w then v / 2 ^ n.toNat else if v < 0 then -1 else 0
  BitVec.ofNat 64 (r % 2 ^ w).toNat
/-- rotl (R149). -/
def aluRotl (w : Nat) (a : W64) (n : W32) : W64 :=
  let k := n.toNat % w
  let v := a.toNat % 2 ^ w
  BitVec.ofNat 64 (v * 2 ^ k % 2 ^ w + v / 2 ^ (w - k))

/-- shf (R150). -/
def aluShf (m : Nat) (a b c : W32) : W32 :=
  let v := b.toNat * 4294967296 + a.toNat
  let n := c.toInt
  let x : Nat :=
    if modBit m 1 then
      let k := (n % 64).toNat
      v / 2 ^ k + v * 2 ^ (64 - k) % 2 ^ 64
    else if 64 ≤ n.natAbs then 0
    else if 0 ≤ n then v / 2 ^ n.natAbs
    else v * 2 ^ n.natAbs % 2 ^ 64
  if modBit m 0 then BitVec.ofNat 32 (x / 4294967296) else BitVec.ofNat 32 x

/-- The condition of icmp and icmp64 (R151) on two `w`-bit values. -/
def icmpCond (cond : Nat) (u : Bool) (w : Nat) (a b : Nat) : Bool :=
  let x : Int := if u then a else signed w a
  let y : Int := if u then b else signed w b
  match cond with
  | 0 => x = y
  | 1 => x ≠ y
  | 2 => x < y
  | 3 => x ≤ y
  | 4 => x > y
  | 5 => x ≥ y
  | 6 => a &&& b ≠ 0
  | _ => a &&& b = 0

/-- `old` with bit `k` set to `t`. -/
def setBit (old : W32) (k : Nat) (t : Bool) : W32 :=
  let mask : W32 := BitVec.ofNat 32 (2 ^ k)
  if t then old ||| mask else old &&& ~~~mask

/-- The combining modes of a compare (R151): payload bits [4:0] give the bit, [6:5] the mode. -/
def combineBit (payload : Nat) (old : W32) (t : Bool) : W32 :=
  let k := payload % 32
  let o := old.getLsbD k
  setBit old k <|
    match payload / 32 % 4 with
    | 0 => t
    | 1 => o && t
    | 2 => o || t
    | _ => o ^^ t

/-- icmp (R151). -/
def aluIcmp (m : Nat) (a b : W32) (payload : Nat) (old : W32) : W32 :=
  combineBit payload old (icmpCond (m % 8) (modBit m 3) 32 a.toNat b.toNat)

/-- icmp64 (R151). -/
def aluIcmp64 (m : Nat) (a b : W64) (payload : Nat) (old : W32) : W32 :=
  combineBit payload old (icmpCond (m % 8) (modBit m 3) 64 a.toNat b.toNat)

/-- setc (R152). -/
def aluSetc (m : Nat) (a : W32) : W32 := if a.getLsbD (m % 32) then (if modBit m 5 then 0xFFFFFFFF else 1) else 0

/-- sel (R152). -/
def aluSel (m : Nat) (a b : W64) (c : W32) : W64 := if c.getLsbD (m % 32) then a else b

/-- pmov (R152). -/
def aluPmov (m : Nat) (a : W32) (j : Nat) (old : W32) : W32 := setBit old (m % 32) (a.getLsbD j ^^ modBit m 5)

/-- plop (R152): i in payload [4:0], j in [9:5], the truth table in [13:10]. -/
def aluPlop (m : Nat) (a b : W32) (payload : Nat) (old : W32) : W32 :=
  let f := payload / 1024 % 16
  setBit old (m % 32) (f.testBit ((a.getLsbD (payload % 32)).toNat + 2 * (b.getLsbD (payload / 32 % 32)).toNat))

/-- lea (R154). -/
def aluLea (m : Nat) (a b : W32) : W32 := a + (b <<< (m % 8))

/-- lea64 (R154). -/
def aluLea64 (m : Nat) (a : W64) (b : W32) : W64 :=
  a + ((if modBit m 3 then b.setWidth 64 else b.signExtend 64) <<< (m % 8))

/-- A 32-bit signed value clamped to a range (R155). -/
def clampInt (lo hi x : Int) : Int := max lo (min x hi)

/-- Two 16-bit halves as one word, the first the low one. -/
def joinHalves (lo hi : BitVec 16) : W32 := hi ++ lo

/-- pack (R155). -/
def aluPack (m : Nat) (a b : W32) : W32 :=
  match m % 4 with
  | 0 => joinHalves (a.setWidth 16) (b.setWidth 16)
  | 1 => joinHalves (a.extractLsb' 16 16) (b.extractLsb' 16 16)
  | 2 => joinHalves (BitVec.ofInt 16 (clampInt (-32768) 32767 a.toInt)) (BitVec.ofInt 16 (clampInt (-32768) 32767 b.toInt))
  | _ => joinHalves (BitVec.ofInt 16 (clampInt 0 65535 a.toInt)) (BitVec.ofInt 16 (clampInt 0 65535 b.toInt))

/-- The width of work-identifier field `k` under layout `y` (R36, R156). -/
def widField (y : W32) (k : Nat) : Nat := if k = 0 then 5 else bitField y.toNat (6 * (k - 1)) 6

/-- wfield (R156): field `k` of identifier `v` under layout `y`. -/
def aluWfield (v : W64) (y : W32) (k : Nat) : W64 :=
  let start := ((List.range k).map (widField y)).sum
  if 64 ≤ start then 0 else BitVec.ofNat 64 (bitField v.toNat start (min (widField y k) (64 - start)))

end Sys2Proof.Machine
end

