-- ==== Sys2Proof/Machine/Opcode.lean ====
section
/-! DEFINITION. The opcode number of each instruction (R129), read off its constructor; the device's other steps have none. -/
namespace Sys2Proof.Machine

/-- The opcode and the operand fields of an instruction of R129; none for the device's other steps. -/
def opcodeOf (i : Instr) : Option (Nat × Operands) :=
  match i with
  | .iadd o => some (0x000, o)
  | .isub o => some (0x001, o)
  | .iadd3 o => some (0x002, o)
  | .imul o => some (0x003, o)
  | .imulh o => some (0x004, o)
  | .imad o => some (0x005, o)
  | .imadw o => some (0x006, o)
  | .imin o => some (0x007, o)
  | .imax o => some (0x008, o)
  | .iabs o => some (0x009, o)
  | .ineg o => some (0x00A, o)
  | .iclamp o => some (0x00B, o)
  | .idiv o => some (0x00C, o)
  | .irem o => some (0x00D, o)
  | .andB o => some (0x00E, o)
  | .orB o => some (0x00F, o)
  | .xorB o => some (0x010, o)
  | .andn o => some (0x011, o)
  | .notB o => some (0x012, o)
  | .lop3 o => some (0x013, o)
  | .popc o => some (0x014, o)
  | .clz o => some (0x015, o)
  | .ctz o => some (0x016, o)
  | .brev o => some (0x017, o)
  | .bfe o => some (0x018, o)
  | .bfi o => some (0x019, o)
  | .bperm o => some (0x01A, o)
  | .dp4 o => some (0x01B, o)
  | .dp2 o => some (0x01C, o)
  | .sad o => some (0x01D, o)
  | .shl o => some (0x040, o)
  | .shr o => some (0x041, o)
  | .sra o => some (0x042, o)
  | .rotl o => some (0x043, o)
  | .shf o => some (0x044, o)
  | .icmp o => some (0x045, o)
  | .icmp64 o => some (0x046, o)
  | .setc o => some (0x047, o)
  | .sel o => some (0x048, o)
  | .mov o => some (0x049, o)
  | .movl o => some (0x04A, o)
  | .pmov o => some (0x04B, o)
  | .plop o => some (0x04C, o)
  | .lea o => some (0x04D, o)
  | .lea64 o => some (0x04E, o)
  | .iadd64 o => some (0x04F, o)
  | .isub64 o => some (0x050, o)
  | .wfield o => some (0x051, o)
  | .pack o => some (0x052, o)
  | .bra o => some (0x080, o)
  | .brx o => some (0x081, o)
  | .call o => some (0x082, o)
  | .callx o => some (0x083, o)
  | .ret o => some (0x084, o)
  | .exit o => some (0x085, o)
  | .rejoin o => some (0x086, o)
  | .reform o => some (0x087, o)
  | .yield o => some (0x088, o)
  | .nop o => some (0x089, o)
  | .brkp o => some (0x08A, o)
  | .jtbl o => some (0x08B, o)
  | .loopd o => some (0x08C, o)
  | .fadd o => some (0x0C0, o)
  | .fsub o => some (0x0C1, o)
  | .fmul o => some (0x0C2, o)
  | .fma o => some (0x0C3, o)
  | .ftsum o => some (0x0C4, o)
  | .fmin o => some (0x0C5, o)
  | .fmax o => some (0x0C6, o)
  | .fclamp o => some (0x0C7, o)
  | .fdiv o => some (0x0C8, o)
  | .frcp o => some (0x0C9, o)
  | .frsq o => some (0x0CA, o)
  | .fsqrt o => some (0x0CB, o)
  | .fexp2 o => some (0x0CC, o)
  | .flog2 o => some (0x0CD, o)
  | .fsin o => some (0x0CE, o)
  | .fcos o => some (0x0CF, o)
  | .ftanh o => some (0x0D0, o)
  | .fcmp o => some (0x0D1, o)
  | .fclass o => some (0x0D2, o)
  | .fround o => some (0x0D3, o)
  | .ffrac o => some (0x0D4, o)
  | .fldexp o => some (0x0D5, o)
  | .fexpo o => some (0x0D6, o)
  | .hfma2 o => some (0x0D7, o)
  | .hadd2 o => some (0x0D8, o)
  | .hmul2 o => some (0x0D9, o)
  | .hmin2 o => some (0x0DA, o)
  | .hmax2 o => some (0x0DB, o)
  | .fdot2 o => some (0x0DC, o)
  | .cvtf o => some (0x100, o)
  | .cvtfi o => some (0x101, o)
  | .cvtif o => some (0x102, o)
  | .cvti o => some (0x103, o)
  | .qcvt o => some (0x104, o)
  | .dqcvt o => some (0x105, o)
  | .qpack o => some (0x106, o)
  | .qunpack o => some (0x107, o)
  | .scexp o => some (0x108, o)
  | .shfl o => some (0x140, o)
  | .vote o => some (0x141, o)
  | .matchB o => some (0x142, o)
  | .redadd o => some (0x143, o)
  | .redmin o => some (0x144, o)
  | .redmax o => some (0x145, o)
  | .redabs o => some (0x146, o)
  | .redbit o => some (0x147, o)
  | .scan o => some (0x148, o)
  | .bcast o => some (0x149, o)
  | .amask o => some (0x14A, o)
  | .ld o => some (0x180, o)
  | .st o => some (0x181, o)
  | .ldp o => some (0x182, o)
  | .stp o => some (0x183, o)
  | .lds o => some (0x184, o)
  | .sts o => some (0x185, o)
  | .ldk o => some (0x186, o)
  | .ldf o => some (0x187, o)
  | .stf o => some (0x188, o)
  | .pf o => some (0x189, o)
  | .ldt o => some (0x18A, o)
  | .stt o => some (0x18B, o)
  | .smap o => some (0x18C, o)
  | .swb o => some (0x18D, o)
  | .sinv o => some (0x18E, o)
  | .resq o => some (0x18F, o)
  | .cwb o => some (0x190, o)
  | .cinv o => some (0x191, o)
  | .atom o => some (0x1C0, o)
  | .cas o => some (0x1C1, o)
  | .atoms o => some (0x1C2, o)
  | .cass o => some (0x1C3, o)
  | .atomr o => some (0x1C4, o)
  | .atomsc o => some (0x1C5, o)
  | .bar o => some (0x200, o)
  | .bara o => some (0x201, o)
  | .barw o => some (0x202, o)
  | .barc o => some (0x203, o)
  | .fence o => some (0x204, o)
  | .osb o => some (0x205, o)
  | .ose o => some (0x206, o)
  | .sbwait o => some (0x207, o)
  | .sbq o => some (0x208, o)
  | .await o => some (0x209, o)
  | .cpy o => some (0x240, o)
  | .cpy2d o => some (0x241, o)
  | .cpyg o => some (0x242, o)
  | .coll o => some (0x243, o)
  | .amsg o => some (0x244, o)
  | .spawn o => some (0x245, o)
  | .join o => some (0x246, o)
  | .crec o => some (0x247, o)
  | .tbld o => some (0x280, o)
  | .tspill o => some (0x281, o)
  | .tfill o => some (0x282, o)
  | .tinv o => some (0x283, o)
  | .tstat o => some (0x284, o)
  | .mlk o => some (0x285, o)
  | .azero o => some (0x286, o)
  | .aload o => some (0x287, o)
  | .adrain o => some (0x288, o)
  | .tenq o => some (0x289, o)
  | .twait o => some (0x28A, o)
  | .tprog o => some (0x28B, o)
  | .win o => some (0x2C0, o)
  | .wpool o => some (0x2C1, o)
  | .crsz o => some (0x2C2, o)
  | .trace o => some (0x2C3, o)
  | .traceq o => some (0x2C4, o)
  | .hitrep o => some (0x2C5, o)
  | .vfetch o => some (0x2C6, o)
  | .prim o => some (0x2C7, o)
  | .rqpop o => some (0x2C8, o)
  | .interp o => some (0x2C9, o)
  | .tsamp o => some (0x2CA, o)
  | .pxout o => some (0x2CB, o)
  | .srd o => some (0x300, o)
  | .swr o => some (0x301, o)
  | .trap o => some (0x302, o)
  | .tret o => some (0x303, o)
  | .sysc o => some (0x304, o)
  | .clk o => some (0x305, o)
  | _ => none

end Sys2Proof.Machine
end

