-- ==== Sys2Proof/Machine/Legal.lean ====
section
/-! DEFINITION. Which encodings are instructions: the conditions of R130, each with its code, as checks on the operand fields
of a word against the form its opcode and MOD value give. A field list that raises no code is a legal instruction. -/
namespace Sys2Proof.Machine

/-- The width class of an assigned special register (R60, R369): `some true` for 64 bits, `some false` for 32 bits, none for
a number that neither view assigns (R59). -/
def specWide (num : Nat) : Option Bool :=
  if num ≤ 0x18 then some (num = 0x0A || (0x0C ≤ num && num ≤ 0x0F))
  else if 0x4000 ≤ num && num ≤ 0x4003 then some false
  else none

/-- The direct-read set of R124. -/
def directRead (num : Nat) : Bool := num ≤ 0x09 || num = 0x0B || (0x13 ≤ num && num ≤ 0x15)

/-- The codes that a run of `k` registers from `r` raises in a kernel of `n` registers: 6 for a register not declared (R49),
7 for a base that is not a multiple of the run (R119, R121). -/
def runCodes (n k r : Nat) : List Nat :=
  (if r + k ≤ n then [] else [6]) ++ (if r % k = 0 then [] else [7])

/-- The codes of a register source: its run, and code 9 when it sets negate or absolute where the field takes neither. -/
def regCodes (n k : Nat) (takesNeg : Bool) (r : Byte) (neg abs : Bool) : List Nat :=
  runCodes n k r.toNat ++ (if (neg || abs) && !takesNeg then [9] else [])

/-- The codes of a residency-flag descriptor (R195). -/
def flagCodes (n p : Nat) : List Nat :=
  let f := p % 256
  (if f = 0 then [3] else []) ++ (if f < n then [] else [6]) ++ (if p / 8192 = 0 then [] else [3])

/-- The codes of an atomic operation descriptor (R218); `w` is the instruction's .w. -/
def opDescCodes (w : Bool) (p : Nat) : List Nat :=
  if p / 16 ≠ 0 || (p / 8 % 2 = 1 && !(p % 8 = 1 || p % 8 = 2)) || (p % 8 = 7 && w) then [3] else []

/-- The codes of prim's attribute description (R263). -/
def primCodes (p : Nat) : List Nat := if p / 64 ≠ 0 || 16 < p % 32 then [3] else []

/-- Whether a class of operand fields accepts the register kind (R137, R191). -/
def Cls.takesReg : Cls → Bool
  | .g _ | .g64 | .r | .r64 | .quad => true
  | .none | .i _ | .disp | .pool | .flag | .op _ | .prim | .spec _ => false

/-- The codes of one source field (R130 codes 3, 4, 6 to 9) in a kernel of `n` registers. Every field that accepts the register
kind takes the direct-read special registers too (R124; log entry 12). A register in the field of a residency flag is a kind that
the field does not accept, code 4, and not a non-zero bit of an unused field (DEDUCED, log entry 132). -/
def srcCodes (n : Nat) (fld : Field) (s : Src) : List Nat :=
  match fld.cls, s with
  | .none, s => if s = .unused then [] else [3]
  | .g _, .reg r _ neg abs => regCodes n 1 fld.neg r neg abs
  | .g _, .imm _ => []
  | .g64, .reg r _ neg abs => regCodes n 2 fld.neg r neg abs
  | .g64, .imm _ => []
  | .r, .reg r _ neg abs => regCodes n 1 fld.neg r neg abs
  | .r64, .reg r _ neg abs => regCodes n 2 fld.neg r neg abs
  | .quad, .reg r _ neg abs => regCodes n 4 fld.neg r neg abs
  | .i mx, .imm p => if p.toNat ≤ mx then [] else [3]
  | .disp, .imm _ => []
  | .pool, .pool _ => []
  | .flag, .imm p => flagCodes n p.toNat
  | .flag, s => if s = .unused then [] else [4]
  | .op w, .imm p => opDescCodes w p.toNat
  | .prim, .imm p => primCodes p.toNat
  | .spec w, .spec num =>
    match specWide num.toNat with
    | some w' => if w = w' then [] else [7]
    | none => [8]
  | c, .spec num => if !c.takesReg then [4] else if directRead num.toNat then [] else [8]
  | _, _ => [4]

/-- Whether a field is used and of register kind: the only fields that take a reuse bit (R127). -/
def takesReuse (fld : Field) (s : Src) : Bool :=
  match fld.cls, s with
  | .none, _ => false
  | .flag, _ => false
  | _, .reg _ _ _ _ => true
  | _, _ => false

/-- Code 10: reuse bit `on` for a field that cannot take one. -/
def reuseCodes (on : Bool) (fld : Field) (s : Src) : List Nat := if on && !takesReuse fld s then [10] else []

/-- Whether an operand is an immediate whose value breaks a limit. -/
def immBreaks (ok : Nat → Bool) : Src → Bool
  | .imm p => !ok (p.signExtend 32 : W32).toNat
  | _ => false

/-- An immediate that breaks a shape limit of tbld, mlk, aload or adrain is code 3 (R236, R138, R239, R242, R249): a scratchpad
address or pitch that is not a multiple of 4, a pitch below one row, a shape word, or a selection word with high bits. -/
def limitCodes (opc m : Nat) (o : Operands) : List Nat :=
  let mult4 (x : Nat) : Bool := x % 4 = 0
  let bad : Bool :=
    match opc with
    | 0x280 =>
      let mode := m / 16 % 4
      immBreaks mult4 o.a || immBreaks (fun w => shapeWordOk (m % 16) mode w (if mode ≤ 1 then some 16 else none)) o.b
    | 0x285 => immBreaks mult4 o.a || immBreaks (fun w => w / 1024 = 0) o.c
    | 0x287 | 0x288 => immBreaks mult4 o.a || immBreaks (fun p => p % 4 = 0 && 64 * fmtBits (m % 16) / 8 ≤ p) o.b
    | _ => false
  if bad then [3] else []

/-- The codes of the destination field for a destination of `k` registers (R119). -/
def dstCodes (n k : Nat) (d : Dst) : List Nat :=
  if k = 0 then (if d = ⟨false, 0⟩ then [] else [3])
  else runCodes n k d.reg.toNat ++ (if d.wide = (2 ≤ k : Bool) then [] else [7])

/-- A lane source in field a of group 5 is code 4 (R186). -/
def laneCodes (opc : Nat) (s : Src) : List Nat :=
  match s with
  | .reg _ lane _ _ => if opc / 64 = 5 && lane ≠ .own then [4] else []
  | _ => []

/-- call, callx and ret without .w use v31 (R160). -/
def linkCodes (n opc m : Nat) : List Nat :=
  if (opc = 0x082 || opc = 0x083 || (opc = 0x084 && m = 0)) && n < 32 then [6] else []

/-- Whether MOD sets the literal bit L of a row (R125). -/
def Row.isLit (row : Row) (m : Nat) : Bool := row.lit && modBit m 6

/-- The codes of field b, which is the literal exactly when L = 1 (R125). -/
def srcBCodes (n : Nat) (isLit : Bool) (fld : Field) (s : Src) : List Nat :=
  match isLit, s with
  | true, .lit _ => []
  | true, _ => [4]
  | false, s => srcCodes n fld s

/-- Every code of R130 that the operand fields of an instruction raise in a kernel of `n` declared registers. -/
def fieldCodes (n : Nat) (row : Row) (o : Operands) : List Nat :=
  let m := o.mod.toNat
  if !row.legal m then [2] else
    let f := row.form m
    srcCodes n f.a o.a ++ laneCodes row.opc o.a ++ srcBCodes n (row.isLit m) f.b o.b ++ srcCodes n f.c o.c
      ++ limitCodes row.opc m o ++ dstCodes n f.dst o.dst ++ (if o.guard.reg.toNat < n then [] else [6]) ++ linkCodes n row.opc m
      ++ reuseCodes (o.ru.getLsbD 0) f.a o.a ++ reuseCodes (o.ru.getLsbD 1) f.b o.b ++ reuseCodes (o.ru.getLsbD 2) f.c o.c

/-- The least element of a list of codes: the code the fatal record carries (R130). -/
def leastCode : List Nat → Option Nat
  | [] => none
  | x :: xs => match leastCode xs with
    | none => some x
    | some y => some (min x y)

end Sys2Proof.Machine
end

