-- ==== Sys2Proof/Config.lean ====
section
/-! DEFINITION. What one implementation fixes, and the free values (R7): constants that no proof can see. -/
namespace Sys2Proof

/-- The free values. Where the manual says a value is "unpredictable among" a set (R7), or states an effect without its
value, the model takes `Config.free n tag`, with `n` the machine's counter of such occasions (`State.free`) and `tag` naming
the place within one step. It has no body: a claim that is proved holds whatever the values are. Log entry 1. -/
opaque Config.free (n tag : Nat) : BitVec 64

/-- One of the two members of a two-member set, freely (R7). -/
def Config.freeBool (n tag : Nat) : Bool := (Config.free n tag).getLsbD 0

/-- A free 32-bit word: "unpredictable among all 32-bit values". -/
def Config.freeW32 (n tag : Nat) : W32 := (Config.free n tag).setWidth 32

/-- A free index below `k`, for a choice among `k` members (of no use when `k` is 0). -/
def Config.freeIndex (n tag k : Nat) : Nat := (Config.free n tag).toNat % k

/-- How many records a hardware record queue holds besides its first, by the kind of record (R42): 0 continuations, 1 active
messages, 2 tile tasks. The manual gives no depth. Log entry 23. -/
opaque Config.queueDepth (kind : Nat) : Nat

/-- How a context image packs a field whose layout the manual does not give (R390): a word for what the field holds. Log entry 36. -/
opaque Config.packing (field a b : Nat) : W32

/-- A word of a record that a sequencer's own microcode has emitted (R421): a function of the record's kind and the item's working
registers, which the manual calls internal (R431). Log entry 50. -/
opaque Config.emitted (kind : Nat) (ws : List W32) (word : Nat) : W32

/-- A coefficient (0 A, 1 B, 2 C) of the plane of a value over a triangle (R429): a function of the mapped points and of the value at
each vertex, whose rounding the manual does not give. Log entry 28. -/
opaque Config.plane (coef : Nat) (pts : List (List W32)) (vals : List W32) : W32

/-- The microcode image of each sequencer kind as it is shipped (R423): loaded bit for bit, it is the standard microcode again. -/
opaque Config.shippedImage (kind : Nat) : List W64

end Sys2Proof
end

