-- ==== Sys2Proof/Machine/Flags.lean ====
section
/-! DEFINITION. The sticky floating-point flags of s.fflags (R74), as the six low bits of the register. -/
namespace Sys2Proof.Machine

/-- The flag bits of s.fflags: NV 0, DZ 1, OF 2, UF 3, NX 4, SAT 5; the reserved bits read zero. -/
abbrev FFlags := BitVec 6

/-- No flag. -/
def ffNone : FFlags := 0
/-- Invalid operation. -/
def ffNV : FFlags := 1
/-- Division by zero. -/
def ffDZ : FFlags := 2
/-- Overflow. -/
def ffOF : FFlags := 4
/-- Underflow. -/
def ffUF : FFlags := 8
/-- Inexact. -/
def ffNX : FFlags := 16
/-- A clamped conversion. -/
def ffSAT : FFlags := 32

/-- The flag `f` when `c` holds. -/
def ffWhen (c : Bool) (f : FFlags) : FFlags := if c then f else 0

/-- A W1C write of s.fflags (R75): each one bit of `v` clears its flag. -/
def ffClear (old : FFlags) (v : W32) : FFlags := old &&& ~~~(v.setWidth 6)

end Sys2Proof.Machine
end

