-- ==== Sys2Proof/Machine/State.lean ====
section
/-! DEFINITION. The state of the D96 as plain data: threads and waves, blocks, launches, contexts, partitions, the storage and
its caches, the engines and sequencers, the display path, the management processor and every register a BAR shows. Lists are
sparse: what a list does not hold is at its reset value. -/
namespace Sys2Proof.Machine

/-- The reasons for which a step stops with a fault. -/
inductive Fault where
  /-- Raised by an instruction of R129 that is executed with no issue in progress, so that it has no thread to act on; the
  step function never does this. Safe: the hardware has no such step. -/
  | noIssue
  deriving DecidableEq, Repr

/-- The reasons for which a step refuses. -/
inductive Refusal where
  /-- Raised by a dispatch arm whose instruction has no meaning yet. Safe. -/
  | notModelled (mnemonic : String)
  deriving DecidableEq, Repr

/-- A cell of a sparse byte store: an address and its byte. -/
abbrev Cells := List Host.Cell

/-- Why a thread waits in issue with its PC unchanged; it issues the instruction again when the cause has passed (R22). -/
inductive Retry where
  | classV                            -- 32 class-V results outstanding (R58)
  | commands (blk : Nat)              -- 64 commands outstanding (R212)
  | recordQueue (part kind ctx : Nat) -- a full record queue and ring (R42)
  | rayRecord (launch : Nat)          -- no free ray-state record, or a full ray queue (R258, R431)
  | replayRing (owner : Nat)          -- a full replayable ring (R414)
  | engine (core : Nat)               -- another block owns the engine state (R235)
  | stashRange (blk lo len : Nat)     -- smap over a command in flight (R207)
  | scratchRange (blk lo len : Nat) (wr : Bool) -- the range scoreboard (R109)
  | coreOut (core : Nat)              -- the core of a peer's scratchpad is out for a scan (R455)
  | clkOrd                            -- clk.ord (R266)
  | fenceSys                          -- fence.full.sys before its earlier cwb write-backs (R211)
  | task (tok : W32)                  -- twait (R254)
  | writeRange (core : Nat)           -- every write-range register holds another context (R457)
  | slice                             -- a request held at its slice (R479)
  | primRoom (draw : Nat)             -- a full primitive queue (R42, R431)
  | peers                             -- a lane whose record or ray is sent, until the instruction's last lane's is (R42, R258)
  deriving DecidableEq, Repr

/-- What a thread waits for (R22); the waits at rejoin entries, at switch markers, for a save and under a debugger halt are
held with the wave. -/
inductive Wait where
  | ready
  | bar (n : Nat) (gen : W16)         -- stopped at a named barrier's generation (R222)
  | barw (n : Nat) (gen : W16)        -- barw (R222)
  | barc (gen : W16)                  -- the cluster barrier (R223)
  | ordered                           -- osb (R225)
  | scoreboard (blk lo len : Nat)     -- sbwait (R227)
  | await (tok : W32)                 -- await (R227)
  | sysc (owner : Nat) (sq : W32)     -- sysc until the host completes its record (R267)
  | replay (owner : Nat) (sq : W32)   -- stopped on a replayable record (R414)
  | retry (why : Retry)               -- waits in issue
  | save                              -- at a safe point, for the save of its wave (R386)
  | trap (cause synd unit : W32) (tpc : W64)  -- a user trap waits for the wave's class-V results (R268, R58)
  deriving DecidableEq, Repr

/-- A pixel identity and primitive order (R225, R430): the draw's target table address, x, y, the primitive's serial in the
draw ring, the draw, its plane set's address and whether the pixel is covered. -/
structure Pixel where
  part    : Nat
  targets : W64
  x       : Nat
  y       : Nat
  order   : Nat
  draw    : Nat
  planes  : List W32
  covered : Bool
  deriving DecidableEq, Repr

/-- One thread (R19, R60). `blk` keys its block; `uid` tells it from every other thread there has been. -/
structure Thread where
  uid       : Nat
  blk       : Nat
  pc        : W64
  regs      : List W32
  depth     : W16
  wid       : W64
  sp        : W64
  slim      : W64
  tvec      : W64
  tpc       : W64
  tcause    : W32
  synd      : W32
  unit      : W32
  tilex     : W32
  tiley     : W32
  tilez     : W32
  inHandler : Bool
  starve    : Nat
  wait      : Wait
  pixel     : Option Pixel
  holds     : Bool            -- it holds its pixel's ordered section (R225)
  holdStart : Nat             -- when it took the section
  sectionDone : Bool          -- it has released a section (R225)
  vertex    : Option Nat      -- the draw whose vertex thread it is (R262)
  sent      : Bool            -- its record or ray of the instruction in progress has been sent (R42, R258)
  deriving DecidableEq, Repr

/-- A wave's slot (R20, R52). -/
inductive Slot where
  | empty
  | exited (t : Thread)
  | live (t : Thread)
  deriving DecidableEq, Repr

/-- A rejoin entry (R24); `held` marks the slots it holds. -/
structure Rejoin where
  armed : Bool
  t     : W64
  m     : Mask
  a     : W64
  d     : W16
  order : Nat
  held  : Mask
  deriving DecidableEq, Repr

/-- A disarmed rejoin entry. -/
def Rejoin.none : Rejoin := ⟨false, 0, 0, 0, 0, 0, 0⟩

/-- The debugger's hold on a wave (R395): 0 running, 1 halting, 2 stopped, with its reason and brkp code. -/
structure Halt where
  state  : Nat
  reason : Nat
  code   : W16
  deriving DecidableEq, Repr

/-- A resident wave (R20, R32). `base` is the first row of its register allocation in its quadrant; `marker` that it waits at
a switch marker (R57); `saving` the time it was selected for a save
and the class of the record it makes room for (R386). -/
structure Wave where
  core    : Nat
  wslot   : Nat
  quad    : Nat
  base    : Nat
  launch  : Nat
  nregs   : Nat
  slots   : List Slot
  rejoin  : List Rejoin
  fflags  : FFlags
  skips   : Nat              -- choices at which the wave is passed over (R21, R166)
  marker  : Bool
  halt    : Halt
  saving  : Option (Nat × Nat)
  deriving DecidableEq, Repr

/-- A named barrier (R221, R222): its generation, the count that opened it, and the arrivals by thread. -/
structure Barrier where
  n        : Nat
  gen      : W16
  count    : Option Nat
  arrivals : List Nat
  deriving DecidableEq, Repr

/-- A cluster barrier (R223). -/
structure ClusterBarrier where
  cluster  : Nat
  gen      : W16
  arrivals : List Nat
  deriving DecidableEq, Repr

/-- A mapped stash window (R207): its global base, scratchpad offset, length, context, and the line numbers filled and dirty. -/
structure Stash where
  win    : Nat
  base   : W64
  off    : Nat
  len    : Nat
  filled : List Nat
  dirty  : List Nat
  deriving DecidableEq, Repr

/-- What a block is (R31, R45, R230, R429, R430). -/
inductive BlockKind where
  | grid | continuation | handler | vertex (draw : Nat) | pixel (draw : Nat)
  deriving DecidableEq, Repr

/-- A range of the range scoreboard (R109): the core, the block, the bytes, and whether it is a destination. -/
structure ScoreRange where
  core : Nat
  blk  : Nat
  lo   : Nat
  len  : Nat
  dst  : Bool
  deriving DecidableEq, Repr

/-- A retired command that had its release flag set (R212, R227): its token and its scratchpad ranges. -/
structure Retired where
  token  : W32
  ranges : List ScoreRange
  deriving DecidableEq, Repr

/-- A block (R31): `scratch` holds the bytes of its window that are not zero. -/
structure Block where
  key      : Nat
  core     : Nat
  bslot    : Nat
  launch   : Nat
  ctx      : Nat
  part     : Nat
  cluster  : Nat
  f2       : Nat
  nthreads : Nat
  kind     : BlockKind
  wid      : W64             -- work identifier with F0 and F1 zero
  scratch  : Cells
  barriers : List Barrier
  stash    : List Stash
  serial   : W32             -- next command token (R212)
  kprog    : W32             -- s.kprog (R246)
  mlkStop  : Option W64      -- PC of a stopped mlk (R247)
  start    : Nat             -- when it started
  stamp    : Nat             -- the step in which it started
  ended    : Bool            -- every thread has ended; its scratchpad waits for its commands (R212)
  retired  : List Retired
  peers    : Bool            -- it wrote a peer's scratchpad or issued coll (R458)
  out      : Bool            -- its state is in an image off the core
  deriving DecidableEq, Repr

/-- A launch (R37): the record's words, its place, and how far the HTS has come. -/
structure Launch where
  key       : Nat
  part      : Nat
  ctx       : Nat
  queue     : Option Nat
  index     : W32
  words     : List W32
  prio      : Nat
  cls       : Nat
  handler   : Bool           -- stands for a context's message launch settings (R383)
  draw      : Option Nat
  nextClu   : Nat            -- clusters started (R379)
  started   : Nat            -- blocks started
  pending   : Nat            -- continuations queued or running
  lastStart : Option Nat     -- when a block last started (R381)
  lastBlk   : Nat            -- the key of the block that started last (R42)
  since     : Nat            -- when it was read
  stamp     : Nat            -- the step in which it was read
  raySerial : W32            -- R258
  rayCount  : Option Nat     -- C, once read (R258)
  complete  : Bool
  deriving DecidableEq, Repr

/-- A context's message launch settings (R383). -/
structure MsgSettings where
  pool   : W64
  regs   : Nat
  stack  : Nat
  cls    : Nat
  prio   : Nat
  remote : Bool
  kdesc  : W64
  deriving DecidableEq, Repr

/-- One overflow ring's indices (R43). -/
structure RingIdx where
  rd : Nat
  wr : Nat
  deriving DecidableEq, Repr

/-- A context (R350, CTX_CREATE). `ended` by a fatal record (R417); `mcode` the loaded microcode by kind (R423), where a kind
not listed runs the standard microcode. -/
structure Context where
  id        : Nat
  part      : Nat
  root      : W64
  priv      : Bool
  dbg       : Bool
  stackBase : W64
  msg       : Option MsgSettings
  ovfBase   : W64
  ovfSize   : Nat
  rings     : List RingIdx
  ended     : Bool
  mcode     : List (Nat × List W64)
  deriving DecidableEq, Repr

/-- One entry of a layout table (R364), with defaults resolved. -/
structure Layout where
  valid    : Bool
  cls      : Nat
  bwshare  : Nat
  dbase    : Nat
  dm       : Nat
  cores    : BitVec 96
  savearea : W64
  woff     : Nat
  wlen     : Nat
  mbt      : Nat     -- µs
  binage   : Nat     -- cycles
  sechold  : Nat     -- µs
  saveto   : Nat     -- µs
  evdelay  : Nat     -- µs
  shadow   : Nat     -- MiB
  deriving DecidableEq, Repr

/-- The states of a partition (R368); SWAPPING has its two directions, out and in. -/
inductive PState where
  | absent | idle | running | draining | waiting | swapping | swappingIn | out | held | resetting
  deriving DecidableEq, Repr

/-- A record queued with a partition's HTS (R41): a continuation with its launch, or a message; when it was produced, and
whether it lies in its context's overflow ring rather than in the hardware queue (R42). -/
inductive WorkRec where
  | cont (launch : Nat) (ctx : Nat) (words : List W32) (fromHandler : Bool) (since : Nat) (ring : Bool)
  | msg (ctx : Nat) (words : List W32) (payload : List W32) (since : Nat) (ring : Bool)
  deriving DecidableEq, Repr

/-- The states of a tile task (R254). -/
inductive TaskState where
  | queued | running | stopped | done | failed | killed
  deriving DecidableEq, Repr

/-- A tile task (R251 to R254): its record, the POOL it captured, its counter over K, its 16 × 64 accumulator, where it runs,
the code or residues of its stop, and the replayable record it waits for. -/
structure Task where
  tok    : W32
  part   : Nat
  ctx    : Nat
  launch : Nat                -- the launch of the thread that enqueued it (R462)
  ring   : Bool               -- it lies in its context's overflow ring (R42)
  core   : Option Nat
  pool   : W64
  words  : List W32
  state  : TaskState
  ksteps : Nat
  acc    : List W32
  synd   : W32
  stamp  : Nat                -- the step from which its reads may take place
  wait   : Option (Nat × W32)
  deriving DecidableEq, Repr

/-- The registers of a debug block (R395); STATE, REASON and CODE are those of the selected wave. -/
structure DebugBlock where
  attach : Bool
  brk    : Bool
  ctx    : Nat
  core   : Nat
  wave   : Nat
  lane   : Nat
  reg    : Nat
  state  : Nat               -- 1 while a HALT of the context stands
  busy   : Bool
  deriving DecidableEq, Repr

/-- The registers of a render block (R428) and the draws taken so far. -/
structure RenderBlock where
  dring  : W64
  dctx   : Nat
  dlog   : Nat
  rarea  : W64
  rsize  : Nat
  ridx   : Option W32         -- once read from the ring's header
  widx   : W32                -- WIDX as last polled
  wait   : Option (Nat × W32) -- the replayable record that an access to its ring waits for (R428)
  prims  : Nat                -- primitive serial within the ring (R430)
  areaNext : Nat              -- next plane set in the render area
  deriving DecidableEq, Repr

/-- A damage entry (R461) as its sixteen words. -/
abbrev Damage := List W32

/-- A partition: its active layout entry, its state and window, its domain registers (R447), scheduler, debug and render
blocks, damage map and counters. -/
structure Partition where
  layout    : Layout
  state     : PState
  sstate    : Nat             -- SSTATE (R447)
  sgen      : W32             -- SGEN (R447)
  turn      : Nat             -- the kind of record that started last, for the turns of R42
  drainAt   : Nat             -- when the drain started
  pointer   : Nat             -- HTS rotation pointer (R380)
  work      : List WorkRec
  taskSer   : W32             -- next tile-task token (R252)
  dbg     : DebugBlock
  render    : RenderBlock
  damage    : List Damage
  haltEv    : Bool
  kills     : W32
  dmgCount  : W32
  evictions : W32
  swaps     : W32
  deriving DecidableEq, Repr

/-- A prepared layout set (R352): entries, period and checksum, and whether PART_COMMIT has sealed it. -/
structure Prepared where
  period   : Nat
  entries  : List Layout
  checksum : W32
  sealed   : Bool
  sealedBy : W32              -- the checksum that it was sealed with (R352, R354)
  deriving DecidableEq, Repr

/-- A user queue (R374 to R378). The descriptor itself is in memory. -/
structure Queue where
  q       : Nat
  part    : Nat
  qdesc   : W64
  slot    : Option Nat
  emptyAt : Option Nat
  asked   : Bool                 -- a NOTIFY found it without a slot since the last decision (R376)
  wait    : Option (Nat × W32)   -- a replayable record its record read waits for (R375)
  last    : Option Nat           -- launch key last started
  stop    : Nat                  -- 0 no; 1 stopped by a rejected launch, until STOP is cleared; 2 stopped
  deriving DecidableEq, Repr

/-- A register write that a result will make: the bits `mask` of register `reg` take those of `val`; `clob` once a later
instruction has written the register (R56). -/
structure RegWrite where
  reg  : Nat
  mask : W32
  val  : W32
  clob : Bool
  deriving DecidableEq, Repr

/-- One lane's part of a result; `uid` names the thread that issued it. `late` names the remote requests it waits for, with what
it writes instead when one is not answered (R361). -/
structure LaneResult where
  lane : Nat
  uid  : Nat
  dsts : List RegWrite
  late : List (Nat × List RegWrite)
  deriving DecidableEq, Repr

/-- The class-V result of one instruction that has not returned (R55, R56): its lanes, and the flags it sets on return (R75). -/
structure Result where
  core   : Nat
  wslot  : Nat
  lanes  : List LaneResult
  fflags : FFlags
  tex    : Option Nat           -- a texture sample's: the context whose texel records it waits for (R423)
  deriving DecidableEq, Repr

/-- An agent that accesses memory (R477): the context for its tag, and the core its access took place on. -/
structure Agent where
  ctx  : Option Nat
  core : Option Nat
  deriving DecidableEq, Repr

/-- A write on its way to its home slice (R105): the slice it was sent to, and whether that slice answered "misdirected". -/
structure PendWrite where
  agent : Agent
  uid   : Nat
  addr  : Nat                 -- PA
  va    : W64
  tgeo  : BitVec 7
  data  : List Byte
  slice : Nat
  so    : Bool
  uo    : Bool                -- by a mapping of kind UO (R94)
  cached : Bool               -- held dirty in the core's L1, so that a cinv may discard it (R116)
  stack : Bool                -- by the stack cache (R290)
  issued : Nat                -- the step in which it was issued
  cwb   : Nat                 -- a cwb of its core asked for it (R211): 0 no, 1 to its home, 2 to memory
  misdirected : Bool
  deriving DecidableEq, Repr

/-- A line held dirty in its home slice (R477): its way, owner tag, poison, and the bytes memory still holds for it. -/
structure DirtyLine where
  line   : Nat                -- PA ÷ 128
  slice  : Nat
  set    : Nat
  way    : Nat
  tag    : Nat                -- 0xFFF for none
  poison : Bool
  hist   : List (Nat × Byte)  -- bytes it held since its last write-back, by offset in the line, the oldest first
  deriving DecidableEq, Repr

/-- A line cached in a core's L1: a later load may return it or the value at home (R94). -/
structure L1Line where
  core : Nat
  line : Nat
  data : List Byte
  deriving DecidableEq, Repr

/-- A byte that memory held until the step numbered `at_` (`State.free` then) wrote another: what the constant cache, a pool
record read, an instruction fetch and a UO load may still return (R103, R115, R123, R200); and the thread and core that wrote. -/
structure PastByte where
  pa  : Nat
  val : Byte
  at_ : Nat
  uid : Nat                   -- 0 for no thread
  core : Option Nat
  deriving DecidableEq, Repr

/-- The slice at which a line was written last, and whether it has been written at two slices (R305). -/
structure HomeLine where
  line  : Nat
  slice : Nat
  mixed : Bool
  deriving DecidableEq, Repr

/-- A completed translation (R403): the page's virtual, intermediate and physical bases and size in bits; its kind,
cacheability and tile geometry; W, X and U of the context stage, and W and X of the partition stage. -/
structure Trans where
  va   : Nat
  bits : Nat
  ia   : Nat
  pa   : Nat
  kind : Nat
  w    : Bool
  x    : Bool
  u    : Bool
  w2   : Bool
  x2   : Bool
  uc   : Bool
  tgeo : BitVec 7
  deriving DecidableEq, Repr

/-- A cached translation (R406). -/
structure TlbEntry where
  ctx : Nat
  tr  : Trans
  deriving DecidableEq, Repr

/-- An invalidation in progress (R407). -/
structure TlbInval where
  owner : Nat
  token : W32
  ctx   : Option Nat
  part  : Option Nat
  va    : W64
  pages : Nat
  deriving DecidableEq, Repr

/-- What an asynchronous command does (R213 to R215, R255 to R257). Scratchpad operands name a block and an offset. -/
inductive CmdOp where
  | cpy (ds ss : Bool) (dst src : W64) (len : Nat)
  | cpy2d (ds ss : Bool) (dst src : W64) (w h pd ps : Nat)
  | cpyg (dst : Nat) (base : W64) (extent : Nat) (robust : Bool) (list : W64) (n e : Nat)
  | coll (src : W64) (off n : Nat) (mask : Nat)
  | ldt (words : List W32) (off : Nat) (tx ty : Nat)
  | stt (words : List W32) (off : Nat) (tx ty : Nat)
  | win (words : List W32)
  | wpool (words : List W32)
  | crsz (words : List W32)
  deriving DecidableEq, Repr

/-- A command in flight (R212). -/
structure Cmd where
  token  : W32
  blk    : Nat
  core   : Nat
  ctx    : Nat
  part   : Nat
  uid    : Nat
  lane   : Nat
  op     : CmdOp
  acq    : Bool
  rel    : Bool
  scope  : Nat
  ranges : List ScoreRange
  stamp  : Nat                -- the step from which its reads may take place
  loc    : W32                -- LOC and PC of its records (R415)
  pc     : W64
  step   : Nat                -- elements already performed when it stopped
  wait   : Option (Nat × W32) -- the replayable record it waits for
  deriving DecidableEq, Repr

/-- A table register (R238, R239): its state word and source, and its 32-bit entries. -/
structure Table where
  stat    : W32
  src     : W32
  pitch   : Nat
  kb      : Nat
  cbase   : W64
  entries : List W32
  deriving DecidableEq, Repr

/-- A reform bin (R27, R28): its key, the filed threads with the flags they carried and their live masks applied. -/
structure Bin where
  n      : Nat
  launch : Nat
  pc     : W64
  first  : Nat
  nregs  : Nat
  slots  : List (Thread × FFlags)
  deriving DecidableEq, Repr

/-- A write-range register (R457). -/
structure WriteRange where
  ctx   : Nat
  page  : Nat
  count : Nat
  part  : Nat               -- the context's partition
  deriving DecidableEq, Repr

/-- A block-list entry (R458): context, queue, launch index, work identifier and the tile fields. -/
structure BlockEntry where
  part    : Nat
  ctx     : Nat
  queue   : Nat
  launch  : W32
  lkey    : Nat
  blk     : Nat               -- the block's key
  wid     : W64
  task    : Option W32
  tx      : Nat
  ty      : Nat
  tz      : Nat
  cluster : Bool
  deriving DecidableEq, Repr

/-- A fault of a core that waits to be met: one injected by ERR_INJECT (R472), kinds 1, 2, 3, 6 and 7; or an error of the silicon
that a residue check will find (R451), from an upset: 8 in the lookup adders and 9 in the scale units, after `arg` further k-steps,
and 10 in an FMA pipe, with the quadrant in `arg` [1:0] and the lanes above. -/
structure Injection where
  kind : Nat
  arg  : W64
  deriving DecidableEq, Repr

/-- A hit record on its way (R331): eight words. -/
structure HitRec where
  launch : Nat
  words  : List W32
  deriving DecidableEq, Repr

/-- One core: its quadrants' last issued wave slots, its engine state and owner, its bins, hit queues, write ranges and block
list, its pending injections and the time its engine last made progress. -/
structure CoreSt where
  core   : Nat
  last   : List Nat
  issuedAt : List Nat         -- the step in which each quadrant last issued, for the model's own scheduler (R46)
  owner  : Option Nat         -- the block or (as none with `task`) the tile task that owns the engine state
  task   : Option W32
  tables : List (Nat × Table)
  accs   : List (Nat × List W32)   -- tiles with defined values; others are unpredictable (R235)
  bins   : List Bin
  hits   : List HitRec
  ranges : List WriteRange
  blocks : List BlockEntry
  inject : List Injection
  hung   : Option Nat
  acqWide : Nat               -- the step of the last acquire of its threads beyond the core, and at any scope (R97, R103)
  acqAny  : Nat
  deriving DecidableEq, Repr

/-- The states of a ray (R260). -/
inductive RayState where
  | flight | complete | waiting | faulted | killed
  deriving DecidableEq, Repr

/-- A ray in flight or ended (R258, R259): the fields of its ray-state record and the sequencer's working state (R420). -/
structure Ray where
  launch : Nat
  ctx    : Nat
  part   : Nat
  core   : Nat
  id     : W32
  rayid  : W32                -- RAYID, as its record has it
  die    : Nat                -- the GT-die in whose queue it is sent (R431)
  addr   : W64                -- its ray-state record
  pool   : W64
  org    : List W32
  dir    : List W32
  tmin   : W32
  tmax   : W32
  thit   : W32
  prim   : W32
  inst   : W32
  bary   : List W32
  upc    : Nat
  rf     : Nat
  cand   : Bool
  node   : W32
  stack  : List W32
  scene  : W64
  state  : RayState
  wait   : Option (Nat × W32)
  accepted : Bool             -- a hit has been accepted
  level  : Nat                -- 0 top level, 1 inside an instance
  lroot  : W64                -- root address of the current level
  layout : List W32           -- its layout record's words
  instAddr : W64              -- the instance entered
  obj    : List W32           -- object-space origin and direction
  leaf   : Option (Nat × Nat) -- primitives left to test in the current leaf: next and count
  visit  : Bool               -- node NODE is visited next
  levelDepth : Nat            -- stack entries that belong to the upper level
  topRoot : W64               -- ROOT of the scene record, as trace read it
  topIndex : Nat              -- LAYOUT of the scene record
  topLayout : List W32        -- the top level's layout record, and the primitives left there while in an instance
  topLeaf : Option (Nat × Nat)
  topNode : W32               -- NODE of the top level, while in an instance
  tri    : List W32           -- the candidate: t, u, v, PRIM, INST
  wregs  : List W32
  flagF  : Bool
  nb     : W64
  started : Bool
  steps  : Nat                -- micro-ops spent (R422)
  stamp  : Nat                -- the step from which its reads may take place
  ending : Bool               -- a hitrep ended it: its hit record is still to be written
  saved  : Option (List W32)  -- its record as it was written, until a sequencer reloads it
  deriving DecidableEq, Repr

/-- A wave or core image held off the cores (R388 to R391). -/
structure Image where
  part   : Nat
  core   : Nat
  evict  : Bool               -- an evicted wave rather than a swapped core
  ringlet : Bool              -- saved for a Ringlet scan (R455)
  waves  : List Wave
  bins   : List Bin
  owner  : Option Nat
  accs   : List (Nat × List W32)
  tables : List (Nat × Table)
  bytes  : Nat
  shadow : Bool
  since  : Nat                -- when it was saved
  raw    : List Wave          -- an evicted wave with every register, the registers its image keeps, and whether it is SAFE (R389)
  kept   : List W32
  safe   : Bool
  spill  : Option (Nat × Nat × Option (Nat × W32))  -- a spill that failed: since, last tried, and its record (R393)
  deriving DecidableEq, Repr

/-- A 64-byte record of a delivery lane (R415), as sixteen words. -/
abbrev LaneRec := List W32

/-- What is stopped on a replayable record (R414), besides waiting threads, commands, tasks and rays, which name it. -/
structure Outstanding where
  sq   : W32
  kind : Nat
  agent : Nat
  ctx  : Nat
  va   : W64
  queue : Option Nat
  deriving DecidableEq, Repr

/-- One owner's lane block (R412) and its records on die (R413). -/
structure Owner where
  fbase    : W64
  fprod    : W32
  fcons    : W32
  rbase    : W64
  rprod    : W32
  rcons    : W32
  lost     : W32
  tlbiDone : W32
  rdoneDisp : Bool
  psen     : Bool
  psroot   : W64
  fseq     : W32              -- SEQ of the next fatal record
  rseq     : W32              -- SEQ of the next replayable record
  tlbSer   : W32              -- next invalidation token (R407)
  slots    : List LaneRec     -- fatal records waiting for ring space
  open_    : List Outstanding
  deriving DecidableEq, Repr

/-- A command page (R345): its control block, the bytes of its slots, and the bytes that a slot held before the host wrote it in
breach of R345, by offset. -/
structure Page where
  prod      : W32
  cons      : W32
  evAbort   : Bool
  evRestart : Bool
  examine   : Bool            -- a NOTIFY asked the MP to examine it
  viaVf     : Bool            -- the last NOTIFY came through the VF (R339)
  slots     : Cells
  past      : List (Nat × Byte)
  deriving DecidableEq, Repr

/-- A step of a command that went past its bound (R349). -/
inductive LateStep where
  | reset (part : Nat) (keep : Bool)
  | split
  | quarantine (cores : List Nat) (perm : Bool)
  | migrate (page ctx : Nat) (va : W64) (pa : Nat) (pages : Nat) (token : W32)
  | rangeWb (ctx : Nat) (va len : W64) (start : Nat)
  deriving DecidableEq, Repr

/-- Work Larkspur does of its own at a boundary between commands (R347). -/
inductive OwnWork where
  | retirePage (pa : Nat)
  | quarantineWay (slice way : Nat)
  deriving DecidableEq, Repr

/-- A domain split in progress (R445): the new domain of each named partition, the slices that move, and its step, as SSTATE
shows it (R447). -/
structure Split where
  names  : List (Nat × (Nat × Nat))
  moving : List Nat
  stage  : Nat
  deriving DecidableEq, Repr

/-- The management processor (R347, R353 to R356). -/
structure Mp where
  wdMs      : Nat             -- watchdog period, ms
  serviced  : Nat             -- when Larkspur last serviced its watchdog
  restartAt : Option Nat      -- restarting since
  nextPage  : Nat             -- partition page served after the privileged page
  privTurn  : Bool            -- whether the privileged page comes next
  inExec    : Option (Nat × W32)  -- page and index of the block in execution
  takenAt   : Nat             -- when it was taken
  late      : List LateStep
  own       : List OwnWork
  prepared  : Option Prepared
  prepCount : W32
  discarded : Bool            -- another command discarded the PREPARED set (R352)
  spillLost : Bool            -- SAVETO passed during the CTX_SWAP in execution (R398)
  redo      : Option (List W32)  -- the block that was completed with MP_RESTART last (R356)
  split     : Option Split
  deriving DecidableEq, Repr

/-- Device control registers and bring-up (R341, R357, R359). -/
structure Boot where
  state   : Nat
  err     : Nat
  since   : Nat               -- when power became good
  power   : Bool
  offs    : List W64          -- offsets of dies 0 to 10 as published (R362)
  gib     : Nat               -- installed memory whose channels trained
  form    : Nat               -- 0 D96-P, 1 D96-M
  serial  : W64
  numVfs  : Nat
  winBase : W64
  winPart : Nat
  rate    : Nat               -- host link rate in GT/s × 2
  width   : Nat
  period  : Nat               -- schedule period, µs (R364)
  flips   : W32               -- s.pgen
  phase   : List Nat          -- each die counter's offset against the model's time
  offgen  : W32
  offOld  : List W64          -- the offset table's entries before the rewrite in progress (R362)
  bar4    : Nat               -- the size of BAR 4, as a power of two (R340)
  deriving DecidableEq, Repr

/-- What has been sent to the paired device and not been taken there (R114, R230, R361), with the link it goes by. -/
inductive GulnosOut where
  | write (link addr : Nat) (data : List Byte)
  | message (link : Nat) (words : List W32)
  deriving DecidableEq, Repr

/-- The Gulnos registers (R360), the requests the paired device has not answered (R361) and what is on its way there, in order. -/
structure Gulnos where
  en       : Bool
  lup      : BitVec 2
  paired   : Bool
  peerId   : W32
  rbase    : W64
  rlimit   : W64
  rxDenied : W32
  peerOff  : W64
  pending  : List (Nat × Nat × Nat × Agent × Nat)   -- request number, address, time, agent, link
  next     : Nat
  out      : List GulnosOut
  deriving DecidableEq, Repr

/-- A rendering of a frame of a safety layer (R435, R437): when its first draw started or was passed over, whether its END draw
has completed, whether its array is written, and whether it counts as not completed whatever follows. -/
structure Rendering where
  frame  : W32
  rend   : Nat                    -- 0 rendering A, 1 rendering B
  first  : Option Nat
  ended  : Bool
  signed : Bool
  void   : Bool
  deriving DecidableEq, Repr

/-- A layer of a pipe (R434): its descriptor words, the renderings of its frames, and its comparisons. -/
structure Layer where
  n        : Nat
  words    : List W32
  next     : Option (List W32)    -- a LAYER_CFG that applies at the next compare point (R442)
  shown    : Option (List W32 × Option Nat)  -- the descriptor and camera frame that the current frame ends with (R442)
  rends    : List Rendering
  agreed   : Option W32           -- the frame whose comparison passed last
  scanned  : Option W32           -- the frame whose scan-out was signed last (R437)
  scanBad  : Bool                 -- a scan-out signature differed (R437)
  back     : Bool                 -- it leaves Foxglove at the next first active line (R486)
  frame    : Option Nat           -- camera: newest complete frame of the ring
  frameAt  : Nat                  -- when it completed
  stale    : Bool
  deriving DecidableEq, Repr

/-- A display pipe (R432, R433, R440). -/
structure Pipe where
  mode     : Option (List W32)
  output   : Bool
  fcount   : W32
  foxg     : Byte
  fox      : Byte                 -- the layers that Foxglove draws in the current frame (R437)
  mismatch : Byte
  lsel     : Bool
  lgen     : W32
  lband    : W16
  latch0   : List W32
  latch1   : List W32
  past     : Option (Nat × List W32)  -- the selected buffer before a write to it, and when it was written (R440)
  latched  : List W32
  recs     : List (Nat × List W32)  -- the record of each band of the current frame (R440)
  recsNext : List (Nat × List W32)  -- and of the bands of the next frame that are latched already
  compared : Option W32           -- FRAME compared last
  frameAt  : Nat                  -- when the last frame's first active line was due
  band     : Nat                  -- the next band to latch, of the frame whose first line is due at `bandAt`
  bandAt   : Nat
  layers   : List Layer
  deriving DecidableEq, Repr

/-- A bitmap in Foxglove's store (R438). -/
structure Telltale where
  pipe  : Nat
  layer : Nat
  words : List W32
  bytes : Nat
  deriving DecidableEq, Repr

/-- A vertex that prim emitted (R263): clip position, attributes, strip end. -/
structure Vertex where
  clip  : List W32
  attrs : List W32
  last  : Bool
  deriving DecidableEq, Repr

/-- An assembled triangle (R429): the mapped x and y of its vertices, their clip positions and their attributes. -/
structure Tri where
  pts   : List (List W32)
  clips : List (List W32)
  attrs : List (List W32)
  order : Nat
  deriving DecidableEq, Repr

/-- A quad with covered pixels (R430): its even x and y, the covered bits, and its primitive's plane set. -/
structure Quad where
  x      : Nat
  y      : Nat
  cover  : BitVec 4
  order  : Nat
  planes : List W32
  deriving DecidableEq, Repr

/-- A draw taken from a ring (R429, R430). -/
structure Draw where
  key     : Nat
  part    : Nat
  ctx     : Nat
  ring    : W64                   -- the address of the ring it was taken from
  index   : W32
  words   : List W32
  targets : List W32
  vlaunch : Nat
  plaunch : Nat
  vnext   : Nat                   -- vertex threads started
  started : Bool                  -- a tagged draw held back has started (R435)
  skipped : Bool                  -- it was rejected or passed over (R429, R435, R485)
  verts   : List (Nat × Vertex)   -- vertices to assemble with their streams, in emission order
  strips  : List (Nat × (Nat × List Vertex))  -- a stream's open strip: triangles so far, and its last two vertices
  tris    : List Tri
  raster  : List Quad             -- quads covered, for which the quad queue had no room yet (R42)
  quads   : List Quad
  extra   : List W32              -- vertex records that own microcode emitted (R421)
  wait    : Option (Nat × W32)
  overrun : Bool                  -- its sequencer item has spent 2^20 micro-ops (R422)
  deriving DecidableEq, Repr

/-- The display path's state outside the pipes. -/
structure Display where
  pipes    : List Pipe
  tell     : List Telltale
  tellNext : List Telltale
  mesh     : Option (List W32)
  meshNext : Option (List W32)
  draws    : List Draw
  deriving DecidableEq, Repr

/-- A core's health register (R464). -/
structure Health where
  state    : Nat
  qby      : Nat
  passrun  : Nat
  front    : Bool
  fails    : Nat
  resid    : Nat
  pseq     : W32
  lastpass : W64
  perm     : Bool
  draining : Bool
  deriving DecidableEq, Repr

/-- The Ringlet rotation (R454, R459, R463). -/
structure Ringlet where
  en      : Bool
  gap     : Nat
  cur     : Option Nat
  rotgen  : W32
  rotus   : W32
  lastCore : Nat
  readyAt : Nat                   -- when the next core may be taken out
  fronts  : List Nat
  left    : List Nat              -- cores of this rotation still to pass or leave
  rotStart : Nat
  gstate  : List Nat              -- GSTATE of the 12 groups
  duty    : List (Nat × List Nat) -- a group quarantined for a safety layer: cores not yet passed or failed (R469)
  curAt   : Nat
  deriving DecidableEq, Repr

/-- A request that met a line of the shared cache in error (R465, R472, R478), until the slice reports it: the line and whether it was
clean; the context of the request, 0xFFF for none, and whether it was a write-back; and the fields of its record. -/
structure MetLine where
  line  : Nat
  clean : Bool
  ctx   : Nat
  wb    : Bool
  agent : Nat
  die   : Nat
  va    : W64
  loc   : W32
  pc    : W64
  deriving DecidableEq, Repr

/-- Retired and quarantined storage, and storage errors that wait to be met (R465 to R467, R472). -/
structure Storage where
  retired : List Nat              -- 64 KiB page numbers
  ways    : List (Nat × Nat)      -- slice, way
  badDirty : List Nat             -- lines uncorrectable in their home slice
  badMem  : List Nat              -- lines whose next read from memory is uncorrectable
  held    : List (Nat × Nat)      -- pages held from poison to retirement: page number and context of the request
  badClean : List Nat             -- clean lines injected to be uncorrectable in their home slice (R472)
  wild    : List Nat              -- lines of `badDirty` and `badMem` whose error no injection caused
  deriving DecidableEq, Repr

/-- Thermal state (R473). -/
structure Thermal where
  threshold : Nat                 -- half degrees
  limit     : Nat                 -- W
  temps     : List Int            -- half degrees, dies 0 to 10
  clocks    : List Nat            -- arithmetic clock in MHz, dies 0 to 10
  throttled : List Nat            -- dies over the threshold
  critical  : Bool
  power     : Nat                 -- mW, 100 ms average
  peak      : Nat
  stepAt    : List Nat            -- when each die's clock last changed
  since     : Nat                 -- when throttling was entered, while a die is throttled
  usThrottled : W32               -- µs throttled before that
  deriving DecidableEq, Repr

/-- Telemetry counters (R474). -/
structure Telemetry where
  escalations : W32
  passes      : W32
  fails       : W32
  resid       : W32
  cacheCorr   : W32
  cacheClean  : W32
  cacheDirty  : W32
  memCorr     : W32
  memUncorr   : W32
  coreCorr    : W32
  coreUncorr  : W32
  pages       : W32
  ways        : W32
  quarantined : W32
  retired     : W32
  deriving DecidableEq, Repr

/-- The issue in progress: the core, the wave slot, the issue set and its PC (R21). -/
structure IssueCtx where
  core  : Nat
  wslot : Nat
  amask : Mask
  pc    : W64
  deriving DecidableEq, Repr

/-- A storage error that no injection causes (R465), as an input from outside: one corrected (0 in the shared cache, 1 in memory,
2 in a core), an uncorrectable clean line of the shared cache, a word of a core's storage (in the order of R465) that the state of
some blocks holds, a clean line of a core's L1, an entry of a table register, and a word of an image in shadow storage, with the
context whose state it is; a line that LPDDR-6 cannot correct at its next read; and a wrong value that a residue check finds (R451):
in some lanes of a quadrant's FMA pipes, or in a core's lookup adders or scale units after some k-steps. -/
inductive Upset where
  | corrected (place : Nat)
  | cleanLine
  | coreWord (core place : Nat) (blks : List Nat)
  | l1Line (core line : Nat)
  | tableEntry (core reg : Nat)
  | imageWord (n ctx : Nat)
  | memoryLine (line : Nat)
  | fma (core quad : Nat) (lanes : Mask)
  | lookup (core : Nat) (scale : Bool) (steps : Nat)
  deriving DecidableEq, Repr

/-- One choice of the model's scheduler: a device step, an issue of a quadrant, the passing of time in counts of 10 ns, the
progress of a command by some of its elements or of a tile task by some k-steps, a storage error, the arrival of an active message
from the paired device (R230), with its record and its payload, the paired device taking what was sent first, and whether it could
deliver it, or the end of a partition's swap (R368). -/
inductive Act where
  | event (i : Instr)
  | issue (core quad : Nat)
  | pass (counts : Nat)
  | advance (cmd elems : Nat)
  | tile (part : Nat) (tok : W32) (steps : Nat)
  | upset (u : Upset)
  | peerMessage (words payload : List W32)
  | peerTakes (delivered : Bool)
  | swapped (part : Nat)
  | setVfs (n : Nat)
  | setBar4 (bits : Nat)
  | poisonedWrite (fn : Fn) (off : Nat) (bytes : List Byte)
  | offsetsDone
  deriving DecidableEq, Repr

/-- The state of the D96. `agenda`, `free`, `now`, `cur` and `serial` are the model's own: the choices of what happens next,
the counter of free values, the time, the issue in progress and the counter of new keys. -/
structure State where
  agenda   : List Act
  free     : Nat
  now      : Nat
  cur      : Option IssueCtx
  serial   : Nat
  mem      : Cells
  waves    : List Wave
  blocks   : List Block
  clubars  : List ClusterBarrier
  launches : List Launch
  ctxs     : List Context
  parts    : List Partition
  queues   : List Queue
  results  : List Result
  writes   : List PendWrite
  dirty    : List DirtyLine
  homes    : List HomeLine
  l1       : List L1Line
  past     : List PastByte
  tlb      : List TlbEntry
  invals   : List TlbInval
  cmds     : List Cmd
  tasks    : List Task
  cores    : List CoreSt
  rays     : List Ray
  images   : List Image
  owners   : List Owner
  pages    : List Page
  mp       : Mp
  boot     : Boot
  gulnos   : Gulnos
  display  : Display
  health   : List Health
  ringlet  : Ringlet
  storage  : Storage
  met      : List MetLine         -- requests that met a line in error
  thermal  : Thermal
  telem    : Telemetry
  scores   : List Nat             -- sensor scores of the 96 cores (R380)
  schedAt  : Nat                  -- when the queue scheduler last decided (R376)
  vectors  : List (Fn × Nat)      -- MSI-X vectors raised (R344)
  msix     : List (Nat × W32)     -- MSI-X table words written by the host
  answer   : List Byte            -- the data of the last host read
  poisoned : Bool                 -- whether its completion was poisoned (R342)
  deriving DecidableEq, Repr

/-- An absent partition's layout entry (R367: after device reset no partition is valid). -/
def Layout.none : Layout := ⟨false, 0, 0, 0, 0, 0, 0, 0, 0, 0, 0, 0, 0, 0, 0⟩

/-- A debug block after reset (R395). -/
def DebugBlock.reset : DebugBlock := ⟨false, false, 0, 0, 0, 0, 0, 0, false⟩

/-- A render block after reset (R428). -/
def RenderBlock.reset : RenderBlock := ⟨0, 0, 0, 0, 0, none, 0, none, 0, 0⟩

/-- A partition after reset (R364, R367, R447). -/
def Partition.reset : Partition :=
  ⟨.none, .absent, 0, 0, 4, 0, 0, [], 1, .reset, .reset, [], false, 0, 0, 0, 0⟩

/-- An owner's lane block after reset (R412). -/
def Owner.reset : Owner := ⟨0, 0, 0, 0, 0, 0, 0, 0, false, false, 0, 0, 0, 1, [], []⟩

/-- A command page after reset (R345). The rules give its command slots no reset value: they read zero to the host and to Larkspur
until the host writes them (log entry 3). -/
def Page.reset : Page := ⟨0, 0, false, false, false, false, [], []⟩

/-- A core's health after reset (R464). -/
def Health.reset : Health := ⟨0, 0, 0, false, 0, 0, 0, 0, false, false⟩

/-- A display pipe after reset (R433). -/
def Pipe.reset : Pipe :=
  ⟨none, false, 0, 0, 0, 0, false, 0, 0, List.replicate 16 0, List.replicate 16 0, none, List.replicate 16 0, [], [], none, 0, 0, 0, []⟩

/-- The machine right after reset: the registers at the values their maps give, no context, no partition, nothing listed in
memory. Values that the manual leaves open (the installed memory, the form, the serial number, the counters' phases, the record
that no latch has written, NumVFs and the size of BAR 4) are those of log entries 2, 3 and 59. -/
def State.reset : State :=
  { agenda := []
    free := 0
    now := 0
    cur := none
    serial := 0
    mem := []
    waves := []
    blocks := []
    clubars := []
    launches := []
    ctxs := []
    parts := List.replicate 8 .reset
    queues := []
    results := []
    writes := []
    dirty := []
    homes := []
    l1 := []
    past := []
    tlb := []
    invals := []
    cmds := []
    tasks := []
    cores := []
    rays := []
    images := []
    owners := List.replicate 9 .reset
    pages := List.replicate 9 .reset
    mp := ⟨100, 0, none, 0, true, none, 0, [], [], none, 0, false, false, none, none⟩
    boot := ⟨0, 0, 0, true, List.replicate 11 0, 128, 1, 0x0D96010000000001, 0, 0, 0xF, 256, 8, 0, 0, List.replicate 11 0, 0, [], 28⟩
    gulnos := ⟨false, 0, false, 0, 0, 0, 0, 0, [], 0, []⟩
    display := ⟨List.replicate 6 .reset, [], [], none, none, []⟩
    health := List.replicate 96 .reset
    ringlet := ⟨true, 45, none, 0, 0, 95, 0, [], [], 0, List.replicate 12 0, [], 0⟩
    storage := ⟨[], [], [], [], [], [], []⟩
    met := []
    thermal := ⟨210, 380, List.replicate 11 0, List.replicate 11 3100, [], false, 0, 0, List.replicate 11 0, 0, 0⟩
    telem := ⟨0, 0, 0, 0, 0, 0, 0, 0, 0, 0, 0, 0, 0, 0, 0⟩
    scores := List.replicate 96 0
    schedAt := 0
    vectors := []
    msix := []
    answer := []
    poisoned := false }

end Sys2Proof.Machine
end

