-- ==== Sys2Proof/Machine/Cells.lean ====
section
/-! DEFINITION. The sparse byte store (R9, R90): reading and writing one byte and runs of bytes, little-endian words, and the
canonical form. A byte that is not listed reads as zero (log entry 4). -/
namespace Sys2Proof.Machine

/-- What an address reads as that the list does not hold. Log entry 4. -/
def Memory.blank : Byte := 0

/-- The byte at an address. -/
def Cells.read : Cells → Nat → Byte
  | [], _ => Memory.blank
  | (k, v) :: r, a => if a = k then v else Cells.read r a

/-- The store without the entries of one address. -/
def Cells.clear : Cells → Nat → Cells
  | [], _ => []
  | (k, u) :: r, a => if k = a then Cells.clear r a else (k, u) :: Cells.clear r a

/-- An entry for a byte that is not blank. -/
def Cells.entry (a : Nat) (v : Byte) : Cells := if v = Memory.blank then [] else [(a, v)]

/-- The store with one byte written: the list stays sorted, and the blank value is not listed. -/
def Cells.write : Cells → Nat → Byte → Cells
  | [], a, v => Cells.entry a v
  | (k, u) :: r, a, v =>
    if k < a then (k, u) :: Cells.write r a v
    else Cells.entry a v ++ Cells.clear ((k, u) :: r) a

/-- The canonical form from address `lo` upwards: addresses strictly rise and no entry holds the blank value. -/
def Cells.wfFrom : Nat → Cells → Bool
  | _, [] => true
  | lo, (k, v) :: r => lo ≤ k && v ≠ Memory.blank && Cells.wfFrom (k + 1) r

/-- The canonical form of a memory. -/
def Memory.wf (m : Cells) : Bool := Cells.wfFrom 0 m

/-- `n` bytes from an address upwards. -/
def Cells.readRun (m : Cells) (a : Nat) : Nat → List Byte
  | 0 => []
  | n + 1 => m.read a :: Cells.readRun m (a + 1) n

/-- The store with a run of bytes written from an address upwards. -/
def Cells.writeRun (m : Cells) (a : Nat) : List Byte → Cells
  | [] => m
  | b :: bs => Cells.writeRun (m.write a b) (a + 1) bs

/-- The number that bytes make, the first the least significant (R9). -/
def bytesNat : List Byte → Nat
  | [] => 0
  | b :: bs => b.toNat + 256 * bytesNat bs

/-- The `n` little-endian bytes of a number (R9). -/
def natBytes : Nat → Nat → List Byte
  | 0, _ => []
  | n + 1, x => BitVec.ofNat 8 x :: natBytes n (x / 256)

/-- The 32-bit words of a byte string; a short last word is filled with zeros. -/
def bytesWords : List Byte → List W32
  | b0 :: b1 :: b2 :: b3 :: r => BitVec.ofNat 32 (bytesNat [b0, b1, b2, b3]) :: bytesWords r
  | [] => []
  | l => [BitVec.ofNat 32 (bytesNat l)]

/-- The bytes of 32-bit words. -/
def wordsBytes (ws : List W32) : List Byte := ws.flatMap fun w => natBytes 4 w.toNat

/-- Word `k` of a record. -/
def wordAt (ws : List W32) (k : Nat) : W32 := ws.getD k 0

/-- The 64-bit field whose low half is word `k` of a record. -/
def wideAt (ws : List W32) (k : Nat) : W64 := wordAt ws (k + 1) ++ wordAt ws k

/-- `n` bits from bit `lo` of a record's words. -/
def bitsAt (ws : List W32) (lo n : Nat) : Nat :=
  (bytesNat (wordsBytes ((ws.drop (lo / 32)).take (n / 32 + 2)))) / 2 ^ (lo % 32) % 2 ^ n

/-- A record's words with word `k` replaced; missing words count as zero. -/
def setWord (ws : List W32) (k : Nat) (v : W32) : List W32 :=
  (ws ++ List.replicate (k + 1 - ws.length) 0).set k v

/-- The elements of a list that satisfy `p`, changed by `f`. -/
def updateWhere {α : Type} (p : α → Bool) (f : α → α) (l : List α) : List α := l.map fun x => if p x then f x else x

/-- A list with element `k` changed by `f`. -/
def updateAt {α : Type} (l : List α) (k : Nat) (f : α → α) : List α := l.modify k f

/-- One member of a list, freely when it has more than one (R7); `d` when it has none. -/
def chooseFrom {α : Type} (n tag : Nat) (d : α) : List α → α
  | [] => d
  | [x] => x
  | l => l.getD (Config.freeIndex n tag l.length) d

end Sys2Proof.Machine
end

