-- ==== Sys2Proof/Machine/Walk.lean ====
section
/-! DEFINITION. Address translation (R88, R399 to R408): the two-stage walk as a function of the tables in memory, the checks of
R404 in their order, and the choice between a fresh walk and a cached translation (R406). -/
namespace Sys2Proof.Machine

/-- What an access needs of a translation: its kind as the SYND codes of R416 give it (0 load, 1 store, 2 atomic, 3 fetch,
4 engine, 5 traversal, 6 walk), whether it writes or fetches, and whether the context is privileged. -/
structure Acc where
  kind : Nat
  wr   : Bool
  x    : Bool
  priv : Bool
  deriving DecidableEq, Repr

/-- Why an access does not translate (R404): second-stage failures carry the code of R416, whether the walk of context
tables met them, and the IA. -/
inductive XFault where
  | address
  | invalid
  | malformed (level : Nat)
  | permission
  | nonResident
  | second (code : Nat) (walk : Bool) (ia : Nat)
  deriving DecidableEq, Repr

/-- A virtual address is canonical when bits [63:51] all equal bit 51 (R88). -/
def canonical (va : W64) : Bool := va.extractLsb' 51 13 = 0 || va.extractLsb' 51 13 = 0x1FFF

/-- Bits [47:12] of an entry or of a register, as an address (R401). -/
def pteAddr (e : W64) : Nat := (e.extractLsb' 12 36).toNat * 4096

/-- The size in bits of what one entry of a level maps, 12 at level 4 (R400, R402). -/
def levelShift (level : Nat) : Nat := 12 + 9 * (4 - level)

/-- The entries of a contiguity group (R402); none where the table of R402 does not allow the hint. -/
def hintGroup (level ch : Nat) : Option Nat :=
  match level, ch with
  | _, 0 => some 1
  | 3, 1 => some 8
  | 3, 2 => some 64
  | 4, 1 => some 4
  | 4, 2 => some 16
  | 4, 3 => some 64
  | _, _ => none

/-- Whether a valid entry is malformed (R401, R402, R302); `ps` at the partition stage. -/
def pteMalformed (ps : Bool) (level : Nat) (e : W64) : Bool :=
  let leaf := e.getLsbD 1
  let tgeo := (e.extractLsb' 48 7).toNat
  e.extractLsb' 55 9 ≠ 0 ||
    (if leaf then
      level ≤ 1 || (hintGroup level (e.extractLsb' 10 2).toNat).isNone || e.extractLsb' 4 2 = 3 ||
        pteAddr e % 2 ^ levelShift level ≠ 0 || (tgeo < 64 && tgeo ≠ 0) || (ps && (e.getLsbD 8 || tgeo ≠ 0))
    else
      level = 4 || e.extractLsb' 2 10 ≠ 0 || tgeo ≠ 0)

/-- The 8-byte entry at a physical address. -/
def readPte (mem : Cells) (pa : Nat) : W64 := BitVec.ofNat 64 (bytesNat (mem.readRun pa 8))

/-- A leaf apart from its ADDR: what the entries of a group must share. -/
def pteFields (e : W64) : W64 := e &&& ~~~(0x0000FFFFFFFFF000 : W64)

/-- Whether the entries of a group are as R402 demands: the same fields, addresses that follow one another, the first aligned. -/
def groupOk (shift : Nat) (es : List W64) : Bool :=
  let e0 := es.headD 0
  pteAddr e0 % (es.length * 2 ^ shift) = 0 &&
    (List.range es.length).all fun i =>
      pteFields (es.getD i 0) = pteFields e0 && pteAddr (es.getD i 0) = pteAddr e0 + i * 2 ^ shift

/-- Whether some entry of a group is a leaf whose hint covers a group of that size. -/
def groupHinted (ps : Bool) (level : Nat) (es : List W64) : Bool :=
  es.any fun e => e.getLsbD 0 && e.getLsbD 1 && !pteMalformed ps level e && hintGroup level (e.extractLsb' 10 2).toNat = some es.length

/-- The sizes of the groups of a level (R402). -/
def groupSizes (level : Nat) : List Nat :=
  match level with
  | 3 => [8, 64]
  | 4 => [4, 16, 64]
  | _ => []

/-- The entries of the broken groups that an entry lies in: groups that a hint covers and that are not as R402 demands. -/
def brokenGroups (ps : Bool) (level idx : Nat) (entry : Nat → W64) : List W64 :=
  (groupSizes level).flatMap fun g =>
    let es := (List.range g).map fun i => entry (idx - idx % g + i)
    if groupHinted ps level es && !groupOk (levelShift level) es then es else []

/-- Whether an entry among the 64 aligned ones from a physical address may hold a hint: a CH bit is set. -/
def anyHint (mem : Cells) (pa : Nat) : Bool :=
  mem.any fun c => pa ≤ c.1 && c.1 < pa + 512 && c.1 % 8 = 1 && c.2 &&& 0x0C ≠ 0

/-- The entry that translates an access (R400, R402), `entry` reading entry `i` of its table and `base` being the physical address of
the first of its 64 aligned ones: its own, or in a broken group any of the group's. -/
def tableEntry (mem : Cells) (ps : Bool) (n tag level idx base : Nat) (entry : Nat → W64) : W64 :=
  let own := entry idx
  if anyHint mem base then
    match brokenGroups ps level idx entry with
    | [] => own
    | es => chooseFrom n tag own es
  else own

/-- What a partition-stage walk yields: page base and size, and the leaf. -/
structure Leaf where
  base : Nat
  bits : Nat
  e    : W64
  deriving DecidableEq, Repr

/-- The permissions an access needs of a leaf's W and X. -/
def wxOk (acc : Acc) (w x : Bool) : Bool := (!acc.wr || w) && (!acc.x || x)

/-- The partition-stage walk from a table (R400, R404); errors are the codes 0 invalid, 1 non-resident, 2 permission,
3 malformed of R416. -/
def walkPart (mem : Cells) (n tag : Nat) (acc : Acc) (ia : Nat) : List Nat → Nat → Except Nat Leaf
  | [], _ => .error 3
  | level :: rest, table =>
    let shift := levelShift level
    let idx := ia / 2 ^ shift % 512
    let e := tableEntry mem true n tag level idx (table + 8 * (idx - idx % 64)) fun i => readPte mem (table + 8 * i)
    if !e.getLsbD 0 then .error 0
    else if pteMalformed true level e then .error 3
    else if e.getLsbD 1 then
      if !wxOk acc (e.getLsbD 6) (e.getLsbD 7) then .error 2
      else if !e.getLsbD 2 then .error 1
      else .ok ⟨pteAddr e, shift, e⟩
    else walkPart mem n tag acc ia rest (pteAddr e)

/-- The partition stage of an IA: the whole address space as itself while it is disabled (R399). -/
def stagePart (mem : Cells) (n tag : Nat) (root : Option Nat) (acc : Acc) (ia : Nat) : Except Nat Leaf :=
  match root with
  | none => .ok ⟨ia - ia % 2 ^ 48, 48, 0xC0⟩
  | some r => walkPart mem n tag acc ia [1, 2, 3, 4] r

/-- The physical address of an IA under a partition-stage leaf. -/
def Leaf.pa (l : Leaf) (ia : Nat) : Nat := l.base + ia % 2 ^ l.bits

/-- The access a walk makes to read a table. -/
def accWalk : Acc := ⟨6, false, false, true⟩

/-- The context-stage walk (R400, R404). Every table address is an IA. -/
def walkCtx (mem : Cells) (n tag : Nat) (root2 : Option Nat) (acc : Acc) (va : Nat) : List Nat → Nat → Except XFault (Nat × W64)
  | [], _ => .error (.malformed 4)
  | level :: rest, table =>
    let shift := levelShift level
    let idx := if level = 0 then va / 2 ^ 48 % 16 else va / 2 ^ shift % 512
    let entryIa (i : Nat) := (table + 8 * i) % 2 ^ 48
    match stagePart mem n tag root2 accWalk (entryIa idx) with
    | .error c => .error (.second c true (entryIa idx))
    | .ok l2 =>
      let e := tableEntry mem false n (tag + 1) level idx (l2.pa (entryIa (idx - idx % 64))) fun i => readPte mem (l2.pa (entryIa i))
      if !e.getLsbD 0 then .error .invalid
      else if pteMalformed false level e then .error (.malformed level)
      else if e.getLsbD 1 then
        if !(wxOk acc (e.getLsbD 6) (e.getLsbD 7) && (acc.priv || e.getLsbD 8)) then .error .permission
        else if !e.getLsbD 2 then .error .nonResident
        else .ok (shift, e)
      else walkCtx mem n tag root2 acc va rest (pteAddr e)

/-- A fresh walk of both stages (R399 to R404). -/
def walkFresh (mem : Cells) (n tag : Nat) (root : Nat) (root2 : Option Nat) (acc : Acc) (va : Nat) : Except XFault Trans :=
  match walkCtx mem n tag root2 acc va [0, 1, 2, 3, 4] root with
  | .error f => .error f
  | .ok (shift, e) =>
    let ia := pteAddr e + va % 2 ^ shift
    match stagePart mem n (tag + 2) root2 acc ia with
    | .error c => .error (.second c false ia)
    | .ok l2 =>
      let bits := min shift l2.bits
      .ok { va := va - va % 2 ^ bits, bits := bits, ia := ia - ia % 2 ^ bits
            pa := l2.pa ia - l2.pa ia % 2 ^ bits
            kind := if root2.isSome then min (e.extractLsb' 4 2).toNat (l2.e.extractLsb' 4 2).toNat else (e.extractLsb' 4 2).toNat
            w := e.getLsbD 6, x := e.getLsbD 7, u := e.getLsbD 8
            w2 := l2.e.getLsbD 6, x2 := l2.e.getLsbD 7
            uc := e.getLsbD 9 || l2.e.getLsbD 9, tgeo := e.extractLsb' 48 7 }

/-- The physical address of a virtual address under a translation. -/
def Trans.paOf (t : Trans) (va : Nat) : Nat := t.pa + (va - t.va)

/-- Whether a translation covers a virtual address. -/
def Trans.covers (t : Trans) (va : Nat) : Bool := t.va ≤ va && va < t.va + 2 ^ t.bits

/-- An access through a cached translation: the permission checks alone (R406, R404). -/
def Trans.check (t : Trans) (acc : Acc) (va : Nat) : Except XFault Trans :=
  if !(wxOk acc t.w t.x && (acc.priv || t.u)) then .error .permission
  else if !wxOk acc t.w2 t.x2 then .error (.second 2 false (t.ia + (va - t.va)))
  else .ok t

/-- A context; the default where no context has the identifier. -/
def Context.none : Context := ⟨0, 0, 0, false, false, 0, Option.none, 0, 0, [], true, []⟩

/-- The context with an identifier. -/
def State.ctx? (s : State) (id : Nat) : Option Context := s.ctxs.find? fun c => c.id = id

/-- The context with an identifier, or a context that has ended. -/
def State.ctxOf (s : State) (id : Nat) : Context := (s.ctx? id).getD .none

/-- The lane block of an owner (R411). -/
def State.owner (s : State) (o : Nat) : Owner := s.owners.getD o .reset

/-- A partition. -/
def State.part (s : State) (p : Nat) : Partition := s.parts.getD p .reset

/-- The root of a partition's stage; none while it is disabled (R399, R412). -/
def State.partRoot (s : State) (p : Nat) : Option Nat :=
  let o := s.owner (1 + p)
  if o.psen then some (pteAddr o.psroot) else none

/-- The translation an access of a context takes: a fresh walk, or a cached translation that differs from it (R406). -/
def State.translate (s : State) (ctx : Nat) (acc : Acc) (va : W64) (tag : Nat) : Except XFault Trans :=
  if !canonical va then .error .address else
    let c := s.ctxOf ctx
    let fresh := walkFresh s.mem s.free (tag + 1) (c.root.toNat % 2 ^ 48) (s.partRoot c.part) acc va.toNat
    let olds := (s.tlb.filter fun e => e.ctx = ctx && e.tr.covers va.toNat).map fun e => e.tr.check acc va.toNat
    let differ := olds.filter fun o =>
      match o, fresh with
      | .ok a, .ok b => a ≠ b
      | .error a, .error b => a ≠ b
      | _, _ => true
    chooseFrom s.free tag fresh (fresh :: differ)

/-- A cached translation is kept once for its context. -/
def State.cache (s : State) (ctx : Nat) (t : Trans) : State :=
  if s.tlb.any fun e => e.ctx = ctx && e.tr = t then s else { s with tlb := ⟨ctx, t⟩ :: s.tlb }

/-- The name under which translations of a partition's stage alone are cached (R406). -/
def guestKey (p : Nat) : Nat := 4096 + p

/-- The partition whose stage a cached translation went through. -/
def State.entryPart (s : State) (c : Nat) : Option Nat := if 4096 ≤ c then some (c - 4096) else (s.ctx? c).map (·.part)

/-- The cached translations of an intermediate address of a partition, as a fresh walk would answer. -/
def State.guestOlds (s : State) (p : Nat) (wr : Bool) (ia : Nat) : List (Option Nat) :=
  (s.tlb.filter fun e => s.entryPart e.ctx = some p && e.tr.ia ≤ ia && ia < e.tr.ia + 2 ^ e.tr.bits).map fun e =>
    if wr && !e.tr.w2 then none else some (e.tr.pa + (ia - e.tr.ia))

/-- A guest-physical address of a partition as a physical address, through its partition stage (R346, R412): by a fresh walk, or by a
cached translation that differs from it (R406). -/
def State.guestPa (s : State) (p : Nat) (wr : Bool) (ia : Nat) : Option Nat :=
  if 2 ^ 48 ≤ ia then none
  else
    let fresh := match stagePart s.mem s.free 0 (s.partRoot p) ⟨4, wr, false, true⟩ ia with
      | .ok l => some (l.pa ia)
      | .error _ => none
    chooseFrom s.free (36893488147419103232 + ia / 4096) fresh (fresh :: (s.guestOlds p wr ia).filter (· ≠ fresh))

/-- An agent that uses the partition stage alone keeps its translation of an address (R406). -/
def State.cacheGuest (s : State) (p ia : Nat) : State :=
  match stagePart s.mem s.free 0 (s.partRoot p) ⟨4, false, false, true⟩ ia with
  | .ok l =>
    let lo := ia - ia % 2 ^ l.bits
    s.cache (guestKey p)
      { va := lo, bits := l.bits, ia := lo, pa := l.base, kind := 2, w := true, x := true, u := true
        w2 := l.e.getLsbD 6, x2 := l.e.getLsbD 7, uc := l.e.getLsbD 9, tgeo := 0 }
  | .error _ => s

/-- The translations of a run of guest-physical bytes kept. `fuel` bounds the pages. -/
def State.cacheGuests (s : State) (p ia n : Nat) : Nat → State
  | 0 => s
  | fuel + 1 => if n = 0 then s else (s.cacheGuest p ia).cacheGuests p (ia + min n (4096 - ia % 4096)) (n - min n (4096 - ia % 4096)) fuel

end Sys2Proof.Machine
end

