-- ==== Sys2Proof/Machine/Home.lean ====
section
/-! DEFINITION. Home slices and what they hold (R299 to R305, R477): the slice and set of a line, dirty lines with their owner
tags, and the reads and writes that are performed at a line's home. -/
namespace Sys2Proof.Machine

/-- The interleave domain of a home partition as base and m; the device domain for none, or for one that is not valid (R300). -/
def State.domain (s : State) (part : Option Nat) : Nat × Nat :=
  match part with
  | some p => if p < 8 ∧ (s.part p).layout.valid then ((s.part p).layout.dbase, (s.part p).layout.dm) else (0, 6)
  | none => (0, 6)

/-- The tile coordinates of an address on a tile-mapped page (R302). -/
def tileCoords (tgeo : BitVec 7) (pa : Nat) : Nat × Nat :=
  let a := bitField tgeo.toNat 3 3 + 7
  let b := bitField tgeo.toNat 0 3
  let t := pa / 2 ^ a
  (t % 2 ^ b, t / 2 ^ b)

/-- The slice of an address on a tile-mapped page, counted from the domain's base (R303). -/
def tileSlice (m tx ty : Nat) : Nat :=
  match m with
  | 0 => 0
  | 1 => tx % 2
  | 2 => tx % 4
  | 3 => tx % 4 + 4 * (ty % 2)
  | m => tx % 4 + 4 * (ty % 4) + 16 * ((tx / 4 + ty / 4) % 2 ^ (m - 4))

/-- The home slice of a physical address in a domain (R301, R303). -/
def homeSlice (dom : Nat × Nat) (tgeo : BitVec 7) (pa : Nat) : Nat :=
  if tgeo.getLsbD 6 then
    let (tx, ty) := tileCoords tgeo pa
    dom.1 + tileSlice dom.2 tx ty
  else
    let v := pa / 128
    let h := (bitField v 0 6) ^^^ (bitField v 6 6) ^^^ (bitField v 12 6) ^^^ (bitField v 18 6) ^^^ (bitField v 24 6) ^^^ (bitField v 30 3)
    dom.1 + h % 2 ^ dom.2

/-- The set of a physical address within its slice (R301). -/
def lineSet (pa : Nat) : Nat := (bitField pa 7 10) ^^^ (bitField pa 17 10)

/-- The owner tag of an access of no context (R477). -/
def noTag : Nat := 0xFFF

/-- The bytes of installed memory (R342). -/
def State.installed (s : State) : Nat := s.boot.gib * 2 ^ 30

/-- The bytes of memory that hold data: 31/32 of what is installed, for the inline ECC reserves 1/32 (R5). The manual does not say
where the reserve lies; it is the last part here (DESIGN CHOICE, log entry 135). -/
def State.usable (s : State) : Nat := s.boot.gib * 1040187392

/-- The 64 KiB page of a physical address. -/
def pageOf (pa : Nat) : Nat := pa / 65536

/-- The dirty line that holds a physical address, if its line is dirty. -/
def State.dirtyAt (s : State) (pa : Nat) : Option DirtyLine := s.dirty.find? fun d => d.line = pa / 128

/-- What an access by a device agent meets at a line (R465, R466, R478, R479). -/
inductive LineState where
  | ok
  | held        -- uncorrectable while dirty, or on a page held from poison to retirement
  | retired     -- on a retired page
  | badMemory   -- the read from memory is uncorrectable
  | moving      -- at a slice that holds its requests during a domain split (R445)
  deriving DecidableEq, Repr

/-- The state of the line of a physical address for a read; for a write only a held or a retired page matters. A line that is
clean in its slice is not read from memory, which the model leaves free (log entry 5). -/
def State.lineState (s : State) (rd : Bool) (tag pa : Nat) : LineState :=
  if s.storage.retired.contains (pageOf pa) then .retired
  else if s.storage.held.any fun h => h.1 = pageOf pa then .held
  else if rd && s.storage.badDirty.contains (pa / 128) && (s.dirtyAt pa).isSome then .held
  else if rd && s.storage.badMem.contains (pa / 128) && (s.dirtyAt pa).isNone && Config.freeBool s.free tag then .badMemory
  else .ok

/-- Whether a slice holds its requests: a domain split moves it (R445 step 2). -/
def State.sliceHolds (s : State) (slice : Nat) : Bool := s.mp.split.any fun x => x.stage = 2 && x.moving.contains slice

/-- The state of a line for a request homed in a domain by a mapping. -/
def State.requestState (s : State) (dom : Nat × Nat) (tgeo : BitVec 7) (rd : Bool) (tag line : Nat) : LineState :=
  if s.mp.split.isSome && s.sliceHolds (homeSlice dom tgeo (line * 128)) then .moving else s.lineState rd tag (line * 128)

/-- The ways of a slice's set that a line can take (R467). -/
def State.freeWays (s : State) (slice set : Nat) : List Nat :=
  (List.range 12).filter fun w =>
    !(s.storage.ways.contains (slice, w)) && !(s.dirty.any fun d => d.slice = slice && d.set = set && d.way = w)

/-- The ways of a slice that serve (R467). -/
def State.liveWays (s : State) (slice : Nat) : List Nat := (List.range 12).filter fun w => !(s.storage.ways.contains (slice, w))

/-- The bytes of a line's history after `old` bytes from offset `off` are written over: each offset keeps its first entries,
and a value it already has is not added. -/
def addHist (hist : List (Nat × Byte)) (off : Nat) : List Byte → List (Nat × Byte)
  | [] => hist
  | b :: bs => addHist (if hist.contains (off, b) then hist else hist ++ [(off, b)]) (off + 1) bs

/-- A request that meets a line in error is noted once (R478). -/
def State.noteMet (s : State) (m : MetLine) : State := if s.met.any (·.line = m.line) then s else { s with met := s.met ++ [m] }

/-- A dirty line in error that a write-back meets (R465, R478). -/
def metBack (line : Nat) : MetLine := ⟨line, false, noTag, true, 7, 0, 0, 0, 0⟩

/-- A clean line in error that a read or a write meets (R465, R472). -/
def metClean (line : Nat) : MetLine := ⟨line, true, noTag, false, 7, 0, 0, 0, 0⟩

/-- Clean lines with an injected error that some lines read or written are (R472): each is met, unless its slice has let it go. -/
def State.meetClean (s : State) (lines : List Nat) : State :=
  (lines.filter s.storage.badClean.contains).foldl (fun s l => s.noteMet (metClean l)) s

/-- Whether a dirty line is in error, or poisoned. -/
def State.lineBad (s : State) (d : DirtyLine) : Bool := d.poison || s.storage.badDirty.contains d.line

/-- A dirty line after a write of a writer's tag over bytes that held `old`. -/
def DirtyLine.rewrite (e : DirtyLine) (tag off : Nat) (old : List Byte) : DirtyLine :=
  { e with tag := tag, hist := addHist e.hist off old }

/-- The dirty lines in error of a set, which keep their ways. -/
def State.stuckLines (s : State) (slice set : Nat) : List DirtyLine := (s.dirty.filter fun e => e.slice = slice && e.set = set).filter s.lineBad

/-- The lines in error that the first write to a line meets at its slice (R465, R472): the line itself where it is clean, and freely,
where every way of its set is dirty, the lines in error that the slice tries to write back. -/
def State.meetAt (s : State) (slice pa : Nat) : State :=
  let t := s.meetClean [pa / 128]
  if (s.freeWays slice (lineSet pa)).isEmpty && Config.freeBool s.free (2305843009213693952 + pa / 128) then
    ((s.stuckLines slice (lineSet pa)).filter fun e => !e.poison).foldl (fun s e => s.noteMet (metBack e.line)) t
  else t

/-- A write to part of one line, performed at its home (R477): the line is dirty from then on with the writer's tag. A slice
whose ways are all quarantined holds nothing dirty (R467); a set whose ways are all dirty writes one of them back first, and may
so meet a line in error, which stays; where no other way is left the write goes to memory (log entry 122). -/
def State.touchLine (s : State) (tag slice pa : Nat) (old : List Byte) : State :=
  match s.dirtyAt pa with
  | some _ =>
    { s with dirty := updateWhere (·.line = pa / 128) (fun e => e.rewrite tag (pa % 128) old) s.dirty }
  | none =>
    let set := lineSet pa
    match (s.liveWays slice).filter fun w => !(s.stuckLines slice set).any (·.way = w) with
    | [] => s.meetAt slice pa
    | w0 :: _ =>
      let way := chooseFrom s.free (pa / 128) w0 (s.freeWays slice set)
      let keep := s.dirty.filter fun e => !(e.slice = slice && e.set = set && e.way = way)
      { s.meetAt slice pa with dirty := ⟨pa / 128, slice, set, way, tag, false, addHist [] (pa % 128) old⟩ :: keep }

/-- A write at a slice noted with its line (R305). -/
def noteHome (l : List HomeLine) (line slice : Nat) : List HomeLine :=
  if l.any (·.line = line) then updateWhere (·.line = line) (fun h => { h with slice := slice, mixed := h.mixed || h.slice ≠ slice }) l
  else ⟨line, slice, false⟩ :: l

/-- The bytes that a write of a step changes join the past. -/
def addPast (step : Nat) (past : List PastByte) (pa : Nat) : List Byte → List Byte → List PastByte
  | o :: os, b :: bs =>
    if o = b then addPast step past (pa + 1) os bs else ⟨pa, o, step, 0, none⟩ :: addPast step past (pa + 1) os bs
  | _, _ => past

/-- A write that is performed at a given slice: the bytes are visible to every agent from now on. Bytes beyond the usable
memory are discarded (log entry 6). A page that ends inside the run is not crossed: callers split at lines. -/
def State.writeAt (s : State) (tag slice pa : Nat) (bs : List Byte) : State :=
  if bs.isEmpty || s.usable < pa + bs.length then s
  else
    let old := s.mem.readRun pa bs.length
    ({ s with mem := s.mem.writeRun pa bs, past := addPast s.free s.past pa old bs, homes := noteHome s.homes (pa / 128) slice } :
      State).touchLine tag slice pa old

/-- A run of bytes cut at line boundaries: each piece's address and bytes. `fuel` bounds the pieces. -/
def splitLines : Nat → Nat → List Byte → List (Nat × List Byte)
  | _, _, [] => []
  | 0, _, _ => []
  | fuel + 1, pa, bs =>
    let n := 128 - pa % 128
    (pa, bs.take n) :: splitLines fuel (pa + n) (bs.drop n)

/-- A write performed at the home slices of its lines in a domain. -/
def State.homeWrite (s : State) (tag : Nat) (dom : Nat × Nat) (tgeo : BitVec 7) (pa : Nat) (bs : List Byte) : State :=
  (splitLines (bs.length / 128 + 2) pa bs).foldl (fun s p => s.writeAt tag (homeSlice dom tgeo p.1) p.1 p.2) s

/-- A read answered from the home slices. Bytes beyond the usable memory are free values (log entry 6). -/
def State.homeRead (s : State) (tag pa : Nat) : Nat → List Byte
  | 0 => []
  | n + 1 =>
    (if pa < s.usable then s.mem.read pa else (Config.freeW32 s.free (tag + n)).setWidth 8) :: State.homeRead s tag (pa + 1) n

/-- Whether the line of an address has been written at another slice than the one given (R305). -/
def State.aliasedAt (s : State) (slice pa : Nat) : Bool := s.homes.any fun h => h.line = pa / 128 && (h.mixed || h.slice ≠ slice)

/-- Bytes read at some slices (R305): where a line has been written at two slices, or at another one, each byte is freely the one
read or any that its location has held. -/
def State.aliased (s : State) (tag : Nat) (slice : Nat → Nat) (pa : Nat) (bs : List Byte) : List Byte :=
  bs.mapIdx fun i b =>
    if s.aliasedAt (slice (pa + i)) (pa + i) then
      chooseFrom s.free (tag + pa + i) b (b :: (s.past.filter (·.pa = pa + i)).map (·.val))
    else b

/-- A read answered from the home slices of a domain (R300, R305). -/
def State.domainRead (s : State) (tag : Nat) (dom : Nat × Nat) (tgeo : BitVec 7) (pa n : Nat) : List Byte :=
  s.aliased (tag + 288230376151711744) (homeSlice dom tgeo) pa (s.homeRead tag pa n)

/-- Lines whose copies are gone from every slice: whatever slice is asked next, it fetches them from memory. -/
def State.forgetHomes (s : State) (p : HomeLine → Bool) : State := { s with homes := s.homes.filter fun h => !p h }

/-- A line's bytes in memory since its last write-back: for each offset the oldest byte of its history. -/
def DirtyLine.restore (d : DirtyLine) (m : Cells) : Cells :=
  d.hist.reverse.foldl (fun m h => m.write (d.line * 128 + h.1) h.2) m

/-- Lines written back to memory: they stay as they are and are no longer dirty, but for a line in error, which the write-back
meets (R465, R448). -/
def State.writeBack (s : State) (p : DirtyLine → Bool) : State :=
  let bad := s.dirty.filter fun d => p d && !d.poison && s.lineBad d
  bad.foldl (fun s d => s.noteMet (metBack d.line)) { s with dirty := s.dirty.filter fun d => !p d || s.lineBad d }

/-- The value of each of a base die's and the other dies' counters (R3, R362), `d` as the offset table numbers the dies. -/
def State.dieTime (s : State) (d : Nat) : W64 := BitVec.ofNat 64 (s.now + s.boot.phase.getD d 0)

/-- The place of the present time in the schedule period, in µs (R373). -/
def State.periodTime (s : State) : Nat := if s.boot.period = 0 then 0 else s.now / 100 % s.boot.period

/-- Whether the present time lies in a partition's window (R373). -/
def State.inWindow (s : State) (p : Nat) : Bool :=
  let l := (s.part p).layout
  l.wlen = s.boot.period || (l.woff ≤ s.periodTime && s.periodTime < l.woff + l.wlen)

/-- The die of a core in the offset table's numbering (R362, R60). -/
def coreDie (core : Nat) : Nat := 1 + core / 24

/-- The value of a byte before the writes of a step: that of the earliest change since, or the present one. -/
def State.byteAsOf (s : State) (step pa : Nat) : Byte :=
  (s.past.foldl (fun (best : Nat × Byte) p =>
    if p.pa = pa ∧ step ≤ p.at_ ∧ p.at_ ≤ best.1 then (p.at_, p.val) else best) (s.free + 1, s.mem.read pa)).2

/-- The present bytes at some addresses, and each earlier version of them all since a step (R115, R123). -/
def State.versions (s : State) (since : Nat) (pas : List Nat) : List (List Byte) :=
  let steps := ((s.past.filter fun p => since ≤ p.at_ && pas.contains p.pa).map (·.at_)).eraseDups
  pas.map s.mem.read :: steps.map fun k => pas.map (s.byteAsOf k)

/-- One version of some bytes since a step (R115, R123), never a mix; beyond the usable memory, and in the paired device's, they
are free (log entry 6). `slice` homes them (R305). -/
def State.oneVersion (s : State) (tag since : Nat) (slice : Nat → Nat) (pas : List Nat) : List Byte :=
  if pas.all (· < s.usable) then
    chooseFrom s.free tag [] (s.versions (if pas.any fun pa => s.aliasedAt (slice pa) pa then 0 else since) pas)
  else pas.map fun pa => (Config.freeW32 s.free (tag + 576460752303423488 + pa)).setWidth 8

/-- The values a byte has held since a step, the present one first (R200). -/
def State.valuesSince (s : State) (since pa : Nat) : List Byte :=
  s.mem.read pa :: (s.past.filter fun p => since ≤ p.at_ && p.pa = pa).map (·.val)

end Sys2Proof.Machine
end

