-- ==== Sys2Proof/Machine/Records.lean ====
section
/-! DEFINITION. The delivery lanes (R411 to R416, R471, R344): building a record, the fatal and the replayable ring of an owner,
and the interrupt vectors they raise. -/
namespace Sys2Proof.Machine

/-- The fields of a record that its producer fills (R415). -/
structure Rec where
  kind  : Nat
  agent : Nat := 0
  die   : Nat := 0
  ctx   : Option Nat := none
  part  : Nat := 0
  va    : W64 := 0
  pa    : Nat := 0
  synd  : W32 := 0
  loc   : W32 := 0
  pc    : W64 := 0
  info  : W64 := 0
  deriving DecidableEq, Repr

/-- The low and high words of a 64-bit field. -/
def splitWide (x : W64) : List W32 := [x.setWidth 32, x.extractLsb' 32 32]

/-- A record as its sixteen words (R415). -/
def Rec.words (r : Rec) (fatal : Bool) (sq : W32) (time : W64) : LaneRec :=
  let w0 := r.kind % 256 + 256 * fatal.toNat + 512 * (r.agent % 8) + 4096 * (r.die % 16) + 65536 * (r.ctx.getD 0xFFF % 4096)
    + 268435456 * (r.part % 8)
  [BitVec.ofNat 32 w0, sq] ++ splitWide time ++ splitWide r.va ++ splitWide (BitVec.ofNat 64 (r.pa % 2 ^ 48))
    ++ [r.synd, r.loc] ++ splitWide r.pc ++ splitWide r.info ++ [0, 0]

/-- The LOC field (R415). -/
def locWord (core wslot lane bslot : Nat) : W32 :=
  BitVec.ofNat 32 (core % 128 + 128 * (wslot % 64) + 8192 * (lane % 32) + 262144 * (bslot % 64))

/-- The LOC of a record that ERR_INJECT caused (R471). -/
def injectedLoc (loc : W32) : W32 := loc ||| 0x80000000

/-- One owner's lane block changed. -/
def State.setOwner (s : State) (o : Nat) (f : Owner → Owner) : State := { s with owners := updateAt s.owners o f }

/-- A raised MSI-X vector (R344). -/
def State.raise (s : State) (fn : Fn) (v : Nat) : State := { s with vectors := s.vectors ++ [(fn, v)] }

/-- Whether virtual function `p` serves owner 1 + p (R411, R339). -/
def State.vfOn (s : State) (p : Nat) : Bool := p < s.boot.numVfs

/-- The vector of a record that enters a lane of an owner (R344): VF vector 2 is for the fatal records that name a context. Log entry
7. -/
def State.raiseLane (s : State) (o : Nat) (fatal named : Bool) : State :=
  if 1 ≤ o ∧ s.vfOn (o - 1) ∧ (!fatal || named) then s.raise (.vf (o - 1)) (if fatal then 2 else 1)
  else s.raise .pf (if fatal then 9 else 10)

/-- Whether a record names a context (R415). -/
def namesCtx (ws : LaneRec) : Bool := (ws.getD 0 0).extractLsb' 16 12 ≠ 0xFFF

/-- The interleave domain of an owner's rings (R300). -/
def State.ringDomain (s : State) (o : Nat) : Nat × Nat :=
  s.domain (if o = 0 then some s.boot.winPart else some (o - 1))

/-- A record written to a ring of `size` slots at record number `n`. -/
def State.ringWrite (s : State) (o : Nat) (base : W64) (low size : Nat) (n : W32) (ws : LaneRec) : State :=
  let b := base.toNat / 2 ^ low * 2 ^ low
  s.homeWrite noTag (s.ringDomain o) 0 ((b + 64 * (n.toNat % size)) % 2 ^ 48) (wordsBytes ws)

/-- A fatal record for an owner (R413): to the ring while it has room and no earlier record waits, else to one of the 256
slots, else dropped and counted. Its SEQ is the lane's serial. Log entry 8. -/
def State.postFatal (s : State) (o : Nat) (r : Rec) : State :=
  let w := s.owner o
  let ws := r.words true w.fseq (s.dieTime r.die)
  if w.slots.isEmpty && (w.fprod - w.fcons).toNat < 256 then
    ((s.ringWrite o w.fbase 14 256 w.fprod ws).setOwner o fun w => { w with fprod := w.fprod + 1, fseq := w.fseq + 1 }).raiseLane o true (namesCtx ws)
  else if w.slots.length < 256 then
    s.setOwner o fun w => { w with slots := w.slots ++ [ws], fseq := w.fseq + 1 }
  else s.setOwner o fun w => { w with lost := w.lost + 1 }

/-- The records waiting on die move to the ring while it has room (R413); `fuel` bounds how many. -/
def State.drainSlots (s : State) (o : Nat) : Nat → State
  | 0 => s
  | fuel + 1 =>
    let w := s.owner o
    match w.slots with
    | [] => s
    | ws :: rest =>
      if (w.fprod - w.fcons).toNat < 256 then
        (((s.ringWrite o w.fbase 14 256 w.fprod ws).setOwner o fun w => { w with fprod := w.fprod + 1, slots := rest }).raiseLane o true (namesCtx ws)).drainSlots o fuel
      else s

/-- A hardware-error record (R471): to owner 0, with a copy to the owner of the partition of the context it names. -/
def State.postHardware (s : State) (r : Rec) : State :=
  match r.ctx.bind s.ctx? with
  | some c => (s.postFatal 0 { r with part := c.part }).postFatal (1 + c.part) { r with part := c.part }
  | none => s.postFatal 0 r

/-- Whether an owner's replayable ring is full (R414). -/
def State.replayFull (s : State) (o : Nat) : Bool := 4096 ≤ ((s.owner o).rprod - (s.owner o).rcons).toNat

/-- A replayable record for an owner whose ring has room (R414): the state and the record's SEQ. `queue` names a queue whose
launch read stopped on it. -/
def State.postReplay (s : State) (o : Nat) (r : Rec) (queue : Option Nat := none) : State × W32 :=
  let w := s.owner o
  let ws := r.words false w.rseq (s.dieTime r.die)
  let out : Outstanding := ⟨w.rseq, r.kind, r.agent, r.ctx.getD 0, r.va, queue⟩
  (((s.ringWrite o w.rbase 18 4096 w.rprod ws).setOwner o fun w =>
    { w with rprod := w.rprod + 1, rseq := w.rseq + 1, open_ := w.open_ ++ [out] }).raiseLane o false true, w.rseq)

end Sys2Proof.Machine
end

