-- ==== Sys2Proof/Machine/Ops.lean ====
section
/-! DEFINITION. The named operations over threads, waves, blocks and contexts: reading and changing their records, moving PCs
with the rejoin entries (R24, R25), taking a user trap and returning from one (R268), and the records that end a context
(R417) or stop a thread until the host completes them (R414). -/
namespace Sys2Proof.Machine

/-- The lane numbers of a mask, ascending. -/
def lanesOf (m : Mask) : List Nat := (List.range 32).filter fun i => m.getLsbD i

/-- The lowest lane of a mask; 0 when it is empty. -/
def lowestLane (m : Mask) : Nat := (lanesOf m).headD 0

/-! ### Slots, threads and waves -/

/-- The thread of a slot that has one, ended or not. -/
def Slot.thread? : Slot → Option Thread
  | .empty => none
  | .exited t => some t
  | .live t => some t

/-- The live thread of an occupied slot (R20). -/
def Slot.live? : Slot → Option Thread
  | .live t => some t
  | _ => none

/-- A slot with its live thread changed. -/
def Slot.mapLive (f : Thread → Thread) : Slot → Slot
  | .live t => .live (f t)
  | x => x

/-- A slot whose thread has ended (R20, R161): it keeps its registers (R52). -/
def Slot.kill : Slot → Slot
  | .live t => .exited t
  | x => x

/-- The slot of a lane. -/
def Wave.slot (w : Wave) (i : Nat) : Slot := w.slots.getD i .empty

/-- The thread of a lane, ended or not. -/
def Wave.thread? (w : Wave) (i : Nat) : Option Thread := (w.slot i).thread?

/-- The live thread of a lane. -/
def Wave.live? (w : Wave) (i : Nat) : Option Thread := (w.slot i).live?

/-- The occupied slots (R20). -/
def Wave.occupied (w : Wave) : Mask := bitsWhere fun i => (w.live? i).isSome

/-- A wave with the live threads of the lanes of a mask changed. -/
def Wave.mapLanes (w : Wave) (m : Mask) (f : Nat → Thread → Thread) : Wave :=
  { w with slots := w.slots.mapIdx fun i x => if m.getLsbD i then x.mapLive (f i) else x }

/-- The live threads of a wave, changed. -/
def Wave.mapAll (w : Wave) (f : Thread → Thread) : Wave := { w with slots := w.slots.map (Slot.mapLive f) }

/-- A register of a thread; v0 reads zero (R50). -/
def Thread.reg (t : Thread) (r : Nat) : W32 := if r = 0 then 0 else t.regs.getD r 0

/-- A thread with a register written; writes to v0 are discarded (R50). -/
def Thread.setReg (t : Thread) (r : Nat) (v : W32) : Thread := if r = 0 then t else { t with regs := t.regs.set r v }

/-- A thread with consecutive registers written, the lowest first. -/
def Thread.setRegs (t : Thread) (r : Nat) : List W32 → Thread
  | [] => t
  | v :: vs => (t.setReg r v).setRegs (r + 1) vs

/-- The wave in a wave slot of a core. -/
def State.wave? (s : State) (core wslot : Nat) : Option Wave := s.waves.find? fun w => w.core = core && w.wslot = wslot

/-- The wave slot's wave changed. -/
def State.mapWave (s : State) (core wslot : Nat) (f : Wave → Wave) : State :=
  { s with waves := updateWhere (fun w => w.core = core && w.wslot = wslot) f s.waves }

/-- A core's record before anything has happened on it. -/
def CoreSt.fresh (c : Nat) : CoreSt := ⟨c, [0, 0, 0, 0], [0, 0, 0, 0], none, none, [], [], [], [], [], [], [], none, 0, 0⟩

/-- A core. -/
def State.core (s : State) (c : Nat) : CoreSt := (s.cores.find? fun k => k.core = c).getD (.fresh c)

/-- A core changed. -/
def State.mapCore (s : State) (c : Nat) (f : CoreSt → CoreSt) : State :=
  if s.cores.any (·.core = c) then { s with cores := updateWhere (·.core = c) f s.cores }
  else { s with cores := f (.fresh c) :: s.cores }

/-- A block that is not there. -/
def Block.none : Block := ⟨0, 0, 0, 0, 0, 0, 0, 0, 0, .grid, 0, [], [], [], 0, 0, Option.none, 0, 0, true, [], false, false⟩

/-- The block with a key. -/
def State.block? (s : State) (k : Nat) : Option Block := s.blocks.find? fun b => b.key = k

/-- The block with a key, or one that is not there. -/
def State.blockOf (s : State) (k : Nat) : Block := (s.block? k).getD .none

/-- A block changed. -/
def State.mapBlock (s : State) (k : Nat) (f : Block → Block) : State := { s with blocks := updateWhere (·.key = k) f s.blocks }

/-- A launch that is not there. -/
def Launch.none : Launch := ⟨0, 0, 0, Option.none, 0, [], 0, 0, false, Option.none, 0, 0, 0, Option.none, 0, 0, 0, 0, Option.none, false⟩

/-- The launch with a key. -/
def State.launchOf (s : State) (k : Nat) : Launch := (s.launches.find? fun l => l.key = k).getD .none

/-- A launch changed. -/
def State.mapLaunch (s : State) (k : Nat) (f : Launch → Launch) : State := { s with launches := updateWhere (·.key = k) f s.launches }

/-- A context changed. -/
def State.mapCtx (s : State) (c : Nat) (f : Context → Context) : State := { s with ctxs := updateWhere (·.id = c) f s.ctxs }

/-- A partition changed. -/
def State.mapPart (s : State) (p : Nat) (f : Partition → Partition) : State := { s with parts := updateAt s.parts p f }

/-- The fields of a launch record that running threads use (R37): POOL, PARAM, ENTRY, and the field layout of s.wlay. -/
def Launch.pool (l : Launch) : W64 := wideAt l.words 8
/-- PARAM. -/
def Launch.param (l : Launch) : W64 := wideAt l.words 10
/-- The six-bit field widths of R36. -/
def Launch.wlay (l : Launch) : W32 := wordAt l.words 1 &&& 0x3FFFFFFF

/-! ### Rejoin entries -/

/-- Whether a thread is in scope of an entry (R25): M aside. -/
def Rejoin.inScope (e : Rejoin) (t : Thread) : Bool :=
  e.d.toNat < t.depth.toNat || (t.depth = e.d && e.a.toNat ≤ t.pc.toNat && t.pc.toNat ≤ e.t.toNat)

/-- Whether a thread stands at an entry's target at its depth (R25). -/
def Rejoin.reached (e : Rejoin) (t : Thread) : Bool := t.depth = e.d && t.pc = e.t

/-- A disarmed entry. -/
def Rejoin.disarm (e : Rejoin) : Rejoin := { e with armed := false, held := 0 }

/-- Whether a slot stays in an entry's M when the lanes `moved` change (R25): its thread is there still, and did not leave the
entry's scope by the change. -/
def Rejoin.keeps (e : Rejoin) (before after : Option Thread) (moved : Bool) : Bool :=
  match after with
  | .none => false
  | some t => !moved || e.reached t || e.inScope t || !(before.any e.inScope)

/-- An entry after the threads of the lanes `moved` have new PCs or depths (R25): a thread that reached the target is held; one
that the change took out of scope, or that has ended or been filed, leaves M; and when every slot left in M is held the entry
disarms, which releases them. Log entry 17. -/
def Rejoin.advance (e : Rejoin) (before after : Nat → Option Thread) (moved : Mask) : Rejoin :=
  if !e.armed then e else
    let m : Mask := bitsWhere fun i => e.m.getLsbD i && e.keeps (before i) (after i) (moved.getLsbD i)
    let held : Mask := bitsWhere fun i =>
      m.getLsbD i && (if moved.getLsbD i then (after i).any e.reached else e.held.getLsbD i)
    if m = held then { e with armed := false, m := m, held := 0 } else { e with m := m, held := held }

/-- Whether a lane is held at a rejoin entry (R22, R25). -/
def Wave.isHeld (w : Wave) (i : Nat) : Bool := w.rejoin.any fun e => e.armed && e.held.getLsbD i

/-- A wave whose entries take account of a change of its threads from those of `old` in the lanes `moved`. -/
def Wave.rejoinFrom (w old : Wave) (moved : Mask) : Wave :=
  { w with rejoin := w.rejoin.map fun e => e.advance old.live? w.live? moved }

/-- A wave whose live threads of a mask are changed in a way that may move their PCs or call depths (R25). -/
def Wave.transfer (w : Wave) (m : Mask) (f : Nat → Thread → Thread) : Wave := (w.mapLanes m f).rejoinFrom w m

/-- The next PC of sequential issue (R23). -/
def nextPc (pc : W64) : W64 := pc + 12

/-- The lanes of a mask advance by one instruction. -/
def Wave.advance (w : Wave) (m : Mask) (pc : W64) : Wave := w.transfer m fun _ t => { t with pc := nextPc pc }

/-- The threads of the lanes of a mask end (R20, R161). -/
def Wave.endLanes (w : Wave) (m : Mask) : Wave :=
  ({ w with slots := w.slots.mapIdx fun i x => if m.getLsbD i then x.kill else x } : Wave).rejoinFrom w m

/-- The threads of the lanes of a mask leave the wave, as filed threads do (R27). R20 and R27 do not say what their slots hold then: they
are empty, as slots that never held a thread (DESIGN CHOICE, log entry 144). -/
def Wave.removeLanes (w : Wave) (m : Mask) : Wave :=
  ({ w with slots := w.slots.mapIdx fun i x => if m.getLsbD i then .empty else x } : Wave).rejoinFrom w m

/-- rejoin's arming of an entry (R24): the entry whose target is `t`, else the lowest disarmed entry, else the oldest, which
first releases its threads. -/
def armRejoin (entries : List Rejoin) (t : W64) (m : Mask) (a : W64) (d : W16) : List Rejoin :=
  let newest := entries.foldl (fun n e => if e.armed then max n (e.order + 1) else n) 0
  match entries.findIdx? (fun e => e.armed && e.t = t) with
  | some k => updateAt entries k fun e => ⟨true, t, m, a, d, newest, e.held &&& m⟩
  | none =>
    match entries.findIdx? (fun e => !e.armed) with
    | some k => updateAt entries k fun _ => ⟨true, t, m, a, d, newest, 0⟩
    | none =>
      let oldest := entries.foldl (fun n e => min n e.order) newest
      match entries.findIdx? (fun e => e.order = oldest) with
      | some k => updateAt entries k fun _ => ⟨true, t, m, a, d, newest, 0⟩
      | none => entries

/-! ### Outstanding class-V results -/

/-- The results of a wave that have not returned (R57, R58). -/
def State.resultsOf (s : State) (core wslot : Nat) : List Result := s.results.filter fun r => r.core = core && r.wslot = wslot

/-- Whether a wave waits for nothing before it may pass a marker (R57). -/
def State.drained (s : State) (core wslot : Nat) : Bool := (s.resultsOf core wslot).isEmpty

/-- The outstanding writes of a register by the instructions of a thread, the oldest first. -/
def State.pendingOf (s : State) (core wslot uid r : Nat) : List RegWrite :=
  (s.resultsOf core wslot).flatMap fun x => x.lanes.flatMap fun l => if l.uid = uid then l.dsts.filter (·.reg = r) else []

/-- A register word with the bits of a mask replaced. -/
def mergeBits (old mask val : W32) : W32 := (old &&& ~~~mask) ||| (val &&& mask)

/-- A register of a thread as an instruction reads it (R50, R56): with a class-V result outstanding, the old or the new value,
freely. -/
def State.readReg (s : State) (core wslot : Nat) (t : Thread) (r tag : Nat) : W32 :=
  if r = 0 then 0 else
    let old := t.reg r
    chooseFrom s.free tag old (old :: (s.pendingOf core wslot t.uid r).map fun d => mergeBits old d.mask d.val)

/-- The outstanding writes of some registers of a thread marked as written over (R56). -/
def Result.clobber (x : Result) (uid lo n : Nat) : Result :=
  { x with lanes := x.lanes.map fun l =>
      if l.uid = uid then { l with dsts := l.dsts.map fun d => if lo ≤ d.reg && d.reg < lo + n then { d with clob := true } else d }
      else l }

/-! ### Contexts that end -/

/-- A block's entry in its core's engine state is freed (R235): the tables become empty and the tiles undefined. -/
def CoreSt.freeEngine (c : CoreSt) : CoreSt := { c with owner := none, task := none, tables := [], accs := [] }

/-- The bytes of a queue's descriptor (R375). -/
def State.queueWords (s : State) (q : Queue) : List W32 := bytesWords (s.mem.readRun q.qdesc.toNat 64)

/-- The context a queue's descriptor names (R375). -/
def State.queueCtx (s : State) (q : Queue) : Nat := bitsAt (s.queueWords q) 80 12

/-- A word of a queue's descriptor written by the queue scheduler. -/
def State.setQueueWord (s : State) (q : Queue) (k : Nat) (v : W32) : State :=
  s.homeWrite noTag (s.domain (some q.part)) 0 (q.qdesc.toNat + 4 * k) (natBytes 4 v.toNat)

/-- A queue's STATE field written (R375): 0 unbound, 1 mapped, 2 unmapped with work, 3 stopped. -/
def State.setQueueState (s : State) (q : Queue) (st : Nat) (stop : Bool) : State :=
  let w := wordAt (s.queueWords q) 5
  s.setQueueWord q 5 ((w &&& ~~~6) ||| BitVec.ofNat 32 (2 * st) ||| (if stop then 8 else 0))

/-- A queue changed. -/
def State.mapQueue (s : State) (q : Nat) (f : Queue → Queue) : State := { s with queues := updateWhere (·.q = q) f s.queues }

/-- The queues that satisfy a condition are stopped (R417, R394): STATE 3, and no hardware slot. -/
def State.stopQueues (s : State) (p : Queue → Bool) : State :=
  (s.queues.filter p).foldl (fun s q => (s.setQueueState q 3 false).mapQueue q.q fun q => { q with slot := none, wait := none, stop := 2 }) s

/-- Whether a record queued with the HTS belongs to a context. -/
def WorkRec.ofCtx (c : Nat) : WorkRec → Bool
  | .cont _ ctx _ _ _ _ => ctx = c
  | .msg ctx _ _ _ _ => ctx = c

/-- Whether a tile task has reached a final state (R254). -/
def Task.isOver (t : Task) : Bool := t.state = .done || t.state = .failed || t.state = .killed

/-- Everything that runs or waits for a context is discarded (R417): its waves, blocks, bins, images, launches, commands, tile
tasks, rays, draws and queued records; the engines its blocks owned are free. -/
def State.discardCtx (s : State) (c : Nat) : State :=
  let mine (k : Nat) : Bool := (s.blockOf k).ctx = c
  let lau (k : Nat) : Bool := (s.launchOf k).ctx = c
  let task (k : Nat) (t : W32) : Bool := s.tasks.any fun x => x.tok = t && x.ctx = c && x.core = some k
  { s with
    waves := s.waves.filter fun w => !lau w.launch
    results := s.results.filter fun r => !((s.wave? r.core r.wslot).any fun w => lau w.launch)
    blocks := s.blocks.filter fun b => b.ctx ≠ c
    launches := s.launches.filter fun l => l.ctx ≠ c
    cmds := s.cmds.filter fun d => d.ctx ≠ c
    tasks := updateWhere (fun t => t.ctx = c && !t.isOver) (fun t => { t with state := .killed, core := none, wait := none }) s.tasks
    rays := s.rays.filter fun r => r.ctx ≠ c
    images := s.images.map fun i => { i with waves := i.waves.filter (fun w => !lau w.launch), bins := i.bins.filter fun b => !lau b.launch }
    cores := s.cores.map fun k =>
      let k := if k.owner.any mine || k.task.any (task k.core) then k.freeEngine else k
      { k with bins := k.bins.filter (fun b => !lau b.launch), hits := k.hits.filter fun h => !lau h.launch }
    parts := s.parts.map fun p =>
      { p with work := p.work.filter fun r => !r.ofCtx c
               render := if p.render.dctx = c then { p.render with ridx := none, wait := none } else p.render }
    display := { s.display with draws := s.display.draws.filter fun d => d.ctx ≠ c } }

/-- A record on the fatal lane for a context that goes on. -/
def State.notice (s : State) (c : Nat) (r : Rec) : State :=
  let p := (s.ctxOf c).part
  s.postFatal (1 + p) { r with ctx := some c, part := p }

/-- The messages queued for a context that ends are undeliverable (R230, R233): a record for each sender of this device. -/
def State.refuseMessages (s : State) (c : Nat) : State :=
  let senders := (s.parts.flatMap (·.work)).filterMap fun r => match r with
    | .msg ctx ws _ _ _ => if ctx = c && bitsAt ws 100 1 = 0 then some (bitsAt ws 88 12) else none
    | _ => none
  let s : State := { s with parts := s.parts.map fun p => { p with work := p.work.filter fun r => match r with
    | .msg ctx _ _ _ _ => ctx ≠ c
    | _ => true } }
  senders.foldl (fun s k => s.notice k { kind := 0x37, agent := 2 }) s

/-- A context ends (R417): its work is discarded, the messages queued for it are undeliverable, its queues are stopped and its dirty
lines are written back; its identifier stays allocated. -/
def State.endContext (s : State) (c : Nat) : State :=
  match s.ctx? c with
  | none => s
  | some x =>
    if x.ended then s else
      ((((s.refuseMessages c).discardCtx c).stopQueues fun q => s.queueCtx q = c).writeBack fun d => d.tag = c).mapCtx c fun x => { x with ended := true }

/-- A record that ends a context (R416, R417): written to its partition's host, and then the context ends. -/
def State.fatal (s : State) (c : Nat) (r : Rec) : State :=
  let p := (s.ctxOf c).part
  (s.postFatal (1 + p) { r with ctx := some c, part := p }).endContext c

/-- A hardware-error record that ends a context (R465, R466, R471). -/
def State.fatalHardware (s : State) (c : Nat) (r : Rec) : State := (s.postHardware { r with ctx := some c }).endContext c

/-! ### User traps -/

/-- A thread that enters its trap handler (R268). -/
def Thread.trapped (t : Thread) (cause synd unit : W32) (tpc : W64) : Thread :=
  { t with tpc := tpc, tcause := cause, synd := synd, unit := unit, depth := t.depth + 1, inHandler := true, pc := t.tvec,
           wait := .ready }

/-- A thread that returns from its trap handler (R268). -/
def Thread.untrapped (t : Thread) : Thread := { t with pc := t.tpc, depth := t.depth - 1, inHandler := false }

/-- A user trap of one lane once no class-V result of its wave is outstanding (R268): the thread enters its handler, or its
context ends with "unhandled" (no vector) or "nested user trap" (already in a handler). -/
def State.enterTrap (s : State) (core wslot lane : Nat) (cause synd unit : W32) (tpc : W64) : State :=
  match s.wave? core wslot with
  | none => s
  | some w =>
    match w.live? lane with
    | none => s
    | some t =>
      if t.tvec = 0 ∨ t.inHandler then
        let b := s.blockOf t.blk
        s.fatal b.ctx { kind := if t.tvec = 0 then 0x2E else 0x2F, die := coreDie core, pc := t.pc,
                        loc := locWord core wslot lane b.bslot }
      else s.mapWave core wslot fun w => w.transfer (bitsWhere (· = lane)) fun _ t => t.trapped cause synd unit tpc

/-- A user trap of one lane (R268, R58): taken now, or when the wave's class-V results have returned, for which the wave waits as at
a switch marker. -/
def State.takeTrap (s : State) (core wslot lane : Nat) (cause synd unit : W32) (tpc : W64) : State :=
  if s.drained core wslot then s.enterTrap core wslot lane cause synd unit tpc
  else s.mapWave core wslot fun w =>
    { w.mapLanes (bitsWhere (· = lane)) fun _ t => { t with wait := .trap cause synd unit tpc } with marker := true }

end Sys2Proof.Machine
end

