-- ==== Sys2Proof/Machine/Operands.lean ====
section
/-! DEFINITION. Every operand form (R120 to R126, R50, R51, R56): the issue in progress as a view of the state, the values of
its guard, register, immediate, literal, special-register and pool operands, and how an issue retires. -/
namespace Sys2Proof.Machine

/-- The issue in progress: the state, the issue set and its wave. -/
structure View where
  s  : State
  ic : IssueCtx
  w  : Wave

/-- The view of the issue in progress, when its wave is resident. -/
def State.view? (s : State) : Option View :=
  match s.cur with
  | none => none
  | some ic =>
    match s.wave? ic.core ic.wslot with
    | none => none
    | some w => some ⟨s, ic, w⟩

/-- Runs a meaning on the issue in progress. -/
def withIssue (s : State) (f : View → State) : Host.Outcome State Fault Refusal :=
  match s.view? with
  | none => .fault .noIssue
  | some v => .next (f v)

/-- The launch of the issuing threads. -/
def View.launch (v : View) : Launch := v.s.launchOf v.w.launch
/-- Their context. -/
def View.ctx (v : View) : Nat := v.launch.ctx
/-- Their partition. -/
def View.part (v : View) : Nat := v.launch.part
/-- Whether the context is privileged. -/
def View.priv (v : View) : Bool := (v.s.ctxOf v.ctx).priv

/-- The live lanes of the issue set. -/
def View.active (v : View) : Mask := v.ic.amask &&& v.w.occupied

/-- The live thread of a lane, or a thread with every register zero. -/
def Thread.blank : Thread :=
  ⟨0, 0, 0, [], 0, 0, 0, 0, 0, 0, 0, 0, 0, 0, 0, 0, false, 0, .ready, none, false, 0, false, none, false⟩

/-- The thread of a lane, ended or not; the blank thread for an empty slot. -/
def View.thread (v : View) (i : Nat) : Thread := (v.w.thread? i).getD .blank

/-- The block of a lane's thread. -/
def View.block (v : View) (i : Nat) : Block := v.s.blockOf (v.thread i).blk

/-- A tag for the free values of one read: lane, field and half (R56). -/
def readTag (lane field half : Nat) : Nat := 4096 + lane * 64 + field * 8 + half

/-- A fault injected in the read path of a register file (R472 kind 6): one bit of one row reads as given. -/
def stuckBits (inj : List Injection) (quad row lane : Nat) (x : W32) : W32 :=
  inj.foldl (fun x k =>
    let a := k.arg.toNat
    if k.kind = 6 ∧ a % 1024 = row ∧ bitField a 10 5 = lane ∧ bitField a 20 2 = quad then setBit x (bitField a 15 5) (a.testBit 22)
    else x) x

/-- The register of a slot's thread as the collector reads it (R51, R56): an empty slot reads zero. -/
def View.readSlot (v : View) (slot r tag : Nat) : W32 :=
  match v.w.thread? slot with
  | none => 0
  | some t =>
    let x := v.s.readReg v.ic.core v.ic.wslot t r tag
    if r = 0 then 0 else stuckBits (v.s.core v.ic.core).inject v.w.quad (v.w.base + r) slot x

/-- A register of a lane through a lane source (R51). -/
def View.readLane (v : View) (lane : Nat) (src : LaneSrc) (r tag : Nat) : W32 :=
  match src with
  | .own => v.readSlot lane r tag
  | .left => if lane = 0 then 0 else v.readSlot (lane - 1) r tag
  | .right => if lane = 31 then 0 else v.readSlot (lane + 1) r tag
  | .bcast => v.readSlot (lowestLane v.ic.amask) r tag

/-- Whether a lane's guard passes (R126). -/
def View.guardPasses (v : View) (g : Guard) (lane : Nat) : Bool :=
  (v.readSlot lane g.reg.toNat (readTag lane 3 0)).getLsbD g.bit.toNat = g.sense

/-- The lanes of the issue set whose guard passes. -/
def View.passing (v : View) (o : Operands) : Mask :=
  bitsWhere fun i => v.active.getLsbD i && v.guardPasses o.guard i

/-- Negate and absolute on a 32-bit operand (R121). -/
def signMods32 (ty : Ty) (neg abs : Bool) (x : W32) : W32 :=
  match ty with
  | .int =>
    let x := if abs ∧ x.msb then -x else x
    if neg then -x else x
  | .f32 =>
    let x := if abs then x &&& 0x7FFFFFFF else x
    if neg then x ^^^ 0x80000000 else x
  | .h2 =>
    let x := if abs then x &&& 0x7FFF7FFF else x
    if neg then x ^^^ 0x80008000 else x

/-- Negate and absolute on a 64-bit operand (R121). -/
def signMods64 (neg abs : Bool) (x : W64) : W64 :=
  let x := if abs ∧ x.msb then -x else x
  if neg then -x else x

/-- An immediate widened to a 32-bit operand type (R122). -/
def immValue (ty : Ty) (p : BitVec 15) : W32 :=
  match ty with
  | .int => p.signExtend 32
  | .f32 => p ++ (0 : BitVec 17)
  | .h2 => (p ++ (0 : BitVec 1)) ++ (p ++ (0 : BitVec 1))

/-- A special register of the direct-read set, in a lane (R124, R60, R61). -/
def View.direct (v : View) (lane num : Nat) : W32 :=
  let t := v.thread lane
  match num with
  | 0 => t.wid.setWidth 32
  | 1 => t.wid.extractLsb' 32 32
  | 2 => v.launch.wlay
  | 3 => BitVec.ofNat 32 lane
  | 4 => BitVec.ofNat 32 v.ic.wslot
  | 5 => BitVec.ofNat 32 (v.block lane).bslot
  | 6 => BitVec.ofNat 32 v.ic.core
  | 7 => BitVec.ofNat 32 (v.ic.core / 24)
  | 8 => BitVec.ofNat 32 v.part
  | 9 => BitVec.ofNat 32 v.ctx
  | 0x0B => v.ic.amask
  | 0x13 => t.tilex
  | 0x14 => t.tiley
  | 0x15 => t.tilez
  | _ => 0

/-- Word `half` of a special register read directly (R124): every register of the direct-read set has 32 bits, so what an operand
of several registers takes above them the manual does not state, and it is free. Log entry 12. -/
def View.specHalf (v : View) (field lane num half : Nat) : W32 :=
  if half = 0 then v.direct lane num else Config.freeW32 v.s.free (readTag lane field half)

/-- A 32-bit source operand of a lane (R120 to R125); `field` numbers the source field. -/
def View.src32 (v : View) (ty : Ty) (field : Nat) (x : Src) (lane : Nat) : W32 :=
  match x with
  | .reg r ls neg abs => signMods32 ty neg abs (v.readLane lane ls r.toNat (readTag lane field 0))
  | .imm p => immValue ty p
  | .spec n => v.direct lane n.toNat
  | .lit w => w
  | .pool _ => 0

/-- A 64-bit source operand of a lane (R120 to R125, R50). -/
def View.src64 (v : View) (field : Nat) (x : Src) (lane : Nat) : W64 :=
  match x with
  | .reg r ls neg abs =>
    signMods64 neg abs (v.readLane lane ls (r.toNat + 1) (readTag lane field 1) ++ v.readLane lane ls r.toNat (readTag lane field 0))
  | .imm p => p.signExtend 64
  | .lit w => w.signExtend 64
  | .spec n => v.specHalf field lane n.toNat 1 ++ v.specHalf field lane n.toNat 0
  | .pool _ => 0

/-- The four registers of a quad operand (R121, R124). -/
def View.srcQuad (v : View) (field : Nat) (x : Src) (lane : Nat) : List W32 :=
  match x with
  | .reg r ls _ _ => (List.range 4).map fun k => v.readLane lane ls (r.toNat + k) (readTag lane field k)
  | .spec n => (List.range 4).map fun k => v.specHalf field lane n.toNat k
  | _ => [0, 0, 0, 0]

/-- An operand by its class, as 64 bits: 32-bit operands fill the low half (R137). -/
def View.src (v : View) (f : Field) (field : Nat) (x : Src) (lane : Nat) : W64 :=
  match f.cls with
  | .g ty => (v.src32 ty field x lane).setWidth 64
  | .g64 => v.src64 field x lane
  | .r => (v.src32 .int field x lane).setWidth 64
  | .r64 => v.src64 field x lane
  | _ => 0

/-- The unsigned value of an immediate field of class i. -/
def immNat : Src → Nat
  | .imm p => p.toNat
  | _ => 0

/-- The form of an opcode under an instruction's MOD value. -/
def formOf (opc : Nat) (o : Operands) : Form :=
  match rowOf opc with
  | some row => row.form o.mod.toNat
  | none => ⟨0, fX, fX, fX⟩

/-- The signed displacement of a branch field (R122, R125). -/
def dispOf : Src → Int
  | .imm p => p.toInt
  | .lit w => w.toInt
  | _ => 0

/-- The target a displacement names (R125). -/
def dispTarget (pc : W64) (x : Src) : W64 := pc + BitVec.ofInt 64 (12 * dispOf x)

/-- The wave slot's wave of an issue changed. -/
def View.onWave (v : View) (s : State) (f : Wave → Wave) : State := s.mapWave v.ic.core v.ic.wslot f

/-- An issue is done (R57, R21): the given lanes advance by one instruction, and SW and YLD take effect. A marker with nothing
outstanding ends at once, when the step settles. -/
def View.retire (v : View) (o : Operands) (m : Mask) (s : State) : State :=
  v.onWave s fun w =>
    let w := w.advance m v.ic.pc
    { w with marker := w.marker || o.sw, skips := if o.yld then 1 else w.skips }

/-- The threads of some lanes wait, their PCs unchanged (R22). -/
def View.park (v : View) (s : State) (m : Mask) (why : Wait) : State :=
  v.onWave s fun w => w.mapLanes m fun _ t => { t with wait := why }

/-- The whole wave waits as at a switch marker, and the instruction issues again afterwards (R58). -/
def View.waitMarker (v : View) (s : State) : State := v.onWave s fun w => { w with marker := true }

/-- Whether a class-V result of the wave is outstanding. -/
def View.outstanding (v : View) : Bool := !v.s.drained v.ic.core v.ic.wslot

/-- A record of a fault of this instruction in a lane (R415). -/
def View.faultRec (v : View) (lane kind : Nat) : Rec :=
  { kind := kind, die := coreDie v.ic.core, pc := v.ic.pc, loc := locWord v.ic.core v.ic.wslot lane (v.block lane).bslot }

/-- The instruction takes a fault that is fatal to its context (R415 to R417); it has done nothing. -/
def View.fatal (v : View) (r : Rec) : State := v.s.fatal v.ctx r

/-- Stages of a meaning that can end it: an error is the state in which the instruction ended early. -/
abbrev Stage (α : Type) := Except State α

/-- The state in which a staged meaning ends. -/
def Stage.run (x : Stage State) : State :=
  match x with
  | .ok s => s
  | .error s => s

end Sys2Proof.Machine
end

