-- ==== Sys2Proof/Machine/LaneOps.lean ====
section
/-! DEFINITION. What every per-lane instruction shares (R55 to R58, R75, R140): writing a class-F result at issue, leaving a
class-V result outstanding and returning it, and the residue check of the FMA pipes (R451, R452). -/
namespace Sys2Proof.Machine

/-- What one lane of an instruction produces: the registers' new values, the lowest first, and the flags. -/
abbrev LaneOut := List W32 × FFlags

/-- A 32-bit result without flags. -/
def out32 (x : W32) : LaneOut := ([x], 0)
/-- A 64-bit result without flags. -/
def out64 (x : W64) : LaneOut := (splitWide x, 0)
/-- A 32-bit result with flags. -/
def outF (x : W32 × FFlags) : LaneOut := ([x.1], x.2)

/-- The OR of the lanes' flags (R75). -/
def orFlags (m : Mask) (f : Nat → LaneOut) : FFlags := (lanesOf m).foldl (fun a i => a ||| (f i).2) 0

/-- The outstanding writes of `n` registers from `lo` in the lanes of a mask are marked as written over (R56). -/
def View.clobber (v : View) (s : State) (m : Mask) (lo n : Nat) : State :=
  let uids := (lanesOf m).map fun i => (v.thread i).uid
  { s with results := s.results.map fun x =>
      if x.core = v.ic.core ∧ x.wslot = v.ic.wslot then uids.foldl (fun x u => x.clobber u lo n) x else x }

/-- A class-F result is written at issue in the lanes of a mask (R55). -/
def View.writeNow (v : View) (s : State) (m : Mask) (lo n : Nat) (f : Nat → LaneOut) : State :=
  let s := if v.outstanding then v.clobber s m lo n else s
  v.onWave s fun w =>
    let w := w.mapLanes m fun i t => t.setRegs lo (f i).1
    { w with fflags := w.fflags ||| orFlags m f }

/-- The register writes of a lane's values. -/
def regWrites (lo : Nat) : List W32 → List RegWrite
  | [] => []
  | x :: xs => ⟨lo, 0xFFFFFFFF, x, false⟩ :: regWrites (lo + 1) xs

/-- A class-V result is left outstanding (R55, R56). -/
def View.leaveLanes (v : View) (s : State) (ff : FFlags) (lanes : List LaneResult) : State :=
  let s := if v.outstanding then
      lanes.foldl (fun s l => l.dsts.foldl (fun s d => v.clobber s (bitsWhere (· = l.lane)) d.reg 1) s) s else s
  { s with results := s.results ++ [⟨v.ic.core, v.ic.wslot, lanes, ff, none⟩] }

/-- A class-V result is left outstanding: each lane's register writes. -/
def View.leaveResult (v : View) (s : State) (m : Mask) (ff : FFlags) (f : Nat → List RegWrite) : State :=
  v.leaveLanes s ff ((lanesOf m).map fun i => ⟨i, (v.thread i).uid, f i, []⟩)

/-- A class-V result of whole registers (R55). -/
def View.writeLater (v : View) (s : State) (m : Mask) (lo : Nat) (f : Nat → LaneOut) : State :=
  v.leaveResult s m (orFlags m f) fun i => regWrites lo (f i).1

/-- Whether the wave has 32 class-V results outstanding, so that no further class-V instruction issues (R58). -/
def View.resultsFull (v : View) : Bool := 32 ≤ (v.s.resultsOf v.ic.core v.ic.wslot).length

/-- The threads of the issue set wait for a class-V result slot (R58). -/
def View.waitSlot (v : View) : State := v.park v.s v.active (.retry .classV)

/-- One register write of a returning result (R56): where a later instruction has written the register, either value stays. -/
def Thread.takeWrite (t : Thread) (free tag : Nat) (d : RegWrite) : Thread :=
  if d.clob && Config.freeBool free tag then t else t.setReg d.reg (mergeBits (t.regs.getD d.reg 0) d.mask d.val)

/-- A result returns to a wave (R55, R75): to the threads that issued it, where they still occupy their slots (R161). -/
def Result.returnTo (x : Result) (free : Nat) (w : Wave) : Wave :=
  let w := x.lanes.foldl (fun w l => w.mapLanes (bitsWhere (· = l.lane)) fun i t =>
    if t.uid = l.uid then (l.dsts.foldl (fun t d => t.takeWrite free (readTag i 4 d.reg) d) t) else t) w
  { w with fflags := w.fflags ||| x.fflags }

/-- The remote requests that a result waits for have been answered (R361). -/
def Result.answered (x : Result) (g : Gulnos) : Gulnos :=
  { g with pending := g.pending.filter fun p => !x.lanes.any fun l => l.late.any fun y => y.1 = p.1 }

/-- The `n`th outstanding result returns. -/
def State.returnResult (s : State) (n : Nat) : State :=
  match s.results[n]? with
  | none => s
  | some x =>
    ({ s with results := s.results.eraseIdx n, gulnos := x.answered s.gulnos } : State).mapWave x.core x.wslot (x.returnTo s.free)

/-! ### The residue check of the FMA pipes -/

/-- A core moves to the front of the Ringlet rotation (R452, R454). -/
def State.moveFront (s : State) (core : Nat) : State :=
  if s.ringlet.fronts.contains core then s
  else { s with ringlet := { s.ringlet with fronts := s.ringlet.fronts ++ [core] }
                health := updateAt s.health core fun h => { h with front := true } }

/-- A saturating 16-bit count. -/
def sat16 (n : Nat) : Nat := min (n + 1) 65535

/-- A saturating 32-bit count (R474). -/
def satInc (x : W32) : W32 := if x = 0xFFFFFFFF then x else x + 1

/-- What a residue mismatch does besides its trap (R452): its record, the counters, and the rotation. -/
def State.residueNoted (s : State) (r : Rec) (core : Nat) : State :=
  let s := s.postHardware r
  ({ s with health := updateAt s.health core fun h => { h with resid := sat16 h.resid }
            telem := { s.telem with resid := satInc s.telem.resid } } : State).moveFront core

/-- The computed residue of a mismatch modulo `m` where `e` is expected (R269, R472): one more for an injected one, else any other. -/
def wrongResidue (free tag m e : Nat) (injected : Bool) : Nat :=
  (e + 1 + (if injected then 0 else Config.freeIndex free tag (m - 1))) % m

/-- The syndrome of a mod-3 mismatch (R269): the expected residue is that of the exact value the pipe checks. Where the manual does
not say how the checked value is scaled the expected residue is free (log entry 18). -/
def residueSynd (free lane : Nat) (exact : Option Int) (injected : Bool) : W32 :=
  let e : Nat := match exact with
    | some x => (x % 3).toNat
    | none => Config.freeIndex free (readTag lane 5 0) 3
  BitVec.ofNat 32 (wrongResidue free (readTag lane 5 2) 3 e injected + 8 * e + 256 * lane)

/-- s.unit of an FMA pipe (R270). -/
def fmaUnit (quad core : Nat) : W32 := BitVec.ofNat 32 (1 + 256 * quad + 65536 * core)

/-- The lanes of `p` in which a fault of the core makes an FMA-pipe instruction of a quadrant mismatch (R451, R472 kind 1). -/
def Injection.fmaLanes (k : Injection) (quad : Nat) (p : Mask) : Mask :=
  if k.arg.toNat % 4 ≠ quad ∨ p = 0 then 0
  else if k.kind = 1 then bitsWhere (· = lowestLane p)
  else if k.kind = 10 then BitVec.ofNat 32 (k.arg.toNat / 4) &&& p
  else 0

/-- The mismatch that an FMA-pipe instruction meets whose guard passes in `p`: the fault's place among the core's, the lanes, and
whether it was injected. -/
def View.fmaMismatch (v : View) (p : Mask) : Option (Nat × Mask × Bool) :=
  let l := (v.s.core v.ic.core).inject
  (l.findIdx? fun k => k.fmaLanes v.w.quad p ≠ 0).bind fun i =>
    (l[i]?).map fun k => (i, k.fmaLanes v.w.quad p, k.kind = 1)

/-- A residue mismatch (R452): each lane whose result mismatched traps with cause 2 at this instruction, which the other lanes
complete; the record names the lowest. -/
def View.residueTrap (v : View) (s : State) (x : Nat × Mask × Bool) (exact : Nat → Option Int) : State :=
  let synd (i : Nat) : W32 := residueSynd v.s.free i (exact i) x.2.2
  let l := lowestLane x.2.1
  let s := s.mapCore v.ic.core fun c => { c with inject := c.inject.eraseIdx x.1 }
  let r := v.faultRec l 0x40
  let s := s.residueNoted { r with ctx := some v.ctx, synd := synd l, loc := if x.2.2 then injectedLoc r.loc else r.loc } v.ic.core
  (lanesOf x.2.1).foldl (fun s i =>
    s.takeTrap v.ic.core v.ic.wslot i 2 (synd i) (fmaUnit v.w.quad v.ic.core) v.ic.pc) s

/-! ### The two shapes -/

/-- A class-F instruction (R55): each lane whose guard passes writes its result at issue, and the issue set advances. -/
def View.classF (v : View) (o : Operands) (n : Nat) (f : Nat → LaneOut) : State :=
  v.retire o v.active (v.writeNow v.s (v.passing o) o.dst.reg.toNat n f)

/-- A class-V instruction (R55, R58): the results of the lanes whose guard passes are outstanding, and the issue set advances. -/
def View.classV (v : View) (o : Operands) (f : Nat → LaneOut) : State :=
  if v.resultsFull then v.waitSlot
  else v.retire o v.active (v.writeLater v.s (v.passing o) o.dst.reg.toNat f)

/-- A class-F instruction whose exact values the residue check covers (R451). -/
def View.classFChecked (v : View) (o : Operands) (n : Nat) (exact : Nat → Option Int) (f : Nat → LaneOut) : State :=
  let p := v.passing o
  match v.fmaMismatch p with
  | some x => v.residueTrap (v.retire o (v.active &&& ~~~x.2.1) (v.writeNow v.s (p &&& ~~~x.2.1) o.dst.reg.toNat n f)) x exact
  | none => v.classF o n f

/-- A class-V instruction whose exact values the residue check covers (R451). -/
def View.classVChecked (v : View) (o : Operands) (f : Nat → LaneOut) : State :=
  if v.resultsFull then v.waitSlot else
    let p := v.passing o
    match v.fmaMismatch p with
    | some x =>
      v.residueTrap (v.retire o (v.active &&& ~~~x.2.1) (v.writeLater v.s (p &&& ~~~x.2.1) o.dst.reg.toNat f)) x fun _ => none
    | none => v.classV o f

end Sys2Proof.Machine
end

