-- ==== Sys2Proof/Machine/Integer.lean ====
section
/-! DEFINITION. Group 0: integer arithmetic, logic and bit fields (R141 to R147), each instruction as what it writes in one lane. -/
namespace Sys2Proof.Machine

/-- The 32-bit integer operand a of a lane. -/
def View.intA (v : View) (o : Operands) (i : Nat) : W32 := v.src32 .int 0 o.a i

/-- The 32-bit integer operand b of a lane. -/
def View.intB (v : View) (o : Operands) (i : Nat) : W32 := v.src32 .int 1 o.b i

/-- The 32-bit integer operand c of a lane. -/
def View.intC (v : View) (o : Operands) (i : Nat) : W32 := v.src32 .int 2 o.c i

/-- The 64-bit operands of a lane. -/
def View.wideA (v : View) (o : Operands) (i : Nat) : W64 := v.src64 0 o.a i

/-- The 64-bit operand b of a lane. -/
def View.wideB (v : View) (o : Operands) (i : Nat) : W64 := v.src64 1 o.b i

/-- The 64-bit operand c of a lane. -/
def View.wideC (v : View) (o : Operands) (i : Nat) : W64 := v.src64 2 o.c i

/-- The old value of the 32-bit destination of a lane, for instructions that also read it (R140). -/
def View.oldDst (v : View) (o : Operands) (i : Nat) : W32 := v.readSlot i o.dst.reg.toNat (readTag i 4 0)

/-- iadd (R142). -/
def execIadd (o : Operands) (s : State) : Host.Outcome State Fault Refusal :=
  withIssue s fun v => v.classF o 1 fun i => out32 (aluIadd o.mod.toNat (v.intA o i) (v.intB o i))

/-- isub (R142). -/
def execIsub (o : Operands) (s : State) : Host.Outcome State Fault Refusal :=
  withIssue s fun v => v.classF o 1 fun i => out32 (aluIsub o.mod.toNat (v.intA o i) (v.intB o i))

/-- iadd3 (R142). -/
def execIadd3 (o : Operands) (s : State) : Host.Outcome State Fault Refusal :=
  withIssue s fun v => v.classF o 1 fun i => out32 (aluIadd3 (v.intA o i) (v.intB o i) (v.intC o i))

/-- imul (R142). The residue check covers its exact product (R451). -/
def execImul (o : Operands) (s : State) : Host.Outcome State Fault Refusal :=
  withIssue s fun v => v.classFChecked o 1 (fun _ => none) fun i => out32 (aluImul (v.intA o i) (v.intB o i))

/-- imulh (R142). -/
def execImulh (o : Operands) (s : State) : Host.Outcome State Fault Refusal :=
  withIssue s fun v => v.classFChecked o 1 (fun i => some (asInt (modBit o.mod.toNat 0) (v.intA o i) * asInt (modBit o.mod.toNat 0) (v.intB o i))) fun i => out32 (aluImulh o.mod.toNat (v.intA o i) (v.intB o i))

/-- imad (R142). -/
def execImad (o : Operands) (s : State) : Host.Outcome State Fault Refusal :=
  withIssue s fun v => v.classFChecked o 1 (fun _ => none) fun i => out32 (aluImad (v.intA o i) (v.intB o i) (v.intC o i))

/-- imadw (R142). -/
def execImadw (o : Operands) (s : State) : Host.Outcome State Fault Refusal :=
  withIssue s fun v => v.classFChecked o 2 (fun i => some (asInt (modBit o.mod.toNat 0) (v.intA o i) * asInt (modBit o.mod.toNat 0) (v.intB o i) + (v.wideC o i).toInt)) fun i => out64 (aluImadw o.mod.toNat (v.intA o i) (v.intB o i) (v.wideC o i))

/-- imin (R142). -/
def execImin (o : Operands) (s : State) : Host.Outcome State Fault Refusal :=
  withIssue s fun v => v.classF o 1 fun i => out32 (aluImin o.mod.toNat (v.intA o i) (v.intB o i))

/-- imax (R142). -/
def execImax (o : Operands) (s : State) : Host.Outcome State Fault Refusal :=
  withIssue s fun v => v.classF o 1 fun i => out32 (aluImax o.mod.toNat (v.intA o i) (v.intB o i))

/-- iabs (R142). -/
def execIabs (o : Operands) (s : State) : Host.Outcome State Fault Refusal :=
  withIssue s fun v => v.classF o 1 fun i => out32 (aluIabs o.mod.toNat (v.intA o i))

/-- ineg (R142). -/
def execIneg (o : Operands) (s : State) : Host.Outcome State Fault Refusal :=
  withIssue s fun v => v.classF o 1 fun i => out32 (aluIneg o.mod.toNat (v.intA o i))

/-- iclamp (R142). -/
def execIclamp (o : Operands) (s : State) : Host.Outcome State Fault Refusal :=
  withIssue s fun v => v.classF o 1 fun i => out32 (aluIclamp o.mod.toNat (v.intA o i) (v.intB o i) (v.intC o i))

/-- idiv (R144). Class V (R55). -/
def execIdiv (o : Operands) (s : State) : Host.Outcome State Fault Refusal :=
  withIssue s fun v => v.classV o fun i => out32 (aluIdiv o.mod.toNat (v.intA o i) (v.intB o i))

/-- irem (R144). Class V (R55). -/
def execIrem (o : Operands) (s : State) : Host.Outcome State Fault Refusal :=
  withIssue s fun v => v.classV o fun i => out32 (aluIrem o.mod.toNat (v.intA o i) (v.intB o i))

/-- and (R145). -/
def execAndB (o : Operands) (s : State) : Host.Outcome State Fault Refusal :=
  withIssue s fun v => v.classF o 1 fun i => out32 (v.intA o i &&& v.intB o i)

/-- or (R145). -/
def execOrB (o : Operands) (s : State) : Host.Outcome State Fault Refusal :=
  withIssue s fun v => v.classF o 1 fun i => out32 (v.intA o i ||| v.intB o i)

/-- xor (R145). -/
def execXorB (o : Operands) (s : State) : Host.Outcome State Fault Refusal :=
  withIssue s fun v => v.classF o 1 fun i => out32 (v.intA o i ^^^ v.intB o i)

/-- andn (R145). -/
def execAndn (o : Operands) (s : State) : Host.Outcome State Fault Refusal :=
  withIssue s fun v => v.classF o 1 fun i => out32 (v.intA o i &&& ~~~(v.intB o i))

/-- not (R145). -/
def execNotB (o : Operands) (s : State) : Host.Outcome State Fault Refusal :=
  withIssue s fun v => v.classF o 1 fun i => out32 (~~~(v.intA o i))

/-- lop3 (R145). The old destination is its third input. -/
def execLop3 (o : Operands) (s : State) : Host.Outcome State Fault Refusal :=
  withIssue s fun v => v.classF o 1 fun i => out32 (aluLop3 (immNat o.c) (v.intA o i) (v.intB o i) (v.oldDst o i))

/-- popc (R145). -/
def execPopc (o : Operands) (s : State) : Host.Outcome State Fault Refusal :=
  withIssue s fun v => v.classF o 1 fun i => out32 (aluPopc (v.intA o i))

/-- clz (R145). -/
def execClz (o : Operands) (s : State) : Host.Outcome State Fault Refusal :=
  withIssue s fun v => v.classF o 1 fun i => out32 (aluClz (v.intA o i))

/-- ctz (R145). -/
def execCtz (o : Operands) (s : State) : Host.Outcome State Fault Refusal :=
  withIssue s fun v => v.classF o 1 fun i => out32 (aluCtz (v.intA o i))

/-- brev (R145). -/
def execBrev (o : Operands) (s : State) : Host.Outcome State Fault Refusal :=
  withIssue s fun v => v.classF o 1 fun i => out32 (aluBrev (v.intA o i))

/-- bfe (R146). -/
def execBfe (o : Operands) (s : State) : Host.Outcome State Fault Refusal :=
  withIssue s fun v => v.classF o 1 fun i => out32 (aluBfe o.mod.toNat (v.intA o i) (v.intB o i))

/-- bfi (R146). -/
def execBfi (o : Operands) (s : State) : Host.Outcome State Fault Refusal :=
  withIssue s fun v => v.classF o 1 fun i => out32 (aluBfi (v.intA o i) (v.intB o i) (v.intC o i))

/-- bperm (R147). -/
def execBperm (o : Operands) (s : State) : Host.Outcome State Fault Refusal :=
  withIssue s fun v => v.classF o 1 fun i => out32 (aluBperm (v.intA o i) (v.intB o i) (v.intC o i))

/-- dp4 (R142). -/
def execDp4 (o : Operands) (s : State) : Host.Outcome State Fault Refusal :=
  withIssue s fun v => v.classFChecked o 1 (fun i => some ((aluDp4Sum o.mod.toNat (v.intA o i) (v.intB o i)) + (v.intC o i).toInt)) fun i => out32 (aluDp4 o.mod.toNat (v.intA o i) (v.intB o i) (v.intC o i))

/-- dp2 (R142). -/
def execDp2 (o : Operands) (s : State) : Host.Outcome State Fault Refusal :=
  withIssue s fun v => v.classFChecked o 1 (fun i => some ((aluDp2Sum o.mod.toNat (v.intA o i) (v.intB o i)) + (v.intC o i).toInt)) fun i => out32 (aluDp2 o.mod.toNat (v.intA o i) (v.intB o i) (v.intC o i))

/-- sad (R142). -/
def execSad (o : Operands) (s : State) : Host.Outcome State Fault Refusal :=
  withIssue s fun v => v.classF o 1 fun i => out32 (aluSad o.mod.toNat (v.intA o i) (v.intB o i) (v.intC o i))

end Sys2Proof.Machine
end

