-- ==== Sys2Proof/Machine/Float.lean ====
section
/-! DEFINITION. Floating-point formats, exact values, the one rounding every operation uses, and the IEEE operations of R172
to R179. A value is exact until it is rounded once (R71); a NaN result is canonical (R72). -/
namespace Sys2Proof.Machine

/-- A binary floating-point format (R65): exponent bits, fraction bits, bias, whether it has infinities, and its canonical
NaN (none for e2m1). -/
structure FloatFmt where
  ebits  : Nat
  mbits  : Nat
  bias   : Nat
  hasInf : Bool
  nan    : Option Nat
  deriving DecidableEq, Repr

/-- f32. -/
def fmtF32 : FloatFmt := ⟨8, 23, 127, true, some 0x7FC00000⟩
/-- f16. -/
def fmtF16 : FloatFmt := ⟨5, 10, 15, true, some 0x7E00⟩
/-- bf16. -/
def fmtBf16 : FloatFmt := ⟨8, 7, 127, true, some 0x7FC0⟩
/-- e4m3. -/
def fmtE4m3 : FloatFmt := ⟨4, 3, 7, false, some 0x7F⟩
/-- e5m2. -/
def fmtE5m2 : FloatFmt := ⟨5, 2, 15, true, some 0x7E⟩
/-- e2m1. -/
def fmtE2m1 : FloatFmt := ⟨2, 1, 1, false, none⟩

/-- The floating-point format of a format code 0 to 5 (R63). -/
def floatFmt (code : Nat) : FloatFmt :=
  match code with
  | 0 => fmtF32 | 1 => fmtF16 | 2 => fmtBf16 | 3 => fmtE4m3 | 4 => fmtE5m2 | _ => fmtE2m1

/-- Bits of a format. -/
def FloatFmt.width (f : FloatFmt) : Nat := 1 + f.ebits + f.mbits

/-- An exact value: a NaN, an infinity, or `±num / den × 2^exp` with `den` positive. -/
inductive FVal where
  | nan (signalling : Bool)
  | inf (neg : Bool)
  | fin (neg : Bool) (num den : Nat) (exp : Int)
  deriving DecidableEq, Repr

/-- A dyadic value. -/
abbrev FVal.dy (neg : Bool) (num : Nat) (exp : Int) : FVal := .fin neg num 1 exp

/-- The zero of a sign. -/
abbrev FVal.zero (neg : Bool) : FVal := .fin neg 0 1 0

/-- Whether a value is a NaN. -/
def FVal.isNan : FVal → Bool
  | .nan _ => true
  | _ => false

/-- Whether a value is a signalling NaN. -/
def FVal.isSnan : FVal → Bool
  | .nan s => s
  | _ => false

/-- Whether a value is zero. -/
def FVal.isZero : FVal → Bool
  | .fin _ num _ _ => num = 0
  | _ => false

/-- The sign of a value; a NaN counts as positive. -/
def FVal.neg : FVal → Bool
  | .nan _ => false
  | .inf s => s
  | .fin s _ _ _ => s

/-- The value with the opposite sign. -/
def FVal.negate : FVal → FVal
  | .nan s => .nan s
  | .inf s => .inf (!s)
  | .fin s n d e => .fin (!s) n d e

/-- The magnitude of a value. -/
def FVal.mag : FVal → FVal
  | .nan s => .nan s
  | .inf _ => .inf false
  | .fin _ n d e => .fin false n d e

/-- Decoding of an encoding (R65, R66). -/
def decodeFloat (f : FloatFmt) (bits : Nat) : FVal :=
  let frac := bits % 2 ^ f.mbits
  let e := bits / 2 ^ f.mbits % 2 ^ f.ebits
  let s := bits.testBit (f.ebits + f.mbits)
  let top := 2 ^ f.ebits - 1
  if f.hasInf && e = top then
    if frac = 0 then .inf s else .nan (!frac.testBit (f.mbits - 1))
  else if !f.hasInf && f.nan.isSome && e = top && frac = 2 ^ f.mbits - 1 then .nan false
  else if e = 0 then .dy s frac (1 - (f.bias : Int) - f.mbits)
  else .dy s (frac + 2 ^ f.mbits) ((e : Int) - f.bias - f.mbits)

/-- The sign bit of a format, when `s`. -/
def signBit (f : FloatFmt) (s : Bool) : Nat := if s then 2 ^ (f.ebits + f.mbits) else 0

/-- The encoding of a canonical NaN, or of +0 where the format has none (R76). -/
def nanBits (f : FloatFmt) : Nat := f.nan.getD 0

/-- The largest finite magnitude's encoding (R65). -/
def maxBits (f : FloatFmt) : Nat :=
  if f.hasInf then 2 ^ (f.ebits + f.mbits) - 2 ^ f.mbits - 1
  else if f.nan.isSome then 2 ^ (f.ebits + f.mbits) - 2
  else 2 ^ (f.ebits + f.mbits) - 1

/-- The encoding of an infinity. -/
def infBits (f : FloatFmt) (s : Bool) : Nat := signBit f s + (2 ^ (f.ebits + f.mbits) - 2 ^ f.mbits)

/-- Whether rounding in `mode` (R71) moves a magnitude with quotient `q`, remainder `r` of divisor `d` up. -/
def roundsUp (mode : Nat) (neg : Bool) (q r d : Nat) : Bool :=
  match mode with
  | 0 => d < 2 * r || (2 * r = d && q % 2 = 1)
  | 1 => false
  | 2 => neg && r ≠ 0
  | _ => !neg && r ≠ 0

/-- ⌊log2⌋ of a positive rational `num / den`. -/
def log2Rat (num den : Nat) : Int :=
  let k : Int := (Nat.log2 num : Int) - Nat.log2 den
  -- num/den lies in (2^(k-1), 2^(k+1))
  let ge : Bool := if 0 ≤ k then den * 2 ^ k.toNat ≤ num else den ≤ num * 2 ^ (-k).toNat
  if ge then k else k - 1

/-- A positive value rounded to a multiple of `2^u`: the multiple, and whether it differs from the value. -/
def roundAt (mode : Nat) (neg : Bool) (num den : Nat) (exp u : Int) : Nat × Bool :=
  let d := exp - u
  let n' := if 0 ≤ d then num * 2 ^ d.toNat else num
  let d' := if 0 ≤ d then den else den * 2 ^ (-d).toNat
  let q := n' / d'
  let r := n' % d'
  (if roundsUp mode neg q r d' then q + 1 else q, r ≠ 0)

/-- How a magnitude beyond the largest finite value is delivered (R71, R76, R79). -/
inductive Over where
  | ieee      -- R71: infinity, or the largest finite value, by the rounding mode
  | conv      -- R76 without .sat
  | sat       -- R76 with .sat
  | drain     -- R79
  deriving DecidableEq, Repr

/-- The result and flags of a magnitude beyond the largest finite value. -/
def overflowResult (f : FloatFmt) (ov : Over) (mode : Nat) (neg : Bool) : Nat × FFlags :=
  let s := signBit f neg
  match ov with
  | .ieee =>
    let toMax := mode = 1 || (mode = 2 && !neg) || (mode = 3 && neg)
    (if toMax then s + maxBits f else infBits f neg, ffOF ||| ffNX)
  | .conv =>
    if f.hasInf then (infBits f neg, ffOF ||| ffNX)
    else if f.nan.isSome then (nanBits f, ffOF ||| ffNX)
    else (s + maxBits f, ffSAT ||| ffNX)
  | .sat => (s + maxBits f, ffSAT ||| ffNX)
  | .drain => (s + maxBits f, 0)

/-- The result and flags of an infinity (R76, R79). -/
def infResult (f : FloatFmt) (ov : Over) (neg : Bool) : Nat × FFlags :=
  let s := signBit f neg
  match ov with
  | .ieee => (infBits f neg, 0)
  | .conv =>
    if f.hasInf then (infBits f neg, 0)
    else if f.nan.isSome then (nanBits f, ffNV)
    else (s + maxBits f, ffSAT)
  | .sat => (s + maxBits f, ffSAT)
  | .drain => (if f.hasInf then infBits f neg else s + maxBits f, 0)

/-- The result and flags of a NaN: canonical (R72), with NV for a signalling one; e2m1, which has no NaN, takes +0 with NV
(R76), and without it in a drain (R79). -/
def nanResult (f : FloatFmt) (ov : Over) (signalling : Bool) : Nat × FFlags :=
  (nanBits f, if ov = .drain then 0 else if f.nan.isNone then ffNV else ffWhen signalling ffNV)

/-- A positive finite value rounded once to format `f` (R71, R74): the encoding with its sign, and the flags. Overflow and
tininess are judged on the value rounded with unbounded exponent. -/
def roundFinite (f : FloatFmt) (ov : Over) (mode : Nat) (neg : Bool) (num den : Nat) (exp : Int) : Nat × FFlags :=
  let emin : Int := 1 - (f.bias : Int)
  let top := log2Rat num den + exp
  let uFree := top - f.mbits
  let free := roundAt mode neg num den exp uFree
  -- with unbounded exponent the rounded value is free.1 × 2^uFree
  let maxF := decodeFloat f (maxBits f)
  let isOver : Bool := match maxF with
    | .fin _ mn _ me =>
      if me ≤ uFree then mn < free.1 * 2 ^ (uFree - me).toNat
      else mn * 2 ^ (me - uFree).toNat < free.1
    | _ => false
  if isOver then overflowResult f ov mode neg
  else
    let u := if emin - f.mbits ≤ uFree then uFree else emin - f.mbits
    let r := roundAt mode neg num den exp u
    -- tiny after rounding: the freely rounded value lies below 2^emin
    let tiny : Bool := top < emin - 1 || (top = emin - 1 && free.1 < 2 ^ (f.mbits + 1))
    let bits := (u - (emin - f.mbits)).toNat * 2 ^ f.mbits + r.1
    (signBit f neg + bits, ffWhen r.2 ffNX ||| ffWhen (r.2 && tiny) ffUF)

/-- Rounding of any exact value to a format. -/
def roundVal (f : FloatFmt) (ov : Over) (mode : Nat) (v : FVal) : Nat × FFlags :=
  match v with
  | .nan s => nanResult f ov s
  | .inf s => infResult f ov s
  | .fin s num den e => if num = 0 then (signBit f s, 0) else roundFinite f ov mode s num den e

/-- An f32 operand as a value. -/
def fromF32 (x : W32) : FVal := decodeFloat fmtF32 x.toNat

/-- Half `h` of a packed f16 pair. -/
def fromHalf (x : W32) (h : Nat) : FVal := decodeFloat fmtF16 (x.toNat / 2 ^ (16 * h) % 65536)

/-- NV for each signalling operand (R72). -/
def snanFlags (vs : List FVal) : FFlags := ffWhen (vs.any FVal.isSnan) ffNV

/-- The exact sum of two dyadic magnitudes with signs; the sign of an exact zero sum is that of R172: −0 under .rd, and the
common sign when both operands are zeros of one sign. -/
def addFinite (mode : Nat) (s1 : Bool) (n1 : Nat) (e1 : Int) (s2 : Bool) (n2 : Nat) (e2 : Int) : FVal :=
  let e := min e1 e2
  let x : Int := (n1 * 2 ^ (e1 - e).toNat : Nat)
  let y : Int := (n2 * 2 ^ (e2 - e).toNat : Nat)
  let z := (if s1 then -x else x) + (if s2 then -y else y)
  if z = 0 then
    if n1 = 0 ∧ n2 = 0 ∧ s1 = s2 then .zero s1 else .zero (mode = 2)
  else .dy (z < 0) z.natAbs e

/-- The exact sum of two values, with the invalid flag of ∞ − ∞. Operands are dyadic. -/
def addVal (mode : Nat) (a b : FVal) : FVal × FFlags :=
  match a, b with
  | .nan s, b => (.nan false, ffWhen (s || b.isSnan) ffNV)
  | _, .nan s => (.nan false, ffWhen s ffNV)
  | .inf s, .inf t => if s = t then (.inf s, 0) else (.nan false, ffNV)
  | .inf s, _ => (.inf s, 0)
  | _, .inf t => (.inf t, 0)
  | .fin s1 n1 _ e1, .fin s2 n2 _ e2 => (addFinite mode s1 n1 e1 s2 n2 e2, 0)

/-- The exact product of two values, with the invalid flag of 0 × ∞. -/
def mulVal (a b : FVal) : FVal × FFlags :=
  match a, b with
  | .nan s, b => (.nan false, ffWhen (s || b.isSnan) ffNV)
  | _, .nan s => (.nan false, ffWhen s ffNV)
  | .inf s, b => if b.isZero then (.nan false, ffNV) else (.inf (s ^^ b.neg), 0)
  | a, .inf t => if a.isZero then (.nan false, ffNV) else (.inf (t ^^ a.neg), 0)
  | .fin s1 n1 d1 e1, .fin s2 n2 d2 e2 => (.fin (s1 ^^ s2) (n1 * n2) (d1 * d2) (e1 + e2), 0)

/-- The exact quotient of two dyadic values, with the flags of R172. -/
def divVal (a b : FVal) : FVal × FFlags :=
  match a, b with
  | .nan s, b => (.nan false, ffWhen (s || b.isSnan) ffNV)
  | _, .nan s => (.nan false, ffWhen s ffNV)
  | .inf _, .inf _ => (.nan false, ffNV)
  | .inf s, .fin t _ _ _ => (.inf (s ^^ t), 0)
  | .fin s _ _ _, .inf t => (.zero (s ^^ t), 0)
  | .fin s1 n1 d1 e1, .fin s2 n2 d2 e2 =>
    if n2 = 0 then (if n1 = 0 then (.nan false, ffNV) else (.inf (s1 ^^ s2), ffDZ))
    else (.fin (s1 ^^ s2) (n1 * d2) (n2 * d1) (e1 - e2), 0)

/-- An exact value rounded to f32 in a mode, with the flags already raised added. -/
def toF32 (mode : Nat) (v : FVal × FFlags) : W32 × FFlags :=
  let r := roundVal fmtF32 .ieee mode v.1
  (BitVec.ofNat 32 r.1, v.2 ||| r.2)

/-- fadd (R172). -/
def fpAdd (mode : Nat) (a b : W32) : W32 × FFlags := toF32 mode (addVal mode (fromF32 a) (fromF32 b))

/-- fsub (R172): a + (−b), with a NaN b left to R72. -/
def fpSub (mode : Nat) (a b : W32) : W32 × FFlags := toF32 mode (addVal mode (fromF32 a) (fromF32 b).negate)

/-- fmul (R172). -/
def fpMul (mode : Nat) (a b : W32) : W32 × FFlags := toF32 mode (mulVal (fromF32 a) (fromF32 b))

/-- a × b + c exactly: an invalid product is invalid whatever c (R172). -/
def fmaVal (mode : Nat) (a b c : FVal) : FVal × FFlags :=
  let p := mulVal a b
  let s := addVal mode p.1 c
  (s.1, p.2 ||| s.2)

/-- fma (R172). -/
def fpFma (mode : Nat) (a b c : W32) : W32 × FFlags := toF32 mode (fmaVal mode (fromF32 a) (fromF32 b) (fromF32 c))

/-- fdiv (R172). -/
def fpDiv (mode : Nat) (a b : W32) : W32 × FFlags := toF32 mode (divVal (fromF32 a) (fromF32 b))

/-- frcp (R172). -/
def fpRcp (mode : Nat) (a : W32) : W32 × FFlags := toF32 mode (divVal (.dy false 1 0) (fromF32 a))

/-- A positive dyadic square root as a value that rounds as the exact root does at every precision below `2^-bits` of it: the
integer root of the scaled value, with half a unit added where the root is not exact. -/
def sqrtApprox (num : Nat) (exp : Int) (bits : Nat) : FVal :=
  let odd := exp % 2
  let n := num * 2 ^ (2 * bits + odd.toNat)
  let r := Nat.sqrt n
  let e := (exp - odd) / 2 - bits
  if r * r = n then .dy false r e else .dy false (2 * r + 1) (e - 1)

/-- fsqrt (R172). -/
def fpSqrt (mode : Nat) (a : W32) : W32 × FFlags :=
  match fromF32 a with
  | .nan s => toF32 mode (.nan false, ffWhen s ffNV)
  | .inf true => toF32 mode (.nan false, ffNV)
  | .inf false => toF32 mode (.inf false, 0)
  | .fin s n _ e =>
    if n = 0 then (a, 0)
    else if s then toF32 mode (.nan false, ffNV)
    else toF32 mode (sqrtApprox n e 40, 0)

/-- fldexp (R172): a × 2^b with b exact. The exponent is clamped far beyond the range of f32 on both sides, where every
result is already an overflow or below half the smallest subnormal. -/
def fpLdexp (mode : Nat) (a : W32) (b : Int) : W32 × FFlags :=
  match fromF32 a with
  | .fin s n d e => toF32 mode (.fin s n d (e + max (-1000) (min b 1000)), 0)
  | v => toF32 mode (v, snanFlags [v])

/-- The integer nearest a positive rational in a mode. -/
def roundToInt (mode : Nat) (neg : Bool) (num den : Nat) (exp : Int) : Nat × Bool := roundAt mode neg num den exp 0

/-- fround (R172): the sign of a kept, no NX. -/
def fpRound (mode : Nat) (a : W32) : W32 × FFlags :=
  match fromF32 a with
  | .fin s n d e =>
    if n = 0 then (a, 0)
    else
      let r := roundToInt mode s n d e
      (BitVec.ofNat 32 (roundVal fmtF32 .ieee mode (.dy s r.1 0)).1, 0)
  | .inf _ => (a, 0)
  | v => toF32 mode (v, snanFlags [v])

/-- ftsum (R173): the rounded sum in the low half and its exact error in the high half. Under the directed modes the exact
error need not be an f32; then its word is the free value `fr`. Log entry 14. -/
def fpTsum (mode : Nat) (fr : W32) (a b : W32) : W64 × FFlags :=
  let s := fpAdd mode a b
  let e : W32 :=
    match fromF32 s.1 with
    | .nan _ => BitVec.ofNat 32 (nanBits fmtF32)
    | .inf _ => 0
    | sv =>
      let exact := (addVal mode (fromF32 a) (fromF32 b)).1
      let d := (addVal 0 exact sv.negate).1
      if d.isZero then 0 else
        let r := toF32 0 (d, 0)
        if r.2 = 0 then r.1 else fr
  (e ++ s.1, s.2)

/-- Comparison of two values that are not NaNs: negative, zero or positive as a is below, equal to or above b. -/
def cmpVal (a b : FVal) : Int :=
  match a, b with
  | .inf s, .inf t => if s = t then 0 else if s then -1 else 1
  | .inf s, _ => if s then -1 else 1
  | _, .inf t => if t then 1 else -1
  | .fin s1 n1 d1 e1, .fin s2 n2 d2 e2 =>
    let e := min e1 e2
    let x : Int := (n1 * d2 * 2 ^ (e1 - e).toNat : Nat)
    let y : Int := (n2 * d1 * 2 ^ (e2 - e).toNat : Nat)
    (if s1 then -x else x) - (if s2 then -y else y)
  | _, _ => 0

/-- minimumNumber and maximumNumber (R73) on encodings of a format. -/
def minMaxBits (f : FloatFmt) (wantMax : Bool) (a b : Nat) : Nat × FFlags :=
  let x := decodeFloat f a
  let y := decodeFloat f b
  let fl := snanFlags [x, y]
  match x.isNan, y.isNan with
  | true, true => (nanBits f, fl)
  | true, false => (b, fl)
  | false, true => (a, fl)
  | false, false =>
    let c := cmpVal x y
    -- −0 orders below +0
    let aLess : Bool := c < 0 || (c = 0 && x.neg && !y.neg)
    (if aLess = wantMax then b else a, fl)

/-- fmin (R174). -/
def fpMin (a b : W32) : W32 × FFlags :=
  let r := minMaxBits fmtF32 false a.toNat b.toNat
  (BitVec.ofNat 32 r.1, r.2)

/-- fmax (R174). -/
def fpMax (a b : W32) : W32 × FFlags :=
  let r := minMaxBits fmtF32 true a.toNat b.toNat
  (BitVec.ofNat 32 r.1, r.2)

/-- fclamp (R174). -/
def fpClamp (a b c : W32) : W32 × FFlags :=
  let x := fpMax a b
  let y := fpMin x.1 c
  (y.1, x.2 ||| y.2)

/-- The condition of fcmp (R176) and its flags. -/
def fcmpCond (cond : Nat) (a b : W32) : Bool × FFlags :=
  let x := fromF32 a
  let y := fromF32 b
  let un := x.isNan || y.isNan
  let c := cmpVal x y
  let t : Bool := match cond with
    | 0 => !un && c = 0
    | 1 => un || c ≠ 0
    | 2 => !un && c < 0
    | 3 => !un && c ≤ 0
    | 4 => !un && 0 < c
    | 5 => !un && 0 ≤ c
    | 6 => un
    | _ => !un
  (t, snanFlags [x, y])

/-- fclass (R177). -/
def fpClass (a : W32) : W32 :=
  let x := a.toNat
  let sub := x / 8388608 % 256 = 0
  let k : Nat :=
    match fromF32 a with
    | .nan s => if s then 0 else 1
    | .inf s => if s then 2 else 9
    | .fin s n _ _ =>
      if n = 0 then (if s then 5 else 6)
      else if s then (if sub then 4 else 3)
      else (if sub then 7 else 8)
  BitVec.ofNat 32 (2 ^ k)

/-- ffrac (R178): a − ⌊a⌋ rounded toward zero. -/
def fpFrac (a : W32) : W32 × FFlags :=
  match fromF32 a with
  | .nan s => toF32 1 (.nan false, ffWhen s ffNV)
  | .inf _ => toF32 1 (.nan false, ffNV)
  | .fin s n _ e =>
    if 0 ≤ e then (0, 0)
    else
      let u := 2 ^ (-e).toNat
      let r := n % u
      let f := if s && r ≠ 0 then u - r else r
      if f = 0 then (0, 0) else toF32 1 (.dy false f e, 0)

/-- fexpo (R178). -/
def fpExpo (a : W32) : W32 :=
  match fromF32 a with
  | .nan _ => 0x80000000
  | .inf _ => 0x7FFFFFFF
  | .fin _ n _ e => if n = 0 then 0x80000000 else BitVec.ofInt 32 ((Nat.log2 n : Int) + e)

/-- A packed-half operation: `f` on each half, the flags ORed (R179). -/
def onHalves (f : Nat → Nat × FFlags) : W32 × FFlags :=
  let x := f 0
  let y := f 1
  (BitVec.ofNat 32 (x.1 % 65536 + 65536 * (y.1 % 65536)), x.2 ||| y.2)

/-- An exact value rounded to f16 in a mode, with the flags already raised added. -/
def toF16 (mode : Nat) (v : FVal × FFlags) : Nat × FFlags :=
  let r := roundVal fmtF16 .ieee mode v.1
  (r.1, v.2 ||| r.2)

/-- hfma2 (R179). -/
def fpHfma2 (mode : Nat) (a b c : W32) : W32 × FFlags :=
  onHalves fun h => toF16 mode (fmaVal mode (fromHalf a h) (fromHalf b h) (fromHalf c h))

/-- hadd2 (R179). -/
def fpHadd2 (mode : Nat) (a b : W32) : W32 × FFlags := onHalves fun h => toF16 mode (addVal mode (fromHalf a h) (fromHalf b h))

/-- hmul2 (R179). -/
def fpHmul2 (mode : Nat) (a b : W32) : W32 × FFlags := onHalves fun h => toF16 mode (mulVal (fromHalf a h) (fromHalf b h))

/-- hmin2 (R174). -/
def fpHmin2 (a b : W32) : W32 × FFlags :=
  onHalves fun h => minMaxBits fmtF16 false (a.toNat / 2 ^ (16 * h) % 65536) (b.toNat / 2 ^ (16 * h) % 65536)

/-- hmax2 (R174). -/
def fpHmax2 (a b : W32) : W32 × FFlags :=
  onHalves fun h => minMaxBits fmtF16 true (a.toNat / 2 ^ (16 * h) % 65536) (b.toNat / 2 ^ (16 * h) % 65536)

/-- fdot2 (R179, R87): two exact f16 products and an f32 addend, rounded once. The sign of an exact zero sum is taken over
the three terms: the common sign when all are zeros of one sign, else that of R172. Log entry 13. -/
def fpDot2 (mode : Nat) (a b c : W32) : W32 × FFlags :=
  let p0 := mulVal (fromHalf a 0) (fromHalf b 0)
  let p1 := mulVal (fromHalf a 1) (fromHalf b 1)
  let s := addVal mode p0.1 p1.1
  let t := addVal mode s.1 (fromF32 c)
  toF32 mode (t.1, p0.2 ||| p1.2 ||| s.2 ||| t.2)

end Sys2Proof.Machine
end

