-- ==== Sys2Proof/Machine/Transc.lean ====
section
/-! DEFINITION. The transcendental operations of R175. Each is evaluated in fixed point with 640 fraction bits and one bit
marking that the value is not exact, and then rounded once. The exact cases of R175 are separated first; every other value
is irrational, and lies further from a rounding boundary than the error of the evaluation (log entry 15). -/
namespace Sys2Proof.Machine

/-- Fraction bits of the fixed-point evaluation. -/
def fxBits : Nat := 640

/-- One in fixed point. -/
def fxOne : Nat := 2 ^ fxBits

/-- The alternating or plain series `Σ ± z^(2k+1) / (2k+1)`: `p` is the current power, `sq` the square of z. -/
def fxOddSeries (alternate : Bool) (sq : Nat) : Nat → Nat → Nat → Int → Int
  | 0, _, _, acc => acc
  | fuel + 1, k, p, acc =>
    if p = 0 then acc
    else
      let t : Int := (p / (2 * k + 1) : Nat)
      fxOddSeries alternate sq fuel (k + 1) (p * sq / fxOne) (if alternate && k % 2 = 1 then acc - t else acc + t)

/-- arctan of `1 / n` in fixed point. -/
def fxAtanInv (n : Nat) : Int := fxOddSeries true (fxOne / (n * n)) 400 0 (fxOne / n) 0

/-- π in fixed point, by Machin's formula. -/
def fxPi : Nat := (16 * fxAtanInv 5 - 4 * fxAtanInv 239).toNat

/-- artanh of a fixed-point value in (−1, 1). -/
def fxAtanh (z : Nat) : Nat := (fxOddSeries false (z * z / fxOne) 700 0 z 0).toNat

/-- ln 2 in fixed point: 2 artanh (1/3). -/
def fxLn2 : Nat := 2 * fxAtanh (fxOne / 3)

/-- exp of a non-negative fixed-point value by its series. -/
def fxExpSeries (x : Nat) : Nat → Nat → Nat → Nat → Nat
  | 0, _, _, acc => acc
  | fuel + 1, k, t, acc => if t = 0 then acc else fxExpSeries x fuel (k + 1) (t * x / fxOne / (k + 1)) (acc + t)

/-- exp of a non-negative fixed-point value. -/
def fxExp (x : Nat) : Nat := fxExpSeries x 400 0 fxOne 0

/-- The sine or cosine series from the term `t` with index `k`: terms alternate in sign. -/
def fxTrigSeries (sq : Nat) : Nat → Nat → Nat → Bool → Int → Int
  | 0, _, _, _, acc => acc
  | fuel + 1, k, t, neg, acc =>
    if t = 0 then acc
    else fxTrigSeries sq fuel (k + 2) (t * sq / fxOne / ((k + 1) * (k + 2))) (!neg) (if neg then acc - t else acc + t)

/-- sin of a fixed-point value in [0, π/4]. -/
def fxSin (x : Nat) : Nat := (fxTrigSeries (x * x / fxOne) 200 1 x false 0).toNat

/-- cos of a fixed-point value in [0, π/4]. -/
def fxCos (x : Nat) : Nat := (fxTrigSeries (x * x / fxOne) 200 0 fxOne false 0).toNat

/-- A dyadic magnitude in fixed point, floored. -/
def toFx (num : Nat) (exp : Int) : Nat :=
  let e := exp + fxBits
  if 0 ≤ e then num * 2 ^ e.toNat else num / 2 ^ (-e).toNat

/-- A fixed-point magnitude that is not exact, as a value for rounding: half a unit is added below its last bit. -/
def fxVal (neg : Bool) (x : Nat) (exp : Int) : FVal := .dy neg (2 * x + 1) (exp - fxBits - 1)

/-- sin or cos of a positive dyadic magnitude: the octant by exact reduction against π/2, then the series. -/
def trigVal (cos : Bool) (num : Nat) (exp : Int) : Bool × Nat :=
  let x := toFx num exp
  let halfPi := fxPi / 2
  let k := x / halfPi
  let r := x % halfPi
  let q := (if cos then k + 1 else k) % 4
  -- sin over the quadrant q of the angle r: even quadrants take sin r, odd ones cos r
  let useCos := q % 2 = 1
  let s := if 2 * r ≤ halfPi then (if useCos then fxCos r else fxSin r)
           else (if useCos then fxSin (halfPi - r) else fxCos (halfPi - r))
  (2 ≤ q, s)

/-- A result with the flags of its rounding to nearest (R175). -/
def toF32Rne (v : FVal) : W32 × FFlags := toF32 0 (v, 0)

/-- frsq (R175). -/
def fpRsq (a : W32) : W32 × FFlags :=
  match fromF32 a with
  | .nan s => toF32 0 (.nan false, ffWhen s ffNV)
  | .inf true => toF32 0 (.nan false, ffNV)
  | .inf false => (0, 0)
  | .fin s n _ e =>
    if n = 0 then toF32 0 (.inf s, ffDZ)
    else if s then toF32 0 (.nan false, ffNV)
    else
      -- 1/√(n·2^e) with an even exponent: ⌊√(2^(2k) / n')⌋ and a sticky half unit unless exact
      let odd := e % 2
      let n' := n * 2 ^ odd.toNat
      let k : Nat := 80
      let q := 2 ^ (2 * k) / n'
      let r := Nat.sqrt q
      let e' := -((e - odd) / 2) - k
      if r * r * n' = 2 ^ (2 * k) then toF32Rne (.dy false r e') else toF32Rne (.dy false (2 * r + 1) (e' - 1))

/-- fexp2 (R175). -/
def fpExp2 (a : W32) : W32 × FFlags :=
  match fromF32 a with
  | .nan s => toF32 0 (.nan false, ffWhen s ffNV)
  | .inf s => if s then (0, 0) else toF32 0 (.inf false, 0)
  | .fin s n _ e =>
    if n = 0 then (0x3F800000, 0)
    else if 10 ≤ (Nat.log2 n : Int) + e then
      -- |a| ≥ 1024: far beyond the range on either side
      if s then toF32Rne (.dy false 1 (-1024)) else toF32Rne (.dy false 1 1024)
    else
      let x := toFx n e
      let k := x / fxOne
      let f := x % fxOne
      if f = 0 then toF32Rne (.dy false 1 (if s then -(k : Int) else k))
      else
        -- for negative a: 2^(−k−f) = 2^(−k−1) · 2^(1−f)
        let g := if s then fxOne - f else f
        let ex : Int := if s then -(k : Int) - 1 else k
        toF32Rne (fxVal false (fxExp (g * fxLn2 / fxOne)) ex)

/-- flog2 (R175). -/
def fpLog2 (a : W32) : W32 × FFlags :=
  match fromF32 a with
  | .nan s => toF32 0 (.nan false, ffWhen s ffNV)
  | .inf s => if s then toF32 0 (.nan false, ffNV) else toF32 0 (.inf false, 0)
  | .fin s n _ e =>
    if n = 0 then toF32 0 (.inf true, ffDZ)
    else if s then toF32 0 (.nan false, ffNV)
    else
      let l := Nat.log2 n
      let k : Int := (l : Int) + e
      if n = 2 ^ l then toF32Rne (.dy (k < 0) k.natAbs 0)
      else
        -- a = 2^k · x, x in (1, 2): log2 x = 2 artanh((x−1)/(x+1)) / ln 2
        let m := 2 ^ l
        let z := (n - m) * fxOne / (n + m)
        let lx := 2 * fxAtanh z * fxOne / fxLn2
        let total : Int := k * fxOne + lx
        toF32Rne (fxVal (total < 0) (if total < 0 then total.natAbs - 1 else total.natAbs) 0)

/-- fsin and fcos (R175). -/
def fpTrig (cos : Bool) (a : W32) : W32 × FFlags :=
  match fromF32 a with
  | .nan s => toF32 0 (.nan false, ffWhen s ffNV)
  | .inf _ => toF32 0 (.nan false, ffNV)
  | .fin s n _ e =>
    if n = 0 then (if cos then 0x3F800000 else a, 0)
    else
      let r := trigVal cos n e
      toF32Rne (fxVal (if cos then r.1 else r.1 ^^ s) r.2 0)

/-- ftanh (R175). -/
def fpTanh (a : W32) : W32 × FFlags :=
  match fromF32 a with
  | .nan s => toF32 0 (.nan false, ffWhen s ffNV)
  | .inf s => (if s then 0xBF800000 else 0x3F800000, 0)
  | .fin s n _ e =>
    if n = 0 then (a, 0)
    else if 10 * fxOne ≤ toFx n e then (if s then 0xBF800000 else 0x3F800000, ffNX)
    else
      let t := fxExp (2 * toFx n e)
      toF32Rne (fxVal s ((t - fxOne) * fxOne / (t + fxOne)) 0)

end Sys2Proof.Machine
end

