-- ==== Sys2Proof/Machine/FloatOps.lean ====
section
/-! DEFINITION. Group 3: floating-point arithmetic (R171 to R179), each instruction as what it writes and which flags it sets in one lane. -/
namespace Sys2Proof.Machine

/-- The f32 operand a of a lane. -/
def View.f32A (v : View) (o : Operands) (i : Nat) : W32 := v.src32 .f32 0 o.a i

/-- The f32 operand b of a lane. -/
def View.f32B (v : View) (o : Operands) (i : Nat) : W32 := v.src32 .f32 1 o.b i

/-- The f32 operand c of a lane. -/
def View.f32C (v : View) (o : Operands) (i : Nat) : W32 := v.src32 .f32 2 o.c i

/-- The packed f16 operand a of a lane. -/
def View.h2A (v : View) (o : Operands) (i : Nat) : W32 := v.src32 .h2 0 o.a i

/-- The packed f16 operand b of a lane. -/
def View.h2B (v : View) (o : Operands) (i : Nat) : W32 := v.src32 .h2 1 o.b i

/-- The packed f16 operand c of a lane. -/
def View.h2C (v : View) (o : Operands) (i : Nat) : W32 := v.src32 .h2 2 o.c i

/-- fadd (R172). -/
def execFadd (o : Operands) (s : State) : Host.Outcome State Fault Refusal :=
  withIssue s fun v => v.classFChecked o 1 (fun _ => none) fun i => outF (fpAdd (o.mod.toNat % 4) (v.f32A o i) (v.f32B o i))

/-- fsub (R172). -/
def execFsub (o : Operands) (s : State) : Host.Outcome State Fault Refusal :=
  withIssue s fun v => v.classFChecked o 1 (fun _ => none) fun i => outF (fpSub (o.mod.toNat % 4) (v.f32A o i) (v.f32B o i))

/-- fmul (R172). -/
def execFmul (o : Operands) (s : State) : Host.Outcome State Fault Refusal :=
  withIssue s fun v => v.classFChecked o 1 (fun _ => none) fun i => outF (fpMul (o.mod.toNat % 4) (v.f32A o i) (v.f32B o i))

/-- fma (R172). -/
def execFma (o : Operands) (s : State) : Host.Outcome State Fault Refusal :=
  withIssue s fun v => v.classFChecked o 1 (fun _ => none) fun i => outF (fpFma (o.mod.toNat % 4) (v.f32A o i) (v.f32B o i) (v.f32C o i))

/-- ftsum (R173): the sum and its error. Under a directed mode an error that f32 cannot hold is free (log entry 14). -/
def execFtsum (o : Operands) (s : State) : Host.Outcome State Fault Refusal :=
  withIssue s fun v => v.classFChecked o 2 (fun _ => none) fun i =>
    let r := fpTsum (o.mod.toNat % 4) (Config.freeW32 v.s.free (readTag i 6 0)) (v.f32A o i) (v.f32B o i)
    (splitWide r.1, r.2)

/-- fmin (R174). -/
def execFmin (o : Operands) (s : State) : Host.Outcome State Fault Refusal :=
  withIssue s fun v => v.classF o 1 fun i => outF (fpMin (v.f32A o i) (v.f32B o i))

/-- fmax (R174). -/
def execFmax (o : Operands) (s : State) : Host.Outcome State Fault Refusal :=
  withIssue s fun v => v.classF o 1 fun i => outF (fpMax (v.f32A o i) (v.f32B o i))

/-- fclamp (R174). -/
def execFclamp (o : Operands) (s : State) : Host.Outcome State Fault Refusal :=
  withIssue s fun v => v.classF o 1 fun i => outF (fpClamp (v.f32A o i) (v.f32B o i) (v.f32C o i))

/-- fdiv (R172). Class V. -/
def execFdiv (o : Operands) (s : State) : Host.Outcome State Fault Refusal :=
  withIssue s fun v => v.classVChecked o fun i => outF (fpDiv (o.mod.toNat % 4) (v.f32A o i) (v.f32B o i))

/-- frcp (R172). Class V. -/
def execFrcp (o : Operands) (s : State) : Host.Outcome State Fault Refusal :=
  withIssue s fun v => v.classVChecked o fun i => outF (fpRcp (o.mod.toNat % 4) (v.f32A o i))

/-- frsq (R175). Class V. -/
def execFrsq (o : Operands) (s : State) : Host.Outcome State Fault Refusal :=
  withIssue s fun v => v.classV o fun i => outF (fpRsq (v.f32A o i))

/-- fsqrt (R172). Class V. -/
def execFsqrt (o : Operands) (s : State) : Host.Outcome State Fault Refusal :=
  withIssue s fun v => v.classVChecked o fun i => outF (fpSqrt (o.mod.toNat % 4) (v.f32A o i))

/-- fexp2 (R175). Class V. -/
def execFexp2 (o : Operands) (s : State) : Host.Outcome State Fault Refusal :=
  withIssue s fun v => v.classV o fun i => outF (fpExp2 (v.f32A o i))

/-- flog2 (R175). Class V. -/
def execFlog2 (o : Operands) (s : State) : Host.Outcome State Fault Refusal :=
  withIssue s fun v => v.classV o fun i => outF (fpLog2 (v.f32A o i))

/-- fsin (R175). Class V. -/
def execFsin (o : Operands) (s : State) : Host.Outcome State Fault Refusal :=
  withIssue s fun v => v.classV o fun i => outF (fpTrig false (v.f32A o i))

/-- fcos (R175). Class V. -/
def execFcos (o : Operands) (s : State) : Host.Outcome State Fault Refusal :=
  withIssue s fun v => v.classV o fun i => outF (fpTrig true (v.f32A o i))

/-- ftanh (R175). Class V. -/
def execFtanh (o : Operands) (s : State) : Host.Outcome State Fault Refusal :=
  withIssue s fun v => v.classV o fun i => outF (fpTanh (v.f32A o i))

/-- fcmp (R176): one bit of the destination. -/
def execFcmp (o : Operands) (s : State) : Host.Outcome State Fault Refusal :=
  withIssue s fun v => v.classF o 1 fun i =>
    let r := fcmpCond (o.mod.toNat % 8) (v.f32A o i) (v.f32B o i)
    ([combineBit (immNat o.c) (v.oldDst o i) r.1], r.2)

/-- fclass (R177). -/
def execFclass (o : Operands) (s : State) : Host.Outcome State Fault Refusal :=
  withIssue s fun v => v.classF o 1 fun i => out32 (fpClass (v.f32A o i))

/-- fround (R172). -/
def execFround (o : Operands) (s : State) : Host.Outcome State Fault Refusal :=
  withIssue s fun v => v.classF o 1 fun i => outF (fpRound (o.mod.toNat % 4) (v.f32A o i))

/-- ffrac (R178). -/
def execFfrac (o : Operands) (s : State) : Host.Outcome State Fault Refusal :=
  withIssue s fun v => v.classF o 1 fun i => outF (fpFrac (v.f32A o i))

/-- fldexp (R172). -/
def execFldexp (o : Operands) (s : State) : Host.Outcome State Fault Refusal :=
  withIssue s fun v => v.classFChecked o 1 (fun _ => none) fun i => outF (fpLdexp (o.mod.toNat % 4) (v.f32A o i) (v.intB o i).toInt)

/-- fexpo (R178). -/
def execFexpo (o : Operands) (s : State) : Host.Outcome State Fault Refusal :=
  withIssue s fun v => v.classF o 1 fun i => out32 (fpExpo (v.f32A o i))

/-- hfma2 (R179). -/
def execHfma2 (o : Operands) (s : State) : Host.Outcome State Fault Refusal :=
  withIssue s fun v => v.classFChecked o 1 (fun _ => none) fun i => outF (fpHfma2 (o.mod.toNat % 4) (v.h2A o i) (v.h2B o i) (v.h2C o i))

/-- hadd2 (R179). -/
def execHadd2 (o : Operands) (s : State) : Host.Outcome State Fault Refusal :=
  withIssue s fun v => v.classFChecked o 1 (fun _ => none) fun i => outF (fpHadd2 (o.mod.toNat % 4) (v.h2A o i) (v.h2B o i))

/-- hmul2 (R179). -/
def execHmul2 (o : Operands) (s : State) : Host.Outcome State Fault Refusal :=
  withIssue s fun v => v.classFChecked o 1 (fun _ => none) fun i => outF (fpHmul2 (o.mod.toNat % 4) (v.h2A o i) (v.h2B o i))

/-- hmin2 (R174). -/
def execHmin2 (o : Operands) (s : State) : Host.Outcome State Fault Refusal :=
  withIssue s fun v => v.classF o 1 fun i => outF (fpHmin2 (v.h2A o i) (v.h2B o i))

/-- hmax2 (R174). -/
def execHmax2 (o : Operands) (s : State) : Host.Outcome State Fault Refusal :=
  withIssue s fun v => v.classF o 1 fun i => outF (fpHmax2 (v.h2A o i) (v.h2B o i))

/-- fdot2 (R179). -/
def execFdot2 (o : Operands) (s : State) : Host.Outcome State Fault Refusal :=
  withIssue s fun v => v.classFChecked o 1 (fun _ => none) fun i => outF (fpDot2 (o.mod.toNat % 4) (v.h2A o i) (v.h2B o i) (v.f32C o i))

end Sys2Proof.Machine
end

