-- ==== Sys2Proof/Machine/CrossLane.lean ====
section
/-! DEFINITION. Group 5: the cross-lane instructions (R186 to R190, R86). -/
namespace Sys2Proof.Machine

/-- Field a read in a slot (R187): its register, whatever the slot's state, or a special register (R124), of which a pair has a
free high half (log entry 12). -/
def View.slotA (v : View) (o : Operands) (slot half : Nat) : W32 :=
  match o.a with
  | .reg r _ _ _ => v.readSlot slot (r.toNat + half) (readTag slot 0 half)
  | .spec n => v.specHalf 0 slot n.toNat half
  | _ => 0

/-- The source slot of shfl (R188); none where it lies outside the wave. -/
def shflSlot (mode i : Nat) (n : W32) : Option Nat :=
  match mode with
  | 0 => some (n.toNat % 32)
  | 1 => if n.toNat ≤ i then some (i - n.toNat) else none
  | 2 => if i + n.toNat < 32 then some (i + n.toNat) else none
  | _ => some (i ^^^ (n.toNat % 32))

/-- A lane's value of field a from a slot, as one register or a pair. -/
def View.slotOut (v : View) (o : Operands) (wide : Bool) (slot : Nat) : LaneOut :=
  if wide then ([v.slotA o slot 0, v.slotA o slot 1], 0) else ([v.slotA o slot 0], 0)

/-- shfl (R188). -/
def execShfl (o : Operands) (s : State) : Host.Outcome State Fault Refusal :=
  withIssue s fun v => v.classV o fun i =>
    v.slotOut o (modBit o.mod.toNat 2) ((shflSlot (o.mod.toNat % 4) i (v.src32 .int 1 o.b i)).getD i)

/-- bcast (R188). -/
def execBcast (o : Operands) (s : State) : Host.Outcome State Fault Refusal :=
  withIssue s fun v => v.classV o fun _ => v.slotOut o (modBit o.mod.toNat 0) (immNat o.b % 32)

/-- The slots of P whose bit k of field a is set (R189). -/
def View.ballot (v : View) (o : Operands) : Mask :=
  let p := v.passing o
  bitsWhere fun j => p.getLsbD j && (v.slotA o j 0).getLsbD (o.mod.toNat / 4)

/-- The value of vote (R189) from P and its ballot. -/
def voteValue (mode : Nat) (p b : Mask) : W32 :=
  match mode with
  | 0 => b
  | 1 => if b = 0 then 0 else 1
  | 2 => if b = p then 1 else 0
  | _ => if b = p ∨ b = 0 then 1 else 0

/-- vote (R189). -/
def execVote (o : Operands) (s : State) : Host.Outcome State Fault Refusal :=
  withIssue s fun v => v.classV o fun _ => out32 (voteValue (o.mod.toNat % 4) (v.passing o) (v.ballot o))

/-- match (R189): the slots of P whose a equals the lane's. -/
def execMatchB (o : Operands) (s : State) : Host.Outcome State Fault Refusal :=
  withIssue s fun v => v.classV o fun i =>
    out32 (bitsWhere fun j => (v.passing o).getLsbD j && v.slotOut o (modBit o.mod.toNat 0) j = v.slotOut o (modBit o.mod.toNat 0) i)

/-- An operation of a reduction step with its flags. -/
abbrev StepOp := W32 → W32 → W32 × FFlags

/-- An operation that sets no flag. -/
def quiet (f : W32 → W32 → W32) : StepOp := fun x y => (f x y, 0)

/-- One step of the butterfly at distance `d` (R86), with the flags of all slots. -/
def butterflyStep (op : StepOp) (d : Nat) (x : List W32 × FFlags) : List W32 × FFlags :=
  let r := (List.range 32).map fun i => op (x.1.getD (min i (i ^^^ d)) 0) (x.1.getD (max i (i ^^^ d)) 0)
  (r.map (·.1), r.foldl (fun f y => f ||| y.2) x.2)

/-- The butterfly of R86 over the 32 slots' values: the common result and the flags of every step. -/
def butterfly (op : StepOp) (vals : List W32) : W32 × FFlags :=
  let r := [16, 8, 4, 2, 1].foldl (fun x d => butterflyStep op d x) (vals, 0)
  (r.1.getD 0 0, r.2)

/-- One step of the inclusive scan at distance `d` (R86). A slot below `d` keeps its value as it stands, a NaN's payload included,
where R72 would make an instruction's NaN canonical (DEDUCED, log entry 131). -/
def scanStep (op : StepOp) (d : Nat) (x : List W32 × FFlags) : List W32 × FFlags :=
  let r := (List.range 32).map fun i =>
    if d ≤ i then op (x.1.getD (i - d) 0) (x.1.getD i 0) else (x.1.getD i 0, 0)
  (r.map (·.1), r.foldl (fun f y => f ||| y.2) x.2)

/-- The inclusive scan of R86: each slot's prefix and the flags of every step. -/
def scanAll (op : StepOp) (vals : List W32) : List W32 × FFlags :=
  [1, 2, 4, 8, 16].foldl (fun x d => scanStep op d x) (vals, 0)

/-- The 32 slots' values of field a, with the identity outside P (R86, R187). -/
def View.redVals (v : View) (o : Operands) (ident : W32) : List W32 :=
  let p := v.passing o
  (List.range 32).map fun i => if p.getLsbD i then v.slotA o i 0 else ident

/-- A class-V result whose flags are those of the whole operation (R75, R190). -/
def View.classVFlags (v : View) (o : Operands) (ff : FFlags) (f : Nat → W32) : State :=
  if v.resultsFull then v.waitSlot
  else v.retire o v.active (v.leaveResult v.s (v.passing o) ff fun i => regWrites o.dst.reg.toNat [f i])

/-- A reduction (R190). -/
def View.reduce (v : View) (o : Operands) (op : StepOp) (ident : W32) : State :=
  let r := butterfly op (v.redVals o ident)
  v.classVFlags o r.2 fun _ => r.1

/-- The integer minimum and maximum of R142. -/
def minMaxInt (wantMax u : Bool) : StepOp :=
  quiet fun x y => if wantMax then aluImax (if u then 1 else 0) x y else aluImin (if u then 1 else 0) x y

/-- redadd (R190). -/
def execRedadd (o : Operands) (s : State) : Host.Outcome State Fault Refusal :=
  withIssue s fun v =>
    if modBit o.mod.toNat 0 then v.reduce o (quiet (· + ·)) 0 else v.reduce o (fpAdd 0) 0x80000000

/-- redmin (R190). -/
def execRedmin (o : Operands) (s : State) : Host.Outcome State Fault Refusal :=
  withIssue s fun v =>
    match o.mod.toNat % 4 with
    | 0 => v.reduce o fpMin 0x7F800000
    | 1 => v.reduce o (minMaxInt false false) 0x7FFFFFFF
    | _ => v.reduce o (minMaxInt false true) 0xFFFFFFFF

/-- redmax (R190). -/
def execRedmax (o : Operands) (s : State) : Host.Outcome State Fault Refusal :=
  withIssue s fun v =>
    match o.mod.toNat % 4 with
    | 0 => v.reduce o fpMax 0xFF800000
    | 1 => v.reduce o (minMaxInt true false) 0x80000000
    | _ => v.reduce o (minMaxInt true true) 0

/-- The absolute maximum of R190. -/
def absMax : StepOp := fun x y => fpMax (x &&& 0x7FFFFFFF) (y &&& 0x7FFFFFFF)

/-- redabs (R190). -/
def execRedabs (o : Operands) (s : State) : Host.Outcome State Fault Refusal :=
  withIssue s fun v => v.reduce o absMax 0

/-- redbit (R190). -/
def execRedbit (o : Operands) (s : State) : Host.Outcome State Fault Refusal :=
  withIssue s fun v =>
    match o.mod.toNat % 4 with
    | 0 => v.reduce o (quiet (· &&& ·)) 0xFFFFFFFF
    | 1 => v.reduce o (quiet (· ||| ·)) 0
    | _ => v.reduce o (quiet (· ^^^ ·)) 0

/-- The operation and identity of scan (R186, R190). -/
def scanOp (op : Nat) : StepOp × W32 :=
  match op with
  | 0 => (fpAdd 0, 0x80000000)
  | 1 => (quiet (· + ·), 0)
  | 2 => (fpMin, 0x7F800000)
  | 3 => (fpMax, 0xFF800000)
  | 4 => (minMaxInt false false, 0x7FFFFFFF)
  | 5 => (minMaxInt true false, 0x80000000)
  | 6 => (quiet (· ||| ·), 0)
  | _ => (quiet (· ^^^ ·), 0)

/-- scan (R190). -/
def execScan (o : Operands) (s : State) : Host.Outcome State Fault Refusal :=
  withIssue s fun v =>
    let op := scanOp (o.mod.toNat % 8)
    let r := scanAll op.1 (v.redVals o op.2)
    v.classVFlags o r.2 fun i => r.1.getD i 0

/-- amask (R189): the issue set, or P with .g. Class F (R55). -/
def execAmask (o : Operands) (s : State) : Host.Outcome State Fault Refusal :=
  withIssue s fun v => v.classF o 1 fun _ => out32 (if modBit o.mod.toNat 0 then v.passing o else v.ic.amask)

end Sys2Proof.Machine
end

