-- ==== Sys2Proof/Machine/MemAccess.lean ====
section
/-! DEFINITION. Accesses to memory by threads (R88 to R106, R404, R457, R465, R479): checking and translating every lane's bytes
before any lane performs, what a core's loads see, and writes on their way to their home slices. -/
namespace Sys2Proof.Machine

/-- A part of a lane's access on one page (R92): the lane, the virtual address, the offset in the access and the length, and
the translation; none for a non-resident page that a flagged load reads as zero (R196). -/
structure Piece where
  lane : Nat
  va   : W64
  off  : Nat
  len  : Nat
  tr   : Option Trans
  deriving DecidableEq, Repr

/-- The physical address of a piece. -/
def Piece.pa (p : Piece) : Nat := (p.tr.map fun t => t.paOf p.va.toNat).getD 0

/-- The pages an access of `n` bytes touches (R89, R92): address, offset and length of each part; `fuel` bounds their number. -/
def pageParts (va : W64) (off : Nat) (n : Nat) : Nat → List (W64 × Nat × Nat)
  | 0 => []
  | fuel + 1 =>
    if n = 0 then [] else
      let k := min n (4096 - va.toNat % 4096)
      (va, off, k) :: pageParts (va + BitVec.ofNat 64 k) (off + k) (n - k) fuel

/-- The parts of an access. -/
def accessParts (va : W64) (n : Nat) : List (W64 × Nat × Nat) := pageParts va 0 n (n / 4096 + 2)

/-- A fault of a lane's access: the lane, the address and why. -/
structure AccessFault where
  lane : Nat
  va   : W64
  why  : XFault
  deriving DecidableEq, Repr

/-- The tag of a translation's free values. -/
def walkTag (lane off : Nat) : Nat := 1048576 + 65536 * lane + 8 * (off / 8 % 4096)

/-- The translation of one lane's parts in order; with `flagged`, a page that is not resident at the context stage is no
fault (R196). -/
def State.partPieces (s : State) (ctx : Nat) (acc : Acc) (flagged : Bool) (lane : Nat) :
    List (W64 × Nat × Nat) → Except AccessFault (List Piece)
  | [] => .ok []
  | (va, off, k) :: r =>
    match s.translate ctx acc va (walkTag lane off) with
    | .ok t => (State.partPieces s ctx acc flagged lane r).map (⟨lane, va, off, k, some t⟩ :: ·)
    | .error .nonResident =>
      if flagged then (State.partPieces s ctx acc flagged lane r).map (⟨lane, va, off, k, none⟩ :: ·)
      else .error ⟨lane, va, .nonResident⟩
    | .error f => .error ⟨lane, va, f⟩

/-- The translation of every lane's access, lanes ascending. -/
def State.lanePieces (s : State) (ctx : Nat) (acc : Acc) (flagged : Bool) (n : Nat) :
    List (Nat × W64) → Except AccessFault (List Piece)
  | [] => .ok []
  | (lane, va) :: r =>
    match s.partPieces ctx acc flagged lane (accessParts va n) with
    | .error f => .error f
    | .ok ps => (State.lanePieces s ctx acc flagged n r).map (ps ++ ·)

/-- The first non-canonical byte of the lanes' accesses (R89), which comes before every other check. Log entry 19. -/
def addressFault (n : Nat) (l : List (Nat × W64)) : Option AccessFault :=
  l.findSome? fun (lane, va) => ((accessParts va n).find? fun p => !canonical p.1).map fun p => ⟨lane, p.1, .address⟩

/-- The fatal kind and syndrome of a translation failure (R404, R416). -/
def XFault.fatalKind (acc : Acc) : XFault → Nat × Nat
  | .address => (if acc.x then 0x25 else 0x22, 0)
  | .invalid => (0x26, 0)
  | .permission => (if acc.x then 0x25 else 0x27, 0)
  | .malformed level => (0x28, level)
  | .nonResident => (0x01, 0)
  | .second _ _ _ => (0x02, 0)

/-- The threads of some lanes stop on a replayable record (R404, R414); with the ring full they wait for a slot. -/
def View.stopReplay (v : View) (m : Mask) (r : Rec) : State :=
  let o := 1 + v.part
  if v.s.replayFull o then v.park v.s m (.retry (.replayRing o))
  else
    let (s, sq) := v.s.postReplay o { r with ctx := some v.ctx, part := v.part }
    v.park s m (.replay o sq)

/-- What a translation failure of this instruction does (R404): a fatal record, or a replayable one on which the threads stop. -/
def View.accessFailed (v : View) (acc : Acc) (f : AccessFault) : State :=
  match f.why with
  | .nonResident => v.stopReplay v.active { v.faultRec f.lane 0x01 with va := f.va, synd := BitVec.ofNat 32 acc.kind }
  | .second code walk ia =>
    let k := if walk then 6 else acc.kind
    v.stopReplay v.active { v.faultRec f.lane 0x02 with va := f.va, pa := ia, synd := BitVec.ofNat 32 (code + 4 * k) }
  | w =>
    let (kind, synd) := w.fatalKind acc
    v.fatal { v.faultRec f.lane kind with va := f.va, synd := BitVec.ofNat 32 synd }

/-- A remote address names the paired device's memory (R361). -/
def isRemote (pa : Nat) : Bool := pa.testBit 47

/-- The lines a run of physical addresses touches. -/
def linesOf (pa n : Nat) : List Nat := (List.range (n / 128 + 2)).map (pa / 128 + ·) |>.filter fun l => 0 < n ∧ l * 128 < pa + n

/-- The first line of the pieces that does not serve a request of a partition (R445, R465, R466, R479). -/
def State.badLine (s : State) (part : Nat) (rd : Bool) (ps : List Piece) : Option (Piece × Nat × LineState) :=
  ps.findSome? fun p =>
    match p.tr with
    | none => none
    | some t =>
      if isRemote p.pa then none else
        (linesOf p.pa p.len).findSome? fun l =>
          match s.requestState (s.domain (some part)) t.tgeo rd (2097152 + l % 65536) l with
          | .ok => none
          | x => some (p, l, x)

/-- LOC of the record of a line in error: bit 31 says that an injection caused it (R471). -/
def State.errorLoc (s : State) (line : Nat) (loc : W32) : W32 := if s.storage.wild.contains line then loc else injectedLoc loc

/-- An uncorrectable read from memory is met (R465): it is counted, and the line's page is to be retired. -/
def State.memoryMet (s : State) (line : Nat) : State :=
  { s with
    storage := { s.storage with badMem := s.storage.badMem.filter (· ≠ line), wild := s.storage.wild.filter (· ≠ line) }
    telem := { s.telem with memUncorr := satInc s.telem.memUncorr }
    mp := { s.mp with own := s.mp.own ++ [.retirePage (line * 128)] } }

/-- What an access by an agent of a context to such a line does (R445, R465, R466, R479): a retired page or an uncorrectable read ends
the context, a held request is noted with its page, and one at a moving slice waits there. -/
def State.lineError (s : State) (ctx : Nat) (r : Rec) (line : Nat) : LineState → State
  | .retired => s.fatalHardware ctx { r with kind := 0x4B, pa := line * 128 }
  | .badMemory =>
    (s.memoryMet line).fatalHardware ctx { r with kind := 0x47, pa := line * 128, loc := s.errorLoc line r.loc }
  | .moving => s
  | _ =>
    let h := (pageOf (line * 128), ctx)
    let s : State := if s.storage.held.contains h then s else { s with storage := { s.storage with held := h :: s.storage.held } }
    s.noteMet ⟨line, false, ctx, false, r.agent, r.die, r.va, r.loc, r.pc⟩

/-- Whether a request waits at its slice (R445, R479). -/
def LineState.waits (x : LineState) : Bool := x = .held || x = .moving

/-- What an access to such a line does to a thread's instruction; with a held request the threads wait. -/
def View.lineFailed (v : View) (b : Piece × Nat × LineState) : State :=
  let s := v.s.lineError v.ctx { v.faultRec b.1.lane 0 with va := b.1.va } b.2.1 b.2.2
  if b.2.2.waits then v.park s v.active (.retry .slice) else s

/-! ### What a core's loads see -/

/-- The bytes of a core's writes that are still on their way, over bytes read at `pa` (R100: a load after a write reads that
write or a later one). Writes of engines are not forwarded. -/
def overlay (ws : List PendWrite) (core pa : Nat) (bs : List Byte) : List Byte :=
  ws.foldl (fun bs w =>
    if w.agent.core = some core ∧ w.uid ≠ 0 then
      bs.mapIdx fun i b => if w.addr ≤ pa + i ∧ pa + i < w.addr + w.data.length then w.data.getD (pa + i - w.addr) b else b
    else bs) bs

/-- The core's copy of a line, if it has one. -/
def State.l1Line (s : State) (core line : Nat) : Option L1Line := s.l1.find? fun x => x.core = core && x.line = line

/-- A line as a core fetches it from home. -/
def State.fetchLine (s : State) (core line : Nat) : List Byte :=
  overlay s.writes core (line * 128) (s.mem.readRun (line * 128) 128)

/-- A line whose aligned groups of eight bytes, the unit of atomicity (R90), are each kept or taken afresh, freely. -/
def mixGroups (free tag : Nat) (old new : List Byte) : List Byte :=
  new.mapIdx fun i b =>
    let a := old.getD i b
    if a = b || Config.freeBool free (tag + i / 8) then a else b

/-- A core's copy of a line is made fresh, or kept where it is stale, freely and group by group (R90, R94, R100). -/
def State.refreshLine (s : State) (core line : Nat) : State :=
  let data := s.fetchLine core line
  match s.l1Line core line with
  | none => { s with l1 := ⟨core, line, data⟩ :: s.l1 }
  | some x =>
    if x.data = data then s
    else
      let mixed := mixGroups s.free (1152921504606846976 + 16 * line) x.data data
      { s with l1 := updateWhere (fun y => y.core = core && y.line = line) (fun y => { y with data := mixed }) s.l1 }

/-- Whether an access goes through L1 (R94, R401). -/
def Trans.cached (t : Trans) : Bool := t.kind ≠ 0 && !t.uc

/-- The thread whose load it is: its core, its number, and the step from which its launch runs. -/
structure Reader where
  core  : Nat
  uid   : Nat
  since : Nat

/-- The step from which earlier values of some bytes are hidden from a UO load (R103, items 1 and 2 of R100): the start of the
thread's launch, its core's last acquire, the thread's own last write of one of them, and another thread's of the core that an
acquire has followed. -/
def State.looseSince (s : State) (r : Reader) (pas : List Nat) : Nat :=
  let c := s.core r.core
  s.past.foldl (fun n p =>
    if pas.contains p.pa && (p.uid ≠ 0 && (p.uid = r.uid || (p.core = some r.core && p.at_ < c.acqAny))) then max n (p.at_ + 1) else n)
    (max r.since c.acqWide)

/-- One aligned group of bytes as a UO load reads it (R103): any value that R100's items 1 and 2 leave. -/
def State.looseGroup (s : State) (r : Reader) (pas : List Nat) : List Byte :=
  chooseFrom s.free (2305843009213693952 + pas.headD 0) [] (s.versions (s.looseSince r pas) pas)

/-- Bytes as a UO load reads them, group by group; `fuel` bounds the groups. -/
def State.looseRead (s : State) (r : Reader) (pa n : Nat) : Nat → List Byte
  | 0 => []
  | fuel + 1 =>
    if n = 0 then [] else
      let k := min n (8 - pa % 8)
      s.looseGroup r ((List.range k).map (pa + ·)) ++ State.looseRead s r (pa + k) (n - k) fuel

/-- The core's writes on their way that a UO load sees: the thread's own, those that an acquire has followed, and any of the
others. -/
def State.looseWrites (s : State) (r : Reader) : List PendWrite :=
  s.writes.filter fun w =>
    w.uid = r.uid || w.issued < (s.core r.core).acqAny || Config.freeBool s.free (3458764513820540928 + w.addr)

/-- Bytes of local memory as a core's load reads them (R94, R100, R103): through its L1, or freely for an unordered page; else at
home, with the core's own writes. Bytes beyond the usable memory are free (log entry 6). -/
def State.coreRead (s : State) (r : Reader) (t : Trans) (pa n : Nat) : List Byte :=
  let home := overlay s.writes r.core pa (s.homeRead 4194304 pa n)
  if t.kind = 2 && pa + n ≤ s.usable then overlay (s.looseWrites r) r.core pa (s.looseRead r pa n (n / 8 + 2))
  else if t.cached && pa + n ≤ s.usable then
    (List.range n).map fun i =>
      match s.l1Line r.core ((pa + i) / 128) with
      | some x => x.data.getD ((pa + i) % 128) 0
      | none => home.getD i 0
  else home

/-- A core's copies of the lines of a run are dropped (R95, R106). -/
def State.dropLines (s : State) (core pa n : Nat) : State :=
  { s with l1 := s.l1.filter fun x => !(x.core = core && (x.line * 128 < pa + n && pa < x.line * 128 + 128)) }

/-- The state after a core's load of a run: copies of its lines; a load that goes past L1 leaves no copy of them that could be
older than what it read (R95, R100). -/
def State.touchL1 (s : State) (core : Nat) (t : Trans) (pa n : Nat) : State :=
  if !t.cached then s.dropLines core pa n
  else if pa + n ≤ s.usable then (linesOf pa n).foldl (fun s l => s.refreshLine core l) s
  else s

/-- The copies a core holds are dropped (R97: an acquire at a scope beyond the core). -/
def State.dropL1 (s : State) (core : Nat) : State :=
  ({ s with l1 := s.l1.filter fun x => x.core ≠ core } : State).mapCore core fun c => { c with acqWide := s.free, acqAny := s.free }

/-- A scope that reaches beyond the core (R96). -/
def wideScope (scope : Nat) : Bool := 2 ≤ scope

/-- The acquire half of an operation by a thread of a core (R97). -/
def State.acquire (s : State) (core scope : Nat) : State :=
  if wideScope scope then s.dropL1 core else s.mapCore core fun c => { c with acqAny := s.free }

/-! ### Writes on their way -/

/-- The home partition of an agent's access: that of its context (R299). -/
def State.agentPart (s : State) (a : Agent) : Option Nat := a.ctx.map fun c => (s.ctxOf c).part

/-- The slice where a write belongs now. -/
def State.writeSlice (s : State) (w : PendWrite) : Nat := homeSlice (s.domain (s.agentPart w.agent)) w.tgeo w.addr

/-- Whether a link to the paired device is up (R360, R361). -/
def State.linkUp (s : State) : Bool := s.gulnos.en && s.gulnos.paired && s.gulnos.lup ≠ 0

/-- The link of a core's remote accesses (R361): s.core mod 2, or the other when that one is down. -/
def State.linkOf (s : State) (core : Option Nat) : Nat :=
  let k := core.getD 0 % 2
  if s.gulnos.lup.getLsbD k then k else 1 - k

/-- A remote access is sent, and waits to be answered (R361). -/
def State.sendRemote (s : State) (pa : Nat) (a : Agent) : State :=
  { s with gulnos := { s.gulnos with pending := s.gulnos.pending ++ [(s.gulnos.next, pa, s.now, a, s.linkOf a.core)], next := s.gulnos.next + 1 } }

/-- The record of a remote access that failed (R361, R471). -/
def State.remoteFailed (s : State) (pa : Nat) (a : Agent) : State :=
  s.postHardware { kind := 0x51, ctx := a.ctx, die := (a.core.map coreDie).getD 0, info := BitVec.ofNat 64 pa
                   loc := locWord (a.core.getD 0) 0 0 0 }

/-- What a write by a thread leaves in the past of its bytes, which held `old`: those it changes, and on an unordered page those it
leaves as they are too, for a thread's later load may not go behind its own write (R103). -/
def PendWrite.pasts (w : PendWrite) (step : Nat) (old : List Byte) : List PastByte :=
  if w.uid = 0 then []
  else (old.mapIdx fun i b => (i, b)).filterMap fun x =>
    if w.uo || w.data.getD x.1 0 ≠ x.2 then some ⟨w.addr + x.1, x.2, step, w.uid, w.agent.core⟩ else none

/-- A write is performed at its home (R105, R477), or sent to the paired device (R361, R114). Every line is homed by its own
address. A write that a cwb asked to reach memory leaves its line clean (R211). -/
def State.performWrite (s : State) (w : PendWrite) : State :=
  if isRemote w.addr then
    if s.linkUp then
      let s := s.sendRemote w.addr w.agent
      { s with gulnos := { s.gulnos with out := s.gulnos.out ++ [.write (s.linkOf w.agent.core) (w.addr - 2 ^ 47) w.data] } }
    else s.remoteFailed w.addr w.agent
  else
    let past := w.pasts s.free (s.mem.readRun w.addr w.data.length)
    let s := s.homeWrite (w.agent.ctx.getD noTag) (s.domain (s.agentPart w.agent)) w.tgeo w.addr w.data
    let s : State := { s with past := past ++ s.past }
    if w.cwb = 2 then s.writeBack fun d => (linesOf w.addr w.data.length).contains d.line else s

/-- Whether a write's slice holds it, or its page is held or retired, so that it is not performed (R445, R466, R479). -/
def State.writeBlocked (s : State) (w : PendWrite) : Bool :=
  !isRemote w.addr && (s.sliceHolds w.slice || (linesOf w.addr w.data.length).any fun l => s.lineState false 0 (l * 128) ≠ .ok)

/-- Some writes are performed in their order, but for those that are blocked, which stay. -/
def State.flushWhere (s : State) (p : PendWrite → Bool) : State :=
  let go := s.writes.filter fun w => p w && !s.writeBlocked w
  let s' : State := { s with writes := s.writes.filter fun w => !(p w) || s.writeBlocked w }
  go.foldl State.performWrite s'

/-- The writes of a core's threads are performed (R97: a release at a scope beyond the core). -/
def State.flushCore (s : State) (core : Nat) : State := s.flushWhere fun w => w.agent.core = some core && w.uid ≠ 0

/-- Whether two writes share a byte. -/
def PendWrite.meets (a b : PendWrite) : Bool := a.addr < b.addr + b.data.length && b.addr < a.addr + a.data.length

/-- The writes of a core's threads to some bytes are performed, before an access that goes past them to the home slice: all those
to the aligned groups of eight that hold the bytes, so that none overtakes an earlier one to its own bytes. -/
def State.flushRun (s : State) (core pa n : Nat) : State :=
  s.flushWhere fun w => w.agent.core = some core && w.uid ≠ 0 && (w.addr < (pa + n + 7) / 8 * 8 && pa / 8 * 8 < w.addr + w.data.length)

/-- Whether a release by a thread of a core at a scope performs a write on its way (R97, R290): beyond the core all the core's
writes, and from .blk on what is dirty in the stack cache, with the writes that share its bytes. -/
def State.releases (s : State) (core scope : Nat) (w : PendWrite) : Bool :=
  w.agent.core = some core && w.uid ≠ 0 &&
    (wideScope scope || (1 ≤ scope && s.writes.any fun x => x.stack && x.agent.core = some core && x.meets w))

/-- The release half of an operation by a thread of a core (R97, R290). -/
def State.release (s : State) (core scope : Nat) : State := s.flushWhere (s.releases core scope)

/-- Whether a release at a scope must wait for a write of the core that is held at its slice (R97, R479). -/
def View.heldRelease (v : View) (rel : Option Nat) : Bool :=
  rel.any fun scope => v.s.writes.any fun w => v.s.releases v.ic.core scope w && v.s.writeBlocked w

/-- A meaning whose release waits while a write before it is held at its slice. -/
def View.unlessHeld (v : View) (rel : Option Nat) (go : State) : State :=
  if v.heldRelease rel then v.park v.s v.active (.retry .slice) else go

/-- A core's copies of some bytes take a write of the core. -/
def State.writeL1 (s : State) (core pa : Nat) (bs : List Byte) : State :=
  { s with l1 := s.l1.map fun x =>
      if x.core = core && (x.line * 128 < pa + bs.length && pa < x.line * 128 + 128) then
        { x with data := x.data.mapIdx fun i b =>
            if pa ≤ x.line * 128 + i ∧ x.line * 128 + i < pa + bs.length then bs.getD (x.line * 128 + i - pa) b else b }
      else x }

/-! ### Write ranges -/

/-- The pair of ranges of one context with the fewest pages between them, the lower base first on a tie (R457). -/
def closestPair (l : List WriteRange) : Option (WriteRange × WriteRange) :=
  let pairs := l.flatMap fun a => (l.filter fun b => b.ctx = a.ctx && a.page < b.page).map fun b => (a, b)
  let gap (p : WriteRange × WriteRange) : Nat := p.2.page - (p.1.page + p.1.count)
  pairs.foldl (fun best p =>
    match best with
    | none => some p
    | some q => if gap p < gap q ∨ (gap p = gap q ∧ p.1.page < q.1.page) then some p else some q) none

/-- A page entered in a core's write-range registers (R457); none when the write must wait. -/
def addRange (l : List WriteRange) (part ctx page : Nat) : Option (List WriteRange) :=
  if l.any fun r => r.ctx = ctx && r.page ≤ page && page < r.page + r.count then some l
  else
    match l.findIdx? fun r => r.ctx = ctx && (page + 1 = r.page || page = r.page + r.count) with
    | some k => some (updateAt l k fun r => ⟨ctx, min page r.page, r.count + 1, part⟩)
    | none =>
      if l.length < 32 then some (l ++ [⟨ctx, page, 1, part⟩])
      else
        match closestPair l with
        | some (a, b) =>
          some ((l.filter fun r => r ≠ a && r ≠ b) ++ [⟨a.ctx, a.page, b.page + b.count - a.page, a.part⟩, ⟨ctx, page, 1, part⟩])
        | none => none

/-- The pages of a run of virtual addresses. -/
def pagesOf (va : W64) (n : Nat) : List Nat := (accessParts va n).map fun p => p.1.toNat / 4096

/-- The pages of a write entered in a core's registers; none when it must wait. -/
def State.noteWrite (s : State) (core ctx : Nat) : List Nat → Option State
  | [] => some s
  | page :: r =>
    match addRange (s.core core).ranges (s.ctxOf ctx).part ctx page with
    | none => none
    | some l => State.noteWrite (s.mapCore core fun c => { c with ranges := l }) core ctx r

/-- A write that must wait for a write-range register (R457): the core moves to the front of the rotation. -/
def View.waitRange (v : View) : State :=
  v.park (v.s.moveFront v.ic.core) v.active (.retry (.writeRange v.ic.core))

/-! ### Reading the pieces of an access -/

/-- The home slices of the issuing threads' accesses by a mapping (R299, R304). -/
def View.slices (v : View) (tgeo : BitVec 7) : Nat → Nat := homeSlice (v.s.domain (some v.part)) tgeo

/-- Bytes read through a mapping that homes them at another slice than one they were written at (R305). -/
def View.aliased (v : View) (tgeo : BitVec 7) (pa : Nat) (bs : List Byte) : List Byte := v.s.aliased 56623104 (v.slices tgeo) pa bs

/-- The step from which earlier versions of a pool record may still be met by a lane's thread: the start of its launch, or of its
block where the block belongs to no launch (R123, R200). -/
def View.since (v : View) (lane : Nat) : Nat := if v.launch.handler then (v.block lane).stamp else v.launch.stamp

/-- A lane's thread as the reader of a load. -/
def View.reader (v : View) (lane : Nat) : Reader := ⟨v.ic.core, (v.thread lane).uid, v.since lane⟩

/-- The bytes of a piece as a load reads them: zeros where the page is not resident (R196); from the paired device, whatever it
answers, or all ones where no link is up (R361). -/
def View.pieceBytes (v : View) (p : Piece) : List Byte :=
  match p.tr with
  | none => List.replicate p.len 0
  | some t =>
    if isRemote p.pa then
      (List.range p.len).map fun k =>
        if v.s.linkUp then (Config.freeW32 v.s.free (6291456 + 64 * p.lane + p.off + k)).setWidth 8 else 0xFF
    else v.aliased t.tgeo p.pa (v.s.coreRead (v.reader p.lane) t p.pa p.len)

/-- The bytes that some pieces give a lane. -/
def View.laneBytes (v : View) (ps : List Piece) (lane : Nat) : List Byte := (ps.filter (·.lane = lane)).flatMap v.pieceBytes

/-- The bytes that some pieces give a lane's load, `v` after and `old` before the core's copies were refreshed. A load that is not
naturally aligned is performed byte by byte, unordered (R90): each byte may come from the copies as they were. -/
def View.loadBytes (v old : View) (aligned : Bool) (ps : List Piece) (lane : Nat) : List Byte :=
  let new := v.laneBytes ps lane
  if aligned then new
  else
    let was := old.laneBytes ps lane
    new.mapIdx fun i b => if was.getD i b ≠ b && Config.freeBool v.s.free (4035225266123964416 + 64 * lane + i) then was.getD i b else b

/-- The strongly ordered writes of a thread that are still on their way are performed before its next access of that kind (R102). -/
def State.flushStrong (s : State) (uid : Nat) : State := s.flushWhere fun w => w.so && w.uid = uid && uid ≠ 0

/-- The core's copies after a read of some pieces (R94). A strongly ordered read goes past the core's own writes to its bytes,
which are performed first (R102), and leaves no older copy of them (R95). -/
def View.touchPieces (v : View) (s : State) (ps : List Piece) : State :=
  ps.foldl (fun s p =>
    match p.tr with
    | some t =>
      let s := if isRemote p.pa then s else s.meetClean (linesOf p.pa p.len)
      if isRemote p.pa then s
      else if t.kind = 0 then ((s.flushStrong (v.thread p.lane).uid).flushRun v.ic.core p.pa p.len).dropLines v.ic.core p.pa p.len
      else s.touchL1 v.ic.core t p.pa p.len
    | none => s) s

/-- The translations of some pieces are kept (R406). -/
def View.cachePieces (v : View) (s : State) (ps : List Piece) : State :=
  ps.foldl (fun s p =>
    match p.tr with
    | some t => s.cache v.ctx t
    | none => s) s

/-- The agent an issuing thread's access belongs to. -/
def View.agent (v : View) : Agent := ⟨some v.ctx, some v.ic.core⟩

/-- The remote reads among some pieces are sent, or fail with a record (R361). -/
def View.remoteReads (v : View) (s : State) (ps : List Piece) : State :=
  ps.foldl (fun s p =>
    if isRemote p.pa then (if s.linkUp then s.sendRemote p.pa v.agent else s.remoteFailed p.pa v.agent) else s) s

/-- The remote request numbers that `remoteReads` gives a lane's pieces. -/
def View.remoteNumbers (v : View) (ps : List Piece) (lane : Nat) : List Nat :=
  let far := ps.filter fun p => isRemote p.pa
  if v.s.linkUp then ((far.mapIdx fun k p => (p.lane, v.s.gulnos.next + k)).filter (·.1 = lane)).map (·.2) else []

/-! ### Pool records -/

/-- The step from which earlier versions of code may still be met by a lane's thread: the start of its launch, or of its
continuation or handler (R115). -/
def View.codeSince (v : View) (lane : Nat) : Nat :=
  match (v.block lane).kind with
  | .continuation | .handler => (v.block lane).stamp
  | _ => v.launch.stamp

/-- A record's load for the issuing threads: a load of the context. -/
def View.accLoad (v : View) : Acc := ⟨0, false, false, v.priv⟩

/-- The home slices of some pieces of one access. -/
def View.pieceSlices (v : View) (ps : List Piece) : Nat → Nat := v.slices ((((ps.head?).bind (·.tr)).map (·.tgeo)).getD 0)

/-- A read of a record at issue that takes the address fault of R89 when it fails translation (R123). The record is the present
one or an earlier version, never a mix. -/
def View.readRecord (v : View) (va : W64) (n : Nat) : Stage (List W32) :=
  let lane := lowestLane v.active
  match v.s.partPieces v.ctx v.accLoad false lane (accessParts va n) with
  | .error f => .error (v.fatal { v.faultRec lane 0x22 with va := f.va })
  | .ok ps =>
    match v.s.badLine v.part true ps with
    | some b => .error (v.lineFailed b)
    | none =>
      let pas := ps.flatMap fun p => (List.range p.len).map (p.pa + ·)
      .ok (bytesWords (v.s.oneVersion 5242880 (v.since lane) (v.pieceSlices ps) pas))

/-- The words of the pool record an operand names (R123). -/
def View.poolRecord (v : View) (x : Src) : Stage (List W32) :=
  match x with
  | .pool i => v.readRecord (v.launch.pool + BitVec.ofNat 64 (32 * i.toNat)) 32
  | _ => .ok []

/-- The pool index of an operand. -/
def poolIndex : Src → Nat
  | .pool i => i.toNat
  | _ => 0

/-- A pool record rejected under R12 (R281, R493): a "record rejected" record, and the context ends. -/
def View.rejectPool (v : View) (x : Src) : State :=
  v.fatal { v.faultRec (lowestLane v.active) 0x31 with synd := 3, info := BitVec.ofNat 64 (poolIndex x) }

/-- A record of the plain kind breaks no rule of R281 and R282. -/
def plainOk (ws : List W32) : Bool := bitsAt ws 101 27 = 0 && bitsAt ws 192 64 = 0

/-- BASE, EXTENT, FMT and ROBUST of a record (R281). -/
def recBase (ws : List W32) : W64 := wideAt ws 0
/-- EXTENT. -/
def recExtent (ws : List W32) : Nat := (wordAt ws 2).toNat
/-- FMT. -/
def recFmt (ws : List W32) : Nat := bitsAt ws 96 4
/-- ROBUST. -/
def recRobust (ws : List W32) : Bool := bitsAt ws 100 1 = 1

end Sys2Proof.Machine
end

