-- ==== Sys2Proof/Machine/MemOps.lean ====
section
/-! DEFINITION. Group 6, part one: loads and stores of global memory, pool buffers and the stack, residency requests, and cache
maintenance (R193 to R201, R205, R209 to R211). -/
namespace Sys2Proof.Machine

/-- The bytes of a width code (R193). -/
def widthBytes (t : Nat) : Nat :=
  match t with
  | 0 | 1 => 1
  | 2 | 3 => 2
  | 4 => 4
  | 5 => 8
  | _ => 16

/-- A load's result by its width code (R193, R9). -/
def widthExtend (t : Nat) (bs : List Byte) : List W32 :=
  let x := bytesNat bs
  match t with
  | 1 => [(BitVec.ofNat 8 x).signExtend 32]
  | 3 => [(BitVec.ofNat 16 x).signExtend 32]
  | 0 | 2 | 4 => [BitVec.ofNat 32 x]
  | _ => bytesWords bs

/-- The data of a store of a lane by its width code (R193). -/
def View.storeData (v : View) (t : Nat) (x : Src) (lane : Nat) : List Byte :=
  match t with
  | 5 => natBytes 8 (v.src64 2 x lane).toNat
  | 6 => wordsBytes (v.srcQuad 2 x lane)
  | _ => natBytes (widthBytes t) (v.src32 .int 2 x lane).toNat

/-- The flag register and bit of a flag operand (R195). -/
def flagOf : Src → Option (Nat × Nat)
  | .imm p => some (p.toNat % 256, bitField p.toNat 8 5)
  | _ => none

/-- The ordering scope of a load or store with its ordered bit set (R194). -/
def ordScope (o : Operands) : Option Nat := if modBit o.mod.toNat 3 then some (bitField o.mod.toNat 4 3) else none

/-- A global address of a lane (R198, R89). -/
def View.globalEa (v : View) (o : Operands) (lane : Nat) : W64 := v.src64 0 o.a lane + (v.src32 .int 1 o.b lane).signExtend 64

/-- A load as its access: the width code, the flag operand, an acquire scope, and whether it goes through the stack cache. -/
structure LoadForm where
  t     : Nat
  flag  : Option (Nat × Nat)
  sync  : Option Nat
  stack : Bool

/-- Pieces of the stack, which the stack cache treats as RC whatever the page's kind (R290). -/
def stackPieces (stack : Bool) (ps : List Piece) : List Piece :=
  if stack then ps.map fun p => { p with tr := p.tr.map fun t => { t with kind := 1 } } else ps

/-- What a lane's register writes become when one of its remote requests is not answered: all ones in the piece's bytes, with
their extension (R361), but for the flag bit, which is written after the data (R196). -/
def lateWrites (t lo : Nat) (flag : Option (Nat × Nat)) (p : Piece) : List RegWrite :=
  let n := widthBytes t
  let ones := (List.range n).map fun i => if p.off ≤ i ∧ i < p.off + p.len then (0xFF : Byte) else 0
  let sign := (t = 1 || t = 3) && n ≤ p.off + p.len
  let masks := match widthExtend t ones with
    | [m] => if t = 1 ∨ t = 3 then [if sign then m ||| (0xFFFFFFFF <<< (8 * (n - p.len))) else m &&& (0xFFFFFFFF >>> (32 - 8 * n))] else [m]
    | ms => ms
  masks.mapIdx fun k m =>
    let keep := match flag with
      | some (f, b) => if f = lo + k then m &&& ~~~((1 : W32) <<< b) else m
      | none => m
    ⟨lo + k, keep, 0xFFFFFFFF, false⟩

/-- Whether an access of `n` bytes is naturally aligned (R90): a wider one than sixteen bytes is one of sixteen at a time. -/
def naturallyAligned (n : Nat) (va : W64) : Bool := va.toNat % min n 16 = 0

/-- The register writes of a lane of a load (R193, R196), `v` after and `old` before the core's copies were refreshed. -/
def View.loadLane (v old : View) (o : Operands) (f : LoadForm) (ps : List Piece) (reads : List (Nat × W64)) (lane : Nat) : LaneResult :=
  let mine := ps.filter (·.lane = lane)
  let bytes := match reads.find? (·.1 = lane) with
    | some x => v.loadBytes old (naturallyAligned (widthBytes f.t) x.2) ps lane
    | none => List.replicate (widthBytes f.t) 0
  let hit := match f.flag with
    | some (r, k) => if mine.any (·.tr.isNone) then [⟨r, (1 : W32) <<< k, 0xFFFFFFFF, false⟩] else []
    | none => []
  let flag := if hit.isEmpty then none else f.flag
  let far := mine.filter fun p => isRemote p.pa
  let late := (v.remoteNumbers ps lane).zip (far.map (lateWrites f.t o.dst.reg.toNat flag))
  ⟨lane, (v.thread lane).uid, regWrites o.dst.reg.toNat (widthExtend f.t bytes) ++ hit, late⟩

/-- A load (R198, R196): the lanes of `write` take a result, those in `reads` from their addresses and the others zeros. Every
check of every lane comes first; an error is the state in which the instruction ends there. A load that no lane performs takes no
part in ordering (R93). -/
def View.load (v : View) (o : Operands) (f : LoadForm) (write : Mask) (reads : List (Nat × W64)) : Stage State :=
  match addressFault (widthBytes f.t) reads with
  | some x => .error (v.accessFailed v.accLoad x)
  | none =>
    match v.s.lanePieces v.ctx v.accLoad f.flag.isSome (widthBytes f.t) reads with
    | .error x => .error (v.accessFailed v.accLoad x)
    | .ok ps =>
      let ps := stackPieces f.stack ps
      match v.s.badLine v.part true ps with
      | some b => .error (v.lineFailed b)
      | none =>
        let v' : View := { v with s := v.touchPieces v.s ps }
        let s := v.remoteReads (v.cachePieces v'.s ps) ps
        let s := match f.sync with
          | some scope => if ps.all (·.tr.isNone) then s else s.acquire v.ic.core scope
          | none => s
        .ok (v.leaveLanes s 0 ((lanesOf write).map (v'.loadLane v o f ps reads)))

/-- A store by the issuing threads. -/
def View.accStore (v : View) : Acc := ⟨1, true, false, v.priv⟩

/-- How a store reaches memory: as the page's kind says, through the stack cache, which treats every line as RC (R290), or as the
RC stores of pxout (R265). -/
inductive StorePath where
  | plain | stack | pixel
  deriving DecidableEq, Repr

/-- A run of bytes cut into its single-copy-atomic units (R90) of `unit` bytes: each unit's address and bytes. `fuel` bounds them. -/
def splitUnits (unit : Nat) : Nat → Nat → List Byte → List (Nat × List Byte)
  | _, _, [] => []
  | 0, _, _ => []
  | fuel + 1, pa, bs => (pa, bs.take unit) :: splitUnits unit fuel (pa + unit) (bs.drop unit)

/-- The bytes of a single-copy-atomic unit of an access of `n` bytes (R90): at most eight, and one where it is not naturally
aligned. -/
def atomicUnit (n : Nat) (va : W64) : Nat := if naturallyAligned n va then min n 8 else 1

/-- One piece of a store with its bytes (R90, R94, R102, R105, R114): a remote write, and a strongly ordered one that is
single-copy atomic, is performed at once, in program order; any other leaves for its home slice unit by unit, and its core's
copies take it. -/
def View.storePiece (v : View) (path : StorePath) (unit : Nat) (s : State) (p : Piece) (data : List Byte) : State :=
  match p.tr with
  | none => s
  | some t =>
    let w : PendWrite :=
      { agent := v.agent, uid := (v.thread p.lane).uid, addr := p.pa, va := p.va, tgeo := t.tgeo, data := data, slice := 0
        so := t.kind = 0, uo := t.kind = 2, cached := t.cached, stack := path = .stack, issued := s.free, cwb := 0
        misdirected := false }
    let ws : List PendWrite := (splitUnits unit (p.len + 1) p.pa data).map fun q =>
      { w with addr := q.1, va := p.va + BitVec.ofNat 64 (q.1 - p.pa), data := q.2
               slice := homeSlice (s.domain (s.agentPart v.agent)) t.tgeo q.1 }
    if isRemote p.pa then s.performWrite w
    else if t.kind = 0 then
      let s := ((s.flushStrong w.uid).flushRun v.ic.core p.pa p.len).dropLines v.ic.core p.pa p.len
      if ws.length ≤ 1 then s.performWrite w else { s with writes := s.writes ++ ws }
    else ({ s with writes := s.writes ++ ws } : State).writeL1 v.ic.core p.pa data

/-- The pieces of every lane of a store of `n` bytes, lanes ascending (R91: the highest lane's write of a location is the last). -/
def View.storePieces (v : View) (path : StorePath) (n : Nat) (s : State) (ps : List Piece) (data : Nat → List Byte) : State :=
  ps.foldl (fun s p =>
    v.storePiece path (atomicUnit n (p.va - BitVec.ofNat 64 p.off)) s p (((data p.lane).drop p.off).take p.len)) s

/-- The pages that some pieces write. -/
def pieceVpages (ps : List Piece) : List Nat := ps.map fun p => p.va.toNat / 4096

/-- The scope of a store's release: none where no lane performs it, which takes no part in ordering (R93). -/
def syncOf (sync : Option Nat) (dests : List (Nat × W64)) : Option Nat := if dests = [] then none else sync

/-- A store (R198, R105): the checks of every lane, the core's write-range registers (R457), the release, and the writes. -/
def View.store (v : View) (n : Nat) (sync : Option Nat) (path : StorePath) (dests : List (Nat × W64)) (data : Nat → List Byte) :
    Stage State :=
  match addressFault n dests with
  | some x => .error (v.accessFailed v.accStore x)
  | none =>
    match v.s.lanePieces v.ctx v.accStore false n dests with
    | .error x => .error (v.accessFailed v.accStore x)
    | .ok ps =>
      let ps := stackPieces (path ≠ .plain) ps
      match v.s.badLine v.part false ps with
      | some b => .error (v.lineFailed b)
      | none =>
        match v.s.noteWrite v.ic.core v.ctx (pieceVpages ps) with
        | none => .error v.waitRange
        | some s =>
          let s := match sync with
            | some scope => s.release v.ic.core scope
            | none => s
          .ok (v.storePieces path n (v.cachePieces s ps) ps data)

/-- The end of a staged instruction (R57): the whole issue set advances, unless it ended early. -/
def View.finish (v : View) (o : Operands) (x : Stage State) : State :=
  match x with
  | .ok s => v.retire o v.active s
  | .error s => s

/-- The addresses of the lanes of a mask. -/
def laneAddrs (m : Mask) (ea : Nat → W64) : List (Nat × W64) := (lanesOf m).map fun i => (i, ea i)

/-- ld (R197, R198). -/
def execLd (o : Operands) (s : State) : Host.Outcome State Fault Refusal :=
  withIssue s fun v =>
    if v.resultsFull then v.waitSlot
    else v.finish o (v.load o ⟨o.mod.toNat % 8, flagOf o.c, ordScope o, false⟩ (v.passing o) (laneAddrs (v.passing o) (v.globalEa o)))

/-- st (R197, R198). -/
def execSt (o : Operands) (s : State) : Host.Outcome State Fault Refusal :=
  withIssue s fun v =>
    let t := o.mod.toNat % 8
    let dests := laneAddrs (v.passing o) (v.globalEa o)
    let sync := syncOf (ordScope o) dests
    v.unlessHeld sync <| v.finish o (v.store (widthBytes t) sync .plain dests (v.storeData t o.c))

/-! ### Pool buffers -/

/-- Whether an access at an offset of a buffer is in extent (R199). -/
def inExtent (ws : List W32) (off n : Nat) : Bool := off + n ≤ recExtent ws

/-- The lanes of a mask whose access is in extent, with their addresses (R199); the state in which a lane out of the extent of
a buffer without the robust bit leaves the instruction. -/
def View.poolAddrs (v : View) (p : Mask) (ws : List W32) (n : Nat) (off : Nat → Nat) : Stage (List (Nat × W64)) :=
  let ea (i : Nat) : W64 := recBase ws + BitVec.ofNat 64 (off i)
  match (lanesOf p).find? fun i => !inExtent ws (off i) n && !recRobust ws with
  | some i => .error (v.fatal { v.faultRec i 0x29 with va := ea i })
  | none => .ok (((lanesOf p).filter fun i => inExtent ws (off i) n).map fun i => (i, ea i))

/-- The plain record of a pool operand and the lanes' addresses in its buffer (R199, R281). -/
def View.poolBuffer (v : View) (o : Operands) (p : Mask) (n : Nat) : Stage (List (Nat × W64)) :=
  match v.poolRecord o.a with
  | .error s => .error s
  | .ok ws =>
    if !plainOk ws then .error (v.rejectPool o.a)
    else v.poolAddrs p ws n fun i => (v.src32 .int 1 o.b i).toNat

/-- ldp (R199). -/
def execLdp (o : Operands) (s : State) : Host.Outcome State Fault Refusal :=
  withIssue s fun v =>
    let p := v.passing o
    if v.resultsFull then v.waitSlot
    else if p = 0 then v.retire o v.active v.s
    else
      match v.poolBuffer o p (widthBytes (o.mod.toNat % 8)) with
      | .error s => s
      | .ok reads => v.finish o (v.load o ⟨o.mod.toNat % 8, flagOf o.c, ordScope o, false⟩ p reads)

/-- stp (R199). -/
def execStp (o : Operands) (s : State) : Host.Outcome State Fault Refusal :=
  withIssue s fun v =>
    let p := v.passing o
    let t := o.mod.toNat % 8
    if p = 0 then v.retire o v.active v.s
    else
      match v.poolBuffer o p (widthBytes t) with
      | .error s => s
      | .ok dests =>
        let sync := syncOf (ordScope o) dests
        v.unlessHeld sync <| v.finish o (v.store (widthBytes t) sync .plain dests (v.storeData t o.c))

/-! ### The constant cache -/

/-- The bytes of a piece as the constant cache gives them (R200): each byte any value its location has held since the start of
the launch. An uncacheable page goes past it (R401). -/
def View.constBytes (v : View) (p : Piece) : List Byte :=
  if isRemote p.pa || v.s.usable < p.pa + p.len || p.tr.any (·.uc) then v.pieceBytes p
  else (List.range p.len).map fun k =>
    chooseFrom v.s.free (7340032 + 64 * p.lane + p.off + k) 0 (v.s.valuesSince (v.since p.lane) (p.pa + k))

/-- The first lane of an access that is not naturally aligned (R90). -/
def misaligned (n : Nat) (l : List (Nat × W64)) : Option (Nat × W64) := l.find? fun x => x.2.toNat % n ≠ 0

/-- The alignment fault of a lane (R90). -/
def View.alignFault (v : View) (x : Nat × W64) : State := v.fatal { v.faultRec x.1 0x23 with va := x.2 }

/-- ldk (R200). -/
def execLdk (o : Operands) (s : State) : Host.Outcome State Fault Refusal :=
  withIssue s fun v =>
    let t := o.mod.toNat % 8
    let n := widthBytes t
    let reads := laneAddrs (v.passing o) (v.globalEa o)
    if v.resultsFull then v.waitSlot else
    match addressFault n reads, misaligned n reads with
    | some x, _ => v.accessFailed v.accLoad x
    | none, some x => v.alignFault x
    | none, none =>
      match v.s.lanePieces v.ctx v.accLoad false n reads with
      | .error x => v.accessFailed v.accLoad x
      | .ok ps =>
        match v.s.badLine v.part true ps with
        | some b => v.lineFailed b
        | none =>
          let bytes (i : Nat) : List Byte := (ps.filter (·.lane = i)).flatMap v.constBytes
          v.retire o v.active (v.writeLater (v.remoteReads (v.cachePieces v.s ps) ps) (v.passing o) o.dst.reg.toNat
            fun i => (widthExtend t (bytes i), 0))

/-- pf (R201): it changes no value and may be ignored. -/
def execPf (o : Operands) (s : State) : Host.Outcome State Fault Refusal :=
  withIssue s fun v => v.retire o v.active v.s

/-! ### The stack -/

/-- The stack size of a launch in units of 16 bytes (R37, R289). -/
def Launch.stack (l : Launch) : Nat := bitsAt l.words 192 16

/-- A stack address of a lane (R205). -/
def View.stackEa (v : View) (o : Operands) (lane : Nat) : W64 := (v.thread lane).sp + (v.src32 .int 1 o.b lane).signExtend 64

/-- The lanes that take the stack-limit trap (R205). -/
def View.stackTraps (v : View) (o : Operands) : Mask :=
  let p := v.passing o
  if v.launch.stack = 0 then p else bitsWhere fun i => p.getLsbD i && (v.stackEa o i).toNat < (v.thread i).slim.toNat

/-- s.unit of the stack cache (R270). -/
def stackUnit (core : Nat) : W32 := BitVec.ofNat 32 (3 + 65536 * core)

/-- The lanes of a mask take the stack-limit trap (R205, R269), one after another while the context goes on. -/
def View.trapStack (v : View) (n : Nat) (m : Mask) (s : State) : State :=
  (lanesOf m).foldl (fun s i => s.takeTrap v.ic.core v.ic.wslot i 5 (BitVec.ofNat 32 n) (stackUnit v.ic.core) v.ic.pc) s

/-- The faults that come before any trap of ldf and stf (R205): in every lane of a thread with a stack, an address that is not
canonical or not naturally aligned. -/
def View.stackFault (v : View) (o : Operands) (n : Nat) (acc : Acc) : Option State :=
  if v.launch.stack = 0 then none else
    let l := laneAddrs (v.passing o) (v.stackEa o)
    match addressFault n l, misaligned n l with
    | some x, _ => some (v.accessFailed acc x)
    | none, some x => some (v.alignFault x)
    | none, none => none

/-- What the thread of a lane of the wave waits for now. -/
def View.waitOf (v : View) (lane : Nat) (s : State) : Option Wait :=
  ((s.wave? v.ic.core v.ic.wslot).bind fun w => w.live? lane).map Thread.wait

/-- A spill or fill that has stopped on a record stops the whole wave (R289): its other threads wait with those of the issue set. -/
def View.stopWave (v : View) (s : State) : State :=
  match v.waitOf (lowestLane v.active) s with
  | some (.replay o sq) =>
    s.mapWave v.ic.core v.ic.wslot fun w => w.mapAll fun t => if t.wait = .ready then { t with wait := .replay o sq } else t
  | some (.retry (.replayRing o)) =>
    s.mapWave v.ic.core v.ic.wslot fun w => w.mapAll fun t => if t.wait = .ready then { t with wait := .retry (.replayRing o) } else t
  | _ => s

/-- An access of the stack ends (R205, R268): the lanes of `m` trap and the others of the issue set advance. -/
def View.finishStack (v : View) (o : Operands) (n : Nat) (m : Mask) (x : Stage State) : State :=
  match x with
  | .ok s => v.trapStack n m (v.retire o (v.active &&& ~~~m) s)
  | .error s => v.stopWave s

/-- ldf (R205). -/
def execLdf (o : Operands) (s : State) : Host.Outcome State Fault Refusal :=
  withIssue s fun v =>
    let t := o.mod.toNat % 8
    if v.resultsFull then v.waitSlot else
    match v.stackFault o (widthBytes t) v.accLoad with
    | some s => s
    | none =>
      let m := v.stackTraps o
      let go := v.passing o &&& ~~~m
      v.finishStack o (widthBytes t) m (v.load o ⟨t, none, none, true⟩ go (laneAddrs go (v.stackEa o)))

/-- stf (R205). -/
def execStf (o : Operands) (s : State) : Host.Outcome State Fault Refusal :=
  withIssue s fun v =>
    let t := o.mod.toNat % 8
    match v.stackFault o (widthBytes t) v.accStore with
    | some s => s
    | none =>
      let m := v.stackTraps o
      let go := v.passing o &&& ~~~m
      v.finishStack o (widthBytes t) m
        (v.store (widthBytes t) none .stack (laneAddrs go (v.stackEa o)) (v.storeData t o.c))

/-! ### Residency requests and cache maintenance -/

/-- What a residency request reports of a page (R210): marked invalid, and the IA where the partition stage decided. -/
def residency (x : Except XFault Trans) : Option (Bool × Option Nat) :=
  match x with
  | .ok _ => none
  | .error .nonResident => some (false, none)
  | .error (.second c _ ia) => some (c ≠ 1, some ia)
  | .error _ => some (true, none)

/-- The walk of a residency request: both stages, with no permission checked (R210). -/
def View.resWalk (v : View) (va : W64) (tag : Nat) : Except XFault Trans :=
  let c := v.s.ctxOf v.ctx
  walkFresh v.s.mem v.s.free tag (c.root.toNat % 2 ^ 48) (v.s.partRoot c.part) ⟨0, false, false, true⟩ va.toNat

/-- The record of a residency request (R210, R416). -/
def View.resRec (v : View) (lane : Nat) (va : W64) (x : Bool × Option Nat) : Rec :=
  { v.faultRec lane 0x03 with
    va := va, ctx := some v.ctx, part := v.part, pa := x.2.getD 0
    synd := BitVec.ofNat 32 (x.1.toNat + 2 * x.2.isSome.toNat) }

/-- Whether a request for the page of an address is already pending, so that the device may merge another with it (R210). -/
def State.requestPending (s : State) (o ctx : Nat) (va : W64) : Bool :=
  (s.owner o).open_.any fun r => r.kind = 3 && r.ctx = ctx && r.va.toNat / 4096 = va.toNat / 4096

/-- resq (R210): a full ring makes the producer wait (R414). -/
def execResq (o : Operands) (s : State) : Host.Outcome State Fault Refusal :=
  withIssue s fun v =>
    let l := laneAddrs (v.passing o) (v.globalEa o)
    match addressFault 1 l with
    | some x => v.accessFailed v.accLoad x
    | none =>
      let asks := l.filterMap fun x => (residency (v.resWalk x.2 (walkTag x.1 0))).map fun r => (x, r)
      let own := 1 + v.part
      if !asks.isEmpty && 4096 < ((v.s.owner own).rprod - (v.s.owner own).rcons).toNat + asks.length then
        v.park v.s v.active (.retry (.replayRing own))
      else
        v.retire o v.active (asks.foldl (fun s a =>
          if s.requestPending own v.ctx a.1.2 && Config.freeBool s.free (readTag a.1.1 6 0) then s
          else (s.postReplay own (v.resRec a.1.1 a.1.2 a.2)).1) v.s)

/-- The physical runs of the lanes' ranges on pages that translate (R211). -/
def View.rangeRuns (v : View) (l : List (Nat × W64 × Nat)) : List (Nat × Nat) :=
  l.flatMap fun x => (accessParts x.2.1 x.2.2).filterMap fun p =>
    match v.s.translate v.ctx v.accLoad p.1 (walkTag x.1 p.2.1) with
    | .ok t => some (t.paOf p.1.toNat, p.2.2)
    | .error _ => none

/-- Whether a run of bytes lies on one of the lines that some runs touch. -/
def onLines (runs : List (Nat × Nat)) (pa n : Nat) : Bool :=
  runs.any fun r => 0 < r.2 && r.1 / 128 * 128 < pa + n && pa < (r.1 + r.2 + 127) / 128 * 128

/-- The ranges of cwb and cinv, or the address fault of one (R211). -/
def View.maintain (v : View) (o : Operands) (f : List (Nat × Nat) → State) : State :=
  let l := (lanesOf (v.passing o)).map fun i => (i, v.src64 0 o.a i, (v.src32 .int 1 o.b i).toNat)
  match l.findSome? fun x => addressFault x.2.2 [(x.1, x.2.1)] with
  | some x => v.accessFailed v.accLoad x
  | none => v.retire o v.active (f (v.rangeRuns l))

/-- cwb (R211): the core's writes to the lines go on their way to their home slices, and with .mem on to memory; lines that are
already at home are written back at once. -/
def execCwb (o : Operands) (s : State) : Host.Outcome State Fault Refusal :=
  withIssue s fun v => v.maintain o fun runs =>
    let lv := if modBit o.mod.toNat 0 then 2 else 1
    let mark (w : PendWrite) : PendWrite :=
      if w.agent.core = some v.ic.core ∧ w.uid ≠ 0 ∧ onLines runs w.addr w.data.length then { w with cwb := max w.cwb lv } else w
    let s : State := { v.s with writes := v.s.writes.map mark }
    if lv = 2 then s.writeBack fun d => onLines runs (d.line * 128) 128 else s

/-- cinv (R211, R116): the core's copies of the lines are gone, and each of its writes still on their way there that lie dirty in
L1 is lost or not, freely. -/
def execCinv (o : Operands) (s : State) : Host.Outcome State Fault Refusal :=
  withIssue s fun v => v.maintain o fun runs =>
    let lost (k : Nat) (w : PendWrite) : Bool :=
      w.agent.core = some v.ic.core && w.uid ≠ 0 && w.cached && onLines runs w.addr w.data.length && Config.freeBool v.s.free (8388608 + k)
    { v.s with
      l1 := v.s.l1.filter fun x => !(x.core = v.ic.core && onLines runs (x.line * 128) 128)
      writes := (v.s.writes.mapIdx fun k w => (lost k w, w)).filterMap fun x => if x.1 then none else some x.2 }

end Sys2Proof.Machine
end

