-- ==== Sys2Proof/Machine/Scratch.lean ====
section
/-! DEFINITION. Group 6, part two: the scratchpad, its range scoreboard, stash windows, and the validity of tables built from
it (R109, R110, R202 to R208, R216). -/
namespace Sys2Proof.Machine

/-- The bytes of a launch's scratchpad window (R37). -/
def Launch.scratch (l : Launch) : Nat := bitsAt l.words 176 12 * 128

/-- The blocks of a block's cluster (R33); a block that is not of a grid is alone (R45). -/
def State.clusterSize (s : State) (b : Block) : Nat :=
  match b.kind with
  | .grid => bitsAt (s.launchOf b.launch).words 188 3 + 1
  | _ => 1

/-- The block that a block's scratchpad address selects (R202). -/
def State.scrBlock (s : State) (b : Block) (addr : Nat) : Option Block :=
  let peer := bitField addr 24 3
  if addr.testBit 27 ∧ peer ≠ b.f2 then s.blocks.find? fun x => x.cluster = b.cluster && x.f2 = peer && x.kind = b.kind
  else some b

/-- The target of a scratchpad range of a block (R202): its block and offset, where no check fails. -/
def State.scrTarget (s : State) (b : Block) (addr n : Nat) : Option (Block × Nat) :=
  let off := addr % 2 ^ 19
  if bitField addr 19 5 ≠ 0 ∨ bitField addr 28 4 ≠ 0 ∨ (addr.testBit 27 ∧ s.clusterSize b ≤ bitField addr 24 3) then none
  else
    match s.scrBlock b addr with
    | some t => if off + n ≤ (s.launchOf t.launch).scratch then some (t, off) else none
    | none => none

/-- The scratchpad fault of a lane at a scratchpad address (R202). Log entry 21. -/
def View.scratchFault (v : View) (lane addr : Nat) : State :=
  v.fatal { v.faultRec lane 0x2A with va := BitVec.ofNat 64 addr }

/-- Two ranges of bytes share one. -/
def overlaps (a n b k : Nat) : Bool := a < b + k && b < a + n

/-- Whether a recorded range of a command in flight holds up an access (R109): any for a write, destinations for a read. -/
def State.scoreHit (s : State) (blk lo len : Nat) (wr : Bool) : Bool :=
  s.cmds.any fun c => c.ranges.any fun r => r.blk = blk && overlaps r.lo r.len lo len && (r.dst || wr)

/-- Whether a command in flight touches a range at all (R207, R227). -/
def State.scoreAny (s : State) (blk lo len : Nat) : Bool := s.scoreHit blk lo len true

/-- The block and offsets a table was built from (R238, R239). Log entry 22. -/
def State.tableRange (s : State) (owner : Nat) (t : Table) : Option (Nat × Nat × Nat) :=
  (s.scrBlock (s.blockOf owner) t.src.toNat).map fun b => (b.key, t.src.toNat % 2 ^ 19, 15 * t.pitch + t.kb)

/-- The state of a table register (R238): 0 empty, 1 valid, 2 dropped, 3 stale. -/
def Table.state (t : Table) : Nat := bitField t.stat.toNat 6 2

/-- A table register with its state changed. -/
def Table.setState (t : Table) (st : Nat) : Table := { t with stat := (t.stat &&& ~~~0xC0) ||| BitVec.ofNat 32 (64 * st) }

/-- A write of a block's scratchpad makes every table stale that was built from an overlapping range (R216). -/
def State.staleTables (s : State) (blk lo len : Nat) : State :=
  { s with cores := s.cores.map fun c =>
      match c.owner with
      | some ob =>
        { c with tables := c.tables.map fun (k, t) =>
            let hit := (s.tableRange ob t).any fun r => r.1 = blk && overlaps r.2.1 r.2.2 lo len
            (k, if hit && (t.state = 1 || t.state = 2) then t.setState 3 else t) }
      | none => c }

/-- Bytes written to a block's scratchpad window. -/
def State.scrWrite (s : State) (blk off : Nat) (bs : List Byte) : State :=
  s.mapBlock blk fun b => { b with scratch := b.scratch.writeRun off bs }

/-! ### Stash windows -/

/-- The stash window that holds an offset of a block's scratchpad. -/
def Block.stashAt (b : Block) (off : Nat) : Option Stash := b.stash.find? fun w => w.off ≤ off && off < w.off + w.len

/-- A part of a lane's scratchpad access: its block, offset and length, its offset in the access, and its stash window. -/
structure ScrPart where
  lane : Nat
  blk  : Nat
  off  : Nat
  rel  : Nat
  len  : Nat
  win  : Option Stash
  deriving DecidableEq, Repr

/-- The parts of an access, cut where stash windows begin and end; `fuel` bounds their number. -/
def scrParts (b : Block) (lane off rel n : Nat) : Nat → List ScrPart
  | 0 => []
  | fuel + 1 =>
    if n = 0 then [] else
      let key (k : Nat) : Option Nat := (b.stashAt k).map (·.win)
      let len := ((List.range n).takeWhile fun k => key (off + k) = key off).length
      ⟨lane, b.key, off, rel, len, b.stashAt off⟩ :: scrParts b lane (off + len) (rel + len) (n - len) fuel

/-- The global pieces of the parts that lie in stash windows (R208): each part with a piece of its global bytes. -/
def View.winPieces (v : View) (acc : Acc) : List ScrPart → Except AccessFault (List (ScrPart × Piece))
  | [] => .ok []
  | x :: r =>
    match x.win with
    | none => View.winPieces v acc r
    | some w =>
      let va := w.base + BitVec.ofNat 64 (x.off - w.off)
      match v.s.partPieces v.ctx acc false x.lane (accessParts va x.len) with
      | .error f => .error f
      | .ok ps => (View.winPieces v acc r).map (ps.map (fun p => (x, p)) ++ ·)

/-- A window of a block changed. -/
def State.mapStash (s : State) (blk win : Nat) (f : Stash → Stash) : State :=
  s.mapBlock blk fun b => { b with stash := updateWhere (·.win = win) f b.stash }

/-- One line of a stash window is filled from its home slice if it has not been (R208, R110); the core's own writes to it are
performed first. `lo` is its place in the scratchpad, and `slice` homes it (R305). -/
def State.fillLine (s : State) (core : Nat) (slice : Nat → Nat) (w : Stash) (blk line lo : Nat) : State :=
  let s := s.flushRun core (line * 128) 128
  let k := (lo - w.off) / 128
  if ((s.blockOf blk).stashAt lo).any fun x => x.filled.contains k then s
  else
    let s := s.scrWrite blk lo (s.aliased 4611686018427387904 slice (line * 128) (s.homeRead (9437184 + 128 * (line % 8192)) (line * 128) 128))
    (s.mapStash blk w.win fun x => { x with filled := k :: x.filled }).staleTables blk lo 128

/-- Whether an access through a mapping bypasses a stash window over it (R110, R401): a strongly ordered or an uncacheable page. -/
def Trans.pastWindow (t : Trans) : Bool := t.kind = 0 || t.uc

/-- The lines that an access through a window touches are filled; remote bytes and those of a page that bypasses it are not. -/
def View.fillWindow (v : View) (s : State) (x : ScrPart × Piece) : State :=
  match x.1.win, x.2.tr with
  | some w, some t =>
    if isRemote x.2.pa then s
    else if t.pastWindow then (s.flushRun v.ic.core x.2.pa x.2.len).dropLines v.ic.core x.2.pa x.2.len
    else
      let at_ := x.1.off + x.2.off
      ((linesOf x.2.pa x.2.len).foldl (fun s l => s.fillLine v.ic.core (v.slices t.tgeo) w x.1.blk l (at_ + l * 128 - x.2.pa)) s).dropLines
        v.ic.core x.2.pa x.2.len
  | _, _ => s

/-- The bytes a window access reads: those at home. -/
def View.winBytes (v : View) (x : ScrPart × Piece) : List Byte :=
  if isRemote x.2.pa then v.pieceBytes x.2
  else v.aliased ((x.2.tr.map (·.tgeo)).getD 0) x.2.pa (v.s.homeRead (10485760 + 16 * x.1.lane + x.1.rel) x.2.pa x.2.len)

/-- A window's copy holds what an access read or wrote last (R208); bytes that bypass it are not held. -/
def State.keepWindow (s : State) (x : ScrPart × Piece) (bs : List Byte) (dirty : Bool) : State :=
  match x.1.win, x.2.tr with
  | some w, some t =>
    if t.pastWindow || isRemote x.2.pa then s else
      let at_ := x.1.off + x.2.off
      (s.scrWrite x.1.blk at_ bs).mapStash x.1.blk w.win fun y =>
        if dirty then { y with dirty := ((at_ - w.off) / 128 :: y.dirty).eraseDups } else y
  | _, _ => s

/-- A write through a window, performed at home (R110). -/
def View.winWrite (v : View) (s : State) (x : ScrPart × Piece) (bs : List Byte) : State :=
  match x.2.tr with
  | none => s
  | some t =>
    let s := (s.flushRun v.ic.core x.2.pa x.2.len).performWrite
      { agent := v.agent, uid := (v.thread x.2.lane).uid, addr := x.2.pa, va := x.2.va, tgeo := t.tgeo, data := bs, slice := 0
        so := t.kind = 0, uo := t.kind = 2, cached := false, stack := false, issued := s.free, cwb := 0, misdirected := false }
    (s.dropLines v.ic.core x.2.pa x.2.len).keepWindow x bs true

/-! ### Scratchpad accesses -/

/-- A lane's scratchpad access: its target block and offset. -/
structure ScrAccess where
  lane : Nat
  blk  : Block
  off  : Nat

/-- The accesses of some lanes of `n` bytes each, or the lane that fails R202. -/
def View.scrAccesses (v : View) (n : Nat) : List (Nat × Nat) → Except (Nat × Nat) (List ScrAccess)
  | [] => .ok []
  | (lane, addr) :: r =>
    match v.s.scrTarget (v.block lane) addr n with
    | some (b, off) => if off % n ≠ 0 then .error (lane, addr) else (View.scrAccesses v n r).map (⟨lane, b, off⟩ :: ·)
    | none => .error (lane, addr)

/-- Some scratchpad accesses of `n` bytes issue as writes: the tables built from what they overlap are stale from their issue on,
even where the writes only stall (R216). -/
def State.staleFor (s : State) (n : Nat) (l : List ScrAccess) : State := l.foldl (fun s a => s.staleTables a.blk.key a.off n) s

/-- The wait of an access behind the range scoreboard (R109) or for a peer whose core is out for a scan (R455). -/
def View.scrWait (v : View) (n : Nat) (wr : Bool) (l : List ScrAccess) : Option Wait :=
  l.findSome? fun a =>
    if a.blk.out then some (.retry (.coreOut a.blk.core))
    else if v.s.scoreHit a.blk.key a.off n wr then some (.retry (.scratchRange a.blk.key a.off n wr))
    else none

/-- An access's own block wrote a peer's scratchpad (R458). -/
def View.notePeer (v : View) (s : State) (l : List ScrAccess) : State :=
  l.foldl (fun s a =>
    if a.blk.key ≠ (v.thread a.lane).blk then s.mapBlock (v.thread a.lane).blk fun b => { b with peers := true } else s) s

/-- The accesses of an instruction with all its checks made: the accesses, their parts, and the global pieces of parts in stash
windows. An error is the state in which the instruction ends there. -/
def View.scrReady (v : View) (n : Nat) (wr : Bool) (acc : Acc) (dests : List (Nat × Nat)) :
    Stage (List ScrAccess × List ScrPart × List (ScrPart × Piece)) :=
  match v.scrAccesses n dests with
  | .error x => .error (v.scratchFault x.1 x.2)
  | .ok l =>
    match v.scrWait n wr l with
    | some why => .error (v.park (if wr then v.s.staleFor n l else v.s) v.active why)
    | none =>
      let parts := l.flatMap fun a => scrParts a.blk a.lane a.off 0 n (n + 1)
      match v.winPieces acc parts with
      | .error f => .error (v.accessFailed acc f)
      | .ok ws =>
        match v.s.badLine v.part (!wr) (ws.map (·.2)) with
        | some b => .error (v.lineFailed b)
        | none => .ok (l, parts, ws)

/-- The bytes a lane reads: from its block's window, and through stash windows. -/
def View.scrBytes (v : View) (parts : List ScrPart) (ws : List (ScrPart × Piece)) (lane : Nat) : List Byte :=
  (parts.filter (·.lane = lane)).flatMap fun x =>
    match x.win with
    | none => (v.s.blockOf x.blk).scratch.readRun x.off x.len
    | some _ => (ws.filter (·.1 = x)).flatMap v.winBytes

/-- The scratchpad address of a lane for lds and sts (R204). -/
def View.scrEa (v : View) (o : Operands) (lane : Nat) : Nat := (v.src32 .int 0 o.a lane + v.src32 .int 1 o.b lane).toNat

/-- lds (R204). -/
def execLds (o : Operands) (s : State) : Host.Outcome State Fault Refusal :=
  withIssue s fun v =>
    let t := o.mod.toNat % 8
    let p := v.passing o
    if v.resultsFull then v.waitSlot else
    match v.scrReady (widthBytes t) false v.accLoad ((lanesOf p).map fun i => (i, v.scrEa o i)) with
    | .error s => s
    | .ok (_, parts, ws) =>
      let pieces := ws.map (·.2)
      let v' : View := { v with s := ws.foldl v.fillWindow v.s }
      let s := ws.foldl (fun s x => s.keepWindow x (v'.winBytes x) false) v'.s
      v.retire o v.active (v.writeLater (v.remoteReads (v.cachePieces s pieces) pieces) p o.dst.reg.toNat
        fun i => (widthExtend t (v'.scrBytes parts ws i), 0))

/-- One lane's sts (R204, R216), performed at its target block's window or through its stash windows. Accesses of one thread to
different scratchpads are performed in program order too, which R108 asks only of those to one (DEDUCED, log entry 136). -/
def View.scrStore (v : View) (parts : List ScrPart) (ws : List (ScrPart × Piece)) (data : Nat → List Byte) (s : State)
    (a : ScrAccess) : State :=
  let d := data a.lane
  let s := (parts.filter (·.lane = a.lane)).foldl (fun s x =>
    match x.win with
    | none => s.scrWrite x.blk x.off ((d.drop x.rel).take x.len)
    | some _ => (ws.filter (·.1 = x)).foldl (fun s y => v.winWrite s y ((d.drop (x.rel + y.2.off)).take y.2.len)) s) s
  s.staleTables a.blk.key a.off d.length

/-- sts (R204): lanes in ascending order, so that the highest lane's value of a word remains (R233). -/
def execSts (o : Operands) (s : State) : Host.Outcome State Fault Refusal :=
  withIssue s fun v =>
    let t := o.mod.toNat % 8
    match v.scrReady (widthBytes t) true v.accStore ((lanesOf (v.passing o)).map fun i => (i, v.scrEa o i)) with
    | .error s => s
    | .ok (l, parts, ws) =>
      match v.s.noteWrite v.ic.core v.ctx (pieceVpages (ws.map (·.2))) with
      | none => v.waitRange
      | some s =>
        let s := ws.foldl v.fillWindow (v.notePeer (v.cachePieces s (ws.map (·.2))) l)
        v.retire o v.active (l.foldl (v.scrStore parts ws (v.storeData t o.c)) s)

/-! ### Mapping windows -/

/-- A block's windows without some of them; every byte keeps the value last read or written (R208). -/
def State.unmap (s : State) (blk : Nat) (p : Stash → Bool) : State :=
  s.mapBlock blk fun b => { b with stash := b.stash.filter fun w => !p w }

/-- Two ranges of virtual addresses, of lengths below 2^64, share a byte. -/
def wideOverlap (a : W64) (n : Nat) (b : W64) (k : Nat) : Bool := (b - a).toNat < n || (a - b).toNat < k

/-- The checks of smap (R207) but for canonical addresses. -/
def View.smapOk (v : View) (b : Block) (base : W64) (addr len : Nat) : Bool :=
  base.toNat % 128 = 0 && !addr.testBit 27 && len % 128 = 0 && 128 ≤ len && (v.s.scrTarget b addr len).isSome &&
    b.stash.all fun w => !overlaps w.off w.len (addr % 2 ^ 19) len && !wideOverlap w.base w.len base len

/-- smap (R207). -/
def execSmap (o : Operands) (s : State) : Host.Outcome State Fault Refusal :=
  withIssue s fun v =>
    let p := v.passing o
    if p = 0 then v.retire o v.active v.s else
      let l := lowestLane p
      let k := (v.thread l).blk
      let w := o.mod.toNat % 16
      let base := v.src64 0 o.a l
      let addr := (v.src32 .int 1 o.b l).toNat
      let len := (v.src32 .int 2 o.c l).toNat
      let s := v.s.unmap k fun x => x.win = w
      match addressFault len [(l, base)] with
      | some f => v.accessFailed v.accLoad f
      | none =>
        if !v.smapOk (s.blockOf k) base addr len then v.scratchFault l addr
        else if s.scoreAny k (addr % 2 ^ 19) len then v.park s v.active (.retry (.stashRange k (addr % 2 ^ 19) len))
        else v.retire o v.active (s.mapBlock k fun b => { b with stash := b.stash ++ [⟨w, base, addr % 2 ^ 19, len, [], []⟩] })

/-- Whether swb or sinv names a window (R206). -/
def namesWindow (o : Operands) (w : Stash) : Bool := modBit o.mod.toNat 4 || w.win = o.mod.toNat % 16

/-- swb (R208): the lines of the windows are clean, which no agent can observe. -/
def execSwb (o : Operands) (s : State) : Host.Outcome State Fault Refusal :=
  withIssue s fun v =>
    let p := v.passing o
    v.retire o v.active <| if p = 0 then v.s else
      v.s.mapBlock (v.thread (lowestLane p)).blk fun b => { b with stash := updateWhere (namesWindow o) (fun w => { w with dirty := [] }) b.stash }

/-- sinv (R208). -/
def execSinv (o : Operands) (s : State) : Host.Outcome State Fault Refusal :=
  withIssue s fun v =>
    let p := v.passing o
    v.retire o v.active <| if p = 0 then v.s else v.s.unmap (v.thread (lowestLane p)).blk (namesWindow o)

end Sys2Proof.Machine
end

