-- ==== Sys2Proof/Machine/Atomics.lean ====
section
/-! DEFINITION. Group 7: the atomics on global memory and on scratchpad (R106, R107, R217 to R219). -/
namespace Sys2Proof.Machine

/-- The ordering of an atomic: its acquire and release scopes (R217). -/
structure AtomOrd where
  acq : Option Nat
  rel : Option Nat

/-- The ordering field of an atomic's MOD (R217). -/
def atomOrd (o : Operands) : AtomOrd :=
  let m := o.mod.toNat
  let sc := bitField m 2 3
  ⟨if modBit m 0 then some sc else none, if modBit m 1 then some sc else none⟩

/-- The ordering of an atomic of the issuing threads: none where every lane is guarded off (R93). -/
def View.atomOrd (v : View) (o : Operands) : AtomOrd := if v.passing o = 0 then ⟨none, none⟩ else Machine.atomOrd o

/-- The bytes of an atomic's location (R217). -/
def atomBytes (o : Operands) : Nat := if modBit o.mod.toNat 5 then 8 else 4

/-- The new value of an atomic operation on `w`-bit values by its descriptor (R218). -/
def atomNew (desc w : Nat) (old b : Nat) : Nat :=
  let u := desc.testBit 3
  let lt : Bool := if u then b < old else (BitVec.ofNat w b).slt (BitVec.ofNat w old)
  let gt : Bool := if u then old < b else (BitVec.ofNat w old).slt (BitVec.ofNat w b)
  match desc % 8 with
  | 0 => (old + b) % 2 ^ w
  | 1 => if lt then b else old
  | 2 => if gt then b else old
  | 3 => old &&& b
  | 4 => old ||| b
  | 5 => old ^^^ b
  | 6 => b
  | _ => (fpAdd 0 (BitVec.ofNat 32 old) (BitVec.ofNat 32 b)).1.toNat

/-- An operand of an atomic in a lane, as a number of its width. -/
def View.atomSrc (v : View) (o : Operands) (field : Nat) (x : Src) (lane : Nat) : Nat :=
  if atomBytes o = 8 then (v.src64 field x lane).toNat else (v.src32 .int field x lane).toNat

/-- The new value of atom, atomr, atomsc and atoms in a lane. -/
def View.atomOp (v : View) (o : Operands) (lane old : Nat) : Nat :=
  atomNew (immNat o.c) (8 * atomBytes o) old (v.atomSrc o 1 o.b lane)

/-- The new value of cas and cass in a lane (R218). -/
def View.casOp (v : View) (o : Operands) (lane old : Nat) : Nat :=
  if old = v.atomSrc o 1 o.b lane then v.atomSrc o 2 o.c lane else old

/-- An atomic's access by the issuing threads (R404). -/
def View.accAtomic (v : View) : Acc := ⟨2, true, false, v.priv⟩

/-- The checks of every lane of an atomic on global memory (R90, R219), then its pieces. -/
def View.atomReady (v : View) (n : Nat) (dests : List (Nat × W64)) : Stage (List Piece) :=
  match addressFault n dests, misaligned n dests with
  | some x, _ => .error (v.accessFailed v.accAtomic x)
  | none, some x => .error (v.alignFault x)
  | none, none =>
    match v.s.lanePieces v.ctx v.accAtomic false n dests with
    | .error x => .error (v.accessFailed v.accAtomic x)
    | .ok ps =>
      match v.s.badLine v.part true ps with
      | some b => .error (v.lineFailed b)
      | none => .ok ps

/-- One lane's atomic at its location's home slice (R106, R219): what the lane receives. A remote location's old value is
whatever the paired device answers. -/
def View.atomPiece (v : View) (f : Nat → Nat → Nat) (x : State × List (Nat × Nat)) (p : Piece) : State × List (Nat × Nat) :=
  let s := ((if p.tr.any (·.kind = 0) then x.1.flushStrong (v.thread p.lane).uid else x.1)).flushRun v.ic.core p.pa p.len
  if isRemote p.pa then (v.remoteReads s [p], x.2 ++ [(p.lane, bytesNat (v.pieceBytes p))])
  else
    let tgeo := (p.tr.map (·.tgeo)).getD 0
    let old := bytesNat (s.aliased 4755801206503243776 (v.slices tgeo) p.pa (s.homeRead (11534336 + 16 * p.lane) p.pa p.len))
    let s := s.performWrite
      { agent := v.agent, uid := (v.thread p.lane).uid, addr := p.pa, va := p.va, tgeo := tgeo
        data := natBytes p.len (f p.lane old), slice := 0, so := true, uo := false, cached := false, stack := false
        issued := s.free, cwb := 0, misdirected := false }
    (s.dropLines v.ic.core p.pa p.len, x.2 ++ [(p.lane, old)])

/-- The registers of an atomic's old value. -/
def oldRegs (n old : Nat) : List W32 := if n = 8 then splitWide (BitVec.ofNat 64 old) else [BitVec.ofNat 32 old]

/-- The results of an atomic's lanes. -/
def View.atomResults (v : View) (o : Operands) (ps : List Piece) (olds : List (Nat × Nat)) : List LaneResult :=
  olds.map fun (lane, old) =>
    let far := ps.filter fun p => p.lane = lane && isRemote p.pa
    let late := (v.remoteNumbers ps lane).zip (far.map (lateWrites (if atomBytes o = 8 then 5 else 4) o.dst.reg.toNat none))
    ⟨lane, (v.thread lane).uid, regWrites o.dst.reg.toNat (oldRegs (atomBytes o) old), late⟩

/-- An atomic on global memory (R219): its release, its lanes in ascending order, and its acquire. `ret` when it returns the
old value. -/
def View.atomic (v : View) (o : Operands) (ord : AtomOrd) (ret : Bool) (f : Nat → Nat → Nat) : State :=
  if ret && v.resultsFull then v.waitSlot else
  match v.atomReady (atomBytes o) (laneAddrs (v.passing o) fun i => v.src64 0 o.a i) with
  | .error s => s
  | .ok ps =>
    match v.s.noteWrite v.ic.core v.ctx (pieceVpages ps) with
    | none => v.waitRange
    | some s =>
      let s := v.cachePieces s ps
      let s := match ord.rel with
        | some sc => s.release v.ic.core sc
        | none => s
      let r := ps.foldl (v.atomPiece f) (s, [])
      let s := match ord.acq with
        | some sc => r.1.acquire v.ic.core sc
        | none => r.1
      v.retire o v.active (if ret then v.leaveLanes s 0 (v.atomResults o ps r.2) else s)

/-- atom (R217 to R219). -/
def execAtom (o : Operands) (s : State) : Host.Outcome State Fault Refusal :=
  withIssue s fun v => v.unlessHeld (v.atomOrd o).rel <| v.atomic o (v.atomOrd o) true (v.atomOp o)

/-- cas (R217 to R219). -/
def execCas (o : Operands) (s : State) : Host.Outcome State Fault Refusal :=
  withIssue s fun v => v.unlessHeld (v.atomOrd o).rel <| v.atomic o (v.atomOrd o) true (v.casOp o)

/-- atomr (R217, R106): an atomic that returns no value. -/
def execAtomr (o : Operands) (s : State) : Host.Outcome State Fault Refusal :=
  withIssue s fun v => v.unlessHeld (v.atomOrd o).rel <| v.atomic o (v.atomOrd o) false (v.atomOp o)

/-- atomsc (R107, R101): both halves at .dev. The step order of the model is the ticket order. -/
def execAtomsc (o : Operands) (s : State) : Host.Outcome State Fault Refusal :=
  withIssue s fun v => 
    let ord : AtomOrd := if v.passing o = 0 then ⟨none, none⟩ else ⟨some 4, some 4⟩
    v.unlessHeld ord.rel <| v.atomic o ord true (v.atomOp o)

/-- The window part of a scratchpad atomic that is not a whole aligned global access (R90, R208). -/
def badWindow (n : Nat) (ws : List (ScrPart × Piece)) : Option (Nat × W64) :=
  (ws.find? fun x => x.2.len ≠ n || x.2.va.toNat % n ≠ 0).map fun x => (x.1.lane, x.2.va)

/-- The window's copy of the lines of an access is dropped (R208). -/
def State.dropWindow (s : State) (x : ScrPart × Piece) : State :=
  match x.1.win with
  | none => s
  | some w =>
    let k := (x.1.off + x.2.off - w.off) / 128
    s.mapStash x.1.blk w.win fun y => { y with filled := y.filled.filter (· ≠ k), dirty := y.dirty.filter (· ≠ k) }

/-- One lane's atomic on scratchpad (R106, R219), or at home through a stash window (R208). -/
def View.scrAtom (v : View) (n : Nat) (f : Nat → Nat → Nat) (parts : List ScrPart) (ws : List (ScrPart × Piece))
    (x : State × List (Nat × Nat)) (a : ScrAccess) : State × List (Nat × Nat) :=
  let mine := ws.filter (·.1.lane = a.lane)
  let s := mine.foldl (fun s y => s.flushRun v.ic.core y.2.pa y.2.len) x.1
  let v' : View := { v with s := s }
  let old := bytesNat (v'.scrBytes parts ws a.lane)
  let s := v.scrStore parts ws (fun i => natBytes n (f i old)) s a
  (mine.foldl State.dropWindow s, x.2 ++ [(a.lane, old)])

/-- An atomic on scratchpad (R217, R219). -/
def View.scrAtomic (v : View) (o : Operands) (f : Nat → Nat → Nat) : State :=
  let n := atomBytes o
  let ord := v.atomOrd o
  if v.resultsFull then v.waitSlot else
  match v.scrReady n true v.accAtomic ((lanesOf (v.passing o)).map fun i => (i, (v.src32 .int 0 o.a i).toNat)) with
  | .error s => s
  | .ok (l, parts, ws) =>
    match badWindow n ws with
    | some x => v.alignFault x
    | none =>
      match v.s.noteWrite v.ic.core v.ctx (pieceVpages (ws.map (·.2))) with
      | none => v.waitRange
      | some s =>
        let s := v.notePeer (v.cachePieces s (ws.map (·.2))) l
        let s := match ord.rel with
          | some sc => s.release v.ic.core sc
          | none => s
        let r := l.foldl (v.scrAtom n f parts ws) (s, [])
        let s := match ord.acq with
          | some sc => r.1.acquire v.ic.core sc
          | none => r.1
        v.retire o v.active (v.leaveLanes s 0 (v.atomResults o [] r.2))

/-- atoms (R217 to R219). -/
def execAtoms (o : Operands) (s : State) : Host.Outcome State Fault Refusal :=
  withIssue s fun v => v.unlessHeld (v.atomOrd o).rel <| v.scrAtomic o (v.atomOp o)

/-- cass (R217 to R219). -/
def execCass (o : Operands) (s : State) : Host.Outcome State Fault Refusal :=
  withIssue s fun v => v.unlessHeld (v.atomOrd o).rel <| v.scrAtomic o (v.casOp o)

end Sys2Proof.Machine
end

