-- ==== Sys2Proof/Machine/Sync.lean ====
section
/-! DEFINITION. Group 8: barriers, fences, ordered sections and waits (R96 to R98, R220 to R227), and the condition on which each
wait ends. -/
namespace Sys2Proof.Machine

/-- The live threads of a list of waves. -/
def liveThreads (ws : List Wave) : List Thread := ws.flatMap fun w => w.slots.filterMap Slot.live?

/-- The threads filed in some bins. -/
def binThreads (bs : List Bin) : List Thread := bs.flatMap fun b => b.slots.map (·.1)

/-- Every thread that has not ended, wherever it is: in a wave, filed in a bin, or in an image off the cores. -/
def State.allThreads (s : State) : List Thread :=
  liveThreads s.waves ++ s.cores.flatMap (fun c => binThreads c.bins) ++
    s.images.flatMap fun i => liveThreads i.waves ++ binThreads i.bins

/-! ### Barriers -/

/-- A named barrier as it is when its block starts (R221). -/
def Barrier.fresh (n : Nat) : Barrier := ⟨n, 0, none, []⟩

/-- A named barrier of a block. -/
def Block.barrier (b : Block) (n : Nat) : Barrier := (b.barriers.find? fun x => x.n = n).getD (.fresh n)

/-- A named barrier of a block replaced. -/
def Block.setBarrier (b : Block) (x : Barrier) : Block :=
  if b.barriers.any (·.n = x.n) then { b with barriers := updateWhere (·.n = x.n) (fun _ => x) b.barriers }
  else { b with barriers := x :: b.barriers }

/-- Whether an open generation is complete (R222); `live` are the block's threads that have not ended. -/
def Barrier.full (x : Barrier) (live : List Nat) : Bool :=
  match x.count with
  | none => false
  | some 0 => live.all x.arrivals.contains
  | some n => n ≤ x.arrivals.length

/-- A barrier whose generation completes when it is full (R222). -/
def Barrier.check (x : Barrier) (live : List Nat) : Barrier :=
  if x.full live then { x with gen := x.gen + 1, count := none, arrivals := [] } else x

/-- An arrival at a barrier, which opens a generation when none is open (R222). -/
def Barrier.arrive (x : Barrier) (c uid : Nat) : Barrier :=
  { x with count := some (x.count.getD c), arrivals := x.arrivals ++ [uid] }

/-- The threads of a block that have not ended. -/
def State.blockLive (s : State) (blk : Nat) : List Nat := (s.allThreads.filter fun t => t.blk = blk).map (·.uid)

/-- An arrival of a thread at a barrier of its block (R222): the state, and the generation it arrived at. -/
def State.arriveAt (s : State) (blk n c uid : Nat) : State × W16 :=
  let x := (s.blockOf blk).barrier n
  (s.mapBlock blk fun b => b.setBarrier ((x.arrive c uid).check (s.blockLive blk)), x.gen)

/-- The barrier fault of a lane (R221). -/
def View.barrierFault (v : View) (lane : Nat) : State := v.fatal { v.faultRec lane 0x2B with va := 0 }

/-- The lanes' barriers and counts, or the lane that fails R221; `count` whether the second operand is a count. -/
def View.barrierBad (v : View) (o : Operands) (count : Bool) : Option Nat :=
  (lanesOf (v.passing o)).find? fun i =>
    95 < (v.src32 .int 0 o.a i).toNat || (count && (v.block i).nthreads < (v.src32 .int 1 o.b i).toNat)

/-- The lanes' arrivals in ascending order (R222): the state and each lane's generation. -/
def View.arriveAll (v : View) (o : Operands) : State × List (Nat × W16) :=
  (lanesOf (v.passing o)).foldl (fun x i =>
    let t := v.thread i
    let r := x.1.arriveAt t.blk (v.src32 .int 0 o.a i).toNat (v.src32 .int 1 o.b i).toNat t.uid
    (r.1, x.2 ++ [(i, r.2)])) (v.s, [])

/-- The generation of a lane among those of `arriveAll`. -/
def genOf (l : List (Nat × W16)) (lane : Nat) : W16 := ((l.find? (·.1 = lane)).map (·.2)).getD 0

/-- The threads of some lanes wait, each for its own condition. -/
def View.waitEach (v : View) (s : State) (m : Mask) (f : Nat → Wait) : State :=
  v.onWave s fun w => w.mapLanes m fun i t => { t with wait := f i }

/-- The lanes' arrivals after their release at .blk (R97, R290). -/
def View.arrive (v : View) (o : Operands) : State × List (Nat × W16) :=
  View.arriveAll { v with s := if v.passing o = 0 then v.s else v.s.release v.ic.core 1 } o

/-- The scope of an arrival's release. -/
def View.arriveScope (v : View) (o : Operands) : Option Nat := if v.passing o = 0 then none else some 1

/-- bar (R222): arrival is a release at .blk. A wait whose condition holds ends when the step settles. -/
def execBar (o : Operands) (s : State) : Host.Outcome State Fault Refusal :=
  withIssue s fun v =>
    match v.barrierBad o true with
    | some i => v.barrierFault i
    | none => v.unlessHeld (v.arriveScope o) <|
      let r := v.arrive o
      v.waitEach (v.retire o v.active r.1) (v.passing o) fun i => .bar (v.src32 .int 0 o.a i).toNat (genOf r.2 i)

/-- bara (R222): each lane receives the generation it arrived at. -/
def execBara (o : Operands) (s : State) : Host.Outcome State Fault Refusal :=
  withIssue s fun v =>
    if v.resultsFull then v.waitSlot else
    match v.barrierBad o true with
    | some i => v.barrierFault i
    | none => v.unlessHeld (v.arriveScope o) <|
      let r := v.arrive o
      v.retire o v.active (v.writeLater r.1 (v.passing o) o.dst.reg.toNat fun i => out32 ((genOf r.2 i).setWidth 32))

/-- barw (R222). -/
def execBarw (o : Operands) (s : State) : Host.Outcome State Fault Refusal :=
  withIssue s fun v =>
    match v.barrierBad o false with
    | some i => v.barrierFault i
    | none =>
      v.waitEach (v.retire o v.active v.s) (v.passing o) fun i =>
        .barw (v.src32 .int 0 o.a i).toNat ((v.src32 .int 1 o.b i).setWidth 16)

/-- A cluster's barrier (R223). -/
def State.clubar (s : State) (c : Nat) : ClusterBarrier := (s.clubars.find? fun x => x.cluster = c).getD ⟨c, 0, []⟩

/-- A cluster's barrier replaced. -/
def State.setClubar (s : State) (x : ClusterBarrier) : State :=
  { s with clubars := x :: s.clubars.filter fun y => y.cluster ≠ x.cluster }

/-- The threads of a cluster that have not ended. -/
def State.clusterLive (s : State) (c : Nat) : List Nat :=
  (s.allThreads.filter fun t => (s.blockOf t.blk).cluster = c).map (·.uid)

/-- A cluster barrier whose generation completes once every thread of the cluster that has not ended has arrived (R223). -/
def ClusterBarrier.check (x : ClusterBarrier) (live : List Nat) : ClusterBarrier :=
  if x.arrivals ≠ [] ∧ live.all x.arrivals.contains then { x with gen := x.gen + 1, arrivals := [] } else x

/-- An arrival of a thread at its cluster's barrier (R223): the state, and the generation it arrived at. -/
def State.arriveCluster (s : State) (c uid : Nat) : State × W16 :=
  let x := s.clubar c
  (s.setClubar (ClusterBarrier.check { x with arrivals := x.arrivals ++ [uid] } (s.clusterLive c)), x.gen)

/-- barc (R223): a release at .clu on arrival; leaving, when the step settles, is an acquire at .clu. -/
def execBarc (o : Operands) (s : State) : Host.Outcome State Fault Refusal :=
  withIssue s fun v => v.unlessHeld (if v.passing o = 0 then none else some 2) <|
    let p := v.passing o
    let s := if p = 0 then v.s else v.s.release v.ic.core 2
    let r := (lanesOf p).foldl (fun (x : State × List (Nat × W16)) i =>
      let t := v.thread i
      let y := x.1.arriveCluster (v.block i).cluster t.uid
      (y.1, x.2 ++ [(i, y.2)])) (s, [])
    v.waitEach (v.retire o v.active r.1) p fun i => .barc (genOf r.2 i)

/-! ### Fences -/

/-- Whether a cwb's write of the core is still on its way (R211). -/
def State.cwbPending (s : State) (core : Nat) : Bool := s.writes.any fun w => w.agent.core = some core && w.uid ≠ 0 && w.cwb ≠ 0

/-- fence (R98, R224): the acquire half drops the core's copies and the release half performs its writes, at scopes beyond the
core. fence.full.sys also waits for the write-backs of earlier cwb instructions (R211). -/
def execFence (o : Operands) (s : State) : Host.Outcome State Fault Refusal :=
  withIssue s fun v =>
    let kind := o.mod.toNat % 4
    let scope := bitField o.mod.toNat 2 3
    let p := v.passing o
    if p = 0 then v.retire o v.active v.s
    else v.unlessHeld (if kind = 0 then none else some scope) <|
      let s := if kind = 0 then v.s else v.s.release v.ic.core scope
      let s := if kind = 1 then s else s.acquire v.ic.core scope
      if kind = 2 ∧ scope = 5 ∧ s.cwbPending v.ic.core then v.park s v.active (.retry .fenceSys)
      else v.retire o v.active s

/-! ### Ordered sections -/

/-- Whether two pixels are the same pixel of the same targets, the first of an earlier primitive (R225, R430). -/
def Pixel.before (a b : Pixel) : Bool :=
  a.part = b.part && a.targets = b.targets && a.x = b.x && a.y = b.y && a.order < b.order

/-- Whether a draw holds quads not yet started, or triangles not yet rasterised, of an earlier primitive at a pixel. -/
def Draw.before (d : Draw) (p : Pixel) : Bool :=
  d.part = p.part && wideAt d.words 8 = p.targets &&
    ((d.raster ++ d.quads).any (fun q => q.x / 2 = p.x / 2 && q.y / 2 = p.y / 2 && q.order < p.order) || d.tris.any fun t => t.order < p.order)

/-- Whether a thread may enter its section (R225): every thread of an earlier primitive at its pixel has released the section
or ended. -/
def State.mayEnter (s : State) (p : Pixel) : Bool :=
  (s.allThreads.all fun t =>
    match t.pixel with
    | some q => !q.before p || t.sectionDone
    | none => true) && s.display.draws.all fun d => !d.before p

/-- osb (R225): the lanes with a pixel identity wait for their sections, and enter them when the step settles; in other
threads it is an acquire at .part. -/
def execOsb (o : Operands) (s : State) : Host.Outcome State Fault Refusal :=
  withIssue s fun v =>
    let p := v.passing o
    let waits : Mask := bitsWhere fun i => p.getLsbD i && (v.thread i).pixel.isSome && !(v.thread i).holds
    let plain : Mask := bitsWhere fun i => p.getLsbD i && (v.thread i).pixel.isNone
    let s := if plain = 0 then v.s else v.s.acquire v.ic.core 3
    v.waitEach (v.retire o v.active s) waits fun _ => .ordered

/-- ose (R225): a release at .part, and the threads that hold their sections release them. -/
def execOse (o : Operands) (s : State) : Host.Outcome State Fault Refusal :=
  withIssue s fun v => v.unlessHeld (if v.passing o = 0 then none else some 3) <|
    let p := v.passing o
    let rel : Mask := bitsWhere fun i => p.getLsbD i && ((v.thread i).pixel.isNone || (v.thread i).holds)
    let s := if rel = 0 then v.s else v.s.release v.ic.core 3
    v.onWave (v.retire o v.active s) fun w => w.mapLanes rel fun _ t =>
      if t.holds then { t with holds := false, sectionDone := true } else t

/-! ### Waits for commands -/

/-- The scratchpad range that sbwait and sbq name in a lane (R227); none where it fails R202. -/
def View.scoreRange (v : View) (o : Operands) (i : Nat) : Option (Nat × Nat × Nat) :=
  let addr := (v.src32 .int 0 o.a i).toNat
  let n := (v.src32 .int 1 o.b i).toNat
  (v.s.scrTarget (v.block i) addr n).map fun (b, off) =>
    if n = 0 then (b.key, 0, (v.s.launchOf b.launch).scratch) else (b.key, off, n)

/-- The first lane whose range fails (R202). -/
def View.scoreBad (v : View) (o : Operands) : Option Nat := (lanesOf (v.passing o)).find? fun i => (v.scoreRange o i).isNone

/-- The range of a lane, once checked. -/
def View.scoreOf (v : View) (o : Operands) (i : Nat) : Nat × Nat × Nat := (v.scoreRange o i).getD (0, 0, 0)

/-- sbwait (R227). -/
def execSbwait (o : Operands) (s : State) : Host.Outcome State Fault Refusal :=
  withIssue s fun v =>
    match v.scoreBad o with
    | some i => v.scratchFault i (v.src32 .int 0 o.a i).toNat
    | none =>
      v.waitEach (v.retire o v.active v.s) (v.passing o) fun i =>
        let r := v.scoreOf o i
        .scoreboard r.1 r.2.1 r.2.2

/-- sbq (R227): whether an entry of the scoreboard overlaps the range. -/
def execSbq (o : Operands) (s : State) : Host.Outcome State Fault Refusal :=
  withIssue s fun v =>
    if v.resultsFull then v.waitSlot else
    match v.scoreBad o with
    | some i => v.scratchFault i (v.src32 .int 0 o.a i).toNat
    | none =>
      v.retire o v.active (v.writeLater v.s (v.passing o) o.dst.reg.toNat fun i =>
        let r := v.scoreOf o i
        out32 (if v.s.scoreAny r.1 r.2.1 r.2.2 then 1 else 0))

/-- await (R227). -/
def execAwait (o : Operands) (s : State) : Host.Outcome State Fault Refusal :=
  withIssue s fun v => v.waitEach (v.retire o v.active v.s) (v.passing o) fun i => .await (v.src32 .int 0 o.a i)

/-- Whether the command of a block's token has retired (R227): a token that no command in flight of the block carries. -/
def State.tokenDone (s : State) (blk : Nat) (tok : W32) : Bool := !(s.cmds.any fun c => c.blk = blk && c.token = tok)

/-- Whether a wait that has ended observed a completion with a release beyond the core (R97, R227). -/
def State.observes (s : State) (t : Thread) : Bool :=
  match t.wait with
  | .await tok => (s.blockOf t.blk).retired.any fun r => r.token = tok
  | .scoreboard blk lo len =>
    s.blocks.any fun b => b.retired.any fun r => r.ranges.any fun x => x.blk = blk && overlaps x.lo x.len lo len
  | _ => false

end Sys2Proof.Machine
end

