-- ==== Sys2Proof/Machine/Queues.lean ====
section
/-! DEFINITION. The record queues between producers and the hardware task scheduler (R41 to R45), with their overflow rings. -/
namespace Sys2Proof.Machine

/-- The kind of a queued record: 0 continuation, 1 active message. -/
def WorkRec.kind : WorkRec → Nat
  | .cont _ _ _ _ _ _ => 0
  | .msg _ _ _ _ _ => 1

/-- The context in whose overflow area a queued record may lie (R43). -/
def WorkRec.ctx : WorkRec → Nat
  | .cont _ c _ _ _ _ => c
  | .msg c _ _ _ _ => c

/-- Whether a queued record lies in its overflow ring. -/
def WorkRec.inRing : WorkRec → Bool
  | .cont _ _ _ _ _ r => r
  | .msg _ _ _ _ r => r

/-- When a record was produced. -/
def WorkRec.since : WorkRec → Nat
  | .cont _ _ _ _ t _ => t
  | .msg _ _ _ t _ => t

/-- A record with its place changed. -/
def WorkRec.place (r : WorkRec) (ring : Bool) : WorkRec :=
  match r with
  | .cont l c w h t _ => .cont l c w h t ring
  | .msg c w p t _ => .msg c w p t ring

/-- The words of a record as it is written to a ring slot (R43). -/
def WorkRec.words : WorkRec → List W32
  | .cont _ _ w _ _ _ => w
  | .msg _ w _ _ _ => w

/-- The records of one kind that wait for a partition: whether each lies in its ring, and its context. -/
def State.waiting (s : State) (p kind : Nat) : List (Bool × Nat) :=
  if kind = 2 then
    ((s.tasks.filter fun t => t.part = p && t.state = .queued).map fun t => (t.ring, t.ctx))
  else (((s.part p).work.filter fun r => r.kind = kind).map fun r => (r.inRing, r.ctx))

/-- Whether a partition's hardware queue of a kind takes another record: it is not full, and no earlier record waits in a ring,
which it must not overtake (R42). -/
def State.hardwareRoom (s : State) (p kind : Nat) : Bool :=
  let l := s.waiting p kind
  l.all (!·.1) && l.length ≤ Config.queueDepth kind

/-- The slots of each overflow ring of a context (R43). -/
def Context.ringSlots (c : Context) : Nat := c.ovfSize * 256

/-- The indices of one of a context's rings. -/
def Context.ring (c : Context) (k : Nat) : RingIdx := c.rings.getD k ⟨0, 0⟩

/-- Whether a context's ring takes another record (R43): a context without an area has none. -/
def Context.ringRoom (c : Context) (k : Nat) : Bool := c.ovfBase ≠ 0 && (c.ring k).wr - (c.ring k).rd < c.ringSlots

/-- A context's ring indices changed. -/
def Context.setRing (c : Context) (k : Nat) (f : RingIdx → RingIdx) : Context :=
  { c with rings := updateAt (c.rings ++ List.replicate (4 - c.rings.length) ⟨0, 0⟩) k f }

/-- The address of the slot that a context's ring writes next (R43). -/
def Context.ringSlot (c : Context) (k : Nat) : W64 :=
  c.ovfBase + BitVec.ofNat 64 (k * c.ovfSize * 16384 + 64 * ((c.ring k).wr % c.ringSlots))

/-- What a producer's record meets (R42, R43). -/
inductive Push where
  | done (s : State)
  | full
  | rejected (s : State)      -- the ring write failed translation, and the context ended

/-- A record written to its context's overflow ring (R43), as an engine's write for that context; a failure of its translation
ends the producing context. -/
def State.ringPush (s : State) (c : Context) (producer k : Nat) (ws : List W32) : Push :=
  let va := c.ringSlot k
  match s.translate c.id ⟨4, true, false, true⟩ va 5308416 with
  | .error _ =>
    .rejected (s.fatal producer { kind := 0x31, agent := 2, va := va, synd := 6 })
  | .ok t =>
    let s := s.homeWrite c.id (s.domain (some c.part)) t.tgeo (t.paOf va.toNat) (wordsBytes ws)
    .done (s.mapCtx c.id fun c => c.setRing k fun r => ⟨r.rd, r.wr + 1⟩)

/-- A place for a record of a kind: the hardware queue, or the ring with its slot written; the Bool says the ring. -/
def State.pushPlace (s : State) (p kind ctx producer : Nat) (ws : List W32) : Push × Bool :=
  if s.hardwareRoom p kind then (.done s, false)
  else
    let c := s.ctxOf ctx
    if c.ringRoom kind then (s.ringPush c producer kind ws, true) else (.full, true)

/-- A continuation or message pushed to a partition's queue. -/
def State.pushWork (s : State) (p producer : Nat) (r : WorkRec) : Push :=
  match s.pushPlace p r.kind r.ctx producer r.words with
  | (.done s, ring) => .done (s.mapPart p fun x => { x with work := x.work ++ [r.place ring] })
  | (x, _) => x

/-- The oldest record of a kind in a ring moves to the hardware queue when a record has left it (R42). -/
def refill (kind : Nat) : List WorkRec → List WorkRec × Option Nat
  | [] => ([], none)
  | r :: rs =>
    if r.kind = kind && r.inRing then (r.place false :: rs, some r.ctx)
    else
      let (rs, c) := refill kind rs
      (r :: rs, c)

/-- A context's ring has given up its oldest record. -/
def State.ringPop (s : State) (k : Nat) (ctx : Option Nat) : State :=
  match ctx with
  | some c => s.mapCtx c fun c => c.setRing k fun r => ⟨r.rd + 1, r.wr⟩
  | none => s

/-- A queued record leaves a partition's queue. -/
def State.takeWork (s : State) (p k : Nat) : State :=
  match (s.part p).work[k]? with
  | none => s
  | some r =>
    let (work, c) := refill r.kind ((s.part p).work.eraseIdx k)
    let (work, c) := if r.inRing then ((s.part p).work.eraseIdx k, some r.ctx) else (work, c)
    (s.mapPart p fun x => { x with work := work }).ringPop r.kind c

/-- A continuation pushed by a thread of a launch (R44, R45): it counts as one of the launch's blocks, unless a message handler
pushed it. -/
def State.pushCont (s : State) (l : Launch) (ws : List W32) : Push :=
  match s.pushWork l.part l.ctx (.cont l.key l.ctx ws l.handler s.now false) with
  | .done s => .done (if l.handler then s else s.mapLaunch l.key fun l => { l with pending := l.pending + 1 })
  | x => x

end Sys2Proof.Machine
end

