-- ==== Sys2Proof/Machine/Engines.lean ====
section
/-! DEFINITION. The asynchronous commands at issue (R212 to R215) and the rest of group 9: messages, continuations and joins
(R228 to R232). What a command then does is in Machine/Commands.lean. -/
namespace Sys2Proof.Machine

/-! ### Issue of a command -/

/-- A command as one lane issues it: what it does, its scratchpad ranges, and the global ranges that it writes. -/
structure NewCmd where
  lane   : Nat
  op     : CmdOp
  ranges : List ScoreRange
  pages  : List Nat
  idle   : Bool               -- it performs nothing and retires at once (R214)

/-- The next token of a block's serial (R212), which skips 0. -/
def nextToken (x : W32) : W32 := if x + 1 = 0 then 1 else x + 1

/-- A command enters flight (R212, R216): it takes its block's next token, and its scratchpad destinations make tables stale. -/
def View.startCmd (v : View) (o : Operands) (x : State × List (Nat × W32)) (c : NewCmd) : State × List (Nat × W32) :=
  let t := v.thread c.lane
  let m := o.mod.toNat
  let tok := (x.1.blockOf t.blk).serial
  let s := x.1.mapBlock t.blk fun b => { b with serial := nextToken tok }
  let s := (c.ranges.filter (·.dst)).foldl (fun s r => s.staleTables r.blk r.lo r.len) s
  let s := if c.ranges.any (fun r => r.dst && r.blk ≠ t.blk) then s.mapBlock t.blk fun b => { b with peers := true } else s
  let cmd : Cmd :=
    { token := tok, blk := t.blk, core := v.ic.core, ctx := v.ctx, part := v.part, uid := t.uid, lane := c.lane, op := c.op
      acq := modBit m 2, rel := modBit m 3, scope := bitField m 4 3, ranges := c.ranges
      stamp := if modBit m 2 then v.s.free + 1 else v.since c.lane
      loc := locWord v.ic.core v.ic.wslot c.lane (v.block c.lane).bslot, pc := v.ic.pc, step := 0, wait := none }
  (if c.idle then s.mapBlock t.blk fun b => if cmd.rel then { b with retired := b.retired ++ [⟨tok, []⟩] } else b
   else { s with cmds := s.cmds ++ [cmd] }, x.2 ++ [(c.lane, tok)])

/-- Whether some block of the lanes has no room for their commands (R212). -/
def View.commandsFull (v : View) (lanes : List Nat) : Option Nat :=
  lanes.findSome? fun i =>
    let b := (v.thread i).blk
    if 64 < (v.s.cmds.filter (·.blk = b)).length + (lanes.filter fun k => (v.thread k).blk = b).length then some b else none

/-- The issue of an asynchronous command (R212, R111): the checks of every lane, the acquire flag's release by the issuing
threads, which reaches the engine at every scope (R96), and a token for each lane. -/
def View.issueCmds (v : View) (o : Operands) (make : Nat → Stage NewCmd) : State :=
  let lanes := lanesOf (v.passing o)
  if v.resultsFull then v.waitSlot else
  match lanes.mapM make with
  | .error s => s
  | .ok cs =>
    match v.commandsFull lanes with
    | some b => v.park v.s v.active (.retry (.commands b))
    | none =>
      let acq := modBit o.mod.toNat 2 && !lanes.isEmpty
      v.unlessHeld (if acq then some 2 else none) <|
        match v.s.noteWrite v.ic.core v.ctx (cs.flatMap (·.pages)) with
        | none => v.waitRange
        | some s =>
          let s := if acq then s.flushCore v.ic.core else s
          let r := cs.foldl (v.startCmd o) (s, [])
          v.retire o v.active (v.leaveLanes r.1 0 (r.2.map fun x => ⟨x.1, (v.thread x.1).uid, regWrites o.dst.reg.toNat [x.2], []⟩))

/-- A whole scratchpad range of a command checked at issue (R202, R212): no part of it lies in a mapped stash window. -/
def View.cmdRange (v : View) (lane addr n : Nat) (dst : Bool) : Stage ScoreRange :=
  match v.s.scrTarget (v.block lane) addr n with
  | none => .error (v.scratchFault lane addr)
  | some (b, off) =>
    if b.stash.any fun w => overlaps w.off w.len off n then .error (v.scratchFault lane addr)
    else .ok ⟨b.core, b.key, off, n, dst⟩

/-- A global range of a command checked at issue (R89, R212). -/
def View.cmdGlobal (v : View) (lane : Nat) (va : W64) (n : Nat) : Stage Unit :=
  match addressFault n [(lane, va)] with
  | some f => .error (v.accessFailed v.accLoad f)
  | none => .ok ()

/-- One side of a copy: a scratchpad range or the rows of a global one; its ranges, and the pages it writes. -/
def View.cmdSide (v : View) (lane : Nat) (scr dst : Bool) (a : W64) (w h pitch : Nat) : Stage (List ScoreRange × List Nat) :=
  if scr then (v.cmdRange lane (a.toNat % 2 ^ 32) ((h - 1) * pitch + w) dst).map fun r => ([r], [])
  else
    let rows := (List.range h).map fun r => a + BitVec.ofNat 64 (r * pitch)
    match rows.findSome? fun x => addressFault w [(lane, x)] with
    | some f => .error (v.accessFailed v.accLoad f)
    | none => .ok ([], if dst then (rows.flatMap fun x => pagesOf x w).eraseDups else [])

/-- cpy and cpy2d of a lane (R213, R214). -/
def View.copyCmd (v : View) (lane : Nat) (op : CmdOp) (ds ss : Bool) (a b : W64) (w h pd ps : Nat) : Stage NewCmd :=
  if w = 0 ∨ h = 0 then .ok ⟨lane, op, [], [], true⟩
  else do
    let d ← v.cmdSide lane ds true a w h pd
    let s ← v.cmdSide lane ss false b w h ps
    return ⟨lane, op, d.1 ++ s.1, d.2, false⟩

/-- The command of cpy in a lane (R213, R214). -/
def View.cpyCmd (v : View) (o : Operands) (i : Nat) : Stage NewCmd :=
  let ds := modBit o.mod.toNat 0
  let ss := modBit o.mod.toNat 1
  let a := v.src64 0 o.a i
  let b := v.src64 1 o.b i
  let n := (v.src32 .int 2 o.c i).toNat
  v.copyCmd i (.cpy ds ss a b n) ds ss a b n 1 0 0

/-- cpy (R213, R214). -/
def execCpy (o : Operands) (s : State) : Host.Outcome State Fault Refusal :=
  withIssue s fun v => v.issueCmds o (v.cpyCmd o)

/-- The command of cpy2d in a lane (R213, R214). -/
def View.cpy2dCmd (v : View) (o : Operands) (i : Nat) : Stage NewCmd :=
  let ds := modBit o.mod.toNat 0
  let ss := modBit o.mod.toNat 1
  let a := v.src64 0 o.a i
  let b := v.src64 1 o.b i
  let q := v.srcQuad 2 o.c i
  let (w, h, pd, ps) := ((wordAt q 0).toNat, (wordAt q 1).toNat, (wordAt q 2).toNat, (wordAt q 3).toNat)
  v.copyCmd i (.cpy2d ds ss a b w h pd ps) ds ss a b w h pd ps

/-- cpy2d (R213, R214). -/
def execCpy2d (o : Operands) (s : State) : Host.Outcome State Fault Refusal :=
  withIssue s fun v => v.issueCmds o (v.cpy2dCmd o)

/-- The command of cpyg in a lane (R213, R214). -/
def View.cpygCmd (v : View) (o : Operands) (i : Nat) : Stage NewCmd := do
  let ws ← v.poolRecord o.b
  let a := (v.src32 .int 0 o.a i).toNat
  let q := v.srcQuad 2 o.c i
  let (l, n, e) := (wideAt q 0, (wordAt q 2).toNat, (wordAt q 3).toNat)
  if !plainOk ws then .error (v.rejectPool o.b)
  else if e % 4 ≠ 0 ∨ e < 4 ∨ 4096 < e then .error (v.scratchFault i a)
  else if n = 0 then .ok ⟨i, .cpyg a 0 0 false l 0 e, [], [], true⟩
  else do
    let r ← v.cmdRange i a (n * e) true
    v.cmdGlobal i l (4 * n)
    return ⟨i, .cpyg a (recBase ws) (recExtent ws) (recRobust ws) l n e, [r], [], false⟩

/-- cpyg (R213, R214). -/
def execCpyg (o : Operands) (s : State) : Host.Outcome State Fault Refusal :=
  withIssue s fun v => v.issueCmds o (v.cpygCmd o)

/-- The command of coll in a lane (R213, R214): its source is read once, and each target block takes it at the same offset. -/
def View.collCmd (v : View) (o : Operands) (i : Nat) : Stage NewCmd := do
  let a := v.src64 0 o.a i
  let b := (v.src32 .int 1 o.b i).toNat
  let c := (v.src64 2 o.c i).toNat
  let (n, m) := (c % 2 ^ 32, bitField c 32 8)
  let size := v.s.clusterSize (v.block i)
  if c / 2 ^ 40 ≠ 0 ∨ m / 2 ^ size ≠ 0 ∨ b.testBit 27 then .error (v.scratchFault i b)
  else if n = 0 ∨ m = 0 then .ok ⟨i, .coll a b 0 0, [], [], true⟩
  else do
    let rs ← ((List.range size).filter m.testBit).mapM fun q => v.cmdRange i (b % 2 ^ 24 + q * 2 ^ 24 + 2 ^ 27 + b / 2 ^ 28 * 2 ^ 28) n true
    v.cmdGlobal i a n
    return ⟨i, .coll a b n m, rs, [], false⟩

/-- coll (R213, R214). -/
def execColl (o : Operands) (s : State) : Host.Outcome State Fault Refusal :=
  withIssue s fun v => v.issueCmds o (v.collCmd o)

/-! ### Tiles -/

/-- The fields of a tile record (R282, R215). -/
structure TileRec where
  base : W64
  ext  : Nat
  e    : Nat
  win  : Bool
  iw   : Nat
  ih   : Nat
  rp   : Nat
  tw   : Nat
  th   : Nat
  sx   : Nat
  sy   : Nat
  dx   : Nat
  dy   : Nat
  px   : Nat
  py   : Nat

/-- A pool record read as a tile record. -/
def tileRec (ws : List W32) : TileRec :=
  { base := recBase ws, ext := recExtent ws, e := fmtBits (recFmt ws) / 8, win := bitsAt ws 101 1 = 1
    iw := bitsAt ws 128 16, ih := bitsAt ws 144 16, rp := bitsAt ws 160 32, tw := bitsAt ws 192 8 + 1, th := bitsAt ws 200 8 + 1
    sx := bitsAt ws 208 4 + 1, sy := bitsAt ws 212 4 + 1, dx := bitsAt ws 216 4 + 1, dy := bitsAt ws 220 4 + 1
    px := bitsAt ws 224 4, py := bitsAt ws 228 4 }

/-- Whether a tile record breaks no rule of R281 and R215. -/
def tileOk (ws : List W32) : Bool :=
  [0, 1, 2, 3, 4, 6, 7, 8].contains (recFmt ws) && bitsAt ws 102 26 = 0 && bitsAt ws 232 24 = 0

/-- The image coordinates of element (r, k) of a tile (R215). -/
def TileRec.coord (t : TileRec) (tx ty r k : Nat) : Int × Int :=
  if t.win then ((tx * t.sx + k * t.dx : Int) - t.px, (ty * t.sy + r * t.dy : Int) - t.py)
  else ((tx * t.tw + k : Nat), (ty * t.th + r : Nat))

/-- The address of an element of the image; none outside it (R215). -/
def TileRec.elem (t : TileRec) (tx ty r k : Nat) : Option W64 :=
  let (x, y) := t.coord tx ty r k
  if 0 ≤ x ∧ x < t.iw ∧ 0 ≤ y ∧ y < t.ih then some (t.base + BitVec.ofInt 64 (y * t.rp + x * t.e)) else none

/-- The image of a tile record lies in its extent (R282). -/
def TileRec.fits (t : TileRec) : Bool := ((t.ih : Int) - 1) * t.rp + t.iw * t.e ≤ t.ext

/-- The addresses of a tile's elements that lie in the image. -/
def TileRec.inside (t : TileRec) (tx ty : Nat) : List W64 :=
  (List.range t.th).flatMap fun r => (List.range t.tw).filterMap fun k => t.elem tx ty r k

/-- ldt and stt of a lane (R213, R215). -/
def View.tileCmd (v : View) (o : Operands) (store : Bool) (lane : Nat) : Stage NewCmd := do
  let ws ← v.poolRecord o.a
  let b := (v.src32 .int 1 o.b lane).toNat
  let c := (v.src32 .int 2 o.c lane).toNat
  let (tx, ty) := (c % 65536, c / 65536)
  let t := tileRec ws
  if !tileOk ws then .error (v.rejectPool o.a)
  else if !t.fits ∨ (store ∧ t.win) then .error (v.fatal { v.faultRec lane 0x29 with va := t.base })
  else do
    let r ← v.cmdRange lane b (t.tw * t.th * t.e) !store
    match (t.inside tx ty).findSome? fun a => addressFault t.e [(lane, a)] with
    | some f => .error (v.accessFailed v.accLoad f)
    | none =>
      return ⟨lane, if store then .stt ws b tx ty else .ldt ws b tx ty, [r],
        if store then ((t.inside tx ty).flatMap fun a => pagesOf a t.e).eraseDups else [], false⟩

/-- ldt (R215). -/
def execLdt (o : Operands) (s : State) : Host.Outcome State Fault Refusal :=
  withIssue s fun v => v.issueCmds o (v.tileCmd o false)

/-- stt (R215). -/
def execStt (o : Operands) (s : State) : Host.Outcome State Fault Refusal :=
  withIssue s fun v => v.issueCmds o (v.tileCmd o true)

/-! ### Continuations, joins and messages -/

/-- What an instruction's lanes push, one after another (R231): the state, each lane's value, and the lanes that are left when a
queue is full (R42). -/
def pushLanes (f : State → Nat → Push × W32) : List Nat → State → List (Nat × W32) → Push × List (Nat × W32) × List Nat
  | [], s, out => (.done s, out, [])
  | i :: r, s, out =>
    match f s i with
    | (.done s, x) => pushLanes f r s (out ++ [(i, x)])
    | (.full, _) => (.done s, out, i :: r)
    | (.rejected s, _) => (.rejected s, out, [])

/-- Whether a lane waits for its peers in the instruction at a PC. -/
def Thread.peerAt (t : Thread) (pc : W64) : Bool := t.sent && t.pc = pc

/-- The end of an instruction whose lanes sent records or rays: the issue set and the lanes that wait for it advance. -/
def View.endSends (v : View) (o : Operands) (s : State) : State :=
  let peers : Mask := bitsWhere fun i => ((v.w.live? i).any fun t => t.peerAt v.ic.pc)
  let s := v.onWave s fun w => w.mapLanes peers fun _ t => { t with sent := false, wait := .ready }
  v.retire o (v.active ||| peers) s

/-- Some lanes wait in issue for room, and the others of the issue set until the last has sent (R42, R258). -/
def View.waitSends (v : View) (s : State) (left : List Nat) (why : Retry) : State :=
  let behind : Mask := bitsWhere fun i => left.contains i
  let s := v.onWave s fun w => w.mapLanes (v.active &&& ~~~behind) fun _ t => { t with sent := true, wait := .retry .peers }
  v.onWave s fun w => w.mapLanes behind fun _ t => { t with wait := .retry why }

/-- A meaning that pushes records of a kind ends (R42): it has ended its context, retires with its results, or waits for a queue;
`ctx` is the context in whose ring a lane's record would lie. -/
def View.pushed (v : View) (o : Operands) (kind : Nat) (ctx : Nat → Nat) (dst : Bool) (r : Push × List (Nat × W32) × List Nat) :
    State :=
  match r with
  | (.done s, out, left) =>
    let s := if dst ∧ out ≠ [] then
        v.leaveLanes s 0 (out.map fun x => ⟨x.1, (v.thread x.1).uid, regWrites o.dst.reg.toNat [x.2], []⟩)
      else s
    match left with
    | [] => v.endSends o s
    | i :: _ => v.waitSends s left (.recordQueue v.part kind (ctx i))
  | (.full, _, _) => v.s
  | (.rejected s, _, _) => s

/-- The continuation record of spawn in a lane (R231, R44). -/
def View.spawnRec (v : View) (o : Operands) (i : Nat) : List W32 :=
  splitWide (v.src64 0 o.a i) ++ splitWide (v.src64 1 o.b i) ++ splitWide (v.src64 2 o.c i) ++ [BitVec.ofNat 32 (o.mod.toNat % 32 + 1), 0]

/-- spawn (R231): a release at .part, and one continuation record for each lane in ascending order. -/
def execSpawn (o : Operands) (s : State) : Host.Outcome State Fault Refusal :=
  withIssue s fun v =>
    let p := v.passing o
    if p = 0 then v.retire o v.active v.s
    else v.unlessHeld (some 3) <|
      v.pushed o 0 (fun _ => v.ctx) false (pushLanes (fun s i => (s.pushCont v.launch (v.spawnRec o i), 0)) (lanesOf p) (v.s.release v.ic.core 3) [])

/-- The pieces of the lanes' loads of records that hardware reads for them, checked (R231, R229). -/
def View.recordPieces (v : View) (n : Nat) (reads : List (Nat × W64)) : Stage (List Piece) :=
  match addressFault n reads with
  | some x => .error (v.accessFailed v.accLoad x)
  | none =>
    match v.s.lanePieces v.ctx v.accLoad false n reads with
    | .error x => .error (v.accessFailed v.accLoad x)
    | .ok ps =>
      match v.s.badLine v.part true ps with
      | some b => .error (v.lineFailed b)
      | none => .ok ps

/-- The words of a lane's record, loaded; `v` after `touchPieces`. -/
def View.recordWords (v : View) (ps : List Piece) (lane : Nat) : List W32 := bytesWords (v.laneBytes ps lane)

/-- crec (R231): the record is a load of the lane, and 32-byte aligned. -/
def execCrec (o : Operands) (s : State) : Host.Outcome State Fault Refusal :=
  withIssue s fun v =>
    let reads := laneAddrs (v.passing o) fun i => v.src64 0 o.a i
    match misaligned 32 reads, v.recordPieces 32 reads with
    | some x, _ => v.alignFault x
    | none, .error s => s
    | none, .ok ps =>
      if reads = [] then v.retire o v.active v.s
      else v.unlessHeld (some 3) <|
        let v' : View := { v with s := v.touchPieces v.s ps }
        let s := (v.remoteReads (v.cachePieces v'.s ps) ps).release v.ic.core 3
        v.pushed o 0 (fun _ => v.ctx) false
          (pushLanes (fun s i => (s.pushCont v.launch (v'.recordWords ps i), 0)) (lanesOf (v.passing o)) s [])

/-- Some of a piece's bytes as its home slice holds them (R305). -/
def View.homeBytes (v : View) (tag : Nat) (p : Piece) (off n : Nat) : List Byte :=
  v.aliased ((p.tr.map (·.tgeo)).getD 0) (p.pa + off) (v.s.homeRead tag (p.pa + off) n)

/-- One lane's join (R232): the decrement at the home slice, and the push of CONT, read there after it. -/
def View.joinLane (v : View) (ps : List Piece) (s : State) (lane : Nat) : Push × W32 :=
  match ps.find? fun p => p.lane = lane with
  | none => (.done s, 0)
  | some p =>
    let y := v.atomPiece (fun _ old => (old + 4294967295) % 4294967296) (s, []) p
    let old : Nat := ((y.2.getLast?).map (·.2)).getD 0
    let cont := ({ v with s := y.1 } : View).homeBytes 12582912 p 32 32
    (if old = 1 then y.1.pushCont v.launch (bytesWords cont) else .done y.1, BitVec.ofNat 32 old)

/-- The first lane whose join block has a reserved bit set (R232, R12), as its home slice holds it. -/
def View.badJoin (v : View) (ps : List Piece) : Option Piece :=
  ps.find? fun p => !isRemote p.pa && (v.homeBytes 12582944 p 4 28).any (· ≠ 0)

/-- A join block rejected under R12 (R493 code 15): nothing is performed. -/
def View.rejectJoin (v : View) (p : Piece) : State := v.fatal { v.faultRec p.lane 0x31 with va := p.va, synd := 15 }

/-- join (R232): a release at .part. A join block with a reserved bit set is rejected before any lane's decrement (DEDUCED, log
entry 134). -/
def execJoin (o : Operands) (s : State) : Host.Outcome State Fault Refusal :=
  withIssue s fun v =>
    if v.resultsFull then v.waitSlot else
    let dests := laneAddrs (v.passing o) fun i => v.src64 0 o.a i
    match misaligned 64 dests with
    | some x => v.alignFault x
    | none =>
      match v.atomReady 4 dests with
      | .error s => s
      | .ok ps =>
        if ps = [] then v.retire o v.active v.s
        else v.unlessHeld (some 3) <|
          match v.badJoin ps, v.s.noteWrite v.ic.core v.ctx (pieceVpages ps) with
          | some p, _ => v.rejectJoin p
          | none, none => v.waitRange
          | none, some s =>
            v.pushed o 0 (fun _ => v.ctx) true
              (pushLanes (v.joinLane ps) (lanesOf (v.passing o)) ((v.cachePieces s ps).release v.ic.core 3) [])

/-- The active-message record that a header quad makes (R229). -/
def messageRec (q : List W32) (sctx : Nat) : List W32 :=
  let w0 := (wordAt q 0).toNat
  let x := w0 % 4096 + (bitField w0 16 1) * 2 ^ 12 + sctx * 2 ^ 24
  [wordAt q 2, wordAt q 3, BitVec.ofNat 32 x, BitVec.ofNat 32 (x / 2 ^ 32), wordAt q 1] ++ List.replicate 11 0

/-- An "active message undeliverable" record for the sending context (R230). -/
def State.undeliverable (s : State) (sctx : Nat) (r : Rec) : State := s.notice sctx { r with kind := 0x37 }

/-- One lane's message sent (R229, R230): to the paired device, to a context of the partition that can receive messages, or
nowhere, with a record for the sender. -/
def View.sendMessage (v : View) (s : State) (lane : Nat) (ws payload : List W32) : Push :=
  let c := bitsAt ws 64 12
  if bitsAt ws 76 1 = 1 then
    if s.linkUp then .done { s with gulnos := { s.gulnos with out := s.gulnos.out ++ [.message (s.linkOf (some v.ic.core)) (ws ++ payload)] } }
    else .done (s.undeliverable v.ctx (v.faultRec lane 0x37))
  else
    match s.ctx? c with
    | some x =>
      if x.part = v.part ∧ !x.ended ∧ x.msg.isSome then s.pushWork v.part v.ctx (.msg c ws payload s.now false)
      else .done (s.undeliverable v.ctx (v.faultRec lane 0x37))
    | none => .done (s.undeliverable v.ctx (v.faultRec lane 0x37))

/-- The lane whose header has a reserved bit set (R229). -/
def View.badHeader (v : View) (o : Operands) : Option Nat :=
  (lanesOf (v.passing o)).find? fun i => (wordAt (v.srcQuad 0 o.a i) 0) &&& 0xFFFEF000 ≠ 0

/-- amsg (R229, R230): a release at .sys; the payload is a load of the sending lane. -/
def execAmsg (o : Operands) (s : State) : Host.Outcome State Fault Refusal :=
  withIssue s fun v =>
    let reads := laneAddrs (v.passing o) fun i => v.src64 1 o.b i
    match v.badHeader o with
    | some i => v.fatal (v.faultRec i 0x29)
    | none =>
      match v.recordPieces 48 reads with
      | .error s => s
      | .ok ps =>
        if reads = [] then v.retire o v.active v.s
        else v.unlessHeld (some 5) <|
          let v' : View := { v with s := v.touchPieces v.s ps }
          let s := (v.remoteReads (v.cachePieces v'.s ps) ps).release v.ic.core 5
          let ws (i : Nat) : List W32 := messageRec (v.srcQuad 0 o.a i) v.ctx
          v.pushed o 1 (fun i => bitsAt (ws i) 64 12) false
            (pushLanes (fun s i => (v.sendMessage s i (ws i) (v'.recordWords ps i), 0)) (lanesOf (v.passing o)) s [])

end Sys2Proof.Machine
end

