-- ==== Sys2Proof/Machine/Convert.lean ====
section
/-! DEFINITION. The conversion and quantisation instructions of group 4 in one lane (R76 to R81, R181 to R185). -/
namespace Sys2Proof.Machine

/-- Whether a format code names a floating-point format (R63). -/
def isFloatFmt (code : Nat) : Bool := code ≤ 5

/-- The range of an integer element format (R67). -/
def intRange (code : Nat) : Int × Int :=
  match code with
  | 6 => (-128, 127) | 7 => (0, 255) | 8 => (-32768, 32767) | 9 => (-8, 7) | 10 => (0, 15) | _ => (-2, 1)

/-- The value of an integer element code (R67). -/
def intElem (code bits : Nat) : Int :=
  let b := bits % 2 ^ fmtBits code
  if code = 7 ∨ code = 10 then b else signed (fmtBits code) b

/-- The width and signedness of an integer-type code (R180). -/
def itWidth (it : Nat) : Nat := match it with | 0 => 32 | 1 => 32 | 2 => 16 | 3 => 16 | 4 => 8 | 5 => 8 | _ => 64
/-- Signed types have even codes (R180). -/
def itSigned (it : Nat) : Bool := it % 2 = 0
/-- The range of an integer type. -/
def itRange (it : Nat) : Int × Int :=
  let w := itWidth it
  if itSigned it then (-(2 ^ (w - 1)), 2 ^ (w - 1) - 1) else (0, 2 ^ w - 1)

/-- Float-to-integer conversion (R77): the integer and its flags. -/
def floatToInt (mode : Nat) (lo hi : Int) (v : FVal) : Int × FFlags :=
  match v with
  | .nan _ => (0, ffNV)
  | .inf s => (if s then lo else hi, ffNV)
  | .fin s n d e =>
    let r := roundToInt mode s n d e
    let x : Int := if s then -(r.1 : Int) else r.1
    if x < lo then (lo, ffNV) else if hi < x then (hi, ffNV) else (x, ffWhen r.2 ffNX)

/-- An integer as an exact value. -/
def intVal (x : Int) : FVal := .dy (x < 0) x.natAbs 0

/-- cvtf (R181): narrowing into element `el` of the old destination, or widening element `el` of a. -/
def cvtfLane (m : Nat) (a : W32) (el : Nat) (old : W32) : W32 × FFlags :=
  let fmt := m % 16
  let w := fmtBits fmt
  if modBit m 4 then toF32 0 (decodeFloat (floatFmt fmt) (bitField a.toNat (w * el) w), 0)
  else
    let r := roundVal (floatFmt fmt) (if modBit m 5 then .sat else .conv) 0 (fromF32 a)
    (aluBfi old (BitVec.ofNat 32 r.1) (BitVec.ofNat 32 (w * el + 256 * w)), r.2)

/-- cvtfi (R182): 32-bit types extended into 32 bits, 64-bit types into the pair. -/
def cvtfiLane (m : Nat) (a : W32) : W64 × FFlags :=
  let it := m / 4 % 8
  let rng := itRange it
  let r := floatToInt (m % 4) rng.1 rng.2 (fromF32 a)
  (BitVec.ofInt 64 r.1, r.2)

/-- cvtif (R182). -/
def cvtifLane (m : Nat) (a : W64) : W32 × FFlags :=
  let it := m / 4 % 8
  let w := itWidth it
  let x := a.toNat % 2 ^ w
  toF32 (m % 4) (intVal (if itSigned it then signed w x else x), 0)

/-- cvti (R182). -/
def cvtiLane (m : Nat) (a : W32) : W32 × FFlags :=
  let it := m % 8
  let v := asInt (modBit m 3) a
  let w := itWidth it
  if modBit m 4 then
    let rng := itRange it
    let c := clampInt rng.1 rng.2 v
    (BitVec.ofInt 32 c, ffWhen (c ≠ v) ffSAT)
  else
    let low := a.toNat % 2 ^ w
    (BitVec.ofInt 32 (if itSigned it then signed w low else low), 0)

/-- The E8M0 value of a byte (R68); a NaN counts as quiet. -/
def e8m0 (e : Nat) : FVal := if e = 255 then .nan false else .dy false 1 ((e : Int) - 127)

/-- The scale operand (R183). -/
def scaleOf (e8 : Bool) (b : W32) : FVal := if e8 then e8m0 (b.toNat % 256) else fromF32 b

/-- The saturated code of an integer in a format of `w` bits, with SAT when it clamps. -/
def satCode (fmt : Nat) (x : Int) : Nat × FFlags :=
  let rng := intRange fmt
  let c := clampInt rng.1 rng.2 x
  ((c % 2 ^ fmtBits fmt).toNat, ffWhen (c ≠ x) ffSAT)

/-- qcvt (R81, R183), the special cases in the order of R81. A zero point outside the target's range is stored by its low
bits where R81 gives "z", and clamped without a flag in the zero-quotient case (log entry 16). A clamp of an exact quotient raises
SAT alone (DEDUCED, log entry 130). -/
def qcvtLane (m : Nat) (a b c : W32) : W32 × FFlags :=
  let fmt := m % 16
  let s := scaleOf (modBit m 4) b
  let x := fromF32 a
  let z : Int := if isFloatFmt fmt then 0 else c.toInt
  let zCode : Nat := (z % 2 ^ fmtBits fmt).toNat
  let out (r : Nat × FFlags) : W32 × FFlags := (BitVec.ofNat 32 r.1, r.2)
  if s.isNan || s.isZero then
    out (if isFloatFmt fmt then nanBits (floatFmt fmt) else zCode, ffNV)
  else
    match x, s with
    | .nan _, _ => out (zCode, ffNV)
    | .inf _, .inf _ => out (zCode, ffNV)
    | .inf sx, s =>
      let neg := sx ^^ s.neg
      if isFloatFmt fmt then out (roundVal (floatFmt fmt) .sat 0 (.inf neg))
      else
        let rng := intRange fmt
        out (((if neg then rng.1 else rng.2) % 2 ^ fmtBits fmt).toNat, ffSAT)
    | .fin sx _ _ _, .inf ss =>
      if isFloatFmt fmt then out (signBit (floatFmt fmt) (sx ^^ ss), 0) else out ((satCode fmt z).1, 0)
    | x, s =>
      match (divVal x s).1 with
      | .fin neg n d e =>
        if isFloatFmt fmt then out (roundVal (floatFmt fmt) .sat 0 (.fin neg n d e))
        else
          let r := roundToInt 0 neg n d e
          let q : Int := (if neg then -(r.1 : Int) else r.1) + z
          let c := satCode fmt q
          out (c.1, c.2 ||| ffWhen r.2 ffNX)
      | v => out (roundVal (floatFmt fmt) .sat 0 v)

/-- Whether a value is below zero. -/
def FVal.isNegative : FVal → Bool
  | .nan _ => false
  | .inf neg => neg
  | .fin neg n _ _ => neg && n ≠ 0

/-- dqcvt (R81, R183), the special cases in the order of R81. A zero scale gives a zero without a flag, whose sign R81 gives for
every number; for a NaN code it is `wild`, a free value. Log entry 129. -/
def dqcvtLane (m : Nat) (wild : Bool) (a b c : W32) : W32 × FFlags :=
  let fmt := m % 16
  let s := scaleOf (modBit m 4) b
  let code := a.toNat % 2 ^ fmtBits fmt
  let q : FVal := if isFloatFmt fmt then decodeFloat (floatFmt fmt) code else intVal (intElem fmt code - c.toInt)
  match s with
  | .fin neg n _ _ =>
    if n = 0 then toF32 0 (.zero (if q.isNan then wild else neg ^^ q.isNegative), 0)
    else if q.isZero then toF32 0 (.zero neg, 0)
    else toF32 0 (mulVal s q)
  | s => toF32 0 (mulVal s q)

/-- One element of qpack (R184). -/
def qpackElem (fmt : Nat) (sat : Bool) (x : W32) : Nat × FFlags :=
  if isFloatFmt fmt then roundVal (floatFmt fmt) (if sat then .sat else .conv) 0 (fromF32 x) else satCode fmt x.toInt

/-- qpack (R184): elements 2e and 2e + 1 of the old destination are replaced. -/
def qpackLane (m : Nat) (a b : W32) (el : Nat) (old : W32) : W32 × FFlags :=
  let fmt := m % 16
  let w := fmtBits fmt
  let y0 := qpackElem fmt (modBit m 4) a
  let y1 := qpackElem fmt (modBit m 4) b
  let pair := y0.1 % 2 ^ w + y1.1 % 2 ^ w * 2 ^ w
  (aluBfi old (BitVec.ofNat 32 pair) (BitVec.ofNat 32 (2 * w * el + 256 * (2 * w))), y0.2 ||| y1.2)

/-- qunpack (R184). -/
def qunpackLane (m : Nat) (a : W32) (el : Nat) : W64 × FFlags :=
  let fmt := m % 16
  let w := fmtBits fmt
  let one (j : Nat) : W32 × FFlags :=
    let bits := bitField a.toNat (w * (2 * el + j)) w
    if isFloatFmt fmt then toF32 0 (decodeFloat (floatFmt fmt) bits, 0) else (BitVec.ofInt 32 (intElem fmt bits), 0)
  let x := one 0
  let y := one 1
  (y.1 ++ x.1, x.2 ||| y.2)

/-- The largest finite value of a format as a value (R80, R185). -/
def largestVal (fmt : Nat) : FVal :=
  if isFloatFmt fmt then decodeFloat (floatFmt fmt) (maxBits (floatFmt fmt)) else intVal (intRange fmt).2

/-- scexp (R80, R185). -/
def scexpLane (m : Nat) (a : W32) : W32 :=
  match fromF32 a with
  | .fin _ n d e =>
    if n = 0 then 127
    else
      let l := largestVal (m % 16)
      let fits (k : Nat) : Bool := cmpVal (.fin false n d e) (mulVal l (e8m0 k)).1 ≤ 0
      BitVec.ofNat 32 (((List.range 255).find? fits).getD 254)
  | _ => 0xFF

end Sys2Proof.Machine
end

