-- ==== Sys2Proof/Machine/LookupMath.lean ====
section
/-! DEFINITION. The arithmetic of the lookup matrix engine (R82 to R85, R239, R242 to R246, R249): table entries, the kept groups
of the seeded rule, partial sums and accumulation, as functions of the bytes read. -/
namespace Sys2Proof.Machine

/-- An f32 addition rounded to nearest even. -/
def addRne (a b : W32) : W32 := (fpAdd 0 a b).1
/-- An f32 multiplication rounded to nearest even. -/
def mulRne (a b : W32) : W32 := (fpMul 0 a b).1
/-- An integer rounded to f32. -/
def intRne (x : Int) : W32 := BitVec.ofNat 32 (roundVal fmtF32 .ieee 0 (intVal x)).1

/-- The entries of a table by NENT code (R238). -/
def tableEntries (nent : Nat) : Nat := match nent with | 0 => 16 | 1 => 64 | _ => 256

/-- Whether a table holds 32-bit integers (R83, R239). -/
def integerTable (fmt mode : Nat) : Bool := mode = 0 && (fmt = 6 || fmt = 7 || fmt = 8)

/-- An element of an A format as an exact f32 (R83): formats f32 to e5m2, and s8, n8 and s16. -/
def elemF32 (fmt bits : Nat) : W32 :=
  if isFloatFmt fmt then BitVec.ofNat 32 (roundVal fmtF32 .ieee 0 (decodeFloat (floatFmt fmt) bits)).1 else intRne (intElem fmt bits)

/-- A product by an index bit (R83). -/
def byBit (a : W32) (b : Bool) : W32 := mulRne (if b then 0x3F800000 else 0) a

/-- An entry of a bitplane table over integers (R83). -/
def planeInt (a : List Int) (i : Nat) : W32 :=
  let t (j : Nat) : Int := if i.testBit j then a.getD j 0 else 0
  BitVec.ofInt 32 ((t 0 + t 1) + (t 2 + t 3))

/-- An entry of a bitplane table over floats (R83). -/
def planeFloat (a : List W32) (i : Nat) : W32 :=
  let t (j : Nat) : W32 := byBit (a.getD j 0) (i.testBit j)
  addRne (addRne (t 0) (t 1)) (addRne (t 2) (t 3))

/-- An entry of a codebook table for a centroid's components (R83). -/
def centroidEntry (g : Nat) (a c : List W32) : W32 :=
  let t (j : Nat) : W32 := mulRne (a.getD j 0) (c.getD j 0)
  match g with
  | 4 => addRne (addRne (t 0) (t 1)) (addRne (t 2) (t 3))
  | 2 => addRne (t 0) (t 1)
  | _ => t 0

/-- The shape of a build (R239): A format, mode, groups, entries a table, row pitch. -/
structure Build where
  fmt   : Nat
  mode  : Nat
  ngrp  : Nat
  n     : Nat
  pitch : Nat
  deriving DecidableEq, Repr

/-- Bytes of A a row (R239). -/
def Build.kb (b : Build) : Nat := b.ngrp * groupSize b.mode * (fmtBits b.fmt / 8)

/-- The registers a build writes (R239). -/
def Build.regs (b : Build) : Nat := (b.ngrp + groupsPer b.n - 1) / groupsPer b.n

/-- The bits of an element of A: element `k` of row `m` (R239), from the source range's bytes. -/
def Build.element (b : Build) (src : Nat → Byte) (m k : Nat) : Nat :=
  let e := fmtBits b.fmt / 8
  bytesNatAt src (m * b.pitch + k * e) e
where
  /-- The little-endian number of `n` bytes of a source. -/
  bytesNatAt (src : Nat → Byte) (at_ : Nat) : Nat → Nat
    | 0 => 0
    | n + 1 => (src at_).toNat + 256 * bytesNatAt src (at_ + 1) n

/-- Entry `i` of group `g` for row `m` (R83, R239); `book` gives the centroids' components as f16 bits, or is unused. -/
def Build.entry (b : Build) (src : Nat → Byte) (book : Nat → Nat → W32) (m g i : Nat) : W32 :=
  let gs := groupSize b.mode
  let el (j : Nat) : Nat := b.element src m (g * gs + j)
  if integerTable b.fmt b.mode then planeInt ((List.range 4).map fun j => intElem b.fmt (el j)) i
  else
    let a := (List.range gs).map fun j => elemF32 b.fmt (el j)
    if b.mode = 0 then planeFloat a i else centroidEntry gs a ((List.range gs).map (book i))

/-- The codebook of mode 1: the sixteen e2m1 values (R66, R239). -/
def e2m1Book (i _j : Nat) : W32 := BitVec.ofNat 32 (roundVal fmtF32 .ieee 0 (decodeFloat fmtE2m1 i)).1

/-- The 4,096 entries of register `r` of a build (R239). A place that no group fills keeps what the register held, `was`. -/
def Build.register (b : Build) (src : Nat → Byte) (book : Nat → Nat → W32) (was : Nat → W32) (r : Nat) : List W32 :=
  let per := groupsPer b.n
  (List.range 4096).map fun x =>
    let m := x / (per * b.n)
    let g := r * per + x / b.n % per
    if g < b.ngrp then b.entry src book m g (x % b.n) else was x

/-! ### The B operand -/

/-- The fields of a B record (R282). -/
structure BRec where
  fmt  : Nat
  qg   : Nat          -- activations of a quantisation group, 0 for none
  zp   : Bool
  dens : Nat          -- 0 full, 1 a half, 2 a quarter
  nent : Nat
  seed : W32
  deriving DecidableEq, Repr

/-- The code bits per weight (R244). -/
def codeBits (fmt : Nat) : Nat :=
  match fmt with
  | 9 | 10 | 5 | 14 => 4
  | 6 | 13 => 8
  | 11 | 15 => 2
  | _ => 1

/-- Whether a B format is a codebook format (R84). -/
def codebookFmt (fmt : Nat) : Bool := fmt = 5 || fmt = 14 || fmt = 15

/-- Whether a B format suits a table mode (R242). -/
def fmtSuits (mode fmt : Nat) : Bool :=
  match mode with
  | 0 => [9, 10, 11, 12, 6, 13].contains fmt
  | 1 => fmt = 5
  | 2 => fmt = 14
  | _ => fmt = 15

/-- The hash of the seeded rule (R245). -/
def seedHash (seed : W32) (n c : Nat) : W32 :=
  let x := seed ^^^ (BitVec.ofNat 32 n * 0x9E3779B9) ^^^ (BitVec.ofNat 32 c * 0x85EBCA6B)
  let x := x ^^^ (x <<< 13)
  let x := x ^^^ (x >>> 17)
  x ^^^ (x <<< 5)

/-- Whether table group `g` of column `n` is kept (R245). -/
def BRec.keeps (b : BRec) (n g : Nat) : Bool :=
  let x := (seedHash b.seed n (g / 4)).toNat
  match b.dens with
  | 0 => true
  | 1 =>
    let pair := match x % 6 with
      | 0 => (0, 1) | 1 => (0, 2) | 2 => (0, 3) | 3 => (1, 2) | 4 => (1, 3) | _ => (2, 3)
    g % 4 = pair.1 || g % 4 = pair.2
  | _ => g % 4 = x % 4

/-- The kept table groups of a multiply, of `ngrp` (R244). -/
def BRec.kept (b : BRec) (ngrp : Nat) : Nat := match b.dens with | 0 => ngrp | 1 => ngrp / 2 | _ => ngrp / 4

/-- The place of a kept group among those of its column. -/
def BRec.place (b : BRec) (n g : Nat) : Nat := b.kept (g / 4 * 4) + ((List.range (g % 4)).filter fun k => b.keeps n (g / 4 * 4 + k)).length

/-- The bytes of a column's codes (R244). -/
def BRec.pitch (b : BRec) (ngrp gs : Nat) : Nat := (b.kept ngrp * gs * codeBits b.fmt + 31) / 32 * 4

/-- The quantisation groups of a column (R244). -/
def BRec.nq (b : BRec) (ngrp gs : Nat) : Nat := if b.qg = 0 then 0 else ngrp * gs / b.qg

/-- The bytes of the scale array (R244). -/
def BRec.scaleBytes (b : BRec) (ngrp gs : Nat) : Nat := round4 (64 * b.nq ngrp gs * (if b.fmt = 13 then 1 else 2))

/-- The bytes of a B tile whose columns are `pitch` apart (R244). -/
def BRec.bytes (b : BRec) (ngrp gs pitch : Nat) : Nat :=
  64 * pitch + b.scaleBytes ngrp gs + (if b.zp then round4 (64 * b.nq ngrp gs) else 0)

/-- A multiply: the tables' build, the B record, the columns' pitch, and the bytes of B. -/
structure Mul where
  build : Build
  brec  : BRec
  pitch : Nat
  b     : Nat → Byte

/-- `n` bits of B from bit `i` of byte `at_`. -/
def Mul.bits (x : Mul) (at_ i n : Nat) : Nat :=
  let k := at_ + i / 8
  ((x.b k).toNat + 256 * (x.b (k + 1)).toNat) / 2 ^ (i % 8) % 2 ^ n

/-- The code of activation `j` of kept group `g` in column `n` (R244); a codebook index stands for the whole group. -/
def Mul.code (x : Mul) (n g j : Nat) : Nat :=
  let gs := groupSize x.build.mode
  let w := codeBits x.brec.fmt
  let at_ := n * x.pitch
  if codebookFmt x.brec.fmt then x.bits at_ (x.brec.place n g * gs * w) (gs * w)
  else x.bits at_ ((x.brec.place n g * gs + j) * w) w

/-- The scale of column `n` in quantisation group `q` (R82, R244). -/
def Mul.scale (x : Mul) (n q : Nat) : FVal :=
  let gs := groupSize x.build.mode
  let i := n * x.brec.nq x.build.ngrp gs + q
  if x.brec.qg = 0 then .dy false 1 0
  else if x.brec.fmt = 13 then
    let e := (x.b (64 * x.pitch + i)).toNat
    if e = 255 then .nan false else .dy false 1 ((e : Int) - 133)
  else decodeFloat fmtF16 (x.bits (64 * x.pitch + 2 * i) 0 8 + 256 * x.bits (64 * x.pitch + 2 * i + 1) 0 8)

/-- The zero point of column `n` in quantisation group `q` (R82, R244). -/
def Mul.zero (x : Mul) (n q : Nat) : Int :=
  let gs := groupSize x.build.mode
  if !x.brec.zp then 0
  else
    let z := (x.b (64 * x.pitch + x.brec.scaleBytes x.build.ngrp gs + n * x.brec.nq x.build.ngrp gs + q))
    if x.brec.fmt = 10 then z.toNat else z.toInt

/-- The table index that plane `p` of a group's codes selects (R84). -/
def Mul.plane (x : Mul) (n g p : Nat) : Nat :=
  (List.range 4).foldl (fun i j => if (x.code n g j).testBit p then i + 2 ^ j else i) 0

/-- The planes of a B format with their weights (R84). -/
def planeWeights (fmt : Nat) : List (Nat × Int) :=
  let w := codeBits fmt
  (List.range w).map fun p => (p, if p + 1 = w ∧ fmt ≠ 10 then -(2 ^ p : Nat) else (2 ^ p : Nat))

/-- The partial of a table group over integer tables (R84); `t` gives the group's entries. -/
def Mul.partInt (x : Mul) (t : Nat → W32) (n g : Nat) : Int :=
  if x.brec.fmt = 12 then (t 15).toInt - 2 * (t (x.plane n g 0)).toInt
  else (planeWeights x.brec.fmt).foldl (fun s p => s + p.2 * (t (x.plane n g p.1)).toInt) 0

/-- The partial of a table group over float tables (R84). -/
def Mul.partFloat (x : Mul) (t : Nat → W32) (n g : Nat) : W32 :=
  if codebookFmt x.brec.fmt then t (x.code n g 0)
  else if x.brec.fmt = 12 then addRne (t 15) (mulRne (intRne (-2)) (t (x.plane n g 0)))
  else
    let term (p : Nat × Int) : W32 := mulRne (intRne p.2) (t (x.plane n g p.1))
    match planeWeights x.brec.fmt with
    | [] => 0
    | p :: r => r.foldl (fun s q => addRne s (term q)) (term p)

/-- The accumulation of one quantisation group into an accumulator (R85): `gs` its kept groups, ascending, and `t g` their
entries. -/
def Mul.accumulate (x : Mul) (t : Nat → Nat → W32) (n q : Nat) (gs : List Nat) (acc : W32) : W32 :=
  let zp := x.zero n q
  let d : W32 :=
    if integerTable x.build.fmt x.build.mode then
      let qs := gs.foldl (fun s g => s + x.partInt (t g) n g) 0
      let ss := gs.foldl (fun s g => s + (t g 15).toInt) 0
      intRne (qs - zp * ss)
    else
      let qs := gs.foldl (fun s g => addRne s (x.partFloat (t g) n g)) 0
      if zp = 0 then qs
      else (fpSub 0 qs (mulRne (intRne zp) (gs.foldl (fun s g => addRne s (t g 15)) 0))).1
  addRne acc (toF32 0 (mulVal (fromF32 d) (x.scale n q))).1

/-- The table groups of a k-step (R246). -/
def Mul.stepGroups (x : Mul) : Nat := if x.brec.qg = 0 then 4 else x.brec.qg / groupSize x.build.mode

/-- The k-steps of the multiply. -/
def Mul.steps (x : Mul) : Nat := x.build.ngrp / x.stepGroups

/-- The groups of k-step `s`. -/
def Mul.groupsOf (x : Mul) (s : Nat) : List Nat := (List.range x.stepGroups).map (s * x.stepGroups + ·)

/-- One output of a k-step (R246, R82): without quantisation groups each table group is its own group. `t m g` gives the entries
of group `g` for row `m`. -/
def Mul.output (x : Mul) (t : Nat → Nat → Nat → W32) (s m n : Nat) (acc : W32) : W32 :=
  if x.brec.qg = 0 then
    (x.groupsOf s).foldl (fun a g => x.accumulate (t m) n 0 (if x.brec.keeps n g then [g] else []) a) acc
  else x.accumulate (t m) n s ((x.groupsOf s).filter (x.brec.keeps n)) acc

/-- A k-step on a 16 × 64 tile, row-major (R246). -/
def Mul.step (x : Mul) (t : Nat → Nat → Nat → W32) (s : Nat) (acc : List W32) : List W32 :=
  acc.mapIdx fun i a => x.output t s (i / 64) (i % 64) a

/-- The first code of a k-step outside the codebook, columns then groups ascending: the code and its column (R246, R269). -/
def Mul.badCode (x : Mul) (s : Nat) : Option (Nat × Nat) :=
  if codebookFmt x.brec.fmt then
    (List.range 64).findSome? fun n =>
      (((x.groupsOf s).filter (x.brec.keeps n)).map fun g => x.code n g 0).find? (x.build.n ≤ ·) |>.map fun c => (c, n)
  else none

/-- The first checked addition of a k-step over integer tables (R269, R451): that of row 0 and column 0. -/
def Mul.firstAddition (x : Mul) (t : Nat → Nat → Nat → W32) (s : Nat) : Option Int :=
  match (x.groupsOf s).find? (x.brec.keeps 0) with
  | none => none
  | some g =>
    if !integerTable x.build.fmt x.build.mode then none
    else if x.brec.fmt = 12 then some (x.partInt (t 0 g) 0 g)
    else some (((planeWeights x.brec.fmt).take 2).foldl (fun a p => a + p.2 * (t 0 g (x.plane 0 g p.1)).toInt) 0)

/-! ### Accumulator tiles -/

/-- An accumulator converted for adrain and for a task's C (R79): its code in the destination format. -/
def drainCode (fmt : Nat) (x : W32) : Nat :=
  if isFloatFmt fmt then (roundVal (floatFmt fmt) .drain 1 (fromF32 x)).1
  else
    match fromF32 x with
    | .nan _ => 0
    | .inf neg => ((if neg then (intRange fmt).1 else (intRange fmt).2) % 2 ^ fmtBits fmt).toNat
    | .fin neg n d e =>
      let r := (roundToInt 1 neg n d e).1
      (satCode fmt (if neg then -(r : Int) else r)).1

/-- The bytes of a row of codes (R64). -/
def packCodes (fmt : Nat) (codes : List Nat) : Nat :=
  codes.foldr (fun c r => c % 2 ^ fmtBits fmt + 2 ^ fmtBits fmt * r) 0

end Sys2Proof.Machine
end

