-- ==== Sys2Proof/Machine/Lookup.lean ====
section
/-! DEFINITION. Group A, part one: the block-wide instructions of the lookup matrix engine and tstat (R234 to R250, R325). -/
namespace Sys2Proof.Machine

/-! ### The engine state -/

/-- A table register of a core; none when it is empty. -/
def CoreSt.table? (c : CoreSt) (k : Nat) : Option Table := ((c.tables.find? fun x => x.1 = k).map (·.2)).filter (·.state ≠ 0)

/-- A table register replaced. -/
def CoreSt.setTable (c : CoreSt) (k : Nat) (t : Table) : CoreSt := { c with tables := (k, t) :: c.tables.filter (·.1 ≠ k) }

/-- An accumulator tile's 1,024 elements, row-major; before anything has written it each is a free value (R235). -/
def State.tile (s : State) (core t : Nat) : List W32 :=
  match (s.core core).accs.find? fun x => x.1 = t with
  | some x => x.2
  | none => (List.range 1024).map fun i => Config.freeW32 s.free (13631488 + 1024 * t + i)

/-- An accumulator tile replaced. -/
def State.setTile (s : State) (core t : Nat) (x : List W32) : State :=
  s.mapCore core fun c => { c with accs := (t, x) :: c.accs.filter (·.1 ≠ t) }

/-- The fields of a table's record (R238). -/
def Table.fmt (t : Table) : Nat := bitField t.stat.toNat 0 4
/-- The table mode. -/
def Table.mode (t : Table) : Nat := bitField t.stat.toNat 4 2
/-- The table groups of the set. -/
def Table.ngrp (t : Table) : Nat := bitField t.stat.toNat 8 7 + 1
/-- The first register of the set. -/
def Table.first (t : Table) : Nat := bitField t.stat.toNat 15 5
/-- The register's place in the set. -/
def Table.pos (t : Table) : Nat := bitField t.stat.toNat 20 3
/-- The entries per table. -/
def Table.n (t : Table) : Nat := tableEntries (bitField t.stat.toNat 23 2)
/-- The build that a table's record repeats (R240). -/
def Table.build (t : Table) : Build := ⟨t.fmt, t.mode, t.ngrp, t.n, t.pitch⟩

/-- The record of a valid register (R238, R239). -/
def statWord (b : Build) (nent t0 pos : Nat) : W32 :=
  BitVec.ofNat 32 (b.fmt + 16 * b.mode + 64 + 256 * (b.ngrp - 1) + 32768 * t0 + 1048576 * pos + 8388608 * nent)

/-- The engine state claimed for a block (R235); none where the block must wait for it. -/
def State.claim (s : State) (core blk : Nat) : Option State :=
  let c := s.core core
  if c.hung.isSome || c.task.isSome then none
  else
    match c.owner with
    | none => some (s.mapCore core fun c => { c with owner := some blk })
    | some k => if k = blk then some s else none

/-- A performed block-wide instruction other than mlk (R247): the block's stop record is cleared and s.kprog is 0. -/
def State.clearStop (s : State) (blk : Nat) : State := s.mapBlock blk fun b => { b with mlkStop := none, kprog := 0 }

/-- A block-wide instruction (R234): once for the issue set, for the lowest lane whose guard passes, on an engine state that its
block owns. -/
def View.blockWide (v : View) (o : Operands) (f : View → Nat → Stage State) : State :=
  let p := v.passing o
  if p = 0 then v.retire o v.active v.s else
    let lane := lowestLane p
    let blk := (v.thread lane).blk
    match v.s.claim v.ic.core blk with
    | none => v.park v.s v.active (.retry (.engine v.ic.core))
    | some s => v.finish o ((f { v with s := s } lane).map fun s => s.clearStop blk)

/-- A user trap of a block-wide instruction (R325): in every lane whose guard passed, while the others advance. -/
def View.trapWide (v : View) (o : Operands) (s : State) (cause : Nat) (synd : W32) : State :=
  let p := v.passing o
  let s := v.retire o (v.active &&& ~~~p) s
  (lanesOf p).foldl (fun s i =>
    s.takeTrap v.ic.core v.ic.wslot i (BitVec.ofNat 32 cause) synd (BitVec.ofNat 32 (2 + 65536 * v.ic.core)) v.ic.pc) s

/-! ### Scratchpad ranges of block-wide instructions -/

/-- A scratchpad range with its checks made: its block and offset, its parts, and the global pieces of stash windows. -/
structure ScrRange where
  blk   : Block
  off   : Nat
  parts : List ScrPart
  wins  : List (ScrPart × Piece)

/-- A whole range checked (R202, R109, R208). -/
def View.rangeReady (v : View) (lane addr n : Nat) (wr : Bool) (acc : Acc) : Stage ScrRange :=
  match v.s.scrTarget (v.block lane) addr n with
  | none => .error (v.scratchFault lane addr)
  | some (b, off) =>
    match v.scrWait n wr [⟨lane, b, off⟩] with
    | some why => .error (v.park v.s v.active why)
    | none =>
      let parts := scrParts b lane off 0 n (n + 1)
      match v.winPieces acc parts with
      | .error f => .error (v.accessFailed acc f)
      | .ok ws =>
        match v.s.badLine v.part (!wr) (ws.map (·.2)) with
        | some x => .error (v.lineFailed x)
        | none => .ok ⟨b, off, parts, ws⟩

/-- The bytes of a range as a block-wide instruction reads them: the view after its stash fills, and the bytes. -/
def View.readRange (v : View) (lane addr n : Nat) : Stage (View × Array Byte) := do
  let r ← v.rangeReady lane addr n false v.accLoad
  let v' : View := { v with s := r.wins.foldl v.fillWindow (v.cachePieces v.s (r.wins.map (·.2))) }
  return (v', (v'.scrBytes r.parts r.wins lane).toArray)

/-- A run of bytes written to a range whose checks have been made. -/
def View.writeRange (v : View) (s : State) (lane : Nat) (r : ScrRange) (bs : List Byte) : State :=
  let s := r.wins.foldl v.fillWindow s
  v.scrStore r.parts r.wins (fun _ => bs) s ⟨lane, r.blk, r.off⟩

/-- A load of some bytes by one lane, for a record that an instruction reads. -/
def View.readGlobal (v : View) (lane : Nat) (va : W64) (n : Nat) : Stage (View × Array Byte) := do
  let ps ← v.recordPieces n [(lane, va)]
  let v' : View := { v with s := v.touchPieces v.s ps }
  let bytes := v'.laneBytes ps lane
  return ({ v' with s := v.remoteReads (v.cachePieces v'.s ps) ps }, bytes.toArray)

/-! ### Building tables -/

/-- The centroids' components of a build (R239, R70): read as loads of the issuing lane. -/
def View.readBook (v : View) (lane : Nat) (b : Build) (cbase : W64) : Stage (View × (Nat → Nat → W32)) :=
  if b.mode ≤ 1 then .ok (v, e2m1Book)
  else do
    let gs := groupSize b.mode
    let (v, bytes) ← v.readGlobal lane cbase (b.n * gs * 2)
    return (v, fun i j =>
      let k := 2 * (i * gs + j)
      BitVec.ofNat 32 (roundVal fmtF32 .ieee 0 (decodeFloat fmtF16 ((bytes.getD k 0).toNat + 256 * (bytes.getD (k + 1) 0).toNat))).1)

/-- What a table register holds: its entries, free in an empty one. -/
def CoreSt.entryOf (c : CoreSt) (free k : Nat) : Nat → W32 :=
  match c.table? k with
  | some t =>
    let e := t.entries.toArray
    fun x => e.getD x 0
  | none => fun x => Config.freeW32 free (13762560 + 4096 * k + x)

/-- A build of a table set (R239, R240) from the scratchpad as it stands: the view with the registers written. -/
def View.buildSet (v : View) (lane : Nat) (b : Build) (src : W32) (cbase : W64) (t0 nent : Nat) : Stage View := do
  let (v, bytes) ← v.readRange lane src.toNat (15 * b.pitch + b.kb)
  let (v, book) ← v.readBook lane b cbase
  let s := (List.range b.regs).foldl (fun s r =>
    s.mapCore v.ic.core fun c =>
      c.setTable (t0 + r) ⟨statWord b nent t0 r, src, b.pitch, b.kb, cbase, b.register (fun k => bytes.getD k 0) book (c.entryOf v.s.free (t0 + r)) r⟩) v.s
  return { v with s := s }

/-- The rebuild of the set of a table register (R240). -/
def View.rebuild (v : View) (lane : Nat) (t : Table) : Stage View :=
  v.buildSet lane t.build t.src t.cbase t.first (bitField t.stat.toNat 23 2)

/-! ### Faults of the engine -/

/-- How the k-steps of a multiply end: all done, or stopped with the cause and syndrome of its trap (R247), or hung at a step
(R472). -/
inductive MulEnd where
  | done
  | residue (kind : Nat)
  | index (code col : Nat)
  | hung
  deriving DecidableEq, Repr

/-- The fault that a core's k-steps meet (R451, R472 kinds 2 and 7): its kind, its place among the core's, and the k-steps before it. -/
def CoreSt.lookupFault (c : CoreSt) : Option (Nat × Nat × Nat) :=
  (c.inject.findIdx? fun k => [2, 7, 8, 9].contains k.kind).bind fun i =>
    (c.inject[i]?).map fun k => (k.kind, i, if 8 ≤ k.kind then k.arg.toNat else 0)

/-- Whether a run of k-steps has met a fault of the engine. -/
def MulEnd.meetsFault : MulEnd → Bool
  | .residue _ | .hung => true
  | .done | .index _ _ => false

/-- A core's fault after `n` k-steps, the last of which met it or not: gone once it has been met, else that much nearer. -/
def CoreSt.passFault (c : CoreSt) (n : Nat) (met : Bool) : CoreSt :=
  match c.lookupFault with
  | some (_, i, skip) =>
    { c with inject := if met then c.inject.eraseIdx i else updateAt c.inject i fun k => { k with arg := BitVec.ofNat 64 (skip - n) } }
  | none => c

/-- The syndrome of a lookup residue mismatch (R269): modulo 7 in the adders, and modulo 3 in the scale units. The expected residue is
that of the first checked addition of the step where the fault is injected there and the manual says what is added; else it is free
(log entry 18). -/
def lookupSynd (free lane k kind : Nat) (exact : Option Int) : W32 :=
  let m : Nat := if kind = 9 then 3 else 7
  let e : Nat := match (if kind = 2 then exact else none) with
    | some x => (x % (m : Int)).toNat
    | none => Config.freeIndex free (readTag lane 5 1) m
  BitVec.ofNat 32 (wrongResidue free (readTag lane 5 3) m e (kind = 2) + 8 * e + (if kind = 9 then 0 else 64) + 256 * lane + 65536 * k)

/-- What a lookup residue mismatch does besides stopping the work (R452). -/
def State.lookupNoted (s : State) (r : Rec) (core kind : Nat) : State :=
  s.residueNoted { r with loc := if kind = 2 then injectedLoc r.loc else r.loc } core

/-- Whether a table build of a mode meets an error of the lookup adders (R451); a mode of one activation a group adds nothing. -/
def View.addsWrong (v : View) (mode : Nat) : Bool :=
  1 < groupSize mode && (v.s.core v.ic.core).lookupFault.any fun y => y.1 = 8 && y.2.2 = 0

/-- The residue trap of tbld (R451, R452): the instruction is nullified. -/
def View.tbldTrap (v : View) (o : Operands) (lane : Nat) : State :=
  let synd := lookupSynd v.s.free lane 0 8 none
  let s := v.s.mapCore v.ic.core fun c => c.passFault 0 true
  v.trapWide o (s.lookupNoted { v.faultRec lane 0x41 with ctx := some v.ctx, synd := synd } v.ic.core 8) 2 synd

/-! ### tbld, tinv, tstat, tspill and tfill -/

/-- The lookup shape fault (R236). -/
def View.shapeFault (v : View) (lane : Nat) : State := v.fatal (v.faultRec lane 0x2C)

/-- Whether a codebook record breaks no rule of R281 and R282 for tbld, where NENT 3 is a shape limit instead (R239, R236; log
entry 133). -/
def bookOk (ws : List W32) : Bool :=
  recFmt ws = 1 && bitsAt ws 101 5 = 0 && bitsAt ws 108 20 = 0 && bitsAt ws 128 128 = 0

/-- The codebook of tbld: its base and NENT code (R239, R282). -/
def View.tbldBook (v : View) (o : Operands) (lane mode : Nat) : Stage (W64 × Nat) :=
  if mode ≤ 1 then .ok (0, 0)
  else do
    let ws ← v.poolRecord o.c
    let nent := bitsAt ws 106 2
    if !bookOk ws then .error (v.rejectPool o.c)
    else if nent = 3 ∨ recExtent ws < tableEntries nent * groupSize mode * 2 then .error (v.shapeFault lane)
    else return (recBase ws, nent)

/-- tbld (R239, R451). -/
def execTbld (o : Operands) (s : State) : Host.Outcome State Fault Refusal :=
  withIssue s fun v => v.blockWide o fun v lane => do
    let fmt := o.mod.toNat % 16
    let mode := bitField o.mod.toNat 4 2
    let a := v.src32 .int 0 o.a lane
    let w := (v.src32 .int 1 o.b lane).toNat
    let (cbase, nent) ← v.tbldBook o lane mode
    let t0 := w % 32
    let p := w / 65536
    let b0 : Build := ⟨fmt, mode, bitField w 5 7 + 1, tableEntries nent, 0⟩
    let b := { b0 with pitch := if p = 0 then round4 b0.kb else p }
    if a.toNat % 4 ≠ 0 ∨ !shapeWordOk fmt mode w (some b.n) then
      .error (v.shapeFault lane)
    else
      let w ← v.buildSet lane b a cbase t0 nent
      if v.addsWrong mode then .error (v.tbldTrap o lane) else return w.s

/-- tinv (R238): bits [31:24] of a are ignored. -/
def execTinv (o : Operands) (s : State) : Host.Outcome State Fault Refusal :=
  withIssue s fun v => v.blockWide o fun v lane =>
    let m := v.src32 .int 0 o.a lane
    .ok (v.s.mapCore v.ic.core fun c => { c with tables := c.tables.filter fun x => !m.getLsbD x.1 })

/-- tstat (R238): the record, in a block that owns the engine state; else 0. -/
def execTstat (o : Operands) (s : State) : Host.Outcome State Fault Refusal :=
  withIssue s fun v => v.classV o fun i =>
    let c := v.s.core v.ic.core
    out32 (if c.owner = some (v.thread i).blk then ((c.table? (immNat o.a)).map (·.stat)).getD 0 else 0)

/-- One step of CRC-32C on a byte, reflected. -/
def crcByte (c : W32) (b : Byte) : W32 :=
  (List.range 8).foldl (fun c _ => if c.getLsbD 0 then (c >>> 1) ^^^ 0x82F63B78 else c >>> 1) (c ^^^ b.setWidth 32)

/-- CRC-32C of some bytes. -/
def crc32c (bs : List Byte) : W32 := ~~~(bs.foldl crcByte 0xFFFFFFFF)

/-- The header of a spill image without its CRC (R241): 60 bytes. -/
def spillHeader (t : Table) : List Byte :=
  natBytes 4 t.stat.toNat ++ natBytes 4 t.src.toNat ++ natBytes 2 t.pitch ++ natBytes 2 t.kb ++ natBytes 8 t.cbase.toNat ++
    natBytes 40 0

/-- The image of a register (R241). -/
def spillImage (t : Table) : List Byte :=
  let head := spillHeader t
  let body := wordsBytes t.entries
  head ++ natBytes 4 (crc32c (head ++ body)).toNat ++ body

/-- An empty register. -/
def Table.empty : Table := ⟨0, 0, 0, 0, 0, []⟩

/-- The register that tspill writes (R241): a dropped one is rebuilt first, and the entries of an empty or stale one are free
values. -/
def View.spillTable (v : View) (lane k : Nat) : Stage (View × Table) :=
  let wild (t : Table) : Table :=
    { t with entries := (List.range 4096).map fun i => Config.freeW32 v.s.free (13697024 + i) }
  match (v.s.core v.ic.core).table? k with
  | none => .ok (v, wild .empty)
  | some t =>
    if t.state = 2 then do
      let v ← v.rebuild lane t
      return (v, ((v.s.core v.ic.core).table? k).getD t)
    else .ok (v, if t.state = 3 then wild t else t)

/-- tspill (R241): a store of the issuing lane. -/
def execTspill (o : Operands) (s : State) : Host.Outcome State Fault Refusal :=
  withIssue s fun v => v.blockWide o fun v lane => do
    let va := v.src64 0 o.a lane
    if va.toNat % 64 ≠ 0 then .error (v.alignFault (lane, va))
    else
      let (v, t) ← v.spillTable lane (immNat o.b)
      v.store 16448 none .plain [(lane, va)] fun _ => spillImage t

/-- The register that an image holds (R241). -/
def fillTable (bs : List Byte) : Table :=
  let ws := bytesWords bs
  ⟨wordAt ws 0, wordAt ws 1, bitsAt ws 64 16, bitsAt ws 80 16, wideAt ws 3, (ws.drop 16).take 4096⟩

/-- tfill (R241): a load of the issuing lane; an image that fails its CRC or has a reserved bit set is rejected. -/
def execTfill (o : Operands) (s : State) : Host.Outcome State Fault Refusal :=
  withIssue s fun v => v.blockWide o fun v lane => do
    let va := v.src64 0 o.a lane
    if va.toNat % 64 ≠ 0 then .error (v.alignFault (lane, va))
    else
      let (v, bytes) ← v.readGlobal lane va 16448
      let bs := bytes.toList
      if bitsAt (bytesWords bs) 160 320 ≠ 0 ∨ bitsAt (bytesWords bs) 25 7 ≠ 0 ∨ crc32c (bs.take 60 ++ bs.drop 64) ≠ wordAt (bytesWords bs) 15 then
        .error (v.fatal { v.faultRec lane 0x31 with synd := 4, va := va })
      else return v.s.mapCore v.ic.core fun c => c.setTable (immNat o.b) (fillTable bs)

/-! ### Accumulator tiles -/

/-- azero (R249). -/
def execAzero (o : Operands) (s : State) : Host.Outcome State Fault Refusal :=
  withIssue s fun v => v.blockWide o fun v lane =>
    let m := v.src32 .int 0 o.a lane
    .ok ((lanesOf m).foldl (fun s t => s.setTile v.ic.core t (List.replicate 1024 0)) v.s)

/-- aload (R249). -/
def execAload (o : Operands) (s : State) : Host.Outcome State Fault Refusal :=
  withIssue s fun v => v.blockWide o fun v lane => do
    let fmt := o.mod.toNat % 16
    let a := (v.src32 .int 0 o.a lane).toNat
    let p := (v.src32 .int 1 o.b lane).toNat
    let e := fmtBits fmt / 8
    if a % 4 ≠ 0 ∨ p % 4 ≠ 0 ∨ p < 64 * e then .error (v.shapeFault lane)
    else
      let (v, bytes) ← v.readRange lane a (15 * p + 64 * e)
      let src (k : Nat) : Byte := bytes.getD k 0
      return v.s.setTile v.ic.core (immNat o.c) ((List.range 1024).map fun i =>
        elemF32 fmt (Build.element.bytesNatAt src (i / 64 * p + i % 64 * e) e))

/-- The rows that adrain writes, checked. -/
def View.drainRows (v : View) (lane a pitch n : Nat) : Stage (List ScrRange) :=
  (List.range 16).mapM fun m => v.rangeReady lane (a + m * pitch) n true v.accStore

/-- adrain (R249, R79, R250). -/
def execAdrain (o : Operands) (s : State) : Host.Outcome State Fault Refusal :=
  withIssue s fun v => v.blockWide o fun v lane => do
    let fmt := o.mod.toNat % 16
    let a := (v.src32 .int 0 o.a lane).toNat
    let p := (v.src32 .int 1 o.b lane).toNat
    let t := immNat o.c
    let n := 64 * fmtBits fmt / 8
    if a % 4 ≠ 0 ∨ p % 4 ≠ 0 ∨ p < n then .error (v.shapeFault lane)
    else if (v.s.scrTarget (v.block lane) a (15 * p + n)).isNone then .error (v.scratchFault lane a)
    else
      let rows ← v.drainRows lane a p n
      match v.s.noteWrite v.ic.core v.ctx (pieceVpages (rows.flatMap fun r => r.wins.map (·.2))) with
      | none => .error v.waitRange
      | some s =>
        let tile := v.s.tile v.ic.core t
        let s := v.notePeer s (rows.map fun r => ⟨lane, r.blk, r.off⟩)
        let s := (rows.mapIdx fun m r => (m, r)).foldl (fun s x =>
          let codes := ((tile.drop (64 * x.1)).take 64).map (drainCode fmt)
          v.writeRange s lane x.2 (natBytes n (packCodes fmt codes))) s
        return if modBit o.mod.toNat 4 then s.setTile v.ic.core t (List.replicate 1024 0) else s

/-! ### mlk -/

/-- The fields of a B weights record (R282). -/
def bRec (ws : List W32) : BRec :=
  let qg := bitsAt ws 101 2
  ⟨recFmt ws, if qg = 0 then 0 else 16 * 2 ^ qg, bitsAt ws 103 1 = 1, bitsAt ws 104 2, bitsAt ws 106 2, wordAt ws 4⟩

/-- Whether a B weights record breaks no rule of R281 and R282. -/
def bRecOk (ws : List W32) : Bool :=
  let fmt := recFmt ws
  let b := bRec ws
  [5, 6, 9, 10, 11, 12, 13, 14, 15].contains fmt && bitsAt ws 104 2 ≠ 3 && bitsAt ws 106 2 ≠ 3 &&
    bitsAt ws 108 20 = 0 && bitsAt ws 160 96 = 0 &&
    (!b.zp || (b.qg ≠ 0 && [9, 10, 6].contains fmt)) && (fmt ≠ 13 || b.qg = 32)

/-- The first register of a set that mlk may not use, and its syndrome (R243): none where it may go on, with a rebuild or not. -/
def CoreSt.badRegister (c : CoreSt) (t0 : Nat) (top : Table) (rb : Bool) : Option W32 :=
  (List.range top.build.regs).findSome? fun i =>
    let k := t0 + i
    let odd := BitVec.ofNat 32 (k % 32)
    match c.table? k with
    | none => some (odd ||| 0x20)
    | some t =>
      if 24 ≤ k ∨ t.first ≠ t0 ∨ t.pos ≠ i ∨ t.ngrp ≠ top.ngrp then some (odd ||| 0x20)
      else if t.state = 3 ∧ !rb then some odd
      else none

/-- Whether a set is rebuilt before its use (R243). -/
def CoreSt.needsRebuild (c : CoreSt) (t0 : Nat) (top : Table) : Bool :=
  (List.range top.build.regs).any fun i => (c.table? (t0 + i)).any fun t => t.state = 2 || t.state = 3

/-- Whether the record-based shape limits of mlk hold (R242). -/
def mlkShapeOk (b : Build) (r : BRec) : Bool :=
  b.ngrp % 4 = 0 && (r.qg = 0 || b.ngrp % (r.qg / groupSize b.mode) = 0) && fmtSuits b.mode r.fmt &&
    (b.mode = 0 || b.n = tableEntries r.nent)

/-- The entries of a set as a function of row, group and entry. -/
def CoreSt.setEntries (c : CoreSt) (t0 : Nat) (b : Build) : Nat → Nat → Nat → W32 :=
  let regs := ((List.range b.regs).map fun i => ((c.table? (t0 + i)).map fun t => t.entries.toArray).getD #[]).toArray
  let per := groupsPer b.n
  fun m g i => (regs.getD (g / per) #[]).getD ((m * per + g % per) * b.n + i) 0

/-- The k-steps from `k` on (R246, R247): the tile, the next step, and how they end. `inj` is the kind of a fault of
the engine and the k-step that meets it. -/
def Mul.run (x : Mul) (t : Nat → Nat → Nat → W32) (inj : Option (Nat × Nat)) : Nat → Nat → List W32 → List W32 × Nat × MulEnd
  | 0, k, acc => (acc, k, .done)
  | fuel + 1, k, acc =>
    match inj.filter (·.2 = k) with
    | some (7, _) => (acc, k, .hung)
    | some (kind, _) => (acc, k, .residue kind)
    | none =>
      match x.badCode k with
      | some (code, col) => (acc, k, .index code col)
      | none => x.run t inj fuel (k + 1) (x.step t k acc)

/-- mlk once its operands, tables and B range are known (R246, R247): the k-steps from the block's s.kprog, or afresh. -/
def View.mlkRun (v : View) (o : Operands) (lane t0 tile : Nat) (top : Table) (x : Mul) : State :=
  let blk := (v.thread lane).blk
  let b := v.s.blockOf blk
  let start := if b.mlkStop = some v.ic.pc then b.kprog.toNat else 0
  let c := v.s.core v.ic.core
  let ents := c.setEntries t0 x.build
  let inj := c.lookupFault.map fun y => (y.1, start + y.2.2)
  let (acc, k, out) := x.run ents inj (x.steps - start) start (v.s.tile v.ic.core tile)
  let s := if inj.isNone then v.s else v.s.mapCore v.ic.core fun c => c.passFault (k - start) out.meetsFault
  let s := if k = start then s else s.setTile v.ic.core tile acc
  let done (stop : Option W64) : State := s.mapBlock blk fun b => { b with kprog := BitVec.ofNat 32 k, mlkStop := stop }
  match out with
  | .done => v.retire o v.active (done none)
  | .hung => v.park (s.mapCore v.ic.core fun c => { c with hung := some s.now }) v.active (.retry (.engine v.ic.core))
  | .residue kind =>
    let synd := lookupSynd v.s.free lane k kind (x.firstAddition ents k)
    v.trapWide o ((done (some v.ic.pc)).lookupNoted { v.faultRec lane 0x41 with ctx := some v.ctx, synd := synd } v.ic.core kind) 2 synd
  | .index code col =>
    v.trapWide o (done (some v.ic.pc)) 4
      (BitVec.ofNat 32 (code % 256 + 256 * bitField top.stat.toNat 23 2 + 1024 * col + 65536 * k))

/-- mlk on an engine state that its block owns: its checks in the order of R242 and R243, with the range of B (R236, R202) before the
set check, which is made last. -/
def View.mlk (v : View) (o : Operands) (lane : Nat) : Stage State := do
  let a := (v.src32 .int 0 o.a lane).toNat
  let w := (v.src32 .int 2 o.c lane).toNat
  if a % 4 ≠ 0 ∨ w / 1024 ≠ 0 then .error (v.shapeFault lane)
  else
    let ws ← v.poolRecord o.b
    let t0 := w % 32
    let c := v.s.core v.ic.core
    let r := bRec ws
    if !bRecOk ws then .error (v.rejectPool o.b)
    else
      match c.table? t0 with
      | none => .ok (v.trapWide o v.s 3 (BitVec.ofNat 32 (t0 + 32)))
      | some top =>
        let b := top.build
        if !mlkShapeOk b r then .error (v.shapeFault lane)
        else
          let gs := groupSize b.mode
          let n := r.bytes b.ngrp gs (r.pitch b.ngrp gs)
          let _ ← v.rangeReady lane a n false v.accLoad
          match c.badRegister t0 top (modBit o.mod.toNat 0) with
          | some synd => .ok (v.trapWide o v.s 3 synd)
          | none =>
            let v ← if c.needsRebuild t0 top then v.rebuild lane top else .ok v
            let (v, bytes) ← v.readRange lane a n
            return v.mlkRun o lane t0 (bitField w 5 5) top ⟨b, r, r.pitch b.ngrp gs, fun k => bytes.getD k 0⟩

/-- mlk (R242 to R247). -/
def execMlk (o : Operands) (s : State) : Host.Outcome State Fault Refusal :=
  withIssue s fun v =>
    let p := v.passing o
    if p = 0 then v.retire o v.active v.s else
      let lane := lowestLane p
      match v.s.claim v.ic.core (v.thread lane).blk with
      | none => v.park v.s v.active (.retry (.engine v.ic.core))
      | some s => Stage.run (View.mlk { v with s := s } o lane)

end Sys2Proof.Machine
end

