-- ==== Sys2Proof/Machine/EngineMem.lean ====
section
/-! DEFINITION. How engines access memory for a context (R111, R112, R212): reads answered at the home slices, writes, and what
stops or kills the command or task that makes them. -/
namespace Sys2Proof.Machine

/-- An engine at work for a context: the core its run belongs to, its AGENT code, the step from which its reads may take place
(R111), whether its writes are performed before its completion is signalled (R112), and fields of its records. -/
structure Eng where
  ctx   : Nat
  core  : Option Nat
  agent : Nat
  since : Nat
  rel   : Bool
  loc   : W32
  pc    : W64
  info  : W64
  code  : Nat := 4            -- the access kind of R416: 4 engine, 5 traversal

/-- Why an engine's access is not made: a replayable record on which the work stops, a failure that kills it with the KIND it
would have had for an instruction (R212), or a line that does not serve it (R465, R466, R479). -/
inductive EngFail where
  | stop (r : Rec)
  | kill (kind : Nat) (va : W64) (level : Nat)
  | line (va : W64) (line : Nat) (x : LineState)
  deriving DecidableEq, Repr

/-- A record of an engine. -/
def Eng.record (e : Eng) (kind : Nat) (va : W64) : Rec :=
  { kind := kind, agent := e.agent, die := (e.core.map coreDie).getD 0, ctx := some e.ctx, va := va, loc := e.loc, pc := e.pc, info := e.info }

/-- The agent of an engine's accesses. -/
def Eng.owner (e : Eng) : Agent := ⟨some e.ctx, e.core⟩

/-- The translation of an engine's access on one page, with its lines checked (R212, R404). -/
def State.engTrans (s : State) (e : Eng) (wr : Bool) (va : W64) (n : Nat) : Except EngFail Trans :=
  let acc : Acc := ⟨e.code, wr, false, (s.ctxOf e.ctx).priv⟩
  match s.translate e.ctx acc va (17592186044416 + 8 * (va.toNat / 4096)) with
  | .error .nonResident => .error (.stop { e.record 0x01 va with synd := BitVec.ofNat 32 e.code })
  | .error (.second code walk ia) =>
    .error (.stop { e.record 0x02 va with pa := ia, synd := BitVec.ofNat 32 (code + 4 * if walk then 6 else e.code) })
  | .error f => .error (.kill (f.fatalKind acc).1 va (f.fatalKind acc).2)
  | .ok t =>
    let pa := t.paOf va.toNat
    if isRemote pa then .ok t
    else
      match (linesOf pa n).findSome? fun l =>
        match s.requestState (s.domain (s.agentPart e.owner)) t.tgeo (!wr) (2097152 + l % 65536) l with
        | .ok => none
        | x => some (l, x) with
      | some (l, x) => .error (.line va l x)
      | none => .ok t

/-- Some bytes of one aligned group of eight as an engine's read returns them (R90, R111): the present ones, or those of one
moment since its first read could take place. -/
def State.engGroup (s : State) (since : Nat) (pas : List Nat) : List Byte :=
  chooseFrom s.free (35184372088832 + (pas.headD 0) / 8) [] (s.versions since pas)

/-- Bytes of local memory as an engine reads them, group by group; `fuel` bounds the groups. Bytes beyond the usable memory
are free (log entry 6). -/
def State.engBytes (s : State) (since pa n : Nat) : Nat → List Byte
  | 0 => []
  | fuel + 1 =>
    if n = 0 then [] else
      let k := min n (8 - pa % 8)
      (if pa + k ≤ s.usable then s.engGroup since ((List.range k).map (pa + ·)) else s.homeRead (70368744177664 + pa) pa k) ++
        State.engBytes s since (pa + k) (n - k) fuel

/-- One page's part of an engine's read. -/
def State.engReadPart (s : State) (e : Eng) (va : W64) (n : Nat) : Except EngFail (State × List Byte) := do
  let t ← s.engTrans e false va n
  let pa := t.paOf va.toNat
  let s := s.cache e.ctx t
  if isRemote pa then
    if s.linkUp then
      return (s.sendRemote pa e.owner, (List.range n).map fun k => (Config.freeW32 s.free (70368744177664 + pa + k)).setWidth 8)
    else return (s.remoteFailed pa e.owner, List.replicate n 0xFF)
  else
    let slice := homeSlice (s.domain (s.agentPart e.owner)) t.tgeo
    return (s.meetClean (linesOf pa n), s.aliased 4683743612465315840 slice pa (s.engBytes e.since pa n (n / 8 + 2)))

/-- The parts of an engine's read, one after another. -/
def State.engReadParts (s : State) (e : Eng) : List (W64 × Nat × Nat) → Except EngFail (State × List Byte)
  | [] => .ok (s, [])
  | (va, _, n) :: r => do
    let (s, bs) ← s.engReadPart e va n
    let (s, cs) ← State.engReadParts s e r
    return (s, bs ++ cs)

/-- An engine's read of some bytes. -/
def State.engRead (s : State) (e : Eng) (va : W64) (n : Nat) : Except EngFail (State × List Byte) :=
  s.engReadParts e (accessParts va n)

/-- One page's part of an engine's write (R112): performed, or on its way to its home slice when nothing orders it before the
completion. -/
def State.engWritePart (s : State) (e : Eng) (va : W64) (bs : List Byte) : Except EngFail State := do
  let t ← s.engTrans e true va bs.length
  let pa := t.paOf va.toNat
  let s := s.cache e.ctx t
  let w : PendWrite :=
    { agent := e.owner, uid := 0, addr := pa, va := va, tgeo := t.tgeo, data := bs, slice := 0, so := t.kind = 0
      uo := t.kind = 2, cached := false, stack := false, issued := s.free, cwb := 0, misdirected := false }
  if e.rel || isRemote pa then return s.performWrite w
  else
    let ws := (splitLines (bs.length / 128 + 2) pa bs).map fun q =>
      { w with addr := q.1, va := va + BitVec.ofNat 64 (q.1 - pa), data := q.2
               slice := homeSlice (s.domain (s.agentPart e.owner)) t.tgeo q.1 }
    return { s with writes := s.writes ++ ws }

/-- The parts of an engine's write, one after another. -/
def State.engWriteParts (s : State) (e : Eng) (bs : List Byte) : List (W64 × Nat × Nat) → Except EngFail State
  | [] => .ok s
  | (va, off, n) :: r => do
    let s ← s.engWritePart e va ((bs.drop off).take n)
    State.engWriteParts s e bs r

/-- An engine's write whose pages are all translated before any byte is written. -/
def State.engWrite (s : State) (e : Eng) (va : W64) (bs : List Byte) : Except EngFail State := do
  let parts := accessParts va bs.length
  let _ ← parts.mapM fun p => s.engTrans e true p.1 p.2.2
  s.engWriteParts e bs parts

/-- The outcome of an access that work of a partition could not make: the state, and the replayable record it now waits for;
`none` for a failure that kills the work. With the replayable ring full nothing happens until it has room (R414). -/
def State.engStopped (s : State) (part : Nat) (e : Eng) : EngFail → State × Option (Option (Nat × W32))
  | .stop r =>
    if s.replayFull (1 + part) then (s, some none)
    else
      let (s, sq) := s.postReplay (1 + part) { r with part := part }
      (s, some (some (1 + part, sq)))
  | .kill _ _ _ => (s, none)
  | .line va l x => (s.lineError e.ctx (e.record 0 va) l x, some none)

end Sys2Proof.Machine
end

