-- ==== Sys2Proof/Machine/Tasks.lean ====
section
/-! DEFINITION. Group A, part two: tile tasks (R251 to R254): tenq, twait and tprog, and what the hardware task scheduler and an
engine do with a task. -/
namespace Sys2Proof.Machine

/-! ### Records and tokens -/

/-- SCOPE of a tile-task record (R251). -/
def taskScope (ws : List W32) : Nat := bitsAt ws 21 3
/-- ACQ. -/
def taskAcq (ws : List W32) : Bool := bitsAt ws 19 1 = 1
/-- REL. -/
def taskRel (ws : List W32) : Bool := bitsAt ws 20 1 = 1
/-- MODE. -/
def taskMode (ws : List W32) : Nat := bitsAt ws 16 2

/-- A tile-task record breaks no rule of its own fields (R251). -/
def taskOk (ws : List W32) : Bool :=
  let flags := taskAcq ws || taskRel ws
  let ngrp := bitsAt ws 48 16
  bitsAt ws 0 8 = 1 && [0, 1, 2, 3, 4, 6, 7, 8].contains (bitsAt ws 8 4) && bitsAt ws 12 4 ≤ 10 &&
    (bitsAt ws 18 1 = 0 || bitsAt ws 12 4 = 0) && (if flags then taskScope ws ≤ 5 else taskScope ws = 0) &&
    bitsAt ws 24 8 = 0 && bitsAt ws 47 1 = 0 && ngrp % 4 = 0 && 4 ≤ ngrp && bitsAt ws 383 1 = 0 && bitsAt ws 448 64 = 0

/-- The task of a partition's token. -/
def State.task? (s : State) (p : Nat) (tok : W32) : Option Task := s.tasks.find? fun t => t.part = p && t.tok = tok

/-- A partition's task changed. -/
def State.mapTask (s : State) (p : Nat) (tok : W32) (f : Task → Task) : State :=
  { s with tasks := updateWhere (fun t => t.part = p && t.tok = tok) f s.tasks }

/-- Whether a token is among the 65,536 that a partition gave last (R254). -/
def State.tokenKept (s : State) (p : Nat) (tok : W32) : Bool :=
  let d := ((s.part p).taskSer - tok).toNat
  tok ≠ 0 && 1 ≤ d && d ≤ 65536

/-- The task of a token that is kept (R254). -/
def State.keptTask (s : State) (p : Nat) (tok : W32) : Option Task := if s.tokenKept p tok then s.task? p tok else none

/-- The code of a task state (R254). -/
def TaskState.code : TaskState → Nat
  | .queued => 0
  | .running => 1
  | .stopped => 2
  | .done => 3
  | .failed => 4
  | .killed => 5

/-- The state of a token (R254): 6 outside the kept window. -/
def State.tokenState (s : State) (p : Nat) (tok : W32) : Nat := ((s.keptTask p tok).map fun t => t.state.code).getD 6

/-- Whether a token counts as completed for the WAIT fields (R254); 0 names none. -/
def State.tokenOver (s : State) (p : Nat) (tok : W32) : Bool := tok = 0 || 3 ≤ s.tokenState p tok

/-! ### tenq, tprog, twait -/

/-- One lane's task taken into its partition's queue (R252), with its token. -/
def View.enqueue (v : View) (words : Nat → List W32) (s : State) (lane : Nat) : Push × W32 :=
  let ws := words lane
  match s.pushPlace v.part 2 v.ctx v.ctx ws with
  | (.done s, ring) =>
    let tok := (s.part v.part).taskSer
    let t : Task :=
      { tok := tok, part := v.part, ctx := v.ctx, launch := v.w.launch, ring := ring, core := none, pool := v.launch.pool, words := ws, state := .queued
        ksteps := 0, acc := [], synd := 0, stamp := if taskAcq ws then s.free + 1 else v.since lane, wait := none }
    let s := s.mapPart v.part fun p => { p with taskSer := nextToken tok }
    let s : State := { s with tasks := (s.tasks.filter fun y => y.part ≠ v.part || !y.isOver || s.tokenKept v.part y.tok) ++ [t] }
    (.done s, tok)
  | (y, _) => (y, 0)

/-- The table build of a tile-task record with the NENT code of its codebook (R251). -/
def taskBuild (ws : List W32) (nent : Nat) : Build :=
  ⟨bitsAt ws 8 4, taskMode ws, bitsAt ws 48 16, tableEntries nent, bitsAt ws 256 16⟩

/-- Whether a task's shape agrees with its B record (R242, R251): the conditions of mlk, and BPITCH at least CP. -/
def taskShapeOk (b : Build) (r : BRec) (ws : List W32) : Bool :=
  mlkShapeOk b r && r.pitch b.ngrp (groupSize b.mode) ≤ (wordAt ws 9).toNat

/-- What tenq checks of a lane's record (R252): its own fields, the records it names, read through the lane's POOL (R123), and its
shape. -/
def View.taskChecked (v : View) (lane : Nat) (va : W64) (ws : List W32) : Stage Unit :=
  let bad (synd ix : Nat) : Stage Unit :=
    .error (v.fatal { v.faultRec lane 0x31 with synd := BitVec.ofNat 32 synd, va := va, info := BitVec.ofNat 64 ix })
  if !taskOk ws then bad 2 0
  else do
    let bs ← v.poolRecord (.pool (BitVec.ofNat 15 (bitsAt ws 32 15)))
    if !bRecOk bs then bad 3 (bitsAt ws 32 15)
    else if taskMode ws ≤ 1 then
      if taskShapeOk (taskBuild ws 0) (bRec bs) ws then return () else bad 2 0
    else
      let cs ← v.poolRecord (.pool (BitVec.ofNat 15 (bitsAt ws 368 15)))
      let nent := bitsAt cs 106 2
      if !bookOk cs ∨ nent = 3 then bad 3 (bitsAt ws 368 15)
      else if !taskShapeOk (taskBuild ws nent) (bRec bs) ws ∨ recExtent cs < tableEntries nent * groupSize (taskMode ws) * 2 then
        bad 2 0
      else return ()

/-- The checks of every lane, lanes ascending. -/
def View.tasksChecked (v : View) (va : Nat → W64) (words : Nat → List W32) : List Nat → Stage Unit
  | [] => .ok ()
  | i :: r => do
    v.taskChecked i (va i) (words i)
    View.tasksChecked v va words r

/-- tenq (R252): the record is a load of the lane, 64-byte aligned (R251); a malformed one is rejected (R12) and no token is taken.
Which records it reads to tell is log entry 24. -/
def execTenq (o : Operands) (s : State) : Host.Outcome State Fault Refusal :=
  withIssue s fun v =>
    let p := v.passing o
    let reads := laneAddrs p fun i => v.src64 0 o.a i
    if v.resultsFull then v.waitSlot else
    match misaligned 64 reads, v.recordPieces 64 reads with
    | some x, _ => v.alignFault x
    | none, .error s => s
    | none, .ok ps =>
      let v' : View := { v with s := v.touchPieces v.s ps }
      let words := v'.recordWords ps
      match v.tasksChecked (fun i => v.src64 0 o.a i) words (lanesOf p) with
      | .error s => s
      | .ok _ =>
        let acq := (lanesOf p).any fun i => taskAcq (words i)
        v.unlessHeld (if acq then some 2 else none) <|
          let s := v.remoteReads (v.cachePieces v'.s ps) ps
          let s := if acq then s.flushCore v.ic.core else s
          v.pushed o 2 (fun _ => v.ctx) true (pushLanes (v.enqueue words) (lanesOf p) s [])

/-- The state word of a token (R254). -/
def State.tokenWord (s : State) (p : Nat) (tok : W32) : W32 :=
  BitVec.ofNat 32 (s.tokenState p tok + 256 * ((s.keptTask p tok).map (·.ksteps)).getD 0)

/-- One lane's tprog: the state word as it was, and with .res a stopped task queued again (R254). -/
def View.resumeToken (v : View) (tok : Nat → W32) (res : Bool) (s : State) (lane : Nat) : Push × W32 :=
  let out := s.tokenWord v.part (tok lane)
  match s.keptTask v.part (tok lane) with
  | some t =>
    if res && t.state = .stopped then
      match s.pushPlace v.part 2 t.ctx v.ctx t.words with
      | (.done s, ring) =>
        let again : Task := { t with state := .queued, core := none, ring := ring }
        (.done { s with tasks := s.tasks.filter (fun y => !(y.part = v.part && y.tok = tok lane)) ++ [again] }, out)
      | (y, _) => (y, out)
    else (.done s, out)
  | none => (.done s, out)

/-- tprog (R254). -/
def execTprog (o : Operands) (s : State) : Host.Outcome State Fault Refusal :=
  withIssue s fun v =>
    if v.resultsFull then v.waitSlot else
    let tok (i : Nat) : W32 := v.src32 .int 0 o.a i
    v.pushed o 2 (fun i => ((v.s.keptTask v.part (tok i)).map (·.ctx)).getD v.ctx) true
      (pushLanes (v.resumeToken tok (modBit o.mod.toNat 0)) (lanesOf (v.passing o)) v.s [])

/-- The trap of a lane that waits on a stopped or a failed task (R254, R269, R270). -/
def View.trapTask (v : View) (s : State) (lane : Nat) (t : Task) : State :=
  let s := v.onWave s fun w => w.mapLanes (bitsWhere (· = lane)) fun _ th =>
    { th with tilex := BitVec.ofNat 32 (bitsAt t.words 320 16), tiley := BitVec.ofNat 32 (bitsAt t.words 336 16)
              tilez := BitVec.ofNat 32 (bitsAt t.words 352 16) }
  let s := s.mapBlock (v.thread lane).blk fun b => { b with kprog := BitVec.ofNat 32 t.ksteps }
  let cause := if t.state = .stopped then 4 else 2
  let synd := if t.state = .stopped then t.synd else t.synd ||| BitVec.ofNat 32 (256 * lane)
  s.takeTrap v.ic.core v.ic.wslot lane cause synd (BitVec.ofNat 32 (4 + 65536 * t.core.getD 0)) v.ic.pc

/-- twait (R254): the lanes whose tasks have ended take their states and advance, those of stopped and failed tasks trap, and
the others wait. -/
def execTwait (o : Operands) (s : State) : Host.Outcome State Fault Refusal :=
  withIssue s fun v =>
    if v.resultsFull then v.waitSlot else
    let p := v.passing o
    let tok (i : Nat) : W32 := v.src32 .int 0 o.a i
    let code (i : Nat) : Nat := v.s.tokenState v.part (tok i)
    let waits : Mask := bitsWhere fun i => p.getLsbD i && code i < 2
    let traps : Mask := bitsWhere fun i => p.getLsbD i && (code i = 2 || code i = 4)
    let ends : Mask := p &&& ~~~(waits ||| traps)
    let sees := (lanesOf ends).any fun i => code i = 3 && ((v.s.keptTask v.part (tok i)).any fun t => taskRel t.words)
    let s := if sees then v.s.dropL1 v.ic.core else v.s
    let s := v.writeLater s ends o.dst.reg.toNat fun i => out32 (BitVec.ofNat 32 (code i))
    let s := v.retire o (v.active &&& ~~~(waits ||| traps)) s
    let s := v.waitEach s waits fun i => .retry (.task (tok i))
    (lanesOf traps).foldl (fun s i =>
      match v.s.keptTask v.part (tok i) with
      | some t => v.trapTask s i t
      | none => s) s

/-! ### Running a task -/

/-- The engine of a task's run. -/
def Task.eng (t : Task) (core : Nat) : Eng :=
  { ctx := t.ctx, core := some core, agent := 2, since := t.stamp, rel := taskRel t.words, loc := locWord core 0 0 0, pc := 0
    info := t.tok.setWidth 64 }

/-- What keeps a task from running: an access, or a pool record or the record itself that is rejected (R12, R493). -/
inductive TaskFail where
  | access (f : EngFail)
  | reject (synd : Nat) (info : Nat)
  | fragmented
  deriving DecidableEq, Repr

/-- An engine access of a task. -/
def taskAccess {α : Type} (x : Except EngFail α) : Except TaskFail α :=
  match x with
  | .ok a => .ok a
  | .error f => .error (.access f)

/-- The B record of a task, and its codebook's base and NENT code (R251, R282), read through the POOL it captured. -/
def State.taskRecords (s : State) (e : Eng) (t : Task) : Except TaskFail (State × BRec × W64 × Nat) := do
  let ix := bitsAt t.words 32 15
  let (s, bs) ← taskAccess (s.engRead e (t.pool + BitVec.ofNat 64 (32 * ix)) 32)
  let ws := bytesWords bs
  if !bRecOk ws then .error (.reject 3 ix)
  else if taskMode t.words ≤ 1 then return (s, bRec ws, 0, 0)
  else
    let ix := bitsAt t.words 368 15
    let (s, bs) ← taskAccess (s.engRead e (t.pool + BitVec.ofNat 64 (32 * ix)) 32)
    let cs := bytesWords bs
    if !bookOk cs ∨ bitsAt cs 106 2 = 3 then .error (.reject 3 ix)
    else if recExtent cs < tableEntries (bitsAt cs 106 2) * groupSize (taskMode t.words) * 2 then .error (.reject 2 0)
    else return (s, bRec ws, recBase cs, bitsAt cs 106 2)

/-- The bytes of A, of B with its arrays, of a row of C and of the codebook (R252). -/
def Task.sizes (t : Task) (b : Build) (r : BRec) : Nat × Nat × Nat × Nat :=
  (15 * b.pitch + b.kb, r.bytes b.ngrp (groupSize b.mode) (wordAt t.words 9).toNat, 64 * fmtBits (bitsAt t.words 12 4) / 8,
    if b.mode ≤ 1 then 0 else b.n * groupSize b.mode * 2)

/-- The physical runs of a declared range, each page translated, with neighbouring pages joined (R252). -/
def State.taskExtents (s : State) (e : Eng) (wr : Bool) (va : W64) (n : Nat) : Except EngFail (List (Nat × Nat)) := do
  let ps ← (accessParts va n).mapM fun p => (s.engTrans e wr p.1 p.2.2).map fun t => (t.paOf p.1.toNat, p.2.2)
  return ps.foldl (fun l p =>
    match l with
    | (a, k) :: r => if a + k = p.1 then (a, k + p.2) :: r else p :: l
    | [] => [p]) []

/-- A task's operands, with its declared ranges translated in order and counted (R252): the multiply and its tables. -/
def State.taskPlan (s : State) (e : Eng) (t : Task) :
    Except TaskFail (State × Mul × (Nat → Nat → Nat → W32)) := do
  let (s, r, cbase, nent) ← s.taskRecords e t
  let b := taskBuild t.words nent
  let gs := groupSize b.mode
  let bpitch := (wordAt t.words 9).toNat
  if !taskShapeOk b r t.words then .error (.reject 2 0)
  else
    let (na, nb, nc, nk) := t.sizes b r
    let ea ← taskAccess (s.taskExtents e false (wideAt t.words 2) na)
    let eb ← taskAccess (s.taskExtents e false (wideAt t.words 4) nb)
    let ec ← taskAccess (s.taskExtents e true (wideAt t.words 6) (15 * bitsAt t.words 272 16 + nc))
    let ek ← taskAccess (s.taskExtents e false cbase nk)
    if 16 < ea.length + eb.length + ec.length + ek.length then .error .fragmented
    else
      let (s, bytesA) ← taskAccess (s.engRead e (wideAt t.words 2) na)
      let (s, bytesB) ← taskAccess (s.engRead e (wideAt t.words 4) nb)
      let (s, bytesK) ← taskAccess (s.engRead e cbase nk)
      let (arrA, arrB, arrK) := (bytesA.toArray, bytesB.toArray, bytesK.toArray)
      let book (i j : Nat) : W32 :=
        if b.mode ≤ 1 then e2m1Book i j
        else
          let k := 2 * (i * gs + j)
          BitVec.ofNat 32 (roundVal fmtF32 .ieee 0 (decodeFloat fmtF16 ((arrK.getD k 0).toNat + 256 * (arrK.getD (k + 1) 0).toNat))).1
      return (s, ⟨b, r, bpitch, fun k => arrB.getD k 0⟩, b.entry (fun k => arrA.getD k 0) book)

/-- The accumulators a task starts from (R251): zeros, or with ACCIN the f32 elements of C. -/
def State.taskStart (s : State) (e : Eng) (t : Task) : Except TaskFail (State × List W32) :=
  if bitsAt t.words 18 1 = 0 then .ok (s, List.replicate 1024 0)
  else do
    let (s, rows) ← (List.range 16).foldlM (fun (x : State × List W32) m => do
      let (s, bs) ← taskAccess (x.1.engRead e (wideAt t.words 6 + BitVec.ofNat 64 (m * bitsAt t.words 272 16)) 256)
      return (s, x.2 ++ bytesWords bs)) (s, [])
    return (s, rows)

/-- A task leaves its engine in a state (R235, R253). -/
def State.leaveEngine (s : State) (t : Task) (core : Nat) (f : Task → Task) : State :=
  (s.mapCore core fun c => if c.task = some t.tok then c.freeEngine else c).mapTask t.part t.tok f

/-- A task that cannot go on (R252, R253): it waits for its page with its counter and accumulators saved, or it is killed with
its record, or its context ends with a rejected record. Log entry 24. -/
def State.taskFailed (s : State) (t : Task) (core : Nat) : TaskFail → State
  | .access f =>
    let e := t.eng core
    let f := match f with
      | .stop r => if r.kind = 0x01 then .stop { r with kind := 0x06, synd := 0 } else .stop r
      | f => f
    match s.engStopped t.part e f with
    | (s, some (some w)) => s.leaveEngine t core fun x => { x with core := none, wait := some w }
    | (s, some none) => s.leaveEngine t core fun x => { x with core := none }
    | (s, none) =>
      let kind := match f with
        | .kill k _ _ => k
        | _ => 0
      (s.leaveEngine t core fun x => { x with state := .killed, core := none }).notice t.ctx
        { e.record 0x3C (match f with | .kill _ va _ => va | _ => 0) with synd := BitVec.ofNat 32 kind }
  | .reject synd info =>
    s.fatal t.ctx { (t.eng core).record 0x31 0 with synd := BitVec.ofNat 32 synd, info := BitVec.ofNat 64 info }
  | .fragmented =>
    (s.leaveEngine t core fun x => { x with state := .killed, core := none }).notice t.ctx ((t.eng core).record 0x34 0)

/-- The step from which a task's reads may take place once its waits are met: a wait that observes the completion of a task whose
release flag is set is an acquire (R112). -/
def State.taskStamp (s : State) (t : Task) : Nat :=
  let released (tok : W32) : Bool := (s.keptTask t.part tok).any fun x => x.state = .done && taskRel x.words
  if t.acc = [] && (released (wordAt t.words 12) || released (wordAt t.words 13)) then max t.stamp s.free else t.stamp

/-- A task whose waits are met begins on a free engine, or goes on there from its counter (R252, R253). -/
def State.startTask (s : State) (t : Task) (core : Nat) : State :=
  let t := { t with stamp := s.taskStamp t }
  let e := t.eng core
  match s.taskPlan e t with
  | .error f => s.taskFailed t core f
  | .ok (s', _, _) =>
    match (if t.acc = [] then s'.taskStart e t else .ok (s', t.acc)) with
    | .error f => s.taskFailed t core f
    | .ok (s', acc) =>
      (s'.mapCore core fun c => { c with task := some t.tok }).mapTask t.part t.tok fun x =>
        { x with state := .running, core := some core, acc := acc, ring := false, stamp := t.stamp }

/-- C as a task writes it (R253, R79): sixteen rows. -/
def Task.rowBytes (t : Task) (acc : List W32) (m : Nat) : List Byte :=
  let fmt := bitsAt t.words 12 4
  natBytes (64 * fmtBits fmt / 8) (packCodes fmt (((acc.drop (64 * m)).take 64).map (drainCode fmt)))

/-- The address of a row of C. -/
def Task.rowAddr (t : Task) (m : Nat) : W64 := wideAt t.words 6 + BitVec.ofNat 64 (m * bitsAt t.words 272 16)

/-- C written once, after the last step (R253), with its pages in the core's write ranges (R457), and the release. A write that
must wait for a range leaves the task as it is. -/
def State.taskWrite (s : State) (t : Task) (core : Nat) (acc : List W32) : State :=
  let e := t.eng core
  let n := (t.rowBytes acc 0).length
  match (List.range 16).mapM fun m => (accessParts (t.rowAddr m) n).mapM fun p => s.engTrans e true p.1 p.2.2 with
  | .error f => s.taskFailed { t with acc := acc } core (.access f)
  | .ok _ =>
    match s.noteWrite core t.ctx ((List.range 16).flatMap fun m => pagesOf (t.rowAddr m) n) with
    | none => s.moveFront core
    | some s =>
      match (List.range 16).foldlM (fun s m => s.engWrite e (t.rowAddr m) (t.rowBytes acc m)) s with
      | .error f => s.taskFailed { t with acc := acc } core (.access f)
      | .ok s => s.leaveEngine t core fun x => { x with state := .done, acc := [] }

/-- A running task makes some of its k-steps, and writes C when `finish` and all are done (R253, R247). -/
def State.runTask (s : State) (t : Task) (core fuel : Nat) (finish : Bool) : State :=
  let e := t.eng core
  match s.taskPlan e t with
  | .error f => s.taskFailed t core f
  | .ok (s', x, ents) =>
    let c := s'.core core
    let n := min fuel (x.steps - t.ksteps)
    let inj := c.lookupFault.map fun y => (y.1, t.ksteps + y.2.2)
    let (acc, k, out) := x.run ents inj n t.ksteps t.acc
    let s' := if inj.isNone then s' else s'.mapCore core fun c => c.passFault (k - t.ksteps) out.meetsFault
    let t' : Task := { t with acc := acc, ksteps := k }
    let s' := s'.mapTask t.part t.tok fun _ => t'
    match out with
    | .done => if finish && x.steps ≤ k then s'.taskWrite t' core acc else s'
    | .hung => s'.mapCore core fun c => { c with hung := some s'.now }
    | .residue kind =>
      let synd := lookupSynd s'.free 0 k kind (x.firstAddition ents k)
      (s'.lookupNoted { e.record 0x41 0 with synd := synd, loc := locWord core 0 0 0 } core kind).leaveEngine t' core fun y => { y with state := .failed, synd := synd }
    | .index code col =>
      let synd := BitVec.ofNat 32 (code % 256 + 256 * (match x.build.n with | 16 => 0 | 64 => 1 | _ => 2) + 1024 * col + 65536 * k)
      s'.leaveEngine t' core fun y => { y with state := .stopped, synd := synd }

end Sys2Proof.Machine
end

