-- ==== Sys2Proof/Machine/Windows.lean ====
section
/-! DEFINITION. Group B, part one: the window and resize engines (R255 to R257): the descriptors, the issue of win, wpool and
crsz, and one output element of each. -/
namespace Sys2Proof.Machine

/-! ### Descriptors -/

/-- The fields of an ELE descriptor (R256). -/
structure Ele where
  ifmt : Nat
  ofmt : Nat
  cin  : Nat
  cout : Nat
  kw   : Nat
  kh   : Nat
  sx   : Nat
  sy   : Nat
  relu : Bool
  avg  : Bool
  iw   : Nat
  ih   : Nat
  px   : Nat
  py   : Nat
  ow   : Nat
  oh   : Nat
  iaddr : W64
  waddr : W64
  oaddr : W64
  ipitch : Nat
  opitch : Nat
  scale : W32

/-- A descriptor read as an ELE descriptor. -/
def ele (ws : List W32) : Ele :=
  { ifmt := bitsAt ws 0 4, ofmt := bitsAt ws 4 4, cin := bitsAt ws 8 3 + 1, cout := bitsAt ws 11 3 + 1, kw := bitsAt ws 14 4 + 1
    kh := bitsAt ws 18 4 + 1, sx := bitsAt ws 22 2 + 1, sy := bitsAt ws 24 2 + 1, relu := bitsAt ws 26 1 = 1
    avg := bitsAt ws 27 1 = 1, iw := bitsAt ws 32 16, ih := bitsAt ws 48 16, px := bitsAt ws 64 4, py := bitsAt ws 68 4
    ow := bitsAt ws 72 16, oh := bitsAt ws 88 16, iaddr := wideAt ws 4, waddr := wideAt ws 6, oaddr := wideAt ws 8
    ipitch := (wordAt ws 10).toNat, opitch := (wordAt ws 11).toNat, scale := wordAt ws 12 }

/-- Whether an ELE descriptor breaks no rule of R256; `pool` for wpool. -/
def eleOk (pool : Bool) (ws : List W32) : Bool :=
  let d := ele ws
  [1, 6, 7].contains d.ifmt && [0, 1, 6, 7].contains d.ofmt && d.kw ≤ 11 && d.kh ≤ 11 && d.px ≤ 10 && d.py ≤ 10 &&
    (if pool then d.cout = d.cin else !d.avg) && bitsAt ws 28 4 = 0 && bitsAt ws 104 24 = 0 && bitsAt ws 416 96 = 0

/-- The fields of a CRU descriptor (R257). -/
structure Cru where
  ifmt : Nat
  ofmt : Nat
  ch   : Nat
  nbox : Nat
  iw   : Nat
  ih   : Nat
  ow   : Nat
  oh   : Nat
  iaddr : W64
  baddr : W64
  oaddr : W64
  ipitch : Nat
  ostride : Nat

/-- A descriptor read as a CRU descriptor. -/
def cru (ws : List W32) : Cru :=
  { ifmt := bitsAt ws 0 4, ofmt := bitsAt ws 4 4, ch := bitsAt ws 8 4 + 1, nbox := bitsAt ws 12 12 + 1, iw := bitsAt ws 32 16
    ih := bitsAt ws 48 16, ow := bitsAt ws 64 8 + 1, oh := bitsAt ws 72 8 + 1, iaddr := wideAt ws 4, baddr := wideAt ws 6
    oaddr := wideAt ws 8, ipitch := (wordAt ws 10).toNat, ostride := (wordAt ws 11).toNat }

/-- Whether a CRU descriptor breaks no rule of R257. -/
def cruOk (ws : List W32) : Bool :=
  [0, 1, 6, 7].contains (bitsAt ws 0 4) && [0, 1, 6, 7].contains (bitsAt ws 4 4) && bitsAt ws 24 8 = 0 && bitsAt ws 80 48 = 0 &&
    bitsAt ws 384 128 = 0

/-- The bytes of an element of a format. -/
def elemBytes (fmt : Nat) : Nat := fmtBits fmt / 8

/-! ### Values -/

/-- A result in its output format (R76 with .sat, R77); an f32 is stored as it is. -/
def windowCode (ofmt : Nat) (x : FVal) : Nat :=
  if ofmt = 0 then (roundVal fmtF32 .ieee 0 x).1
  else if isFloatFmt ofmt then (roundVal (floatFmt ofmt) .sat 0 x).1
  else
    let r := intRange ofmt
    (((match x with
      | .inf s => if s then r.1 else r.2
      | x => (floatToInt 0 r.1 r.2 x).1) : Int) % 2 ^ fmtBits ofmt).toNat

/-- A finished value scaled and converted (R256): an integer format's value in one rounding, a float's by way of f32. -/
def Ele.deliver (d : Ele) (v : FVal) : Nat :=
  let p := (mulVal v (fromF32 d.scale)).1
  if isFloatFmt d.ifmt then windowCode d.ofmt (fromF32 (toF32 0 (p, 0)).1) else windowCode d.ofmt p

/-- RELU (R256): a negative value becomes +0. -/
def Ele.rectify (d : Ele) (v : FVal) : FVal := if d.relu && v.neg && !v.isZero then .zero false else v

/-- An element as an exact value. -/
def elemVal (fmt bits : Nat) : FVal := if isFloatFmt fmt then decodeFloat (floatFmt fmt) bits else intVal (intElem fmt bits)

/-- The sum of some products (R256): exact over integers, and over f16 an f32 with each addition rounded. -/
def Ele.sum (d : Ele) (l : List (Nat × Nat)) : FVal :=
  if isFloatFmt d.ifmt then
    fromF32 (l.foldl (fun a p => addRne a (toF32 0 (mulVal (elemVal d.ifmt p.1) (elemVal d.ifmt p.2))).1) 0)
  else intVal (l.foldl (fun a p => a + intElem d.ifmt p.1 * intElem d.ifmt p.2) 0)

/-- The bias added last (R256): to an f32 sum with rounding. An integer sum and an f32 bias whose sum is no f32 give, freely,
the exact sum or the rounded one. Log entry 25. -/
def Ele.bias (d : Ele) (free tag : Nat) (sum : FVal) (bias : W32) : FVal :=
  let x := (addVal 0 sum (fromF32 bias)).1
  let r := fromF32 (toF32 0 (x, 0)).1
  if isFloatFmt d.ifmt || Config.freeBool free tag then r else x

/-- The value of one wpool output (R256): the maximum of the elements inside the image, or the average of all; with no element
inside, no value is stated, and it is a free value. Log entry 25. -/
def Ele.pooled (d : Ele) (free tag : Nat) (inside : List Nat) : FVal :=
  match inside with
  | [] => elemVal 0 (Config.freeW32 free tag).toNat
  | x :: r =>
    if !d.avg then
      if isFloatFmt d.ifmt then elemVal d.ifmt (r.foldl (fun a b => (minMaxBits fmtF16 true a b).1) x)
      else intVal (r.foldl (fun a b => max a (intElem d.ifmt b)) (intElem d.ifmt x))
    else
      let n : FVal := intVal inside.length
      if isFloatFmt d.ifmt then
        fromF32 (toF32 0 (divVal (fromF32 (inside.foldl (fun a b => addRne a (elemF32 d.ifmt b)) 0)) n)).1
      else
        match (divVal (intVal (inside.foldl (fun a b => a + intElem d.ifmt b) 0)) n).1 with
        | .fin s num den e => intVal (if s then -((roundToInt 0 s num den e).1 : Int) else (roundToInt 0 s num den e).1)
        | v => v

/-! ### Output elements -/

/-- One element read by an engine, as its code. -/
def State.engElem (s : State) (e : Eng) (va : W64) (fmt : Nat) : Except EngFail (State × Nat) := do
  let (s, bs) ← s.engRead e va (elemBytes fmt)
  return (s, bytesNat bs)

/-- The address of an input element; none outside the image (R256). -/
def Ele.input (d : Ele) (x y : Int) (ch : Nat) : Option W64 :=
  if 0 ≤ x ∧ x < d.iw ∧ 0 ≤ y ∧ y < d.ih then
    some (d.iaddr + BitVec.ofInt 64 (y * d.ipitch + (x * d.cin + ch) * elemBytes d.ifmt))
  else none

/-- The address of an output element (R256). -/
def Ele.output (d : Ele) (x y o : Nat) : W64 :=
  d.oaddr + BitVec.ofNat 64 (y * d.opitch + (x * d.cout + o) * elemBytes d.ofmt)

/-- The window places of an output in the order of R256, each channel, row and column of the kernel. -/
def Ele.places (d : Ele) (chs : List Nat) : List (Nat × Nat × Nat) :=
  chs.flatMap fun ch => (List.range d.kh).flatMap fun ky => (List.range d.kw).map fun kx => (ch, ky, kx)

/-- The inputs of some places: none for one outside the image. -/
def State.eleInputs (s : State) (e : Eng) (d : Ele) (x y : Nat) :
    List (Nat × Nat × Nat) → Except EngFail (State × List (Option Nat))
  | [] => .ok (s, [])
  | (ch, ky, kx) :: r => do
    let a := d.input ((x * d.sx + kx : Nat) - (d.px : Int)) ((y * d.sy + ky : Nat) - (d.py : Int)) ch
    let (s, v) ← match a with
      | some va => do let (s, n) ← s.engElem e va d.ifmt; pure (s, some n)
      | none => pure (s, none)
    let (s, vs) ← State.eleInputs s e d x y r
    return (s, v :: vs)

/-- The weights of an output channel, and its bias (R256). -/
def State.eleWeights (s : State) (e : Eng) (d : Ele) (o : Nat) : Except EngFail (State × List Nat × W32) := do
  let k := d.cin * d.kh * d.kw
  let n := elemBytes d.ifmt
  let (s, bs) ← s.engRead e (d.waddr + BitVec.ofNat 64 (o * k * n)) (k * n)
  let (s, bb) ← s.engRead e (d.waddr + BitVec.ofNat 64 (d.cout * k * n + 4 * o)) 4
  return (s, (List.range k).map (fun i => bytesNat ((bs.drop (i * n)).take n)), BitVec.ofNat 32 (bytesNat bb))

/-- One output element of win (R256). -/
def State.winElem (s : State) (e : Eng) (ws : List W32) (x y o : Nat) : Except EngFail State := do
  let d := ele ws
  let (s, ins) ← s.eleInputs e d x y (d.places (List.range d.cin))
  let (s, wts, bias) ← s.eleWeights e d o
  let sum := d.sum ((ins.map fun v => v.getD 0).zip wts)
  let v := d.rectify (d.bias s.free (140737488355328 + (y * 65536 + x) * 8 + o) sum bias)
  s.engWrite e (d.output x y o) (natBytes (elemBytes d.ofmt) (d.deliver v))

/-- One output element of wpool (R256). -/
def State.poolElem (s : State) (e : Eng) (ws : List W32) (x y o : Nat) : Except EngFail State := do
  let d := ele ws
  let (s, ins) ← s.eleInputs e d x y (d.places [o])
  let v := d.rectify (d.pooled s.free (140737488355328 + (y * 65536 + x) * 8 + o) (ins.filterMap id))
  s.engWrite e (d.output x y o) (natBytes (elemBytes d.ofmt) (d.deliver v))

/-- The sample point of an output along one axis (R257), in f32. -/
def samplePoint (x0 x1 : W32) (j n : Nat) : W32 :=
  let half : FVal := .dy false 1 (-1)
  let step := (fpDiv 0 (fpSub 0 x1 x0).1 (intRne n)).1
  let off := (toF32 0 (mulVal (.dy false (2 * j + 1) (-1)) (fromF32 step))).1
  (toF32 0 (addVal 0 (fromF32 (addRne x0 off)) half.negate)).1

/-- ⌊x⌋ of a finite f32 and the exact rest. -/
def floorF32 (x : W32) : Option (Int × FVal) :=
  match fromF32 x with
  | .fin s n d e =>
    let r := (roundToInt 2 s n d e).1
    let l : Int := if s then -(r : Int) else r
    some (l, (addVal 0 (.fin s n d e) (intVal (-l))).1)
  | _ => none

/-- The weighted pair of R257, rounded once: a·(1 − f) + b·f. -/
def blend (f : FVal) (a b : W32) : W32 :=
  let one : FVal := .dy false 1 0
  let p := (mulVal (fromF32 a) (addVal 0 one f.negate).1).1
  let q := (mulVal (fromF32 b) f).1
  (toF32 0 (addVal 0 p q)).1

/-- The value of R257 from the four pixels and the weights. -/
def bilinear (fx fy : FVal) (v00 v01 v10 v11 : W32) : W32 := blend fy (blend fx v00 v01) (blend fx v10 v11)

/-- The address of an image element, its indices clamped to the image (R257). -/
def Cru.pixel (d : Cru) (x y : Int) (c : Nat) : W64 :=
  let cx := max 0 (min x (d.iw - 1))
  let cy := max 0 (min y (d.ih - 1))
  d.iaddr + BitVec.ofInt 64 (cy * d.ipitch + (cx * d.ch + c) * elemBytes d.ifmt)

/-- One output element of crsz (R257). A box with a NaN gives zeros; an infinite coordinate or an image without pixels gives no
stated value, and it is a free value. Log entry 25. -/
def State.cropElem (s : State) (e : Eng) (ws : List W32) (box i j c : Nat) : Except EngFail State := do
  let d := cru ws
  let (s, bs) ← s.engRead e (d.baddr + BitVec.ofNat 64 (16 * box)) 16
  let q := bytesWords bs
  let put (s : State) (code : Nat) : Except EngFail State :=
    s.engWrite e (d.oaddr + BitVec.ofNat 64 (box * d.ostride + ((i * d.ow + j) * d.ch + c) * elemBytes d.ofmt))
      (natBytes (elemBytes d.ofmt) code)
  if q.any fun x => (fromF32 x).isNan then put s 0
  else
    let at_ := (floorF32 (samplePoint (wordAt q 0) (wordAt q 2) j d.ow), floorF32 (samplePoint (wordAt q 1) (wordAt q 3) i d.oh))
    match at_ with
    | (some (xl, fx), some (yl, fy)) =>
      if d.iw = 0 ∨ d.ih = 0 then put s (windowCode d.ofmt (elemVal 0 (Config.freeW32 s.free (281474976710656 + c)).toNat))
      else
        let (s, v00) ← s.engElem e (d.pixel xl yl c) d.ifmt
        let (s, v01) ← s.engElem e (d.pixel (xl + 1) yl c) d.ifmt
        let (s, v10) ← s.engElem e (d.pixel xl (yl + 1) c) d.ifmt
        let (s, v11) ← s.engElem e (d.pixel (xl + 1) (yl + 1) c) d.ifmt
        let f := elemF32 d.ifmt
        put s (windowCode d.ofmt (fromF32 (bilinear fx fy (f v00) (f v01) (f v10) (f v11))))
    | _ => put s (windowCode d.ofmt (elemVal 0 (Config.freeW32 s.free (281474976710656 + ((box * 256 + i) * 256 + j) * 16 + c)).toNat))

/-! ### Issue -/

/-- A lane's descriptor: a load of the lane, 64-byte aligned (R255), rejected where it breaks a rule (R12, R493). -/
def View.descriptor (v : View) (o : Operands) (ok : List W32 → Bool) (lane : Nat) : Stage (List W32) :=
  let va := v.src64 0 o.a lane
  match misaligned 64 [(lane, va)] with
  | some x => .error (v.alignFault x)
  | none => do
    let ps ← v.recordPieces 64 [(lane, va)]
    let v' : View := { v with s := v.touchPieces v.s ps }
    let ws := v'.recordWords ps lane
    if ok ws then return ws
    else .error (v.fatal { v.faultRec lane 0x31 with synd := 5, va := va })

/-- An ELE command of a lane (R255, R256, R212): its ranges are canonical, and its output's pages are noted (R457). -/
def View.eleCmd (v : View) (o : Operands) (pool : Bool) (lane : Nat) : Stage NewCmd := do
  let ws ← v.descriptor o (eleOk pool) lane
  let d := ele ws
  let _ ← v.cmdSide lane false false d.iaddr (d.iw * d.cin * elemBytes d.ifmt) d.ih d.ipitch
  let k := d.cout * d.cin * d.kh * d.kw * elemBytes d.ifmt + 4 * d.cout
  if !pool then v.cmdGlobal lane d.waddr k
  let out ← v.cmdSide lane false true d.oaddr (d.ow * d.cout * elemBytes d.ofmt) d.oh d.opitch
  return ⟨lane, if pool then .wpool ws else .win ws, [], out.2, false⟩

/-- A CRU command of a lane (R255, R257, R212). -/
def View.cruCmd (v : View) (o : Operands) (lane : Nat) : Stage NewCmd := do
  let ws ← v.descriptor o cruOk lane
  let d := cru ws
  let _ ← v.cmdSide lane false false d.iaddr (d.iw * d.ch * elemBytes d.ifmt) d.ih d.ipitch
  v.cmdGlobal lane d.baddr (16 * d.nbox)
  let out ← v.cmdSide lane false true d.oaddr (d.ow * d.oh * d.ch * elemBytes d.ofmt) d.nbox d.ostride
  return ⟨lane, .crsz ws, [], out.2, false⟩

/-- win (R255, R256). -/
def execWin (o : Operands) (s : State) : Host.Outcome State Fault Refusal :=
  withIssue s fun v => v.issueCmds o (v.eleCmd o false)

/-- wpool (R255, R256). -/
def execWpool (o : Operands) (s : State) : Host.Outcome State Fault Refusal :=
  withIssue s fun v => v.issueCmds o (v.eleCmd o true)

/-- crsz (R255, R257). -/
def execCrsz (o : Operands) (s : State) : Host.Outcome State Fault Refusal :=
  withIssue s fun v => v.issueCmds o (v.cruCmd o)

end Sys2Proof.Machine
end

