-- ==== Sys2Proof/Machine/Commands.lean ====
section
/-! DEFINITION. What an asynchronous command does as it runs (R109, R111, R112, R212 to R215, R256, R257): its elements in order,
its stop on a page that is not resident, its death, and its retirement. -/
namespace Sys2Proof.Machine

/-- A place a command reads or writes: bytes of a block's scratchpad, or a virtual address. -/
inductive Place where
  | scr (blk off : Nat)
  | glob (va : W64)
  deriving DecidableEq, Repr

/-- One element of a command: a run of bytes moved to some places or filled with zeros, a gathered row (R214), an overlapping
scratchpad copy made of byte pairs, or an output element of a window or resize command. -/
inductive Elem where
  | move (dsts : List Place) (src : Option Place) (len : Nat)
  | gather (j : Nat)
  | mixed (pairs : List (Place × Place))
  | win (x y o : Nat)
  | pool (x y o : Nat)
  | crop (box i j c : Nat)
  deriving DecidableEq, Repr

/-- The engine of a command's run (R415: AGENT 0 for the tile unit, 1 a copy engine, 4 an ELE or CRU). -/
def Cmd.eng (c : Cmd) : Eng :=
  let agent := match c.op with
    | .ldt _ _ _ _ | .stt _ _ _ _ => 0
    | .win _ | .wpool _ | .crsz _ => 4
    | _ => 1
  { ctx := c.ctx, core := some c.core, agent := agent, since := c.stamp, rel := c.rel, loc := c.loc, pc := c.pc, info := c.token.setWidth 64 }

/-- A place at an offset. -/
def Place.add : Place → Nat → Place
  | .scr b o, k => .scr b (o + k)
  | .glob va, k => .glob (va + BitVec.ofNat 64 k)

/-- The bytes from a place to the end of its page; a scratchpad place has no pages. -/
def Place.room : Place → Nat
  | .scr _ _ => 4096
  | .glob va => 4096 - va.toNat % 4096

/-- A run of bytes moved, cut where either side meets a page; `fuel` bounds the parts. -/
def moveParts (dst src : Place) (n : Nat) : Nat → List Elem
  | 0 => []
  | fuel + 1 =>
    if n = 0 then [] else
      let k := min n (min dst.room src.room)
      .move [dst] (some src) k :: moveParts (dst.add k) (src.add k) (n - k) fuel

/-- The parts of a run. -/
def moveRun (dst src : Place) (n : Nat) : List Elem := moveParts dst src n (n / 2048 + 4)

/-- The scratchpad place a command's address names (R202). -/
def State.cmdScr (s : State) (c : Cmd) (addr n : Nat) : Option Place :=
  (s.scrTarget (s.blockOf c.blk) addr n).map fun x => .scr x.1.key x.2

/-- One side of a copy. -/
def State.cmdPlace (s : State) (c : Cmd) (scr : Bool) (a : W64) (n : Nat) : Option Place :=
  if scr then s.cmdScr c (a.toNat % 2 ^ 32) n else some (.glob a)

/-- Whether two places and lengths share a byte. -/
def Place.meets (a : Place) (n : Nat) (b : Place) (k : Nat) : Bool :=
  match a, b with
  | .scr x i, .scr y j => x = y && overlaps i n j k
  | .glob x, .glob y => wideOverlap x n y k
  | _, _ => false

/-- The rows of a copy. Where source and destination overlap, each byte of the destination takes its source byte's value from
before or after the command (R214): the bytes are moved one by one, upwards or downwards, and each read takes an older or the
present value. Log entry 26. -/
def Cmd.rows (c : Cmd) (dst src : Place) (w h pd ps : Nat) : List Elem :=
  let rows := (List.range h).map fun r => (dst.add (r * pd), src.add (r * ps))
  if dst.meets ((h - 1) * pd + w) src ((h - 1) * ps + w) then
    let bytes := rows.flatMap fun x => (List.range w).map fun i => (x.1.add i, x.2.add i)
    let bytes := if Config.freeBool c.stamp (562949953421312 + c.token.toNat) then bytes.reverse else bytes
    match dst with
    | .scr _ _ => [.mixed bytes]
    | .glob _ => bytes.map fun x => .move [x.1] (some x.2) 1
  else rows.flatMap fun x => moveRun x.1 x.2 w

/-- The elements of a copy with both sides' places. -/
def State.copyElems (s : State) (c : Cmd) (ds ss : Bool) (a b : W64) (w h pd ps : Nat) : List Elem :=
  match s.cmdPlace c ds a ((h - 1) * pd + w), s.cmdPlace c ss b ((h - 1) * ps + w) with
  | some dst, some src => c.rows dst src w h pd ps
  | _, _ => []

/-- The elements of a tile move (R215). -/
def State.tileElems (s : State) (c : Cmd) (store : Bool) (ws : List W32) (off tx ty : Nat) : List Elem :=
  let t := tileRec ws
  match s.cmdScr c off (t.tw * t.th * t.e) with
  | none => []
  | some base =>
    (List.range t.th).flatMap fun r => (List.range t.tw).flatMap fun k =>
      let here := base.add ((r * t.tw + k) * t.e)
      match t.elem tx ty r k with
      | some va => if store then moveRun (.glob va) here t.e else moveRun here (.glob va) t.e
      | none => if store then [] else [.move [here] none t.e]

/-- The elements of coll (R214): each part of the source is read once and sent to every target. -/
def State.collElems (s : State) (c : Cmd) (src : W64) (off n mask : Nat) : List Elem :=
  let size := s.clusterSize (s.blockOf c.blk)
  let dsts := ((List.range size).filter mask.testBit).filterMap fun q =>
    s.cmdScr c (off % 2 ^ 24 + q * 2 ^ 24 + 2 ^ 27 + off / 2 ^ 28 * 2 ^ 28) n
  (accessParts src n).map fun p => .move (dsts.map fun d => d.add p.2.1) (some (.glob p.1)) p.2.2

/-- The output elements of an ELE command. -/
def Ele.outputs (d : Ele) (f : Nat → Nat → Nat → Elem) : List Elem :=
  (List.range d.oh).flatMap fun y => (List.range d.ow).flatMap fun x => (List.range d.cout).map fun o => f x y o

/-- The elements of a command, in the order in which the model performs them. -/
def State.cmdElems (s : State) (c : Cmd) : List Elem :=
  match c.op with
  | .cpy ds ss dst src len => s.copyElems c ds ss dst src len 1 0 0
  | .cpy2d ds ss dst src w h pd ps => s.copyElems c ds ss dst src w h pd ps
  | .cpyg _ _ _ _ _ n _ => (List.range n).map .gather
  | .coll src off n mask => s.collElems c src off n mask
  | .ldt ws off tx ty => s.tileElems c false ws off tx ty
  | .stt ws off tx ty => s.tileElems c true ws off tx ty
  | .win ws => (ele ws).outputs .win
  | .wpool ws => (ele ws).outputs .pool
  | .crsz ws =>
    let d := cru ws
    (List.range d.nbox).flatMap fun b => (List.range d.oh).flatMap fun i => (List.range d.ow).flatMap fun j =>
      (List.range d.ch).map fun ch => .crop b i j ch

/-- The bytes at a place. -/
def State.readPlace (s : State) (e : Eng) (p : Place) (n : Nat) : Except EngFail (State × List Byte) :=
  match p with
  | .scr b o => .ok (s, (s.blockOf b).scratch.readRun o n)
  | .glob va => s.engRead e va n

/-- Bytes written to a place. -/
def State.writePlace (s : State) (e : Eng) (p : Place) (bs : List Byte) : Except EngFail State :=
  match p with
  | .scr b o => .ok (s.scrWrite b o bs)
  | .glob va => s.engWrite e va bs

/-- One gathered row of cpyg (R214); an index beyond the extent of a buffer without the robust bit kills the command. -/
def State.gatherElem (s : State) (e : Eng) (c : Cmd) (a : Nat) (base : W64) (ext : Nat) (robust : Bool) (list : W64) (j el n : Nat) :
    Except EngFail State := do
  let (s, bs) ← s.engRead e (list + BitVec.ofNat 64 (4 * j)) 4
  let x := bytesNat bs
  let src := base + BitVec.ofNat 64 (x * el)
  match s.cmdScr c a (n * el) with
  | none => return s
  | some d =>
    if x * el + el ≤ ext then
      let (s, bs) ← s.engRead e src el
      s.writePlace e (d.add (j * el)) bs
    else if robust then s.writePlace e (d.add (j * el)) (List.replicate el 0)
    else .error (.kill 0x29 src 0)

/-- The byte at a scratchpad place. -/
def State.scrByte (s : State) : Place → Byte
  | .scr b o => (s.blockOf b).scratch.read o
  | .glob _ => 0

/-- One byte of an overlapping scratchpad copy: its source's value before the command, in `s0`, or now. -/
def State.mixByte (s0 s : State) (tag : Nat) (x : Place × Place) : State :=
  let b := if Config.freeBool s0.free tag then s0.scrByte x.2 else s.scrByte x.2
  match x.1 with
  | .scr blk o => s.scrWrite blk o [b]
  | .glob _ => s

/-- One element performed. -/
def State.runElem (s : State) (e : Eng) (c : Cmd) (x : Elem) : Except EngFail State :=
  match x with
  | .move dsts src n => do
    let (s, bs) ← match src with
      | some p => s.readPlace e p n
      | none => pure (s, List.replicate n 0)
    dsts.foldlM (fun s d => s.writePlace e d bs) s
  | .gather j =>
    match c.op with
    | .cpyg a base ext robust list n el => s.gatherElem e c a base ext robust list j el n
    | _ => .ok s
  | .mixed pairs => .ok ((pairs.mapIdx fun i p => (562949953421313 + i, p)).foldl (fun t p => s.mixByte t p.1 p.2) s)
  | .win px y o => match c.op with
    | .win ws => s.winElem e ws px y o
    | _ => .ok s
  | .pool px y o => match c.op with
    | .wpool ws => s.poolElem e ws px y o
    | _ => .ok s
  | .crop b i j ch => match c.op with
    | .crsz ws => s.cropElem e ws b i j ch
    | _ => .ok s

/-- Some elements performed one after another: the state, how many were, and what stopped them. -/
def State.runElems (s : State) (e : Eng) (c : Cmd) : List Elem → Nat → State × Nat × Option EngFail
  | [], k => (s, k, none)
  | x :: r, k =>
    match s.runElem e c x with
    | .ok s => State.runElems s e c r (k + 1)
    | .error f => (s, k, some f)

/-- Whether a command is the one of a block's token. -/
def Cmd.is (c : Cmd) (blk : Nat) (tok : W32) : Bool := c.blk = blk && c.token = tok

/-- A command changed. -/
def State.mapCmd (s : State) (c : Cmd) (f : Cmd → Cmd) : State := { s with cmds := updateWhere (·.is c.blk c.token) f s.cmds }

/-- A command leaves flight: with its release signalled (R112), or killed, without it (R212). -/
def State.dropCmd (s : State) (c : Cmd) (released : Bool) : State :=
  let s : State := { s with cmds := s.cmds.filter fun x => !x.is c.blk c.token }
  if released then s.mapBlock c.blk fun b => { b with retired := b.retired ++ [⟨c.token, c.ranges⟩] } else s

/-- What stopped a command (R212): a record it waits for, or its death with a "command killed" record. -/
def State.cmdFailed (s : State) (c : Cmd) (k : Nat) (f : EngFail) : State :=
  match s.engStopped c.part c.eng f with
  | (s, some w) => s.mapCmd c fun x => { x with step := k, wait := w }
  | (s, none) =>
    let r := match f with
      | .kill kind va _ => { c.eng.record 0x3C va with synd := BitVec.ofNat 32 kind }
      | _ => c.eng.record 0x3C 0
    (s.dropCmd c false).notice c.ctx r

/-- A command makes progress by at most `fuel` elements, and retires when `retire` and none is left (R212). -/
def State.runCmd (s : State) (c : Cmd) (fuel : Option Nat) : State :=
  let l := (s.cmdElems c).drop c.step
  let go := match fuel with
    | some n => l.take n
    | none => l
  match s.runElems c.eng c go c.step with
  | (s, k, some f) => s.cmdFailed c k f
  | (s, k, none) => if fuel.isNone then s.dropCmd c c.rel else s.mapCmd c fun x => { x with step := k }

/-- The command at a place of those in flight, when it does not wait for a replayable record and its block's state is on its
core (R387). -/
def State.readyCmd (s : State) (n : Nat) : Option Cmd :=
  s.cmds[n]?.filter fun c => c.wait.isNone && !(s.block? c.blk).any (·.out) && !c.ranges.any fun r => (s.block? r.blk).any (·.out)

/-- ENGINE_COMMAND_RETIRE (R212). -/
def execEngineCommandRetire (n : Nat) (s : State) : Host.Outcome State Fault Refusal :=
  match s.readyCmd n with
  | some c => .next (s.runCmd c none)
  | none => .next s

end Sys2Proof.Machine
end

