-- ==== Sys2Proof/Machine/Layers.lean ====
section
/-! DEFINITION. The records of draws and layers (R429, R434): their fields, the renderings of a frame (R435, R437), and the cores
and GT-dies that they use. -/
namespace Sys2Proof.Machine

/-! ### Pipes and layers -/

/-- A display pipe. -/
def State.pipe (s : State) (k : Nat) : Pipe := s.display.pipes.getD k .reset

/-- A pipe changed. -/
def State.mapPipe (s : State) (k : Nat) (f : Pipe → Pipe) : State :=
  { s with display := { s.display with pipes := updateAt s.display.pipes k f } }

/-- A layer of a pipe. -/
def Pipe.layer? (p : Pipe) (n : Nat) : Option Layer := p.layers.find? fun l => l.n = n

/-- A layer of a pipe changed. -/
def State.mapLayer (s : State) (k n : Nat) (f : Layer → Layer) : State :=
  s.mapPipe k fun p => { p with layers := updateWhere (·.n = n) f p.layers }

/-- The GT-die of a rendering (R434): GTA for rendering A, the other for rendering B. -/
def Layer.gtDie (l : Layer) (rend : Nat) : Nat := (bitsAt l.words 18 1 + rend) % 2
/-- EN (R434). -/
def Layer.en (l : Layer) : Bool := bitsAt l.words 0 1 = 1
/-- LEVEL. -/
def Layer.level (l : Layer) : Nat := bitsAt l.words 1 2
/-- SRC: the camera direct path. -/
def Layer.camera (l : Layer) : Bool := bitsAt l.words 3 1 = 1
/-- FMT. -/
def Layer.fmt (l : Layer) : Nat := bitsAt l.words 4 2
/-- CAM. -/
def Layer.port (l : Layer) : Nat := bitsAt l.words 6 4
/-- GROUPA or GROUPB. -/
def Layer.group (l : Layer) (rend : Nat) : Nat := bitsAt l.words (if rend = 0 then 10 else 14) 4
/-- HPART. -/
def Layer.hpart (l : Layer) : Nat := bitsAt l.words 19 4
/-- The home partition of its planes and arrays (R300, R434). -/
def Layer.home (l : Layer) : Option Nat := if l.hpart < 8 then some l.hpart else none
/-- X. -/
def Layer.x (l : Layer) : Nat := bitsAt l.words 32 16
/-- Y. -/
def Layer.y (l : Layer) : Nat := bitsAt l.words 48 16
/-- W. -/
def Layer.w (l : Layer) : Nat := bitsAt l.words 64 16
/-- H. -/
def Layer.h (l : Layer) : Nat := bitsAt l.words 80 16
/-- OFFSET in µs. -/
def Layer.offset (l : Layer) : Nat := if bitsAt l.words 96 16 = 0 then 1500 else bitsAt l.words 96 16
/-- FRESH in ms. -/
def Layer.fresh (l : Layer) : Nat := if bitsAt l.words 112 16 = 0 then 100 else bitsAt l.words 112 16
/-- PLANEA or PLANEB. -/
def Layer.plane (l : Layer) (rend : Nat) : Nat := (wideAt l.words (if rend = 0 then 4 else 6)).toNat
/-- SIGA or SIGB. -/
def Layer.sig (l : Layer) (rend : Nat) : Nat := (wideAt l.words (if rend = 0 then 8 else 10)).toNat
/-- PITCH. -/
def Layer.pitch (l : Layer) : Nat := (wordAt l.words 12).toNat
/-- A layer whose two renderings are compared (R435): LEVEL 2 or 3, from memory. -/
def Layer.safety (l : Layer) : Bool := l.en && 2 ≤ l.level && !l.camera

/-- The eight cores of a group, as a set. -/
def groupMask (g : Nat) : BitVec 96 := 0xFF#96 <<< (8 * g)

/-- Whether a partition's core set holds a group (R434). -/
def Partition.holds (p : Partition) (g : Nat) : Bool := g < 12 && p.layout.cores &&& groupMask g = groupMask g

/-- Whether a partition is a rendering partition of a layer (R434). -/
def State.rendersFor (s : State) (l : Layer) (p : Nat) : Bool :=
  if l.hpart < 8 then p = l.hpart
  else (s.part p).layout.valid && (s.part p).holds (l.group 0) && (s.part p).holds (l.group 1)

/-! ### Renderings -/

/-- A rendering of a frame (R435); one of which nothing is known yet. -/
def Layer.rend (l : Layer) (frame : W32) (rend : Nat) : Rendering :=
  (l.rends.find? fun r => r.frame = frame && r.rend = rend).getD ⟨frame, rend, none, false, false, false⟩

/-- A rendering changed. -/
def Layer.mapRend (l : Layer) (frame : W32) (rend : Nat) (f : Rendering → Rendering) : Layer :=
  let keep := l.rends.filter fun r => !(r.frame = frame && r.rend = rend)
  { l with rends := f (l.rend frame rend) :: keep }

/-- Whether a rendering has written its array and counts as completed (R437). -/
def Rendering.complete (r : Rendering) : Bool := r.signed && !r.void

/-! ### Draws -/

/-- A draw changed. -/
def State.mapDraw (s : State) (key : Nat) (f : Draw → Draw) : State :=
  { s with display := { s.display with draws := updateWhere (·.key = key) f s.display.draws } }

/-- The draw with a key. -/
def State.draw? (s : State) (key : Nat) : Option Draw := s.display.draws.find? fun d => d.key = key

/-- VCOUNT (R429). -/
def Draw.vcount (d : Draw) : Nat := (wordAt d.words 4).toNat
/-- CULL. -/
def Draw.cull (d : Draw) : Bool := bitsAt d.words 160 1 = 1
/-- END. -/
def Draw.isLast (d : Draw) : Bool := bitsAt d.words 161 1 = 1
/-- TAGGED. -/
def Draw.tagged (d : Draw) : Bool := bitsAt d.words 162 1 = 1
/-- PIPE. -/
def Draw.pipe (d : Draw) : Nat := bitsAt d.words 163 3
/-- LAYER. -/
def Draw.layer (d : Draw) : Nat := bitsAt d.words 166 3
/-- REND. -/
def Draw.rend (d : Draw) : Nat := bitsAt d.words 169 1
/-- Whether its tiles are taken column by column (R430). -/
def Draw.byColumns (d : Draw) : Bool := if d.tagged then d.rend = 1 else bitsAt d.words 170 1 = 1
/-- FRAME. -/
def Draw.frame (d : Draw) : W32 := wordAt d.words 6
/-- VIEW: x0, y0, width and height. -/
def Draw.view (d : Draw) : Nat × Nat × Nat × Nat :=
  (bitsAt d.words 320 16, bitsAt d.words 336 16, bitsAt d.words 352 16, bitsAt d.words 368 16)

/-- The layer that a tagged draw names, if it is configured. -/
def State.drawLayer (s : State) (d : Draw) : Option Layer := if d.tagged then (s.pipe d.pipe).layer? d.layer else none

/-- The rendering of a tagged draw changed. -/
def State.mapDrawRend (s : State) (d : Draw) (f : Rendering → Rendering) : State :=
  if d.tagged then s.mapLayer d.pipe d.layer fun l => l.mapRend d.frame d.rend f else s

/-- The rendering of a tagged draw counts as not completed (R429, R435, R442, R485). -/
def State.voidRend (s : State) (d : Draw) : State := s.mapDrawRend d fun r => { r with void := true }

/-- The first draw of a rendering has started, or has been passed over (R435). -/
def State.beginRend (s : State) (d : Draw) : State := s.mapDrawRend d fun r => { r with first := some (r.first.getD s.now) }

/-- A block of a draw has been stopped: its rendering has missed its deadline (R442). -/
def State.drawStopped (s : State) (kind : BlockKind) : State :=
  match kind with
  | .vertex k => ((s.draw? k).map s.voidRend).getD s
  | .pixel k => ((s.draw? k).map s.voidRend).getD s
  | _ => s

/-- The GT-die to which R435 binds a draw: that of its rendering, for a safety layer. -/
def State.boundDie (s : State) (d : Draw) : Option Nat :=
  ((s.drawLayer d).filter Layer.safety).map fun l => l.gtDie d.rend

/-- The GT-die on which a draw is assembled and rasterised; for one that R435 does not bind the manual names none (log entry 142). -/
def State.drawDie (s : State) (d : Draw) : Nat := (s.boundDie d).getD (Config.freeIndex d.key 66740 2)

/-- Whether a queue between the dies takes another record (R42, R431): it holds fewer than its hardware depth, or its overflow ring
in the partition's render area, whose share of that area is not said, has room. -/
def State.queueRoom (s : State) (p depth tag held : Nat) : Bool :=
  held < depth || ((s.part p).render.rsize ≠ 0 && Config.freeBool s.free tag)

/-- The cores of a draw (R435): those of its rendering's group for a safety layer. -/
def State.drawCores (s : State) (d : Draw) : BitVec 96 :=
  match s.drawLayer d with
  | some l => if l.safety then groupMask (l.group d.rend) else BitVec.allOnes 96
  | none => BitVec.allOnes 96

end Sys2Proof.Machine
end

