-- ==== Sys2Proof/Machine/Micro.lean ====
section
/-! DEFINITION. The control store (R419 to R423): f32 arithmetic of the sequencers, the fields of a micro-word, which words MCODE_LOAD
accepts, the micro-ops, and the items of the sequencers that do not traverse. -/
namespace Sys2Proof.Machine

/-! ### Arithmetic -/

/-- Whether two f32 values compare so (R420): never for a NaN. -/
def fpRel (p : Int → Bool) (a b : W32) : Bool :=
  let x := fromF32 a
  let y := fromF32 b
  !x.isNan && !y.isNan && p (cmpVal x y)

/-- a ≤ b. -/
def fpLe (a b : W32) : Bool := fpRel (fun c => c ≤ 0) a b
/-- a < b. -/
def fpLt (a b : W32) : Bool := fpRel (fun c => c < 0) a b
/-- a = b. -/
def fpEq (a b : W32) : Bool := fpRel (fun c => c = 0) a b
/-- a − b, rounded to nearest even. -/
def subRne (a b : W32) : W32 := (fpSub 0 a b).1
/-- a × b + c, rounded once. -/
def fmaRne (a b c : W32) : W32 := (fpFma 0 a b c).1
/-- a ÷ b. -/
def divRne (a b : W32) : W32 := (fpDiv 0 a b).1
/-- minimumNumber (R73). -/
def minNum (a b : W32) : W32 := (fpMin a b).1
/-- maximumNumber (R73). -/
def maxNum (a b : W32) : W32 := (fpMax a b).1
/-- An f32 with its sign turned. -/
def negF32 (a : W32) : W32 := a ^^^ 0x80000000

/-! ### Micro-words -/

/-- OP (R419). -/
def mwOp (w : W64) : Nat := (w.extractLsb' 0 5).toNat
/-- D. -/
def mwD (w : W64) : Nat := (w.extractLsb' 5 4).toNat
/-- A. -/
def mwA (w : W64) : Nat := (w.extractLsb' 9 4).toNat
/-- B. -/
def mwB (w : W64) : Nat := (w.extractLsb' 13 4).toNat
/-- C. -/
def mwC (w : W64) : Nat := (w.extractLsb' 17 3).toNat
/-- TGT. -/
def mwTgt (w : W64) : Nat := (w.extractLsb' 20 12).toNat
/-- IMM. -/
def mwImm (w : W64) : W32 := w.extractLsb' 32 32

/-- What a micro-op uses (R421): the kinds that enable it (geometry, rasteriser, traversal, texture), whether it uses D, A, B,
TGT and IMM, and how many values of C it has, 0 when it uses none. -/
structure MicroUse where
  kinds : List Nat
  d     : Bool
  a     : Bool
  b     : Bool
  c     : Nat
  tgt   : Bool
  imm   : Bool
  deriving DecidableEq, Repr

/-- The micro-ops (R421); the traversal form of LDF and LDH takes its address from NB. -/
def microUse (kind : Nat) : Nat → Option MicroUse
  | 0 => some ⟨[0, 1, 2, 3], false, false, false, 0, false, false⟩
  | 1 => some ⟨[0, 1, 2, 3], true, kind ≠ 2, kind ≠ 2, 0, false, true⟩
  | 2 => some ⟨[0, 1, 2, 3], true, kind ≠ 2, kind ≠ 2, 0, false, true⟩
  | 3 => some ⟨[0, 1, 2, 3], true, true, false, 0, false, true⟩
  | 4 => some ⟨[0, 1, 2, 3], true, false, false, 0, false, true⟩
  | 5 => some ⟨[0, 1, 2, 3], true, true, true, 0, false, false⟩
  | 6 => some ⟨[0, 1, 2, 3], true, true, true, 0, false, false⟩
  | 7 => some ⟨[0, 1, 2, 3], true, true, true, 0, false, false⟩
  | 8 => some ⟨[0, 1, 2, 3], true, true, true, 0, false, true⟩
  | 9 => some ⟨[0, 1, 2, 3], false, true, true, 6, false, false⟩
  | 10 => some ⟨[0, 1, 2, 3], true, true, true, 0, false, false⟩
  | 11 => some ⟨[0, 1, 2, 3], true, true, true, 0, false, false⟩
  | 12 => some ⟨[2], true, false, false, 8, false, false⟩
  | 13 => some ⟨[2], false, true, true, 0, false, false⟩
  | 14 => some ⟨[2], false, true, false, 0, false, false⟩
  | 15 => some ⟨[2], true, false, false, 0, false, false⟩
  | 16 => some ⟨[2], false, false, false, 0, false, false⟩
  | 17 => some ⟨[2], false, false, false, 4, false, false⟩
  | 18 => some ⟨[0, 1, 3], false, false, false, 3, false, false⟩
  | 19 => some ⟨[0, 1, 2, 3], false, false, false, 3, true, false⟩
  | 20 => some ⟨[2], false, false, false, 0, true, false⟩
  | 21 => some ⟨[2], false, true, false, 0, false, false⟩
  | 22 => some ⟨[2], false, true, true, 0, false, false⟩
  | 23 => some ⟨[2], false, false, false, 0, false, false⟩
  | 24 => some ⟨[0, 1, 2, 3], true, false, false, 0, false, true⟩
  | 25 => some ⟨[0, 1, 2, 3], true, true, true, 3, false, false⟩
  | 26 => some ⟨[0, 1, 2, 3], true, true, false, 0, false, false⟩
  | 27 => some ⟨[0, 1, 2, 3], false, false, false, 0, false, false⟩
  | _ => none

/-- Whether MCODE_LOAD accepts a word of a kind in an image of `n` words (R423). -/
def microWordOk (kind n : Nat) (w : W64) : Bool :=
  match microUse kind (mwOp w) with
  | none => false
  | some u =>
    u.kinds.contains kind && (u.d || mwD w = 0) && (u.a || mwA w = 0) && (u.b || mwB w = 0) && (if u.c = 0 then mwC w = 0 else mwC w < u.c) &&
      (if u.tgt then mwTgt w < n else mwTgt w = 0) && (u.imm || mwImm w = 0)

/-- The word at a micro-address. What the store holds beyond an image is not said: a free word (log entry 48). -/
def fetchMicro (free : Nat) (image : List W64) (upc : Nat) : W64 := (image[upc]?).getD (Config.free free (66600 + upc))

/-! ### Registers -/

/-- A working register of an item. -/
def wreg (ws : List W32) (k : Nat) : W32 := ws.getD k 0

/-- The value that a micro-op gives its destination from registers alone (R421); none for every other micro-op. -/
def microValue (w : W64) (ws : List W32) : Option W32 :=
  let a := wreg ws (mwA w)
  let b := wreg ws (mwB w)
  let imm := mwImm w
  match mwOp w with
  | 3 => some ((a >>> (imm.toNat % 32)) &&& BitVec.ofNat 32 (2 ^ (imm.toNat / 32 % 32) - 1))
  | 4 => some imm
  | 5 => some (addRne a b)
  | 6 => some (mulRne a b)
  | 7 => some (fmaRne a b (wreg ws (mwD w)))
  | 8 => some (a + b + imm)
  | 10 => some (minNum a b)
  | 11 => some (maxNum a b)
  | 25 => some (match mwC w with | 0 => a &&& b | 1 => a ||| b | _ => a ^^^ b)
  | 26 => some (divRne 0x3F800000 a)
  | _ => none

/-- CMP (R421). Whether its integer order is signed is not said: where that matters F is free (log entry 49). -/
def microCompare (free c : Nat) (a b : W32) : Bool :=
  match c with
  | 0 => fpLt a b
  | 1 => fpLe a b
  | 2 => fpEq a b
  | 3 => !fpEq a b
  | 4 => if a.slt b = a.ult b then a.ult b else Config.freeBool free 66601
  | _ => a = b

/-- Whether BR goes to its target. -/
def microTaken (w : W64) (f : Bool) : Bool :=
  match mwC w with
  | 0 => true
  | 1 => f
  | _ => !f

/-- The address wA:wB. -/
def microAddr (w : W64) (ws : List W32) : W64 := wreg ws (mwA w) ++ wreg ws (mwB w)

/-! ### Items -/

/-- The microcode that a context runs on the sequencers of a kind in place of the standard one (R423). -/
def State.ownMicrocode (s : State) (ctx kind : Nat) : Option (List W64) :=
  (((s.ctxOf ctx).mcode.find? fun m => m.1 = kind).map (·.2)).filter fun image => image ≠ Config.shippedImage kind

/-- A geometry sequencer at work for a partition's ring. Its AGENT is 3 or 6 (R422). -/
def State.ringEng (s : State) (ctx : Nat) : Eng :=
  { ctx := ctx, core := none, agent := if Config.freeBool s.free 66720 then 3 else 6, since := s.free, rel := true, loc := 0, pc := 0, info := 0 }

/-- The state of an item of a sequencer that is not a traversal sequencer (R420): `input` numbers its input record within the step,
and `emits` holds the kinds of the records it has emitted, each with the working registers at that moment. -/
structure Item where
  upc   : Nat
  ws    : List W32
  f     : Bool
  input : Nat
  emits : List (Nat × List W32)

/-- An item at its start (R420). -/
def Item.start (input : Nat) : Item := ⟨0, List.replicate 16 0, false, input, []⟩

/-- How an item ends. -/
inductive ItemEnd where
  | done (i : Item)
  | fault (f : EngFail)
  | limit

/-- One micro-op of such an item (R421), and whether it goes on: not after HALT. What LDREC reads is internal (R431), and free. -/
def Item.step (i : Item) (s : State) (e : Eng) (w : W64) : Except EngFail (State × Item × Bool) :=
  let set (k : Nat) (v : W32) : Item := { i with ws := i.ws.set k v }
  let load (n : Nat) (f : Nat → W32) : Except EngFail (State × Item × Bool) :=
    (s.engRead e (microAddr w i.ws + (mwImm w).setWidth 64) n).map fun x => (x.1, set (mwD w) (f (bytesNat x.2)), true)
  match mwOp w with
  | 1 => load 4 fun x => BitVec.ofNat 32 x
  | 2 => load 2 (elemF32 1)
  | 9 => .ok (s, { i with f := microCompare s.free (mwC w) (wreg i.ws (mwA w)) (wreg i.ws (mwB w)) }, true)
  | 18 => .ok (s, { i with emits := i.emits ++ [(mwC w, i.ws)] }, true)
  | 19 => .ok (s, if microTaken w i.f then { i with upc := mwTgt w } else i, true)
  | 24 => .ok (s, set (mwD w) (Config.freeW32 s.free (4611686018427387904 + 16 * i.input + (mwImm w).toNat % 16)), true)
  | 27 => .ok (s, i, false)
  | _ => .ok (s, (microValue w i.ws).elim i (set (mwD w)), true)

/-- An item run to its end (R420, R422); `fuel` counts its micro-ops. -/
def Item.run (i : Item) (s : State) (e : Eng) (image : List W64) : Nat → State × ItemEnd
  | 0 => (s, .limit)
  | fuel + 1 =>
    match ({ i with upc := (i.upc + 1) % 4096 } : Item).step s e (fetchMicro s.free image i.upc) with
    | .error f => (s, .fault f)
    | .ok (s, i, false) => (s, .done i)
    | .ok (s, i, true) => i.run s e image fuel

end Sys2Proof.Machine
end

