-- ==== Sys2Proof/Machine/Rays.lean ====
section
/-! DEFINITION. Group B, part two: rays and hits at the core (R258 to R260, R317, R330 to R332): trace, traceq, hitrep, rqpop. -/
namespace Sys2Proof.Machine

/-! ### Rays -/

/-- RAYST of a launch (R37). -/
def Launch.rayst (l : Launch) : W64 := wideAt l.words 12

/-- A launch's ray that its record still stands for. -/
def State.ray? (s : State) (launch : Nat) (id : W32) : Option Ray := s.rays.find? fun r => r.launch = launch && r.id = id

/-- A ray changed. -/
def State.mapRay (s : State) (launch : Nat) (id : W32) (f : Ray → Ray) : State :=
  { s with rays := updateWhere (fun r => r.launch = launch && r.id = id) f s.rays }

/-- Whether a ray has ended (R258). -/
def Ray.isOver (r : Ray) : Bool := r.state = .complete || r.state = .killed

/-- Whether a scene record breaks no rule of R283. -/
def sceneOk (ws : List W32) : Bool := bitsAt ws 79 177 = 0

/-- The stage fault of a lane (R258, R262). -/
def View.stageFault (v : View) (lane : Nat) : State := v.fatal (v.faultRec lane 0x2D)

/-- The number of ray-state records of the launch (R258, R317): read once, as a load of a lane. -/
def View.rayCount (v : View) (lane : Nat) : Stage (View × Nat) :=
  match v.launch.rayCount with
  | some c => .ok (v, c)
  | none => do
    let (v, bs) ← v.readGlobal lane v.launch.rayst 4
    let c := bytesNat bs.toList
    return ({ v with s := v.s.mapLaunch v.w.launch fun l => { l with rayCount := some c } }, c)

/-- The draw whose thread sent the rays of a launch, if it was one. -/
def State.rayDraw (s : State) (launch : Nat) : Option Draw := (s.launchOf launch).draw.bind s.draw?

/-- The GT-die whose queue takes a ray: that of its rendering (R435), else one that the manual does not name (log entry 142). -/
def State.rayDie (s : State) (launch : Nat) (id : W32) : Nat :=
  ((s.rayDraw launch).bind s.boundDie).getD (Config.freeIndex launch (66741 + 8 * id.toNat) 2)

/-- Whether a ray is in its GT-die's queue: no sequencer has taken it yet. -/
def Ray.queued (r : Ray) : Bool := r.state = .flight && !r.started && r.saved.isNone && !r.ending

/-- Whether the queue of a GT-die takes another ray of a partition (R431). -/
def State.rayRoom (s : State) (p die : Nat) : Bool :=
  s.rays.length < 2048 || s.queueRoom p 2048 66402 (s.rays.filter fun r => r.queued && r.die = die).length

/-- A lane's ray (R258, R259) as it is sent. -/
def View.newRay (v : View) (o : Operands) (sc : List W32) (lane c : Nat) (id : W32) : Ray :=
  let a := v.srcQuad 0 o.a lane
  let b := v.srcQuad 1 o.b lane
  { launch := v.w.launch, ctx := v.ctx, part := v.part, core := v.ic.core, id := id
    addr := v.launch.rayst + BitVec.ofNat 64 (64 + 128 * (id.toNat % c)), pool := v.launch.pool
    rayid := id, die := v.s.rayDie v.w.launch id
    org := a.take 3, dir := b.take 3, tmin := wordAt a 3, tmax := wordAt b 3, thit := wordAt b 3, prim := 0xFFFFFFFF
    inst := 0xFFFFFFFF, bary := [0, 0], upc := 0, rf := o.mod.toNat % 4, cand := false, node := 0, stack := []
    scene := v.launch.pool + BitVec.ofNat 64 (32 * poolIndex o.c), state := .flight, wait := none
    accepted := false, level := 0, lroot := 0, layout := [], instAddr := 0, obj := [], leaf := none, visit := false, levelDepth := 0, tri := []
    topRoot := wideAt sc 0, topIndex := bitsAt sc 64 15, topLayout := [], topLeaf := none, topNode := 0
    wregs := [], flagF := false, nb := 0, started := false, steps := 0
    stamp := if modBit o.mod.toNat 2 then v.s.free + 1 else v.since lane, ending := false, saved := none }

/-- Whether the record of the launch's next ray is free (R258): ray r − C has ended. -/
def State.rayFree (s : State) (launch c : Nat) (id : W32) : Bool := (s.ray? launch (id - BitVec.ofNat 32 c)).all Ray.isOver

/-- Whether the launch's next ray can be sent (R258, R42): its record is free, and the ray queue has room. -/
def State.raySends (s : State) (launch : Nat) : Bool :=
  let l := s.launchOf launch
  s.rayFree launch (l.rayCount.getD 0) l.raySerial && s.rayRoom l.part (s.rayDie launch l.raySerial)

/-- The rays of some lanes sent in ascending order while records are free (R258): the state, each lane's id, and the lanes
left. -/
def View.sendRays (v : View) (o : Operands) (sc : List W32) (c : Nat) : List Nat → State → List (Nat × W32) → State × List (Nat × W32) × List Nat
  | [], s, ids => (s, ids, [])
  | i :: r, s, ids =>
    let id := (s.launchOf v.w.launch).raySerial
    if s.raySends v.w.launch then
      let keep := s.rays.filter fun x => !(x.launch = v.w.launch && x.isOver && x.id = id - BitVec.ofNat 32 c)
      let s : State := { s with rays := keep ++ [v.newRay o sc i c id] }
      v.sendRays o sc c r (s.mapLaunch v.w.launch fun l => { l with raySerial := l.raySerial + 1 }) (ids ++ [(i, id)])
    else (s, ids, i :: r)

/-- trace once its scene record and the launch's C are known (R258). -/
def View.trace (v : View) (o : Operands) (sc : List W32) (c : Nat) : State :=
  let p := v.passing o
  if c = 0 ∨ 1048576 < c then v.stageFault (lowestLane p)
  else
    let acq := modBit o.mod.toNat 2
    v.unlessHeld (if acq then some 2 else none) <|
      let s := if acq then v.s.flushCore v.ic.core else v.s
      let (s, ids, left) := v.sendRays o sc c (lanesOf p) s []
      let s := if ids = [] then s else
        v.leaveLanes s 0 (ids.map fun x => ⟨x.1, (v.thread x.1).uid, regWrites o.dst.reg.toNat [x.2], []⟩)
      if left = [] then v.endSends o s else v.waitSends s left (.rayRecord v.w.launch)

/-- trace (R258). -/
def execTrace (o : Operands) (s : State) : Host.Outcome State Fault Refusal :=
  withIssue s fun v =>
    let p := v.passing o
    if v.resultsFull then v.waitSlot
    else if p = 0 then v.retire o v.active v.s
    else if v.launch.rayst = 0 then v.stageFault (lowestLane p)
    else Stage.run do
      let ws ← v.poolRecord o.c
      if !sceneOk ws then .error (v.rejectPool o.c)
      else
        let (v, c) ← v.rayCount (lowestLane p)
        return v.trace o ws c

/-- The code of a ray's state (R260). -/
def RayState.code : RayState → Nat
  | .flight => 0
  | .complete => 1
  | .waiting => 2
  | .faulted => 3
  | .killed => 4

/-- The state code of a ray (R260): 5 for one that is not in flight and whose record another ray has taken. -/
def State.rayCode (s : State) (launch : Nat) (id : W32) : Nat := ((s.ray? launch id).map fun r => r.state.code).getD 5

/-- traceq (R260). -/
def execTraceq (o : Operands) (s : State) : Host.Outcome State Fault Refusal :=
  withIssue s fun v => v.classV o fun i => out32 (BitVec.ofNat 32 (v.s.rayCode v.w.launch (v.src32 .int 0 o.a i)))

/-- The candidate of a ray becomes its nearest accepted hit (R421 SETT). -/
def Ray.accept (r : Ray) : Ray :=
  { r with thit := wordAt r.tri 0, bary := [wordAt r.tri 1, wordAt r.tri 2], prim := wordAt r.tri 3, inst := wordAt r.tri 4
           accepted := true }

/-- A ray answered by hitrep (R260): k = 0 rejects its candidate, 1 accepts it, 2 accepts it and ends the ray. -/
def Ray.answer (r : Ray) (k : Nat) : Ray :=
  let r := { r with state := .flight, cand := false }
  match k with
  | 0 => r
  | 1 => r.accept
  | _ => { r.accept with ending := true }

/-- hitrep (R260): a ray that is not waiting is left alone. -/
def execHitrep (o : Operands) (s : State) : Host.Outcome State Fault Refusal :=
  withIssue s fun v => v.retire o v.active ((lanesOf (v.passing o)).foldl (fun s i =>
    s.mapRay v.w.launch (v.src32 .int 0 o.a i) fun r => if r.state = .waiting then r.answer (immNat o.b) else r) v.s)

/-- The oldest hit record of a launch on a core taken off its queue (R260). -/
def popHit (launch : Nat) : List HitRec → Option HitRec × List HitRec
  | [] => (none, [])
  | h :: r =>
    if h.launch = launch then (some h, r)
    else
      let (x, r) := popHit launch r
      (x, h :: r)

/-- One lane's rqpop (R260): a record copied to its scratchpad, if there is one; the states and results so far. -/
def View.popLane (v : View) (parts : List ScrPart) (ws : List (ScrPart × Piece)) (x : State × List (Nat × W32)) (a : ScrAccess) :
    State × List (Nat × W32) :=
  let (hit, rest) := popHit v.w.launch (x.1.core v.ic.core).hits
  match hit with
  | none => (x.1, x.2 ++ [(a.lane, 0)])
  | some h =>
    let s := x.1.mapCore v.ic.core fun c => { c with hits := rest }
    (v.scrStore parts ws (fun _ => wordsBytes h.words) s a, x.2 ++ [(a.lane, 1)])

/-- rqpop (R260, R332): the writes are performed before d is returned. -/
def execRqpop (o : Operands) (s : State) : Host.Outcome State Fault Refusal :=
  withIssue s fun v =>
    if v.resultsFull then v.waitSlot else
    match v.scrReady 32 true v.accStore ((lanesOf (v.passing o)).map fun i => (i, (v.src32 .int 0 o.a i).toNat)) with
    | .error s => s
    | .ok (l, parts, ws) =>
      match v.s.noteWrite v.ic.core v.ctx (pieceVpages (ws.map (·.2))) with
      | none => v.waitRange
      | some s =>
        let s := ws.foldl v.fillWindow (v.notePeer (v.cachePieces s (ws.map (·.2))) l)
        let r := l.foldl (v.popLane parts ws) (s, [])
        v.retire o v.active (v.leaveLanes r.1 0 (r.2.map fun x => ⟨x.1, (v.thread x.1).uid, regWrites o.dst.reg.toNat [x.2], []⟩))

end Sys2Proof.Machine
end

