-- ==== Sys2Proof/Machine/Render.lean ====
section
/-! DEFINITION. Group B, part three: vertices and pixels at the core (R262 to R265, R282): vfetch, prim, interp, tsamp, pxout. -/
namespace Sys2Proof.Machine

/-! ### vfetch -/

/-- Whether a vertex record breaks no rule of R281 and R282; FMT is ignored. -/
def vertexOk (ws : List W32) : Bool := bitsAt ws 101 27 = 0 && bitsAt ws 192 64 = 0

/-- The components of a vertex element, exactly converted to f32 (R262); three of them are followed by 1.0. -/
def vertexWords (fmt n : Nat) (bs : List Byte) : List W32 :=
  let e := elemBytes fmt
  let xs := (List.range n).map fun k => elemF32 fmt (bytesNat ((bs.drop (k * e)).take e))
  if n = 3 then xs ++ [0x3F800000] else xs

/-- vfetch (R262): extent and robustness as in R199. -/
def execVfetch (o : Operands) (s : State) : Host.Outcome State Fault Refusal :=
  withIssue s fun v =>
    let p := v.passing o
    let fmt := o.mod.toNat % 16
    let n := bitField o.mod.toNat 4 2 + 1
    if v.resultsFull then v.waitSlot
    else if p = 0 then v.retire o v.active v.s
    else Stage.run do
      let ws ← v.poolRecord o.a
      if !vertexOk ws then .error (v.rejectPool o.a)
      else
        let size := n * elemBytes fmt
        let reads ← v.poolAddrs p ws size fun i => (v.src32 .int 1 o.b i).toNat * (wordAt ws 4).toNat + (wordAt ws 5).toNat
        let ps ← v.recordPieces size reads
        let v' : View := { v with s := v.touchPieces v.s ps }
        let bytes (i : Nat) : List Byte := if reads.any (·.1 = i) then v'.laneBytes ps i else List.replicate size 0
        let s := v.remoteReads (v.cachePieces v'.s ps) ps
        return v.retire o v.active (v.writeLater s p o.dst.reg.toNat fun i => (vertexWords fmt n (bytes i), 0))

/-! ### prim -/

/-- A vertex joins a stream of a draw (R263). -/
def Draw.emit (d : Draw) (stream : Nat) (x : Vertex) : Draw := { d with verts := d.verts ++ [(stream, x)] }

/-- The stream of a wave's vertices: the oldest thread the wave has held. Log entry 27. -/
def Wave.stream (w : Wave) : Nat := ((w.slots.filterMap Slot.thread?).map (·.uid)).foldl min ((((w.slots.filterMap Slot.thread?)[0]?).map (·.uid)).getD 0)

/-- The attributes of a lane's vertex: f32 values in its scratchpad, each an access of four bytes (R202, R263). -/
def View.attributes (v : View) (o : Operands) (n lane : Nat) : Stage (List W32) := do
  let a := (v.src32 .int 1 o.b lane).toNat
  if n = 0 then return []
  else if a % 4 ≠ 0 then .error (v.scratchFault lane a)
  else
    let (_, bytes) ← v.readRange lane a (4 * n)
    return bytesWords bytes.toList

/-- Whether the primitive queue of a draw's GT-die takes another record (R431). -/
def State.primRoom (s : State) (d : Draw) : Bool :=
  let die := s.drawDie d
  (s.display.draws.map fun x => x.verts.length).sum < 512 ||
    s.queueRoom d.part 512 66403 (((s.display.draws.filter fun x => s.drawDie x = die).map fun x => x.verts.length).sum)

/-- The vertices of some lanes sent in ascending order while the queue has room (R42): the state, and the lanes left. -/
def View.sendVerts (v : View) (o : Operands) : List (Nat × List W32) → State → State × List Nat
  | [], s => (s, [])
  | (i, a) :: r, s =>
    let key := (v.thread i).vertex.getD 0
    if (s.draw? key).all s.primRoom then
      v.sendVerts o r (s.mapDraw key fun d => d.emit v.w.stream ⟨v.srcQuad 0 o.a i, a, modBit (immNat o.c) 5⟩)
    else (s, i :: r.map (·.1))

/-- prim (R263): one vertex for each lane, in ascending order. -/
def execPrim (o : Operands) (s : State) : Host.Outcome State Fault Refusal :=
  withIssue s fun v =>
    let p := v.passing o
    let n := immNat o.c % 32
    match (lanesOf p).find? fun i => (v.thread i).vertex.isNone with
    | some i => v.stageFault i
    | none =>
      match (lanesOf p).mapM fun i => (v.attributes o n i).map fun a => (i, a) with
      | .error s => s
      | .ok l =>
        match v.sendVerts o l v.s with
        | (s, []) => v.endSends o s
        | (s, i :: r) => v.waitSends s (i :: r) (.primRoom ((v.thread i).vertex.getD 0))

/-! ### interp -/

/-- A coefficient of a pixel's plane set: three for each of sixteen attributes, for 1/w and for z. A component beyond the sixteen has
none, and is free. Log entry 28. -/
def Pixel.plane (p : Pixel) (free lane k : Nat) : W32 := (p.planes[k]?).getD (Config.freeW32 free (readTag lane 7 k))

/-- One lane's interp (R264), at the pixel's centre. -/
def Pixel.interp (p : Pixel) (free lane m i : Nat) : W32 :=
  let half (x : Nat) : W32 := (toF32 0 (.dy false (2 * x + 1) (-1), 0)).1
  let (x, y) := (half p.x, half p.y)
  let plane (k : Nat) : W32 :=
    (fpFma 0 (p.plane free lane (3 * k + 1)) y (fpFma 0 (p.plane free lane (3 * k)) x (p.plane free lane (3 * k + 2))).1).1
  if 16 ≤ i then Config.freeW32 free (readTag lane 7 0)
  else
    match m with
    | 0 => (fpDiv 0 (plane i) (plane 16)).1
    | 1 => plane i
    | _ => p.plane free lane (3 * i + 2)

/-- interp (R264). -/
def execInterp (o : Operands) (s : State) : Host.Outcome State Fault Refusal :=
  withIssue s fun v =>
    match (lanesOf (v.passing o)).find? fun i => (v.thread i).pixel.isNone with
    | some i => v.stageFault i
    | none => v.classV o fun i =>
      out32 (((v.thread i).pixel.map fun p => p.interp v.s.free i (o.mod.toNat % 4) (immNat o.a)).getD 0)

/-! ### tsamp -/

/-- The fields of a texture record (R282). -/
structure Texture where
  base   : W64
  ext    : Nat
  fmt    : Nat
  robust : Bool
  chn    : Nat
  wrap   : Bool
  levels : Nat
  w      : Nat
  h      : Nat
  layers : Nat
  stride : Nat

/-- A pool record read as a texture record. -/
def texture (ws : List W32) : Texture :=
  { base := recBase ws, ext := recExtent ws, fmt := recFmt ws, robust := recRobust ws, chn := bitsAt ws 101 2 + 1
    wrap := bitsAt ws 103 1 = 1, levels := bitsAt ws 104 4 + 1, w := bitsAt ws 128 16, h := bitsAt ws 144 16
    layers := bitsAt ws 160 16 + 1, stride := (wordAt ws 6).toNat }

/-- Whether a texture record breaks no rule of R281 and R282. -/
def textureOk (ws : List W32) : Bool :=
  [0, 1, 7].contains (recFmt ws) && bitsAt ws 108 20 = 0 && bitsAt ws 176 16 = 0 && bitsAt ws 224 32 = 0

/-- The width of a level. -/
def Texture.levelW (t : Texture) (l : Nat) : Nat := max 1 (t.w / 2 ^ l)
/-- The height of a level. -/
def Texture.levelH (t : Texture) (l : Nat) : Nat := max 1 (t.h / 2 ^ l)
/-- The row pitch of a level. -/
def Texture.pitch (t : Texture) (l : Nat) : Nat := (t.levelW l * t.chn * elemBytes t.fmt + 3) / 4 * 4
/-- The place of a level in its layer: levels follow one another. -/
def Texture.levelAt (t : Texture) (l : Nat) : Nat := ((List.range l).map fun k => t.pitch k * t.levelH k).sum

/-- The offset of a texel. -/
def Texture.texel (t : Texture) (layer l x y : Nat) : Nat :=
  layer * t.stride + t.levelAt l + y * t.pitch l + x * t.chn * elemBytes t.fmt

/-- An index taken into a level by the record's edge rule. -/
def Texture.edge (t : Texture) (n : Nat) (x : Int) : Nat := if t.wrap then (x % n).toNat else (max 0 (min x (n - 1))).toNat

/-- A number rounded to nearest even and clamped to 0 to `n` − 1; none for a NaN. -/
def pickLevel (n : Nat) (x : W32) : Option Nat :=
  match fromF32 x with
  | .nan _ => none
  | .inf s => some (if s then 0 else n - 1)
  | v => some ((floatToInt 0 0 ((n : Int) - 1) v).1.toNat)

/-- A lane's sample: the offsets of its four texels and the weights. -/
structure Sample where
  offs : List Nat
  fx   : FVal
  fy   : FVal

/-- The sample of coordinates (R265, R257); none where a coordinate, the level or the layer gives no point. -/
def Texture.sample (t : Texture) (q : List W32) : Option Sample :=
  match pickLevel t.levels (wordAt q 2), pickLevel t.layers (wordAt q 3) with
  | some l, some layer =>
    let at_ (u : W32) (n : Nat) : Option (Int × FVal) := floorF32 (toF32 0 (addVal 0 (fromF32 (mulRne u (intRne n))) (.dy true 1 (-1)))).1
    match at_ (wordAt q 0) (t.levelW l), at_ (wordAt q 1) (t.levelH l) with
    | some (x, fx), some (y, fy) =>
      let off (dx dy : Int) : Nat := t.texel layer l (t.edge (t.levelW l) (x + dx)) (t.edge (t.levelH l) (y + dy))
      some ⟨[off 0 0, off 1 0, off 0 1, off 1 1], fx, fy⟩
    | _, _ => none
  | _, _ => none

/-- A texel's component as f32: n8 as its value ÷ 255 (R282). -/
def texelF32 (fmt bits : Nat) : W32 := if fmt = 7 then (toF32 0 (.fin false bits 255 0, 0)).1 else elemF32 fmt bits

/-- The four components of a sample from its texels' bytes (R265): missing channels give 0, 0, 0, 1. -/
def Texture.blend (t : Texture) (x : Sample) (texels : List (List Byte)) : List W32 :=
  let e := elemBytes t.fmt
  (List.range 4).map fun c =>
    if c < t.chn then
      let at_ (k : Nat) : W32 := texelF32 t.fmt (bytesNat (((texels.getD k []).drop (c * e)).take e))
      bilinear x.fx x.fy (at_ 0) (at_ 1) (at_ 2) (at_ 3)
    else if c = 3 then 0x3F800000 else 0

/-- The texels of a lane's sample that lie in extent, by their place among the four (R199, R282). -/
def Texture.inside (t : Texture) (x : Sample) : List Nat :=
  (List.range 4).filter fun k => x.offs.getD k 0 + t.chn * elemBytes t.fmt ≤ t.ext

/-- The texels of a lane from the bytes of those inside; the others are zero. -/
def Texture.texels (t : Texture) (x : Sample) (bs : List Byte) : List (List Byte) :=
  let n := t.chn * elemBytes t.fmt
  (List.range 4).map fun k =>
    match (t.inside x).findIdx? (· = k) with
    | some i => (bs.drop (i * n)).take n
    | none => List.replicate n 0

/-- A sequencer at work on a texel record of these threads (R422): an access of theirs, of AGENT 3 or 6. -/
def View.texEng (v : View) (lane : Nat) : Eng :=
  { v.s.ringEng v.ctx with core := some v.ic.core, since := v.since lane, rel := false, loc := (v.faultRec lane 0).loc, pc := v.ic.pc }

/-- What a fault of a texture item does (R422, R404): the threads stop on its record and the item restarts after service, the context
ends, or the line's error is met. -/
def View.texFault (v : View) (lane : Nat) : EngFail → State
  | .stop r => v.stopReplay v.active { v.faultRec lane r.kind with agent := r.agent, va := r.va, pa := r.pa, synd := r.synd }
  | .kill kind va level => v.fatal { v.faultRec lane kind with agent := (v.texEng lane).agent, va := va, synd := BitVec.ofNat 32 level }
  | .line va l x =>
    let s := v.s.lineError v.ctx { v.faultRec lane 0 with agent := (v.texEng lane).agent, va := va } l x
    if x.waits then v.park s v.active (.retry .slice) else s

/-- The four words of a lane's sample whose item emitted no texel record. -/
def View.noTexel (v : View) (lane : Nat) : List W32 := (List.range 4).map fun k => Config.freeW32 v.s.free (readTag lane 7 k)

/-- The items of some lanes under a context's own sampler microcode (R420 to R422), in ascending order: each lane's words are those of
the first texel record that its item emitted. An item of 2²⁰ micro-ops is killed. -/
def View.ownSamples (v : View) (image : List W64) : List Nat → State → Except State (State × List (Nat × List W32))
  | [], s => .ok (s, [])
  | i :: r, s =>
    match (Item.start i).run s (v.texEng i) image 1048576 with
    | (_, .fault f) => .error (v.texFault i f)
    | (s, .limit) =>
      (v.ownSamples image r (s.notice v.ctx { v.faultRec i 0x3C with agent := (v.texEng i).agent })).map fun x => (x.1, (i, v.noTexel i) :: x.2)
    | (s, .done it) =>
      let words := ((it.emits.find? fun x => x.1 = 2).map fun x => (List.range 4).map (Config.emitted 2 x.2)).getD (v.noTexel i)
      (v.ownSamples image r s).map fun x => (x.1, (i, words) :: x.2)

/-- The samples of some lanes left outstanding, with the texel records they wait for (R423). -/
def View.leaveTexels (v : View) (o : Operands) (m : Mask) (s : State) (f : Nat → List W32) : State :=
  let s := v.writeLater s m o.dst.reg.toNat fun i => (f i, 0)
  v.retire o v.active { s with results := s.results.dropLast ++ (s.results.getLast?.toList.map fun x => { x with tex := some v.ctx }) }

/-- tsamp (R265). A sample without a point has no stated value: its words are free (log entry 29). Under a context's own sampler
microcode each lane's item gives its words (R8, R421, log entry 50). -/
def execTsamp (o : Operands) (s : State) : Host.Outcome State Fault Refusal :=
  withIssue s fun v =>
    let p := v.passing o
    if v.resultsFull then v.waitSlot
    else if p = 0 then v.retire o v.active v.s
    else Stage.run do
      let ws ← v.poolRecord o.a
      let t := texture ws
      let n := t.chn * elemBytes t.fmt
      let at_ (i : Nat) : Option Sample := t.sample (v.srcQuad 1 o.b i)
      if !textureOk ws then .error (v.rejectPool o.a)
      else
        match v.s.ownMicrocode v.ctx 3, (lanesOf p).find? fun i => !t.robust && ((at_ i).any fun x => (t.inside x).length < 4) with
        | some image, _ =>
          let (s, l) ← v.ownSamples image (lanesOf p) v.s
          return v.leaveTexels o p s fun i => (l.lookup i).getD (v.noTexel i)
        | none, some i => .error (v.fatal { v.faultRec i 0x29 with va := t.base })
        | none, none =>
          let reads := (lanesOf p).flatMap fun i =>
            match at_ i with
            | some x => (t.inside x).map fun k => (i, t.base + BitVec.ofNat 64 (x.offs.getD k 0))
            | none => []
          let ps ← v.recordPieces n reads
          let v' : View := { v with s := v.touchPieces v.s ps }
          let s := v.remoteReads (v.cachePieces v'.s ps) ps
          return v.leaveTexels o p s fun i =>
            match at_ i with
            | some x => t.blend x (t.texels x (v'.laneBytes ps i))
            | none => v.noTexel i

/-! ### pxout -/

/-- A colour component clamped to 0 to 1, a NaN to 0, times a count, rounded to nearest even (R265). -/
def unorm (n : Nat) (x : W32) : Nat :=
  match fromF32 x with
  | .nan _ => 0
  | .inf s => if s then 0 else n
  | .fin s num d e => if s then 0 else min n (roundToInt 0 false (num * n) d e).1

/-- A colour as a render target stores it (R265). -/
def pixelBytes (fmt : Nat) (q : List W32) : List Byte :=
  let (r, g, b, a) := (wordAt q 0, wordAt q 1, wordAt q 2, wordAt q 3)
  match fmt with
  | 0 => natBytes 4 (unorm 255 a * 2 ^ 24 + unorm 255 r * 2 ^ 16 + unorm 255 g * 2 ^ 8 + unorm 255 b)
  | 1 => natBytes 4 (unorm 3 a * 2 ^ 30 + unorm 1023 b * 2 ^ 20 + unorm 1023 g * 2 ^ 10 + unorm 1023 r)
  | _ => [r, g, b, a].flatMap fun x => natBytes 2 (roundVal fmtF16 .sat 0 (fromF32 x)).1

/-- BASE, PITCH and FMT of a render target in a table's words (R429). -/
def targetBase (ws : List W32) (t : Nat) : W64 := wideAt ws (4 * t)
/-- PITCH. -/
def targetPitch (ws : List W32) (t : Nat) : Nat := (wordAt ws (4 * t + 2)).toNat
/-- FMT. -/
def targetFmt (ws : List W32) (t : Nat) : Nat := (wordAt ws (4 * t + 3)).toNat % 256
/-- The bytes of a pixel of a target format. -/
def targetBytes (fmt : Nat) : Nat := if fmt = 2 then 8 else 4

/-- The address of a pixel in a target. -/
def targetPixel (ws : List W32) (t x y : Nat) : W64 :=
  targetBase ws t + BitVec.ofNat 64 (y * targetPitch ws t + x * targetBytes (targetFmt ws t))

/-- pxout (R265): the covered pixels' stores. -/
def execPxout (o : Operands) (s : State) : Host.Outcome State Fault Refusal :=
  withIssue s fun v =>
    let p := v.passing o
    let t := immNat o.b
    match (lanesOf p).find? fun i => (v.thread i).pixel.isNone with
    | some i => v.stageFault i
    | none =>
      let px (i : Nat) : Option (Pixel × List W32) :=
        match (v.thread i).pixel with
        | some q => (v.s.draw? q.draw).map fun d => (q, d.targets)
        | none => none
      let dests := (lanesOf p).filterMap fun i =>
        match px i with
        | some (q, ws) => if q.covered then some (i, targetPixel ws t q.x q.y) else none
        | none => none
      let fmt := ((lanesOf p).findSome? fun i => (px i).map fun x => targetFmt x.2 t).getD 0
      v.finish o (v.store (targetBytes fmt) none .pixel dests fun i => pixelBytes fmt (v.srcQuad 0 o.a i))

end Sys2Proof.Machine
end

