-- ==== Sys2Proof/Machine/RayMath.lean ====
section
/-! DEFINITION. The standard box and triangle tests (R424, R425), node layouts (R261), primitives (R330, R427) and instances
(R261) as functions of the words read. -/
namespace Sys2Proof.Machine

/-! ### Layouts -/

/-- The fields of a layout record (R261). -/
structure NodeLayout where
  size  : Nat
  fan   : Nat
  half  : Bool
  first : Bool
  prim  : Nat
  boff  : Nat
  coff  : Nat
  empty : W32
  deriving DecidableEq, Repr

/-- A layout record's fields. -/
def nodeLayout (ws : List W32) : NodeLayout :=
  { size := 16 * bitsAt ws 0 6, fan := bitsAt ws 6 4, half := bitsAt ws 10 1 = 1, first := bitsAt ws 11 1 = 1, prim := bitsAt ws 12 2
    boff := bitsAt ws 32 16, coff := bitsAt ws 48 16, empty := wordAt ws 2 }

/-- Whether a layout record breaks no rule of R261: its reserved fields are zero, and nodes have 32 to 512 bytes and 2 to 8
children. -/
def layoutOk (ws : List W32) : Bool :=
  let y := nodeLayout ws
  bitsAt ws 14 18 = 0 && bitsAt ws 96 160 = 0 && 32 ≤ y.size && y.size ≤ 512 && 2 ≤ y.fan && y.fan ≤ 8

/-- The bytes of a child's box. -/
def NodeLayout.boxBytes (y : NodeLayout) : Nat := if y.half then 12 else 24

/-- The six f32 bounds of child `k` in the bytes of a node's boxes. -/
def NodeLayout.box (y : NodeLayout) (bs : List Byte) (k : Nat) : List W32 :=
  let n := if y.half then 2 else 4
  (List.range 6).map fun j => elemF32 (if y.half then 1 else 0) (bytesNat ((bs.drop (y.boxBytes * k + n * j)).take n))

/-- The bytes of a node's child references. -/
def NodeLayout.refBytes (y : NodeLayout) : Nat := if y.first then 4 else 4 * y.fan

/-- A reference to a leaf of `n` primitives from `p` on. -/
def leafRef (p n : Nat) : W32 := BitVec.ofNat 32 (2147483648 + p % 134217728 * 16 + (n - 1) % 16)

/-- Whether a reference names a leaf. -/
def isLeaf (r : W32) : Bool := r.getLsbD 31
/-- The first primitive of a leaf. -/
def leafFirst (r : W32) : Nat := r.toNat / 16 % 134217728
/-- Its count. -/
def leafCount (r : W32) : Nat := r.toNat % 16 + 1

/-- The reference of child `k` from a node's reference words (R261); none for an empty child. -/
def NodeLayout.child (y : NodeLayout) (refs : List W32) (k : Nat) : Option W32 :=
  let r := wordAt refs (if y.first then 0 else k)
  if r = y.empty then none
  else if !y.first then some r
  else if isLeaf r then some (leafRef (leafFirst r + k * leafCount r) (leafCount r))
  else some (r + BitVec.ofNat 32 k)

/-- The bytes of a primitive (R330). -/
def NodeLayout.primBytes (y : NodeLayout) : Nat := match y.prim with | 0 => 48 | 1 => 24 | 2 => 4 | _ => 64

/-- The micro-ops of a primitive's test at most (R492). -/
def NodeLayout.primCost (y : NodeLayout) : Nat := match y.prim with | 1 => 46 | 3 => 64 | _ => 40

/-! ### Boxes -/

/-- 1 + 2⁻²¹ (R424). -/
def slack : W32 := 0x3F800004

/-- The SLAB test (R424) of a box against a ray of one level: tnear, and whether the box is hit. -/
def slabTest (o d : List W32) (tmin thit : W32) (box : List W32) : W32 × Bool :=
  let times := (List.range 3).map fun k =>
    let inv := divRne 0x3F800000 (wordAt d k)
    let t (j : Nat) : W32 := mulRne (subRne (wordAt box j) (wordAt o k)) inv
    (minNum (t k) (t (3 + k)), maxNum (t k) (t (3 + k)))
  let near := maxNum (maxNum (times.getD 0 (0, 0)).1 (times.getD 1 (0, 0)).1) (times.getD 2 (0, 0)).1
  let far := mulRne (minNum (minNum (times.getD 0 (0, 0)).2 (times.getD 1 (0, 0)).2) (times.getD 2 (0, 0)).2) slack
  (near, fpLe near far && fpLe tmin far && fpLe near thit)

/-! ### Triangles -/

/-- The axes kx, ky, kz of a direction (R425 step 1). -/
def rayAxes (d : List W32) : Nat × Nat × Nat :=
  let m (k : Nat) : FVal := (fromF32 (wordAt d k)).mag
  let kz := if cmpVal (m 0) (m 1) ≥ 0 ∧ cmpVal (m 0) (m 2) ≥ 0 then 0 else if cmpVal (m 1) (m 2) ≥ 0 then 1 else 2
  let kx := (kz + 1) % 3
  let ky := (kx + 1) % 3
  if fpLt (wordAt d kz) 0 then (ky, kx, kz) else (kx, ky, kz)

/-- A point of a plane, exactly. -/
abbrev Point := FVal × FVal

/-- a − b exactly. -/
def subVal (a b : FVal) : FVal := (addVal 0 a b.negate).1

/-- p.x × q.y − p.y × q.x exactly (R425 step 4). -/
def crossVal (p q : Point) : FVal := subVal (mulVal p.1 q.2).1 (mulVal p.2 q.1).1

/-- The sign of an exact value; none for a NaN. -/
def signOf : FVal → Option Int
  | .nan _ => none
  | .inf s => some (if s then -1 else 1)
  | .fin s n _ _ => some (if n = 0 then 0 else if s then -1 else 1)

/-- The tie rule of R425 step 5 for a zero edge from `p` to `q`, `s` being the sign in use. -/
def tieRule (s : Int) (p q : Point) : Bool :=
  let ex := cmpVal q.1 p.1
  let ey := cmpVal q.2 p.2
  0 < s * ey || (ey = 0 && s * ex < 0)

/-- Whether one sign makes every edge function pass (R425 step 5). The functions come with the ends of their edges. -/
def edgesPass (fs : List (Int × Point × Point)) (s : Int) : Bool :=
  fs.all fun f => 0 < s * f.1 || (f.1 = 0 && tieRule s f.2.1 f.2.2)

/-- Whether the origin is covered by the edge functions U, V and W of a triangle (R425 steps 4 and 5); none of them may be a NaN,
nor all of them zero. -/
def coveredBy (a b c : Point) : Bool :=
  match signOf (crossVal c b), signOf (crossVal a c), signOf (crossVal b a) with
  | some u, some v, some w =>
    let fs := [(u, b, c), (v, c, a), (w, a, b)]
    !(u = 0 && v = 0 && w = 0) && (edgesPass fs 1 || edgesPass fs (-1))
  | _, _, _ => false

/-- The TRI test (R425 steps 1 to 6) of nine coordinates against a ray of one level: t, u and v of a hit. -/
def triTest (o d : List W32) (v : List W32) : Option (W32 × W32 × W32) :=
  let (kx, ky, kz) := rayAxes d
  let dz := wordAt d kz
  let sx := divRne (negF32 (wordAt d kx)) dz
  let sy := divRne (negF32 (wordAt d ky)) dz
  let sz := divRne 0x3F800000 dz
  let q (j k : Nat) : W32 := subRne (wordAt v (3 * j + k)) (wordAt o k)
  let pt (j : Nat) : Point := (fromF32 (fmaRne sx (q j kz) (q j kx)), fromF32 (fmaRne sy (q j kz) (q j ky)))
  let (a, b, c) := (pt 0, pt 1, pt 2)
  if !coveredBy a b c then none
  else
    let rnd (x : FVal) : W32 := (toF32 0 (x, 0)).1
    let (u, w', w) := (rnd (crossVal c b), rnd (crossVal a c), rnd (crossVal b a))
    let det := addRne (addRne u w') w
    let t := divRne (fmaRne w (mulRne sz (q 2 kz)) (fmaRne w' (mulRne sz (q 1 kz)) (mulRne u (mulRne sz (q 0 kz))))) det
    some (t, divRne w' det, divRne w det)

/-! ### Instances -/

/-- The object-space origin and direction of a world ray in an instance's words (R261). -/
def intoInstance (ws : List W32) (o d : List W32) : List W32 :=
  let m (r k : Nat) : W32 := wordAt ws (4 * r + k)
  let row (r : Nat) (x : List W32) (last : W32) : W32 :=
    fmaRne (m r 0) (wordAt x 0) (fmaRne (m r 1) (wordAt x 1) last)
  ((List.range 3).map fun r => row r o (fmaRne (m r 2) (wordAt o 2) (m r 3))) ++
    (List.range 3).map fun r => row r d (mulRne (m r 2) (wordAt d 2))

end Sys2Proof.Machine
end

