-- ==== Sys2Proof/Machine/Traversal.lean ====
section
/-! DEFINITION. The traversal sequencers (R259, R260, R330 to R333, R420 to R422, R491, R492): how they read memory, save and
reload a ray, emit hit records, and traverse with the standard microcode. -/
namespace Sys2Proof.Machine

/-! ### Sequencers and their accesses -/

/-- A sequencer at work for a ray (R422). -/
def Ray.eng (r : Ray) : Eng :=
  { ctx := r.ctx, core := none, agent := 3, since := r.stamp, rel := true, loc := locWord r.core 0 0 0, pc := 0
    info := r.id.setWidth 64, code := 5 }

/-- The die of a traversal sequencer in the offset table's numbering (R362, R331). -/
def seqDie (sq : Nat) : Nat := 5 + sq / 32

/-- Why a traversal stops: an access, a pool record that cannot be read or breaks a rule, or a push onto a full stack. -/
inductive RayStop where
  | access (f : EngFail)
  | pool (va : W64)
  | bad (va : W64) (index : Nat)
  | overflow
  deriving DecidableEq, Repr

/-- What a step of a traversal leads to. -/
inductive RayNext where
  | go
  | candidate
  | ended
  deriving DecidableEq, Repr

/-- A step of a traversal: the state, the ray and what comes next, or why it stops. -/
abbrev RayStep := Except RayStop (State × Ray × RayNext)

/-- Bytes that a sequencer reads for a ray. -/
def State.rayRead (s : State) (r : Ray) (va : W64) (n : Nat) : Except RayStop (State × List Byte) :=
  match s.engRead r.eng va n with
  | .ok x => .ok x
  | .error f => .error (.access f)

/-- The words of a layout record of a ray's launch (R123, R261): one version of the record, never a mix. -/
def State.rayLayout (s : State) (r : Ray) (index : Nat) : Except RayStop (State × List W32) :=
  let va := r.pool + BitVec.ofNat 64 (32 * index)
  let parts := accessParts va 32
  match parts.mapM fun p => (s.engTrans r.eng false p.1 p.2.2).map fun t => (t, p) with
  | .error (.line va l x) => .error (.access (.line va l x))
  | .error _ => .error (.pool va)
  | .ok ts =>
    let pas := ts.flatMap fun x => (List.range x.2.2.2).map fun i => x.1.paOf x.2.1.toNat + i
    let slice := homeSlice (s.domain (some r.part)) ((ts.head?.map fun x => x.1.tgeo).getD 0)
    let ws := bytesWords (s.oneVersion 5242880 r.stamp slice pas)
    if layoutOk ws then .ok (ts.foldl (fun s x => s.cache r.ctx x.1) s, ws) else .error (.bad va index)

/-- Whether a core's hit queue takes another record (R42, R431): 256 records, and then the overflow ring, whose share of the
render area is not said. -/
def State.hitRoom (s : State) (r : Ray) : Bool :=
  (s.core r.core).hits.length < 256 || ((s.part r.part).render.rsize ≠ 0 && Config.freeBool s.free 66400)

/-- A hit record (R331). -/
def Ray.hitWords (r : Ray) (kind sq : Nat) : List W32 :=
  let w1 : W32 := BitVec.ofNat 32 (kind % 8 + 256 * (sq % 64))
  match kind with
  | 1 => [r.rayid, w1, r.thit, r.prim, r.inst] ++ r.bary ++ [0]
  | 2 => [r.rayid, w1, wordAt r.tri 0, wordAt r.tri 3, wordAt r.tri 4, wordAt r.tri 1, wordAt r.tri 2, 0]
  | _ => [r.rayid, w1, r.tmax, 0xFFFFFFFF, 0xFFFFFFFF, 0, 0, 0]

/-- A hit record sent to the originating core's queue (R260). -/
def State.emitHit (s : State) (r : Ray) (kind sq : Nat) : State :=
  s.mapCore r.core fun c => { c with hits := c.hits ++ [⟨r.launch, r.hitWords kind sq⟩] }

/-- A ray's record in the state's list replaced. -/
def State.setRay (s : State) (r : Ray) : State := s.mapRay r.launch r.id fun _ => r

/-- A ray killed (R259, R317, R422): a hit record of KIND 3. -/
def State.killRay (s : State) (r : Ray) (sq : Nat) : State := (s.emitHit r 3 sq).setRay { r with state := .killed }

/-- A ray that has ended with its final hit or miss (R331). -/
def State.endRay (s : State) (r : Ray) (sq : Nat) : State :=
  (s.emitHit r (if r.accepted then 1 else 0) sq).setRay { r with state := .complete }

/-! ### Saving and reloading -/

/-- A tag for the free values of one ray. -/
def Ray.tag (r : Ray) (k : Nat) : Nat := 18446744073709551616 + 64 * (4294967296 * r.launch + r.id.toNat) + k

/-- The words of a ray-state record (R259, R333): under the standard microcode UPC is free and UREG holds the instance's address,
else they hold what the microcode left; stack entries from DEPTH up are free. -/
def State.rayWords (s : State) (r : Ray) : List W32 :=
  let own := (s.ownMicrocode r.ctx 2).isSome
  let upc := if own then r.upc else (Config.free s.free (r.tag 0)).toNat % 4096
  let w14 := upc + 4096 * r.stack.length + 65536 * r.rf + 262144 * r.cand.toNat + 16777216 * (r.core % 256)
  let stack := (List.range 12).map fun k => (r.stack[k]?).getD (Config.freeW32 s.free (r.tag (1 + k)))
  let ureg := if own then [wordAt r.wregs 0, wordAt r.wregs 1] else splitWide (if r.level = 0 then 0 else r.instAddr)
  r.org ++ [r.tmin] ++ r.dir ++ [r.tmax, r.thit, r.prim, r.inst] ++ r.bary ++ [r.rayid, BitVec.ofNat 32 w14, r.node] ++ stack ++ ureg
    ++ splitWide r.scene

/-- A ray's record written (R259): a write that fails translation kills the ray (R317). Nothing for a line that does not serve
the write. -/
def State.saveRay (s : State) (r : Ray) (sq : Nat) : State × Option Ray :=
  let ws := s.rayWords r
  match s.engWrite r.eng r.addr (wordsBytes ws) with
  | .ok s' =>
    let r := { r with saved := some ws }
    (s'.setRay r, some r)
  | .error (.line va l x) => (s.lineError r.ctx { r.eng.record 0 va with die := seqDie sq } l x, none)
  | .error _ => ((s.notice r.ctx { r.eng.record 0x36 r.addr with die := seqDie sq }).killRay r sq, none)

/-- A ray that stops (R259, R404, R422): on a replayable record, with its context by a fatal one, or killed. -/
def State.rayStopped (s : State) (r : Ray) (sq : Nat) : RayStop → State
  | .access (.stop x) =>
    if s.replayFull (1 + r.part) then s
    else
      match s.saveRay r sq with
      | (s, none) => s
      | (s, some r) =>
        let (s, n) := s.postReplay (1 + r.part) { x with part := r.part, die := seqDie sq }
        s.setRay { r with state := .faulted, wait := some (1 + r.part, n) }
  | .access (.kill kind va level) =>
    (s.saveRay r sq).1.fatal r.ctx { r.eng.record kind va with die := seqDie sq, synd := BitVec.ofNat 32 level }
  | .access (.line va l x) => s.lineError r.ctx { r.eng.record 0 va with die := seqDie sq } l x
  | .pool va => (s.saveRay r sq).1.fatal r.ctx { r.eng.record 0x22 va with die := seqDie sq }
  | .bad va index =>
    (s.saveRay r sq).1.fatal r.ctx { r.eng.record 0x31 va with die := seqDie sq, synd := 3, info := BitVec.ofNat 64 index }
  | .overflow => (s.notice r.ctx { r.eng.record 0x35 0 with die := seqDie sq }).killRay r sq

/-- A ray whose record software has written while it was in flight (R259, R337): every field of the record is taken freely, and with
it what the sequencer reads from the scene record that it names. -/
def Ray.scrambled (r : Ray) (free : Nat) : Ray :=
  let f (k : Nat) : W32 := Config.freeW32 free (r.tag k)
  let w := (f 14).toNat
  let depth := bitField w 12 4
  let level := if f 28 ++ f 29 = (0 : W64) then 0 else 1
  { r with
    org := [f 0, f 1, f 2], tmin := f 3, dir := [f 4, f 5, f 6], tmax := f 7, thit := f 8, prim := f 9, inst := f 10, bary := [f 11, f 12]
    rayid := f 13, upc := bitField w 0 12, stack := (List.range depth).map fun k => Config.freeW32 free (r.tag (48 + k))
    rf := bitField w 16 2, cand := modBit w 18, core := bitField w 24 8, node := f 15, instAddr := f 29 ++ f 28, scene := f 31 ++ f 30
    level := level, levelDepth := if level = 0 then 0 else Config.freeIndex free (r.tag 32) (depth + 1), visit := Config.freeBool free (r.tag 33)
    leaf := none, topLeaf := none, accepted := Config.freeBool free (r.tag 34), tri := (List.range 5).map fun k => f (35 + k)
    topRoot := Config.free free (r.tag 40), topLayout := (List.range 3).map fun k => f (41 + k), topNode := f 44
    lroot := Config.free free (r.tag 40), layout := (List.range 3).map fun k => f (41 + k), started := true }

/-- A ray reloaded from its record (R259, R420), whose words are `ws`: two working registers come from UREG and the others are zero;
F is not in the record, and is free. -/
def Ray.reload (r : Ray) (free : Nat) (ws : List W32) : Ray :=
  let r := if r.saved.any (· ≠ ws) then r.scrambled free else r
  { r with
    wregs := [wordAt ws 28, wordAt ws 29] ++ List.replicate 14 0, flagF := Config.freeBool free (r.tag 45)
    nb := r.lroot + BitVec.ofNat 64 (r.node.toNat * (nodeLayout r.layout).size), saved := none }

/-- Whether a ray of a partition may go on (R368, R395): its partition runs or drains, and no debugger halts its context. -/
def State.rayRuns (s : State) (r : Ray) : Bool :=
  let p := s.part r.part
  (p.state = .running || p.state = .draining) && !(p.dbg.attach && p.dbg.ctx = r.ctx && p.dbg.state = 1) && !s.thermal.critical

/-- The rays of a condition that are under way are saved in their records (R271, R317). -/
def State.saveRays (s : State) (c : Ray → Bool) : State :=
  (s.rays.filter fun r => c r && r.state = .flight && r.saved.isNone && !r.ending).foldl (fun s r => (s.saveRay r 0).1) s

/-! ### The standard microcode -/

/-- The origin of a ray at its level. -/
def Ray.origin (r : Ray) : List W32 := if r.level = 0 then r.org else r.obj.take 3
/-- Its direction. -/
def Ray.heading (r : Ray) : List W32 := if r.level = 0 then r.dir else (r.obj.drop 3).take 3

/-- Whether a ray is a miss at once (R258). -/
def Ray.missAtOnce (r : Ray) : Bool :=
  (r.org ++ [r.tmin] ++ r.dir ++ [r.tmax]).any (fun x => (fromF32 x).isNan) || r.dir.all (fun x => (fromF32 x).isZero) ||
    fpLt r.tmax r.tmin

/-- A reference entered (R261): a leaf's primitives are tested next, or a node is visited. -/
def Ray.enter (r : Ray) (ref : W32) : Ray :=
  if isLeaf ref then { r with leaf := some (leafFirst ref, leafCount ref), visit := false } else { r with node := ref, visit := true }

/-- The start of an item (R420): the layout of the top level, and its root. -/
def Ray.begin (r : Ray) (s : State) : RayStep := do
  if r.missAtOnce then return (s, { r with started := true }, .ended)
  else
    let (s, ws) ← s.rayLayout r r.topIndex
    return (s, { r with started := true, visit := true, node := 0, lroot := r.topRoot, layout := ws, topLayout := ws, steps := r.steps + 24 },
      .go)

/-- The hit children of a node in the order of their visits (R491): tnear and reference. -/
def Ray.hitChildren (r : Ray) (y : NodeLayout) (boxes refs : List Byte) : List (W32 × W32) :=
  let ws := bytesWords refs
  let hit := (List.range y.fan).filterMap fun k =>
    (y.child ws k).bind fun ref =>
      let t := slabTest r.origin r.heading r.tmin r.thit (y.box boxes k)
      if t.2 then some (t.1, ref) else none
  hit.mergeSort fun a b => fpLe a.1 b.1

/-- The visit of a node (R330, R424, R491). -/
def Ray.visitNode (r : Ray) (s : State) : RayStep := do
  let y := nodeLayout r.layout
  let a := r.lroot + BitVec.ofNat 64 (r.node.toNat * y.size)
  let (s, boxes) ← s.rayRead r (a + BitVec.ofNat 64 y.boff) (y.fan * y.boxBytes)
  let (s, refs) ← s.rayRead r (a + BitVec.ofNat 64 y.coff) y.refBytes
  let r := { r with visit := false, steps := r.steps + 12 + 10 * y.fan }
  match r.hitChildren y boxes refs with
  | [] => return (s, r, .go)
  | first :: rest =>
    if 12 < r.stack.length + rest.length then .error .overflow
    else
      let later : List W32 := rest.reverse.map fun x => x.2
      return (s, ({ r with stack := r.stack ++ later } : Ray).enter first.2, .go)

/-- What follows an accepted triangle of the standard microcode (R258, R425 step 7): the hit is kept, reported, or ends the ray. -/
def Ray.found (r : Ray) (s : State) : RayStep :=
  match r.rf with
  | 2 => .ok (s, { r with cand := true }, .candidate)
  | 1 => .ok (s, r.accept, .ended)
  | _ => .ok (s, r.accept, .go)

/-- Whether a distance is accepted (R425 step 7). -/
def Ray.accepts (r : Ray) (t : W32) : Bool := fpLe r.tmin t && fpLe t r.tmax && (!r.accepted || fpLt t r.thit)

/-- The instance index of a ray's level (R331). -/
def Ray.instIndex (r : Ray) : W32 := if r.level = 0 then 0xFFFFFFFF else wordAt r.obj 6

/-- The nine coordinates and the index of primitive `p` (R330, R427). -/
def Ray.readTri (r : Ray) (s : State) (p : Nat) : Except RayStop (State × List W32 × Nat) := do
  let y := nodeLayout r.layout
  let at_ (q n : Nat) : W64 := r.lroot + BitVec.ofNat 64 (q * n)
  match y.prim with
  | 1 =>
    let (s, bs) ← s.rayRead r (at_ p 24) 18
    return (s, (List.range 9).map (fun k => elemF32 1 (bytesNat ((bs.drop (2 * k)).take 2))), p)
  | 2 =>
    let (s, bs) ← s.rayRead r (at_ p 4) 4
    let j := bytesNat bs
    let (s, bs) ← s.rayRead r (at_ j 48) 36
    return (s, bytesWords bs, j)
  | _ =>
    let (s, bs) ← s.rayRead r (at_ p 48) 36
    return (s, bytesWords bs, p)

/-- An instance inside an instance (log entry 47): the ray's record has no place for it, and the outcome is free. -/
def Ray.nested (r : Ray) (s : State) : RayStep :=
  let f (k : Nat) : W32 := Config.freeW32 s.free (66540 + k)
  .ok (s, { r with accepted := Config.freeBool s.free 66550, thit := f 0, prim := f 1, inst := f 2, bary := [f 3, f 4] }, .ended)

/-- The object-space ray of an instance read at an address, with its index (R261). -/
def Ray.transform (r : Ray) (ws : List W32) : List W32 := intoInstance ws r.org r.dir ++ [wordAt ws 15]

/-- The instance at an address read (R261): the object-space ray, and the root and layout of the lower level. -/
def Ray.readInstance (r : Ray) (s : State) (va : W64) : Except RayStop (State × Ray) := do
  let (s, bs) ← s.rayRead r va 64
  let ws := bytesWords bs
  let (s, lay) ← s.rayLayout r (wordAt ws 14).toNat
  return (s, { r with obj := r.transform ws, level := 1, lroot := wideAt ws 12, layout := lay, instAddr := va })

/-- XFORM (R261): the instance at an address is entered. -/
def Ray.enterInstance (r : Ray) (s : State) (va : W64) : Except RayStop (State × Ray) :=
  (r.readInstance s va).map fun x =>
    (x.1, { x.2 with topLeaf := r.leaf, leaf := none, topNode := r.node, levelDepth := r.stack.length })

/-- LEAVE (R421): the world ray is restored, and NODE is again the top level's (R333). -/
def Ray.leave (r : Ray) : Ray :=
  { r with level := 0, lroot := r.topRoot, layout := r.topLayout, leaf := r.topLeaf, topLeaf := none, levelDepth := 0, instAddr := 0
           node := r.topNode }

/-- The test of the next primitive of the current leaf, `p`, with `n` left (R330). -/
def Ray.testPrim (r : Ray) (s : State) (p n : Nat) : RayStep := do
  let y := nodeLayout r.layout
  let rest := if n ≤ 1 then none else some (p + 1, n - 1)
  let r := { r with steps := r.steps + y.primCost }
  if y.prim = 3 then
    if r.level ≠ 0 then r.nested s
    else
      let (s, r) ← ({ r with leaf := rest } : Ray).enterInstance s (r.lroot + BitVec.ofNat 64 (64 * p))
      return (s, { r with node := 0, visit := true }, .go)
  else
    let (s, v, j) ← r.readTri s p
    let r := { r with leaf := rest }
    match triTest r.origin r.heading v with
    | none => return (s, r, .go)
    | some (t, u, w) =>
      if r.accepts t then ({ r with tri := [t, u, w, BitVec.ofNat 32 j, r.instIndex] } : Ray).found s else return (s, r, .go)

/-- One step of the standard traversal microcode. -/
def Ray.next (r : Ray) (s : State) : RayStep :=
  if !r.started then r.begin s
  else
    match r.leaf with
    | some (p, n) => r.testPrim s p n
    | none =>
      if r.visit then r.visitNode s
      else if (if r.level = 0 then 0 else r.levelDepth) < r.stack.length then
        .ok (s, ({ r with stack := r.stack.dropLast } : Ray).enter (r.stack.getLastD 0), .go)
      else if r.level ≠ 0 then .ok (s, r.leave, .go)
      else .ok (s, r, .ended)

/-- How a run of a ray ends: on a stop, with a candidate, at its end, or having spent 2²⁰ micro-ops. -/
inductive RayEnd where
  | stop (x : RayStop)
  | candidate
  | ended
  | limit
  deriving DecidableEq, Repr

/-- The standard microcode run until it emits, yields or halts (R421), or crosses 2²⁰ micro-ops (R492). `fuel` bounds its steps. -/
def Ray.run (r : Ray) (s : State) : Nat → State × Ray × RayEnd
  | 0 => (s, r, .limit)
  | fuel + 1 =>
    match r.next s with
    | .error x => (s, r, .stop x)
    | .ok (s', r', .go) => if r.steps ≤ 1048576 ∧ 1048576 < r'.steps then (s', r', .limit) else r'.run s' fuel
    | .ok (s', r', .candidate) => (s', r', .candidate)
    | .ok (s', r', .ended) => (s', r', .ended)

/-- A candidate reported (R259, R260): the record is saved, and a hit record of KIND 2 is sent. -/
def State.reportCandidate (s : State) (r : Ray) (sq : Nat) : State :=
  match s.saveRay r sq with
  | (s, none) => s
  | (s, some r) => (s.emitHit r 2 sq).setRay { r with state := .waiting }

/-- A ray of the standard microcode emits a record, at a cost of 8 micro-ops (R492): past 2²⁰ it may be killed instead. -/
def State.rayEmits (s : State) (r : Ray) (sq : Nat) (emit : State → Ray → Nat → State) : State :=
  let r := { r with steps := r.steps + 8 }
  if 1048576 < r.steps && Config.freeBool s.free (r.tag 46) then s.killRay r sq else emit s r sq

/-- What the end of a run does to the state. -/
def State.rayDone (s : State) (sq : Nat) (r : Ray) : RayEnd → State
  | .stop x => (s.setRay r).rayStopped r sq x
  | .candidate => s.rayEmits r sq State.reportCandidate
  | .ended => s.rayEmits r sq State.endRay
  | .limit => s.setRay r

/-- The standard microcode's run of a ray on a sequencer. -/
def State.runRay (s : State) (r : Ray) (sq : Nat) : State :=
  let (s, r, e) := r.run s 1048576
  s.rayDone sq r e

/-- Whether a ray has spent what R422 allows its item: 2²⁰ micro-ops of its context's own microcode, or more than that under the standard
one (R492). -/
def State.overLimit (s : State) (r : Ray) : Bool :=
  if (s.ownMicrocode r.ctx 2).isSome then 1048576 ≤ r.steps else 1048576 < r.steps

/-- Whether a sequencer may run a ray (R421, R435): any of the 64, or for a safety rendering those of its GT-die. -/
def State.mayRun (s : State) (r : Ray) (sq : Nat) : Bool :=
  sq < 64 && ((s.rayDraw r.launch).bind s.boundDie).all fun k => sq / 32 = k

/-- A ray once its record is reloaded (R259, R260): it goes on, or waits for hitrep. -/
def Ray.resumed (r : Ray) : Ray := { r with state := if r.cand then .waiting else .flight }

/-- RAY_RESUME (R259, R333, R492): a sequencer reloads a saved record, and reads the instance again. -/
def execRayResume (n sq : Nat) (s : State) : Host.Outcome State Fault Refusal :=
  .next (match s.rays[n]? with
    | some r =>
      if r.saved.isSome && r.wait.isNone && !r.ending && (r.state = .flight || r.state = .faulted) && s.rayRuns r && s.mayRun r sq then
        match s.rayRead r r.addr 128 with
        | .error x => s.rayStopped r sq x
        | .ok (s', bs) =>
          let r' := r.reload s.free (bytesWords bs)
          if (s.ownMicrocode r.ctx 2).isSome then s'.setRay { r'.resumed with steps := 0 }
          else
            let r' := { r'.resumed with steps := r'.steps + 24 }
            if r'.level = 0 then s'.setRay r'
            else
              match r'.readInstance s' r'.instAddr with
              | .error x => s.rayStopped r sq x
              | .ok (s', r') => s'.setRay r'
      else s
    | none => s)

end Sys2Proof.Machine
end

