-- ==== Sys2Proof/Machine/Microcode.lean ====
section
/-! DEFINITION. Rays that run a context's own traversal microcode (R420 to R422). -/
namespace Sys2Proof.Machine

/-- What a micro-op of a ray leads to. -/
inductive MicroNext where
  | go
  | emit (kind : Nat)
  | yield
  | halt
  deriving DecidableEq, Repr

/-- A ray with a working register written. -/
def Ray.setW (r : Ray) (k : Nat) (v : W32) : Ray := { r with wregs := r.wregs.set k v }

/-- SLAB (R421, R424): the box of a child at NB. -/
def Ray.microSlab (r : Ray) (s : State) (w : W64) : Except RayStop (State × Ray) := do
  let y := nodeLayout r.layout
  let (s, bs) ← s.rayRead r (r.nb + BitVec.ofNat 64 (y.boff + y.boxBytes * mwC w)) y.boxBytes
  let t := slabTest r.origin r.heading r.tmin r.thit (y.box bs 0)
  return (s, { r.setW (mwD w) t.1 with flagF := t.2 })

/-- TRI (R421, R425): the primitive at an address; F says that its hit is accepted. An instance is no triangle: what its test
yields is free. -/
def Ray.microTri (r : Ray) (s : State) (va : W64) : Except RayStop (State × Ray) := do
  let y := nodeLayout r.layout
  if y.prim = 3 then
    return (s, { r with tri := (List.range 5).map fun k => Config.freeW32 s.free (66610 + k), flagF := Config.freeBool s.free 66616 })
  else
    let p := (va - r.lroot).toNat / y.primBytes
    let (s, v, j) ← ({ r with lroot := va - BitVec.ofNat 64 (p * y.primBytes) } : Ray).readTri s p
    match triTest r.origin r.heading v with
    | none => return (s, { r with flagF := false })
    | some (t, u, x) => return (s, { r with tri := [t, u, x, BitVec.ofNat 32 j, r.instIndex], flagF := r.accepts t })

/-- SETT (R421): with no triangle tested the hit it keeps is free. -/
def Ray.microAccept (r : Ray) (free : Nat) : Ray :=
  (if r.tri = [] then { r with tri := (List.range 5).map fun k => Config.freeW32 free (66610 + k) } else r).accept

/-- POP (R421): from an empty stack there is nothing to pop, and wD is free. -/
def Ray.microPop (r : Ray) (free k : Nat) : Ray :=
  match r.stack.getLast? with
  | some x => { r.setW k x with stack := r.stack.dropLast, flagF := false }
  | none => { r.setW k (Config.freeW32 free 66602) with flagF := true }

/-- One micro-op of a ray's own microcode (R421). -/
def Ray.micro (r : Ray) (s : State) (w : W64) : Except RayStop (State × Ray × MicroNext) :=
  let go (x : Except RayStop (State × Ray)) : Except RayStop (State × Ray × MicroNext) := x.map fun y => (y.1, y.2, .go)
  let load (n fmt : Nat) : Except RayStop (State × Ray) :=
    (s.rayRead r (r.nb + (mwImm w).setWidth 64) n).map fun x => (x.1, r.setW (mwD w) (elemF32 fmt (bytesNat x.2)))
  match mwOp w with
  | 1 => go ((s.rayRead r (r.nb + (mwImm w).setWidth 64) 4).map fun x => (x.1, r.setW (mwD w) (BitVec.ofNat 32 (bytesNat x.2))))
  | 2 => go (load 2 1)
  | 9 => .ok (s, { r with flagF := microCompare s.free (mwC w) (wreg r.wregs (mwA w)) (wreg r.wregs (mwB w)) }, .go)
  | 12 => go (r.microSlab s w)
  | 13 => go (r.microTri s (microAddr w r.wregs))
  | 14 => if 12 ≤ r.stack.length then .error .overflow else .ok (s, { r with stack := r.stack ++ [wreg r.wregs (mwA w)] }, .go)
  | 15 => .ok (s, r.microPop s.free (mwD w), .go)
  | 16 => .ok (s, r.microAccept s.free, .go)
  | 17 => .ok (s, r, .emit (mwC w))
  | 19 => .ok (s, if microTaken w r.flagF then { r with upc := mwTgt w } else r, .go)
  | 20 => .ok (s, { r with upc := mwTgt w }, .yield)
  | 21 =>
    let node := wreg r.wregs (mwA w)
    .ok (s, { r with node := node, nb := r.lroot + BitVec.ofNat 64 (node.toNat * (nodeLayout r.layout).size) }, .go)
  | 22 => go (r.enterInstance s (microAddr w r.wregs))
  | 23 => .ok (s, { r.leave with leaf := none, node := r.node }, .go)
  | 24 => .ok (s, r.setW (mwD w) (Config.freeW32 r.stamp (66620 + 16 * (r.id.toNat % 4096) + (mwImm w).toNat % 16)), .go)
  | 27 => .ok (s, r, .halt)
  | _ =>
    match microValue w r.wregs with
    | some v => .ok (s, r.setW (mwD w) v, .go)
    | none => .ok (s, r, .go)

/-- The start of an item of a context's own microcode (R258, R420). -/
def Ray.microBegin (r : Ray) (s : State) : Except RayStop (State × Ray × Bool) :=
  if r.started then .ok (s, r, false)
  else
    match r.begin s with
    | .error x => .error x
    | .ok (s, r, .ended) => .ok (s, r, true)
    | .ok (s, r, _) =>
      .ok (s, { r with visit := false, upc := 0, steps := 0, wregs := List.replicate 16 0, flagF := false, nb := r.lroot }, false)

/-- How a run of a ray's own microcode ends. -/
inductive MicroEnd where
  | stop (x : RayStop)
  | miss
  | next (x : MicroNext)
  | limit
  deriving DecidableEq, Repr

/-- A ray's own microcode run until it emits, yields or halts (R421), or has spent 2²⁰ micro-ops (R422). A stop leaves the ray at
the micro-op that met it. -/
def Ray.runMicro (r : Ray) (s : State) (image : List W64) : Nat → State × Ray × MicroEnd
  | 0 => (s, r, .limit)
  | fuel + 1 =>
    if 1048576 ≤ r.steps then (s, r, .limit)
    else
      let w := fetchMicro s.free image r.upc
      match ({ r with upc := (r.upc + 1) % 4096, steps := r.steps + 1 } : Ray).micro s w with
      | .error x => (s, r, .stop x)
      | .ok (s', r', .go) => r'.runMicro s' image fuel
      | .ok (s', r', x) => (s', r', .next x)

/-- A yield (R421, R260): the record is saved; the ray waits for hitrep when it has reported a candidate. -/
def State.microYield (s : State) (r : Ray) (sq : Nat) : State :=
  match s.saveRay { r with steps := 0 } sq with
  | (s, none) => s
  | (s, some r) => s.setRay { r with state := if r.cand then .waiting else .flight }

/-- What the end of a run of own microcode does. -/
def State.microDone (s : State) (sq : Nat) (r : Ray) : MicroEnd → State
  | .stop x => (s.setRay r).rayStopped r sq x
  | .miss => s.endRay { r with accepted := false } sq
  | .next (.emit kind) => (s.emitHit r kind sq).setRay { r with cand := r.cand || kind = 2 }
  | .next .yield => s.microYield r sq
  | .next .halt => s.setRay { r with state := .complete }
  | .next .go => s.setRay r
  | .limit => s.setRay r

/-- A run of a ray's own microcode on a sequencer. -/
def State.runOwn (s : State) (r : Ray) (sq : Nat) (image : List W64) : State :=
  match r.microBegin s with
  | .error x => s.rayStopped r sq x
  | .ok (s, r, true) => s.microDone sq r .miss
  | .ok (s, r, false) =>
    let (s, r, e) := r.runMicro s image 1048577
    s.microDone sq r e

/-- Whether the ray at a place of the list is the first of its GT-die's queue that can run (R431), or no longer in it. -/
def State.rayFirst (s : State) (n : Nat) (r : Ray) : Bool :=
  !r.queued || !(s.rays.take n).any fun x => x.queued && x.die = r.die && x.wait.isNone && s.rayRuns x

/-- TRAVERSAL_STEP (R421, R442): a ray under way, or the first of its queue, on a sequencer, while its core's hit queue has room. -/
def execTraversalStep (n sq : Nat) (s : State) : Host.Outcome State Fault Refusal :=
  .next (match s.rays[n]? with
    | some r =>
      if r.state = .flight && r.wait.isNone && (r.saved.isNone || r.ending) && s.rayRuns r && s.hitRoom r && s.mayRun r sq &&
          (!r.queued || (sq / 32 = r.die && s.rayFirst n r)) then
        if r.ending then (if (s.ownMicrocode r.ctx 2).isSome then s.endRay r sq else s.rayEmits r sq State.endRay)
        else
          match s.ownMicrocode r.ctx 2 with
          | some image => s.runOwn r sq image
          | none => s.runRay r sq
      else s
    | none => s)

end Sys2Proof.Machine
end

