-- ==== Sys2Proof/WellFormed.lean ====
section
/-! DEFINITION. Well-formed steps: an instruction that R130 lets through in a kernel of `n` declared registers, or a device
step whose arguments name things the device has. -/
namespace Sys2Proof

/-- The arguments of a device step name existing units (R2): cores 0 to 95, wave and block slots 0 to 63, lanes 0 to 31, partitions 0
to 7, dies 0 to 10, display pipes 0 to 5, camera ports 0 to 15, links 0 and 1, virtual functions and command pages of R338. -/
def eventOk : Instr → Bool
  | .rejoinDisarm core wslot => core < 96 && wslot < 64
  | .binDraw core bin => core < 96 && bin < 64
  | .sectionHoldExceeded core bslot _ => core < 96 && bslot < 64
  | .evictionWaveTimeout core wslot => core < 96 && wslot < 64
  | .haltComplete core wslot => core < 96 && wslot < 64
  | .vfFunctionLevelReset k => k < 8
  | .thermalThreshold die _ _ _ => die < 11
  | .throttleClockStep die => die < 11
  | .thermalCritical die => die < 11
  | .frameStart pipe => pipe < 6
  | .comparePoint pipe => pipe < 6
  | .bandLatch pipe => pipe < 6
  | .cameraFrame port _ => port < 16
  | .gulnosLinkUp link _ _ => link < 2
  | .gulnosLinkDown link => link < 2
  | .lookupEngineReset core => core < 96
  | .quarantineScanComplete core _ => core < 96
  | .bar4Read _ _ len => 0 < len
  | .bar4Write _ _ bytes => !bytes.isEmpty
  | .registerWrite _ _ size _ => size = 4 || size = 8
  | _ => true

/-- Well-formedness of a step in a kernel of `n` declared registers. -/
def WellFormed (n : Nat) (i : Instr) : Bool :=
  match Machine.opcodeOf i with
  | some (opc, o) =>
    match Machine.rowOf opc with
    | some row => (Machine.fieldCodes n row o).isEmpty
    | none => false
  | none => eventOk i

end Sys2Proof
end

