-- ==== Sys2Proof/Decode.lean ====
section
/-! DEFINITION. The decoder and the encoder of the 96-bit instruction word (R117 to R132). Decoding is total: a word is one
instruction, or the lowest code of R130 that applies to it. -/
namespace Sys2Proof

/-- The lane source of bits [9:8] of a register source (R51, R120). -/
def decodeLane (b : BitVec 2) : LaneSrc := if b = 0 then .own else if b = 1 then .left else if b = 2 then .right else .bcast

/-- Bits [9:8] of a lane source. -/
def encodeLane : LaneSrc → BitVec 2
  | .own => 0 | .left => 1 | .right => 2 | .bcast => 3

/-- A 17-bit source field as an operand (R120). -/
def decodeSrc (f : BitVec 17) : Src :=
  let kind := f.extractLsb' 15 2
  if kind = 0 then .reg (f.extractLsb' 0 8) (decodeLane (f.extractLsb' 8 2)) (f.getLsbD 10) (f.getLsbD 11)
  else if kind = 1 then .imm (f.extractLsb' 0 15)
  else if kind = 2 then .pool (f.extractLsb' 0 15)
  else .spec (f.extractLsb' 0 15)

/-- The 17-bit source field of an operand; a literal has no such field, and its place is taken by the 34 bits of R125. -/
def encodeSrc : Src → BitVec 17
  | .reg r lane neg abs => (0 : BitVec 5) ++ BitVec.ofBool abs ++ BitVec.ofBool neg ++ encodeLane lane ++ r
  | .imm p => (1 : BitVec 2) ++ p
  | .pool p => (2 : BitVec 2) ++ p
  | .spec p => (3 : BitVec 2) ++ p
  | .lit _ => 0

/-- A register-kind field with a non-zero bit of [14:12] (R130 code 3). -/
def highBitsCodes (f : BitVec 17) : List Nat :=
  if f.extractLsb' 15 2 = 0 && f.extractLsb' 12 3 ≠ 0 then [3] else []

/-- Fields of the word (R117). -/
def wordOpc (w : W96) : Nat := (w.extractLsb' 0 10).toNat
/-- MOD, bits [16:10]. -/
def wordMod (w : W96) : BitVec 7 := w.extractLsb' 10 7
/-- SA, bits [42:26]. -/
def wordA (w : W96) : BitVec 17 := w.extractLsb' 26 17
/-- SB, bits [59:43]. -/
def wordB (w : W96) : BitVec 17 := w.extractLsb' 43 17
/-- SC, bits [76:60]. -/
def wordC (w : W96) : BitVec 17 := w.extractLsb' 60 17

/-- The operand fields of a word; with `isLit` the bits [76:43] are the literal field (R125). -/
def decodeOperands (isLit : Bool) (w : W96) : Operands :=
  { mod := wordMod w
    dst := ⟨w.getLsbD 25, w.extractLsb' 17 8⟩
    a := decodeSrc (wordA w)
    b := if isLit then .lit (w.extractLsb' 43 32) else decodeSrc (wordB w)
    c := if isLit then .unused else decodeSrc (wordC w)
    guard := ⟨w.extractLsb' 77 8, w.extractLsb' 85 5, w.getLsbD 90⟩
    sw := w.getLsbD 91
    ru := w.extractLsb' 92 3
    yld := w.getLsbD 95 }

/-- The codes of the word's bits that no operand holds: bits [14:12] of register-kind fields, and bits [76:75] of a literal
field (R130 codes 3 and 5). -/
def rawCodes (isLit : Bool) (w : W96) : List Nat :=
  highBitsCodes (wordA w) ++
    (if isLit then (if w.extractLsb' 75 2 = 0 then [] else [5]) else highBitsCodes (wordB w) ++ highBitsCodes (wordC w))

/-- One instruction word in a kernel of `n` declared registers: the instruction, or the code of R130. -/
def decode (n : Nat) (w : W96) : Except Nat Instr :=
  match Machine.rowOf (wordOpc w) with
  | none => .error 1
  | some row =>
    if row.legal (wordMod w).toNat then
      let isLit := row.isLit (wordMod w).toNat
      let o := decodeOperands isLit w
      match Machine.leastCode (rawCodes isLit w ++ Machine.fieldCodes n row o) with
      | none => .ok (row.ins o)
      | some c => .error c
    else .error 2

/-- The word of operand fields under an opcode (R117). -/
def encodeOperands (opc : Nat) (o : Operands) : W96 :=
  let sources : BitVec 51 :=
    match o.b with
    | .lit v => (0 : BitVec 2) ++ v ++ encodeSrc o.a
    | b => encodeSrc o.c ++ encodeSrc b ++ encodeSrc o.a
  BitVec.ofBool o.yld ++ o.ru ++ BitVec.ofBool o.sw ++ BitVec.ofBool o.guard.sense ++ o.guard.bit ++ o.guard.reg ++ sources
    ++ BitVec.ofBool o.dst.wide ++ o.dst.reg ++ o.mod ++ BitVec.ofNat 10 opc

/-- The word of an instruction; none for the device's other steps, which have no encoding. -/
def encode (i : Instr) : Option W96 :=
  match Machine.opcodeOf i with
  | some (opc, o) => some (encodeOperands opc o)
  | none => none

/-- The three little-endian parcels of a word as bytes, the lowest address first (R118). -/
def wordBytes (w : W96) : List Byte := (List.range 12).map fun k => w.extractLsb' (8 * k) 8

/-- The word of twelve bytes; bytes that are missing count as zero. -/
def bytesWord : List Byte → W96
  | [] => 0
  | b :: bs => b.setWidth 96 ||| (bytesWord bs <<< 8)

/-- Decoding from a byte string: the instruction and the bytes after it; none where twelve bytes are not there or the word
is illegal. -/
def decodeBytes (n : Nat) (l : List Byte) : Option (Instr × List Byte) :=
  if 12 ≤ l.length then
    match decode n (bytesWord (l.take 12)) with
    | .ok i => some (i, l.drop 12)
    | .error _ => none
  else none

/-- The bytes of an instruction whose bits are `w`, numbered from the first word upwards, with every bit above `nbits` zero. -/
def tableBytes (nbits w : Nat) : List Byte := wordBytes (BitVec.ofNat 96 (w % 2 ^ nbits))

/-- The instruction the decoder reads from the bits `w` of an opcode-table row, in a kernel of 256 registers. -/
def decodeTableWord (nbits w : Nat) : Option Instr := (decodeBytes 256 (tableBytes nbits w)).map (·.1)

end Sys2Proof
end

