-- ==== Sys2Proof/Machine/Control.lean ====
section
/-! DEFINITION. Group 2: control flow (R157 to R168), with the checks every transfer makes before any lane's effect. -/
namespace Sys2Proof.Machine

/-- An instruction fetch by the issuing threads (R404). -/
def View.accFetch (v : View) : Acc := ⟨3, false, true, v.priv⟩

/-- The failure of a transfer's target in a lane (R158): misaligned, or a page of its word that is not executable. -/
def View.targetFault (v : View) (lane : Nat) (t : W64) : Option State :=
  if t.toNat % 4 ≠ 0 then some (v.fatal { v.faultRec lane 0x24 with va := t })
  else
    match (accessParts t 12).find? fun p => !canonical p.1 with
    | some p => some (v.accessFailed v.accFetch ⟨lane, p.1, .address⟩)
    | none =>
      match v.s.partPieces v.ctx v.accFetch false lane (accessParts t 12) with
      | .error f => some (v.accessFailed v.accFetch f)
      | .ok _ => none

/-- The issue set moves on (R158): each lane of `p` to its own next PC with its own change, the others by one instruction. -/
def View.branch (v : View) (o : Operands) (s : State) (p : Mask) (next : Nat → W64) (f : Nat → Thread → Thread) : State :=
  v.onWave s fun w =>
    let w := w.transfer v.active fun i t => if p.getLsbD i then { f i t with pc := next i } else { t with pc := nextPc v.ic.pc }
    { w with marker := w.marker || o.sw, skips := if o.yld then 1 else w.skips }

/-- A control transfer (R158): the targets of the lanes of `q`, those that transfer, are checked first, and a failure nullifies
the instruction in all lanes; of lanes that fail in different ways the lowest gives the fault (DESIGN CHOICE, log entry 146). The lanes of
`p` then move in the state `s`, each to its next PC. -/
def View.jump (v : View) (o : Operands) (p q : Mask) (next : Nat → W64) (f : Nat → Thread → Thread) (s : State) : State :=
  match (lanesOf q).findSome? fun i => v.targetFault i (next i) with
  | some bad => bad
  | none => v.branch o s p next f

/-- A change of nothing. -/
def sameThread (_ : Nat) (t : Thread) : Thread := t

/-- bra (R159). -/
def execBra (o : Operands) (s : State) : Host.Outcome State Fault Refusal :=
  withIssue s fun v => v.jump o (v.passing o) (v.passing o) (fun _ => dispTarget v.ic.pc o.a) sameThread v.s

/-- brx (R159). -/
def execBrx (o : Operands) (s : State) : Host.Outcome State Fault Refusal :=
  withIssue s fun v => v.jump o (v.passing o) (v.passing o) (fun i => v.src64 0 o.a i) sameThread v.s

/-- The link write and the call depth of call and callx (R160). -/
def linkThread (pc : W64) (_ : Nat) (t : Thread) : Thread :=
  { t.setReg 31 ((nextPc pc).setWidth 32) with depth := t.depth + 1 }

/-- The link register's outstanding results are written over by a call (R56, R55). -/
def View.linkState (v : View) (p : Mask) : State := if v.outstanding then v.clobber v.s p 31 1 else v.s

/-- call (R160). -/
def execCall (o : Operands) (s : State) : Host.Outcome State Fault Refusal :=
  withIssue s fun v =>
    let p := v.passing o
    v.jump o p p (fun _ => dispTarget v.ic.pc o.a) (linkThread v.ic.pc) (v.linkState p)

/-- callx (R160): the target is read before v31 is written. -/
def execCallx (o : Operands) (s : State) : Host.Outcome State Fault Refusal :=
  withIssue s fun v =>
    let p := v.passing o
    v.jump o p p (fun i => v.src64 0 o.a i) (linkThread v.ic.pc) (v.linkState p)

/-- The target of ret (R160): the pair with W, else v31 in the 4 GiB region of the ret. -/
def View.retTarget (v : View) (o : Operands) (i : Nat) : W64 :=
  if modBit o.mod.toNat 0 then v.src64 0 o.a i else v.ic.pc.extractLsb' 32 32 ++ v.readSlot i 31 (readTag i 0 0)

/-- ret (R160). -/
def execRet (o : Operands) (s : State) : Host.Outcome State Fault Refusal :=
  withIssue s fun v => v.jump o (v.passing o) (v.passing o) (v.retTarget o) (fun _ t => { t with depth := t.depth - 1 }) v.s

/-- A "section left open" record for a thread that ends while it holds its ordered section (R226, R416). -/
def View.sectionLeft (v : View) (s : State) (lane : Nat) : State :=
  if (v.thread lane).holds then
    s.notice v.ctx { v.faultRec lane 0x32 with synd := BitVec.ofNat 32 (v.block lane).bslot }
  else s

/-- exit (R161): the threads whose guard passes end; the others advance. What their end completes is settled within the same
step. -/
def execExit (o : Operands) (s : State) : Host.Outcome State Fault Refusal :=
  withIssue s fun v =>
    let p := v.passing o
    let rel := if p = 0 then none else some 1
    v.unlessHeld rel <|
    let s := (lanesOf p).foldl v.sectionLeft (if p = 0 then v.s else v.s.release v.ic.core 1)
    v.retire o (v.active &&& ~~~p) (v.onWave s fun w => w.endLanes p)

/-- rejoin (R164, R24): one entry for the whole issue set, from the lowest lane whose guard passes. -/
def execRejoin (o : Operands) (s : State) : Host.Outcome State Fault Refusal :=
  withIssue s fun v =>
    let p := v.passing o
    if p = 0 then v.retire o v.active v.s else
      let l := lowestLane p
      let m := v.src32 .int 0 o.a l &&& v.w.occupied
      v.retire o v.active (v.onWave v.s fun w =>
        { w with rejoin := armRejoin w.rejoin (dispTarget v.ic.pc o.b) m v.ic.pc (v.thread l).depth })

/-- yield (R166): the wave is passed over on its quadrant's next n + 1 choices at which another is eligible. -/
def execYield (o : Operands) (s : State) : Host.Outcome State Fault Refusal :=
  withIssue s fun v =>
    v.onWave (v.retire o v.active v.s) fun w => { w with skips := if v.passing o = 0 then w.skips else immNat o.a + 1 }

/-- nop (R166). -/
def execNop (o : Operands) (s : State) : Host.Outcome State Fault Refusal :=
  withIssue s fun v => v.retire o v.active v.s

/-- Whether a debugger with breakpoints enabled is attached to the context (R167, R395). -/
def View.breakable (v : View) : Bool :=
  let d := (v.s.part v.part).dbg
  d.attach && d.brk && d.ctx = v.ctx

/-- brkp (R167): the issue set advances, and the wave begins to halt with reason "breakpoint". -/
def execBrkp (o : Operands) (s : State) : Host.Outcome State Fault Refusal :=
  withIssue s fun v =>
    let s := v.retire o v.active v.s
    if v.passing o = 0 || !v.breakable then s
    else v.onWave s fun w => { w with halt := ⟨1, 1, BitVec.ofNat 16 (immNat o.a)⟩ }

/-- The entries of jtbl's table that lanes read (R163): lane and address, where 4i + 4 lies in the extent. -/
def View.tableReads (v : View) (o : Operands) (p : Mask) (ws : List W32) : List (Nat × W64) :=
  (lanesOf p).filterMap fun i =>
    let k := (v.src32 .int 0 o.a i).toNat
    if 4 * k + 4 ≤ recExtent ws then some (i, recBase ws + BitVec.ofNat 64 (4 * k)) else none

/-- jtbl (R163): each lane reads its entry as a plain load and transfers by it; beyond the extent it goes on in sequence. -/
def execJtbl (o : Operands) (s : State) : Host.Outcome State Fault Refusal :=
  withIssue s fun v =>
    let p := v.passing o
    if p = 0 then v.retire o v.active v.s else
      match v.poolRecord o.b with
      | .error s => s
      | .ok ws =>
        if !plainOk ws then v.rejectPool o.b else
          let reads := v.tableReads o p ws
          if reads ≠ [] ∧ (recBase ws).toNat % 4 ≠ 0 then
            v.fatal { v.faultRec (lowestLane p) 0x23 with va := recBase ws }
          else
            match addressFault 4 reads with
            | some f => v.accessFailed v.accLoad f
            | none =>
              match v.s.lanePieces v.ctx v.accLoad false 4 reads with
              | .error f => v.accessFailed v.accLoad f
              | .ok ps =>
                match v.s.badLine v.part true ps with
                | some b => v.lineFailed b
                | none =>
                  let v' : View := { v with s := v.touchPieces v.s ps }
                  let next (i : Nat) : W64 :=
                    if reads.any (·.1 = i) then
                      v.ic.pc + 12 * (BitVec.ofNat 32 (bytesNat (v'.laneBytes ps i))).signExtend 64
                    else nextPc v.ic.pc
                  v.jump o p (bitsWhere fun i => reads.any (·.1 = i)) next sameThread (v.remoteReads (v.cachePieces v'.s ps) ps)

/-- loopd (R162): the counter is class V, and returns before the wave issues again, so that it is written here. -/
def execLoopd (o : Operands) (s : State) : Host.Outcome State Fault Refusal :=
  withIssue s fun v =>
    if v.resultsFull then v.waitSlot else
      let p := v.passing o
      let x (i : Nat) : W32 := v.src32 .int 0 o.a i - 1
      v.jump o p (bitsWhere fun i => p.getLsbD i && x i ≠ 0) (fun i => if x i ≠ 0 then dispTarget v.ic.pc o.b else nextPc v.ic.pc) sameThread
        (v.writeNow v.s p o.dst.reg.toNat 1 fun i => out32 (x i))

end Sys2Proof.Machine
end

