-- ==== Sys2Proof/Machine/System.lean ====
section
/-! DEFINITION. Group C: special registers, user traps, system calls and the counter (R59 to R61, R266 to R270, R369). -/
namespace Sys2Proof.Machine

/-! ### Special registers -/

/-- The core's die counter (R3, R60). -/
def View.clock (v : View) : W64 := v.s.dieTime (coreDie v.ic.core)

/-- s.tstat (R60, R238): the valid table registers, in a block that owns the engine state. -/
def View.tstat (v : View) (lane : Nat) : W32 :=
  let c := v.s.core v.ic.core
  if c.owner = some (v.thread lane).blk then bitsWhere fun k => k < 24 && ((c.table? k).any fun t => t.state = 1) else 0

/-- s.pcls (R369). -/
def Layout.pcls (l : Layout) : W32 := BitVec.ofNat 32 (l.cls % 4 + 4 * (l.bwshare % 128) + 512 * (l.dbase % 64) + 32768 * (l.dm % 8))

/-- s.slrem (R369, R373): µs left in the partition's window as the layout places it; 0 outside it. -/
def State.slrem (s : State) (p : Nat) : W32 :=
  let l := (s.part p).layout
  if l.wlen = s.boot.period then 0xFFFFFFFF
  else BitVec.ofNat 32 (if s.inWindow p then l.woff + l.wlen - s.periodTime else 0)

/-- The value of a special register in a lane, as 64 bits (R60, R369). -/
def View.special (v : View) (lane num : Nat) : W64 :=
  let t := v.thread lane
  match num with
  | 0x0A => v.clock
  | 0x0C => t.sp
  | 0x0D => t.slim
  | 0x0E => t.tvec
  | 0x0F => t.tpc
  | 0x10 => t.tcause.setWidth 64
  | 0x11 => t.synd.setWidth 64
  | 0x12 => t.unit.setWidth 64
  | 0x16 => (v.block lane).kprog.setWidth 64
  | 0x17 => (v.tstat lane).setWidth 64
  | 0x18 => v.w.fflags.setWidth 64
  | 0x4000 => (v.s.part v.part).layout.pcls.setWidth 64
  | 0x4001 => (v.s.slrem v.part).setWidth 64
  | 0x4002 => BitVec.ofNat 64 (v.s.part v.part).layout.mbt
  | 0x4003 => v.s.boot.flips.setWidth 64
  | n => (v.direct lane n).setWidth 64

/-- The number a special-register operand names. -/
def specNum : Src → Nat
  | .spec n => n.toNat
  | _ => 0

/-- Whether an instruction reaches the privileged view without the right to (R59): for no lane where its guard fails in all, of which
R59 and R131 do not speak (DESIGN CHOICE, log entry 145). -/
def View.unprivileged (v : View) (o : Operands) : Bool := v.passing o ≠ 0 && 0x4000 ≤ specNum o.a && !v.priv

/-- The privilege fault (R59). -/
def View.privilegeFault (v : View) (o : Operands) : State := v.fatal (v.faultRec (lowestLane (v.passing o)) 0x21)

/-- srd (R266): the value at issue. -/
def execSrd (o : Operands) (s : State) : Host.Outcome State Fault Refusal :=
  withIssue s fun v =>
    if v.unprivileged o then v.privilegeFault o
    else v.classV o fun i =>
      let x := v.special i (specNum o.a)
      if modBit o.mod.toNat 0 then out64 x else out32 (x.setWidth 32)

/-- A thread with a special register written (R59, R60): writes to the others are ignored. -/
def Thread.setSpecial (t : Thread) (num : Nat) (x : W64) : Thread :=
  match num with
  | 0x0C => { t with sp := x }
  | 0x0D => { t with slim := x }
  | 0x0E => { t with tvec := x }
  | 0x0F => { t with tpc := x }
  | 0x13 => { t with tilex := x.setWidth 32 }
  | 0x14 => { t with tiley := x.setWidth 32 }
  | 0x15 => { t with tilez := x.setWidth 32 }
  | _ => t

/-- The value swr writes in a lane. -/
def View.swrValue (v : View) (o : Operands) (i : Nat) : W64 :=
  if modBit o.mod.toNat 0 then v.src64 1 o.b i else (v.src32 .int 1 o.b i).setWidth 64

/-- swr (R266): at issue; s.fflags is cleared by ones (R75). -/
def execSwr (o : Operands) (s : State) : Host.Outcome State Fault Refusal :=
  withIssue s fun v =>
    let p := v.passing o
    let num := specNum o.a
    if v.unprivileged o then v.privilegeFault o
    else v.retire o v.active (v.onWave v.s fun w =>
      let w := w.mapLanes p fun i t => t.setSpecial num (v.swrValue o i)
      if num = 0x18 then { w with fflags := (lanesOf p).foldl (fun f i => ffClear f ((v.swrValue o i).setWidth 32)) w.fflags } else w)

/-! ### Traps and system calls -/

/-- trap (R268, R269): cause 1 with the code as its syndrome; s.unit is 0, there being no unit (log entry 30). -/
def execTrap (o : Operands) (s : State) : Host.Outcome State Fault Refusal :=
  withIssue s fun v =>
    let p := v.passing o
    let s := v.retire o (v.active &&& ~~~p) v.s
    (lanesOf p).foldl (fun s i =>
      s.takeTrap v.ic.core v.ic.wslot i 1 (BitVec.ofNat 32 (immNat o.a)) 0 (nextPc v.ic.pc)) s

/-- tret (R268): it waits as at a switch marker, and takes the stage fault outside a handler. -/
def execTret (o : Operands) (s : State) : Host.Outcome State Fault Refusal :=
  withIssue s fun v =>
    let p := v.passing o
    if p = 0 then v.retire o v.active v.s
    else
      match (lanesOf p).find? fun i => !(v.thread i).inHandler with
      | some i => v.stageFault i
      | none =>
        if v.outstanding then v.waitMarker v.s
        else v.branch o v.s p (fun i => (v.thread i).tpc) fun _ t => t.untrapped

/-- sysc (R267): the threads wait for the host to complete their record; with the ring full the instruction waits in issue
(R414). -/
def execSysc (o : Operands) (s : State) : Host.Outcome State Fault Refusal :=
  withIssue s fun v =>
    let p := v.passing o
    let own := 1 + v.part
    if p = 0 then v.retire o v.active v.s
    else if v.s.replayFull own then v.park v.s v.active (.retry (.replayRing own))
    else
      let r := { v.faultRec (lowestLane p) 0x04 with ctx := some v.ctx, part := v.part, synd := BitVec.ofNat 32 (immNat o.a) }
      let (s, sq) := v.s.postReplay own r
      v.park (v.retire o v.active s) p (.sysc own sq)

/-- clk (R266): .ord waits as at a switch marker, and for the earlier engine commands of its lanes. -/
def execClk (o : Operands) (s : State) : Host.Outcome State Fault Refusal :=
  withIssue s fun v =>
    let p := v.passing o
    let ord := modBit o.mod.toNat 0 && p ≠ 0
    let busy : Mask := bitsWhere fun i => p.getLsbD i && v.s.cmds.any fun c => c.uid = (v.thread i).uid
    if ord && v.outstanding then v.waitMarker v.s
    else if ord && busy ≠ 0 then v.park v.s v.active (.retry .clkOrd)
    else v.classV o fun _ => out64 v.clock

end Sys2Proof.Machine
end

