-- ==== Sys2Proof/Machine/SideTables.lean ====
section
/-! DEFINITION. The side tables that hardware reads (R276 to R278): a launch's kernel descriptor, its safe-point bitmap and its
live-mask table, and what a thread keeps of its registers when it is filed or saved (R29). -/
namespace Sys2Proof.Machine

/-- The engine that reads a launch's side tables for a core, as loads of the context with no ordering (R276). -/
def Launch.tableEng (l : Launch) (core : Nat) : Eng :=
  { ctx := l.ctx, core := some core, agent := 0, since := l.stamp, rel := false, loc := locWord core 0 0 0, pc := 0, info := 0 }

/-- Where a launch's kernel descriptor lies (R277): 32 bytes before its entry, or at KDESC of a context's message launch
settings; none where KDESC is 0. -/
def State.kdesc (s : State) (l : Launch) : Option W64 :=
  if l.handler then
    let k := ((s.ctxOf l.ctx).msg.map (·.kdesc)).getD 0
    if k = 0 then none else some k
  else some (l.pool + (wordAt l.words 0).signExtend 64 - 32)

/-- The words of a launch's kernel descriptor with its address; none where there is no descriptor. One with a reserved bit set is
rejected (R12, R276). -/
def State.kernelDesc (s : State) (l : Launch) (core : Nat) : Except EngFail (Option (W64 × List W32)) :=
  match s.kdesc l with
  | none => .ok none
  | some a => do
    let x ← s.engRead (l.tableEng core) a 32
    let ws := bytesWords x.2
    if bitsAt ws 192 64 ≠ 0 then .error (.kill 0x31 a 0) else return some (a, ws)

/-- The instruction number of a PC in the kernel of a descriptor (R276); none outside the kernel (R277). Log entry 31. -/
def kernelIndex (desc : W64) (ws : List W32) (pc : W64) : Option Nat :=
  let d := (pc - (desc + 32)).toNat
  if d < 12 * (wordAt ws 4).toNat then some (d / 12) else none

/-- Whether a PC is a safe point of a launch's threads (R277). -/
def State.safePoint (s : State) (l : Launch) (core : Nat) (pc : W64) : Except EngFail Bool := do
  match ← s.kernelDesc l core with
  | none => return true
  | some (a, ws) =>
    match kernelIndex a ws pc with
    | none => return true
    | some i =>
      if wideAt ws 0 = 0 then return true
      else
        let x ← s.engRead (l.tableEng core) (wideAt ws 0 + BitVec.ofNat 64 (i / 8)) 1
        return (bytesNat x.2).testBit (i % 8)

/-- The mask of the first live-mask entry for an instruction among `n` entries from an address (R278). -/
def State.findMask (s : State) (e : Eng) (i : Nat) (a : W64) : Nat → Except EngFail (Option (List W32))
  | 0 => .ok none
  | n + 1 => do
    let x ← s.engRead e a 40
    let ws := bytesWords x.2
    if (wordAt ws 0).toNat = i then return some (ws.drop 2)
    else State.findMask s e i (a + 40) n

/-- The live mask at a PC (R278); none where every declared register is kept. -/
def State.liveMask (s : State) (l : Launch) (core : Nat) (pc : W64) : Except EngFail (Option (List W32)) := do
  match ← s.kernelDesc l core with
  | none => return none
  | some (a, ws) =>
    match kernelIndex a ws pc with
    | none => return none
    | some i => if wideAt ws 2 = 0 then return none else s.findMask (l.tableEng core) i (wideAt ws 2) (wordAt ws 5).toNat

/-- A thread with the registers that a live mask keeps; each other one is unpredictable (R29, R278). -/
def Thread.keepLive (t : Thread) (free : Nat) (mask : Option (List W32)) : Thread :=
  match mask with
  | none => t
  | some ws =>
    { t with regs := t.regs.mapIdx fun k x =>
        if k = 0 ∨ bitsAt ws k 1 = 1 then x else Config.freeW32 free (1125899906842624 + 256 * t.uid + k) }

/-- The failure of a side-table read (R276): the address fault of R89 for the context, a kernel descriptor rejected under R12 (R493
code 15), or a line that does not serve it. -/
def State.tableFailed (s : State) (l : Launch) (r : Rec) : EngFail → State
  | .stop x => s.fatal l.ctx { r with kind := 0x22, va := x.va }
  | .kill kind va _ =>
    s.fatal l.ctx (if kind = 0x31 then { r with kind := 0x31, va := va, synd := 15 } else { r with kind := 0x22, va := va })
  | .line va line x => s.lineError l.ctx { r with va := va } line x

end Sys2Proof.Machine
end

