-- ==== Sys2Proof/Machine/Issue.lean ====
section
/-! DEFINITION. Issue (R21, R22, R26, R46): which threads are eligible, the choice of a wave and of its issue set, the fetch of
its instruction (R23, R115, R404), and what settles after every step: waits that end, waves and blocks that end. -/
namespace Sys2Proof.Machine

/-! ### Waits that end -/

/-- Whether the cause for which a thread waits in issue has passed (R22). -/
def State.retryOver (s : State) (w : Wave) (t : Thread) : Retry → Bool
  | .classV => (s.resultsOf w.core w.wslot).length < 32
  | .commands b => (s.cmds.filter fun c => c.blk = b).length < 64
  | .recordQueue p k c => s.hardwareRoom p k || (s.ctxOf c).ringRoom k
  | .rayRecord l => s.raySends l
  | .primRoom d => (s.draw? d).all s.primRoom
  | .replayRing o => !s.replayFull o
  | .engine k => (s.core k).hung.isNone && (s.core k).task.isNone && (s.core k).owner.all (· = t.blk)
  | .stashRange b lo n => !s.scoreAny b lo n
  | .scratchRange b lo n wr => !s.scoreHit b lo n wr
  | .coreOut k => !s.blocks.any fun b => b.core = k && b.out
  | .clkOrd => !s.cmds.any fun c => c.uid = t.uid
  | .fenceSys => !s.cwbPending w.core
  | .task tok => 2 ≤ s.tokenState (s.launchOf w.launch).part tok
  | .writeRange k => (s.core k).ranges.length < 32 || (closestPair (s.core k).ranges).isSome
  | .slice => s.storage.held.isEmpty && !s.mp.split.any (·.stage = 2)
  | .peers => false

/-- Whether a barrier's generation is past one that barw waits for (R222). -/
def genPast (gen g : W16) : Bool := 1 ≤ (gen - g).toNat && (gen - g).toNat ≤ 32768

/-- Whether a thread's wait has ended (R22). -/
def State.waitOver (s : State) (w : Wave) (t : Thread) : Bool :=
  match t.wait with
  | .ready => false
  | .bar n g => ((s.blockOf t.blk).barrier n).gen ≠ g
  | .barw n g => genPast ((s.blockOf t.blk).barrier n).gen g
  | .barc g => (s.clubar (s.blockOf t.blk).cluster).gen ≠ g
  | .ordered => t.pixel.all s.mayEnter
  | .scoreboard b lo n => !s.scoreAny b lo n
  | .await tok => s.tokenDone t.blk tok
  | .sysc _ _ => false
  | .replay _ _ => false
  | .retry why => s.retryOver w t why
  | .trap _ _ _ _ => false
  | .save => false

/-- Whether leaving a wait is an acquire beyond the core: barc, a section, a completion with a release (R223, R225, R112). -/
def State.wakeAcquires (s : State) (t : Thread) : Bool :=
  match t.wait with
  | .barc _ => true
  | .ordered => true
  | _ => s.observes t

/-- Whether a thread waits at a named barrier, which it leaves by an acquire at .blk (R97). -/
def Thread.atBarrier (t : Thread) : Bool :=
  match t.wait with
  | .bar _ _ | .barw _ _ => true
  | _ => false

/-- A thread whose wait has ended: one that waited for its section now holds it (R225). -/
def Thread.woken (t : Thread) (now : Nat) : Thread :=
  match t.wait with
  | .ordered => { t with wait := .ready, holds := true, holdStart := now }
  | _ => { t with wait := .ready }

/-- Lanes that waited for their peers' records, all of whose peers have left: they advance (R42, R258). -/
def Wave.peersLeft (w : Wave) : Mask :=
  bitsWhere fun i =>
    match w.live? i with
    | some t => t.sent && t.wait = .retry .peers && !((lanesOf w.occupied).any fun k => (w.live? k).any fun u => u.pc = t.pc && !u.sent)
    | none => false

/-- A wave's waits that have ended. -/
def State.wakeWave (s : State) (core wslot : Nat) : State :=
  match s.wave? core wslot with
  | none => s
  | some w =>
    let isOver : Mask := bitsWhere fun i => (w.live? i).any (s.waitOver w)
    let s' :=
      if (lanesOf isOver).any fun i => (w.live? i).any s.wakeAcquires then s.dropL1 core
      else if (lanesOf isOver).any fun i => (w.live? i).any (·.atBarrier) then s.acquire core 1
      else s
    let w' := w.mapLanes isOver fun _ t => t.woken s.now
    let left := w.peersLeft
    let w' := if left = 0 then w' else w'.transfer left fun _ t => { t with pc := nextPc t.pc, sent := false, wait := .ready }
    s'.mapWave core wslot fun _ => { w' with marker := w.marker && !s.drained core wslot }

/-- The traps of a wave that waited for its class-V results are taken once they have returned (R268, R58). -/
def State.enterTraps (s : State) (core wslot : Nat) : State :=
  match s.wave? core wslot with
  | none => s
  | some w =>
    if !s.drained core wslot then s else
      (lanesOf w.occupied).foldl (fun s i =>
        match ((w.live? i).getD .blank).wait with
        | .trap cause synd unit tpc => s.enterTrap core wslot i cause synd unit tpc
        | _ => s) s

/-! ### Eligible threads -/

/-- Whether a whole wave issues nothing (R22): at a switch marker, or under a debugger's halt. -/
def Wave.stopped (w : Wave) : Bool := w.marker || w.halt.state ≠ 0

/-- The eligible threads of a wave (R22). -/
def Wave.eligible (w : Wave) : Mask :=
  if w.stopped then 0
  else bitsWhere fun i => ((w.live? i).any fun t => t.wait = .ready) && !w.isHeld i

/-- A thread that waits only for its wave's class-V results (R26). -/
def Thread.waitsResults (t : Thread) : Bool :=
  match t.wait with
  | .retry .classV => true
  | .trap _ _ _ _ => true
  | _ => false

/-- Whether R26 acts on a wave: no thread is eligible, some are held, and none waits only for class-V results. -/
def Wave.deadlocked (w : Wave) : Bool :=
  !w.stopped && w.saving.isNone && w.eligible = 0 && (lanesOf w.occupied).any w.isHeld &&
    !(lanesOf w.occupied).any fun i => (w.live? i).any fun t => t.waitsResults && !w.isHeld i

/-- The lowest-numbered armed entry that holds threads disarms (R26). -/
def Wave.breakRejoin (w : Wave) : Wave :=
  match w.rejoin.findIdx? fun e => e.armed && e.held ≠ 0 with
  | some k => { w with rejoin := updateAt w.rejoin k Rejoin.disarm }
  | none => w

/-- A wave whose threads that are not eligible have a starvation count of zero (R21). -/
def Wave.restCounts (w : Wave) : Wave := w.mapLanes (w.occupied &&& ~~~w.eligible) fun _ t => { t with starve := 0 }

/-! ### Waves and blocks that end -/

/-- A wave with no occupied slot ends (R20); results it still waits for have no thread to return to (R161). -/
def State.reapWaves (s : State) : State :=
  let gone (w : Wave) : Bool := w.occupied = 0
  if s.waves.any gone then
    { s with waves := s.waves.filter fun w => !gone w
             results := s.results.filter fun r => !(s.waves.any fun w => gone w && w.core = r.core && w.wslot = r.wslot) }
  else s

/-- A block whose barriers account for threads that have ended (R222). -/
def State.recheckBlock (s : State) (b : Block) : Block :=
  if b.barriers.any fun x => x.count = some 0 then { b with barriers := b.barriers.map fun x => x.check (s.blockLive b.key) } else b

/-- Barriers that thread ends have completed (R222, R223). -/
def State.recheckBarriers (s : State) : State :=
  { s with blocks := s.blocks.map s.recheckBlock
           clubars := s.clubars.map fun x => if x.arrivals = [] then x else x.check (s.clusterLive x.cluster) }

/-- A block whose threads have all ended (R31, R208, R235): its windows are written back and unmapped, and its engine state is
freed. -/
def State.endBlock (s : State) (b : Block) : State :=
  let s := s.unmap b.key fun _ => true
  let s := s.mapBlock b.key fun b => { b with ended := true }
  if (s.core b.core).owner = some b.key then s.mapCore b.core CoreSt.freeEngine else s

/-- The blocks whose last thread has ended in this step end. -/
def State.endBlocks (s : State) : State :=
  let live := s.allThreads.map (·.blk)
  (s.blocks.filter fun b => !b.ended && !live.contains b.key).foldl State.endBlock s

/-- Whether a command in flight reads or writes a block's scratchpad (R212, R313). -/
def State.blockBusy (s : State) (k : Nat) : Bool := s.cmds.any fun c => c.ranges.any fun r => r.blk = k

/-- Whether a block's scratchpad, slot and registers are free (R31, R33, R161): it and every block of its cluster have ended. -/
def State.freed (s : State) (b : Block) : Bool :=
  (s.blocks.filter fun x => x.cluster = b.cluster).all fun x => x.ended && !s.blockBusy x.key

/-- A core's list entries of some blocks cover their whole clusters (R458). -/
def CoreSt.notePeers (c : CoreSt) (keys : List Nat) : CoreSt :=
  { c with blocks := updateWhere (fun e => keys.contains e.blk) (fun e => { e with cluster := true }) c.blocks }

/-- The blocks that have completed leave their cores (R31), with their list entries told of what they did to peers (R458); a
continuation counts no more towards its launch (R45). -/
def State.freeBlocks (s : State) : State :=
  let gone := s.blocks.filter s.freed
  if gone.isEmpty then s else
    let s : State := { s with blocks := s.blocks.filter fun b => !(gone.any fun x => x.key = b.key)
                              clubars := s.clubars.filter fun x => !(gone.any fun b => b.cluster = x.cluster) }
    let far := (gone.filter (·.peers)).map (·.key)
    let s : State := if far.isEmpty then s else { s with cores := s.cores.map fun c => c.notePeers far }
    gone.foldl (fun s b => if b.kind = .continuation then s.mapLaunch b.launch fun l => { l with pending := l.pending - 1 } else s) s

/-- An image whose waves and blocks have all gone is given up, and one whose owner has gone holds no engine state. -/
def State.tidyImages (s : State) : State :=
  if s.images.isEmpty then s else
    let owned (i : Image) : Image := if i.owner.any fun k => (s.block? k).isNone then { i with owner := none, accs := [], tables := [] } else i
    let holds (i : Image) : Bool := i.waves ≠ [] || i.bins ≠ [] || (!i.evict && s.blocks.any fun b => b.out && b.core = i.core && b.part = i.part)
    { s with images := (s.images.map owned).filter holds }

/-! ### The choice of an issue -/

/-- Whether a core issues at all: not while the device is held by a thermal fault (R473). -/
def State.issues (s : State) : Bool := !s.thermal.critical

/-- The waves of a quadrant that have an eligible thread. -/
def State.candidates (s : State) (core quad : Nat) : List Wave :=
  s.waves.filter fun w => w.core = core && w.quad = quad && w.eligible ≠ 0

/-- Round-robin order after a wave slot (R21): ascending slots, from the one after it. By what number the order goes, and that it
begins as after slot 0, is the model's choice (DESIGN CHOICE, log entry 140). -/
def roundRobin (last : Nat) (ws : List Wave) : Option Wave :=
  let dist (w : Wave) : Nat := (w.wslot + 63 - last) % 64
  ws.foldl (fun best w =>
    match best with
    | none => some w
    | some b => if dist w < dist b then some w else some b) none

/-- Whether a wave is passed over at a choice: it has yielded, and another wave is eligible (R21, R166). -/
def passedOver (ws : List Wave) (w : Wave) : Bool := 0 < w.skips && 1 < ws.length

/-- The wave a quadrant issues next; none when all that are eligible are passed over at this choice. -/
def State.pickWave (s : State) (core quad : Nat) : Option Wave :=
  let ws := s.candidates core quad
  roundRobin ((s.core core).last.getD quad 0) (ws.filter fun w => !passedOver ws w)

/-- The eligible lanes at a PC. -/
def Wave.group (w : Wave) (pc : W64) : Mask := bitsWhere fun i => w.eligible.getLsbD i && (w.live? i).any fun t => t.pc = pc

/-- A better choice of two PCs: the larger key, and on a tie the lower PC. -/
def betterPc (a b : Nat × W64) : Nat × W64 := if a.1 < b.1 ∨ (a.1 = b.1 ∧ b.2.toNat < a.2.toNat) then b else a

/-- The PC of the issue set of a wave (R21): the largest group, or the group of the most starved thread once a count is 64. -/
def Wave.pickPc (w : Wave) : W64 :=
  let ts := (lanesOf w.eligible).filterMap w.live?
  let starved := (ts.filter fun t => 64 ≤ t.starve).map fun t => (t.starve, t.pc)
  let sizes := ts.map fun t => ((lanesOf (w.group t.pc)).length, t.pc)
  match (if starved.isEmpty then sizes else starved) with
  | [] => 0
  | x :: r => (r.foldl betterPc x).2

/-- Starvation counts after an issue (R21). -/
def Wave.countIssue (w : Wave) (amask : Mask) : Wave :=
  let elig := w.eligible
  w.mapLanes w.occupied fun i t => { t with starve := if elig.getLsbD i && !amask.getLsbD i then t.starve + 1 else 0 }

/-- A choice of a quadrant (R21): the waves it passes over, the wave and issue set it takes, and their counts. -/
def State.choose (s : State) (core quad : Nat) : State :=
  let ws := s.candidates core quad
  let isOver (w : Wave) : Bool := w.core = core && w.quad = quad && w.eligible ≠ 0 && passedOver ws w
  let s' : State := { s with waves := updateWhere isOver (fun w => { w with skips := w.skips - 1 }) s.waves, cur := none }
  if !s.issues then { s with cur := none } else
  match s.pickWave core quad with
  | none => s'
  | some w =>
    let pc := w.pickPc
    let am := w.group pc
    let s' := s'.mapWave core w.wslot fun x => x.countIssue am
    let s' := s'.mapCore core fun c =>
      { c with last := updateAt c.last quad fun _ => w.wslot, issuedAt := updateAt c.issuedAt quad fun _ => s.free }
    { s' with cur := some ⟨core, w.wslot, am, pc⟩ }

/-! ### Fetch -/

/-- The pieces of the instruction at the issue set's PC, translated (R23, R404), or the state in which the fetch has failed. -/
def View.fetchPieces (v : View) : Stage (List Piece) :=
  let lane := lowestLane v.ic.amask
  let acc := v.accFetch
  let parts := accessParts v.ic.pc 12
  match parts.find? fun p => !canonical p.1 with
  | some p => .error (v.accessFailed acc ⟨lane, p.1, .address⟩)
  | none =>
    match v.s.partPieces v.ctx acc false lane parts with
    | .error f => .error (v.accessFailed acc f)
    | .ok ps =>
      match v.s.badLine v.part true ps with
      | some b => .error (v.lineFailed b)
      | none => .ok ps

/-- The bytes fetched (R115): those at home, or an earlier version of them since the launch, or the continuation, started, never a
mix. -/
def View.fetchBytes (v : View) (ps : List Piece) : List Byte :=
  v.s.oneVersion 5308417 (v.codeSince (lowestLane v.ic.amask)) (v.pieceSlices ps) (ps.flatMap fun p => (List.range p.len).map (p.pa + ·))

/-- An illegal word (R130, R131): fatal, with the lowest code that applies. -/
def View.illegal (v : View) (code : Nat) : State :=
  v.fatal { v.faultRec (lowestLane v.ic.amask) 0x20 with synd := BitVec.ofNat 32 code }

/-- The instruction of the issue in progress, with the translations of its fetch kept, or the state in which its fetch or
decoding has ended it. -/
def View.fetch (v : View) : Stage (State × Instr) :=
  if v.ic.pc.toNat % 4 ≠ 0 then .error (v.fatal { v.faultRec (lowestLane v.ic.amask) 0x24 with va := v.ic.pc })
  else
    match v.fetchPieces with
    | .error s => .error s
    | .ok ps =>
      match decode v.w.nregs (bytesWord (v.fetchBytes ps)) with
      | .ok i => .ok (v.cachePieces v.s ps, i)
      | .error c => .error (v.illegal c)

/-- REJOIN_DISARM (R26). -/
def execRejoinDisarm (core wslot : Nat) (s : State) : Host.Outcome State Fault Refusal :=
  match s.wave? core wslot with
  | some w => .next (if w.deadlocked then s.mapWave core wslot Wave.breakRejoin else s)
  | none => .next s

/-- RESULT_RETURN (R56). -/
def execResultReturn (n : Nat) (s : State) : Host.Outcome State Fault Refusal := .next (s.returnResult n)

end Sys2Proof.Machine
end

