-- ==== Sys2Proof/Machine/Bins.lean ====
section
/-! DEFINITION. Reform bins (R27 to R30, R165): filing threads, and drawing a bin into a new wave; with the register space and
wave slots of a core's quadrants (R20, R32). -/
namespace Sys2Proof.Machine

/-! ### Register space and wave slots -/

/-- The rows of 128 bytes free in a quadrant's register file (R32). -/
def State.quadFree (s : State) (core quad : Nat) : Nat :=
  1024 - ((s.waves.filter fun w => w.core = core && w.quad = quad).map (·.nregs)).sum

/-- The quadrant of a core with the most free register space, the lowest-numbered on a tie (R28, R32). -/
def State.bestQuad (s : State) (core : Nat) : Nat :=
  (List.range 4).foldl (fun b q => if s.quadFree core b < s.quadFree core q then q else b) 0

/-- The free wave slots of a core (R20). -/
def State.freeSlots (s : State) (core : Nat) : List Nat :=
  (List.range 64).filter fun k => !s.waves.any fun w => w.core = core && w.wslot = k

/-- The slots of a wave: its threads, and empty slots after them. -/
def fillSlots (ts : List Thread) : List Slot := (ts.map Slot.live ++ List.replicate 32 Slot.empty).take 32

/-- A wave as it begins, with every rejoin entry disarmed. Which rows of the register file it takes is not said (log entry 1). -/
def newWave (free core wslot quad launch nregs : Nat) (slots : List Slot) (ff : FFlags) : Wave :=
  { core := core, wslot := wslot, quad := quad, base := Config.freeIndex free (65536 + 64 * core + wslot) (1025 - nregs)
    launch := launch, nregs := nregs, slots := slots, rejoin := List.replicate 16 .none, fflags := ff, skips := 0
    marker := false, halt := ⟨0, 0, 0⟩, saving := none }

/-! ### Filing -/

/-- A bin that takes a thread of a launch at a PC: open with that key, with a free slot. -/
def Bin.takes (b : Bin) (launch : Nat) (pc : W64) : Bool := b.launch = launch && b.pc = pc && b.slots.length < 32

/-- A thread filed into a core's bins (R27); none when no bin is available. -/
def fileBin (bins : List Bin) (launch : Nat) (pc : W64) (now nregs : Nat) (x : Thread × FFlags) : Option (List Bin) :=
  match bins.findIdx? fun b => b.takes launch pc with
  | some k => some (updateAt bins k fun b => { b with slots := b.slots ++ [x] })
  | none =>
    match (List.range 64).find? fun n => !bins.any fun b => b.n = n with
    | some n => some (bins ++ [⟨n, launch, pc, now, nregs, [x]⟩])
    | none => none

/-- Lanes of a wave filed in ascending order (R27): the bins, and the lanes that were filed. -/
def View.fileLanes (v : View) (mask : Option (List W32)) : List Nat → List Bin → Mask → List Bin × Mask
  | [], bins, done => (bins, done)
  | i :: r, bins, done =>
    let t : Thread := { (v.thread i).keepLive v.s.free mask with pc := nextPc v.ic.pc, starve := 0, wait := .ready }
    match fileBin bins v.w.launch t.pc v.s.now v.w.nregs (t, v.w.fflags) with
    | some bins => v.fileLanes mask r bins (done ||| bitsWhere (· = i))
    | none => v.fileLanes mask r bins done

/-- reform (R27, R165): it waits as at a switch marker, files the threads whose guard passes while bins are available, and the
others continue. -/
def execReform (o : Operands) (s : State) : Host.Outcome State Fault Refusal :=
  withIssue s fun v =>
    if v.outstanding then v.waitMarker v.s
    else
      let p := v.passing o
      if p = 0 then v.retire o v.active v.s else
        match v.s.liveMask v.launch v.ic.core v.ic.pc with
        | .error f => v.s.tableFailed v.launch (v.faultRec (lowestLane p) 0x22) f
        | .ok mask =>
          let r := v.fileLanes mask (lanesOf p) (v.s.core v.ic.core).bins 0
          let s := v.s.mapCore v.ic.core fun c => { c with bins := r.1 }
          v.retire o (v.active &&& ~~~r.2) (v.onWave s fun w => w.removeLanes r.2)

/-! ### Drawing -/

/-- The arithmetic clock of a core in MHz (R473). -/
def State.coreClock (s : State) (core : Nat) : Nat := s.thermal.clocks.getD (coreDie core) 3100

/-- Counts of 10 ns as cycles of a core's arithmetic clock. -/
def State.cycles (s : State) (core counts : Nat) : Nat := counts * s.coreClock core / 100

/-- Whether a debugger halts a launch (R62, R395): its context, or a wave of it. -/
def State.launchHalted (s : State) (k : Nat) : Bool :=
  let l := s.launchOf k
  let d := (s.part l.part).dbg
  (d.attach && d.ctx = l.ctx && d.state ≠ 0) || (s.waves ++ s.images.flatMap (·.waves)).any fun w => w.halt.state ≠ 0 && w.launch = k

/-- Whether a bin may be drawn (R28): full, past its age limit, or its launch has no other eligible wave on the core. -/
def State.binDue (s : State) (core : Nat) (b : Bin) : Bool :=
  let l := s.launchOf b.launch
  b.slots.length = 32 || (s.part l.part).layout.binage ≤ s.cycles core (s.now - b.first) ||
    !s.waves.any fun w => w.core = core && w.launch = b.launch && w.eligible ≠ 0

/-- A bin drawn into a new wave (R28, R29) of a wave slot that is free. -/
def State.drawBin (s : State) (core : Nat) (b : Bin) : State :=
  let quad := s.bestQuad core
  match s.freeSlots core with
  | [] => s
  | k0 :: r =>
    if s.quadFree core quad < b.nregs then s else
      let wslot := chooseFrom s.free 65535 k0 (k0 :: r)
      let ff := b.slots.foldl (fun a x => a ||| x.2) 0
      let w := newWave s.free core wslot quad b.launch b.nregs (fillSlots (b.slots.map (·.1))) ff
      ({ s with waves := s.waves ++ [w] } : State).mapCore core fun c => { c with bins := c.bins.filter fun x => x.n ≠ b.n }

/-- BIN_DRAW (R28): a bin that is due, of a launch that no debugger halts. R62 stops such a bin's age; that it is not drawn either
while it is full, or the last of its launch, is the model's choice (DESIGN CHOICE, log entry 139). -/
def execBinDraw (core bin : Nat) (s : State) : Host.Outcome State Fault Refusal :=
  match (s.core core).bins.find? fun b => b.n = bin with
  | some b => .next (if s.binDue core b && !s.launchHalted b.launch then s.drawBin core b else s)
  | none => .next s

end Sys2Proof.Machine
end

