-- ==== Sys2Proof/Machine/Slices.lean ====
section
/-! DEFINITION. Requests at the home slices (R106, R305, R306): the writes on their way reach the slice they were sent to, which
performs them or answers "misdirected". -/
namespace Sys2Proof.Machine

/-- Whether a write may reach its slice before those that were issued earlier (R100, R103): none of them by its agent shares a
byte with it, but for another thread's on an unordered page. -/
def State.writeReady (s : State) (n : Nat) : Bool :=
  match s.writes[n]? with
  | some w => !w.misdirected && !((s.writes.take n).any fun x => x.agent = w.agent && x.meets w && !(x.uo && w.uo && x.uid ≠ w.uid))
  | none => false

/-- A write at its slice (R305, R306, R445, R465, R466, R479): queued while the slice holds its requests; performed, answered "misdirected" by a slice that is not its home, kept
while its page is held, or lost with its context on a retired page. -/
def State.sliceWrite (s : State) (n : Nat) (w : PendWrite) : State :=
  if !isRemote w.addr && s.sliceHolds w.slice then s
  else if w.slice ≠ s.writeSlice w then
    { s with writes := updateAt s.writes n fun w => { w with misdirected := true } }
  else
    let lines := if isRemote w.addr then [] else linesOf w.addr w.data.length
    match lines.findSome? fun l => (match s.lineState false 0 (l * 128) with | .ok => none | x => some (l, x)) with
    | none => ({ s with writes := s.writes.eraseIdx n } : State).performWrite w
    | some (l, .retired) =>
      let r : Rec := { kind := 0x4B, va := w.va, die := (w.agent.core.map coreDie).getD 0, loc := locWord (w.agent.core.getD 0) 0 0 0 }
      let s : State := { s with writes := s.writes.eraseIdx n }
      match w.agent.ctx with
      | some c => s.lineError c r l .retired
      | none => s.postHardware { r with pa := l * 128 }
    | some _ => s

/-- SLICE_ACCESS (R106). -/
def execSliceAccess (n : Nat) (s : State) : Host.Outcome State Fault Refusal :=
  .next (match s.writes[n]? with
    | some w => if s.writeReady n then s.sliceWrite n w else s
    | none => s)

/-- MISDIRECTED_REISSUE (R306): the requester recomputes the home. -/
def execMisdirectedReissue (n : Nat) (s : State) : Host.Outcome State Fault Refusal :=
  .next (match s.writes[n]? with
    | some w =>
      if w.misdirected then
        { s with writes := updateAt s.writes n fun w => { w with misdirected := false, slice := s.writeSlice w } }
      else s
    | none => s)

end Sys2Proof.Machine
end

