-- ==== Sys2Proof/Machine/Damage.lean ====
section
/-! DEFINITION. Damage maps (R458, R460 to R462) and the killing of blocks (R226, R382, R460). -/
namespace Sys2Proof.Machine

/-! ### Damage entries -/

/-- A damage entry (R461) before it is written out. -/
structure DamageEntry where
  kind    : Nat
  cause   : Nat
  cluster : Bool
  part    : Nat
  ctx     : Nat
  core    : Option Nat
  addr    : W64
  count   : Nat
  launch  : W32
  tz      : Nat
  deriving DecidableEq, Repr

/-- An entry's sixteen words (R461), with the core's pass count and its die's time; the base die's for none. -/
def DamageEntry.words (d : DamageEntry) (s : State) : Damage :=
  let die := (d.core.map coreDie).getD 0
  let w0 := d.kind % 256 + 256 * (d.cause % 16) + 4096 * d.cluster.toNat + 8192 * (d.part % 8) + 65536 * (d.ctx % 4096) + 268435456 * (die % 16)
  [BitVec.ofNat 32 w0, BitVec.ofNat 32 (d.core.getD 0x7F), (d.core.map fun c => ((s.health.getD c .reset).pseq)).getD 0, 0]
    ++ splitWide (s.dieTime die) ++ splitWide d.addr ++ [BitVec.ofNat 32 d.count, d.launch, BitVec.ofNat 32 d.tz, 0, 0, 0, 0, 0]

/-- The entry that stands for a full list (R462): CAUSE and CTX are not said, so they are free. It covers what the oldest entry does, an
earlier entry of its kind from that one's own ADDR. -/
def State.overflowEntry (s : State) (p : Nat) (oldest : Damage) : Damage :=
  ({ kind := 6, cause := Config.freeIndex s.free 131072 7, cluster := false, part := p, ctx := Config.freeIndex s.free 131073 4096
     core := none, addr := if bitsAt oldest 0 8 = 6 then wideAt oldest 6 else wideAt oldest 4, count := 0, launch := 0, tz := 0 } : DamageEntry).words s

/-- An entry of a partition's damage list (R462): a full list merges first, with a record (R471 KIND 0x4F). -/
def State.listDamage (s : State) (p : Nat) (ws : Damage) : State :=
  let x := s.part p
  let count (y : Partition) : Partition := { y with dmgCount := satInc y.dmgCount }
  if x.damage.length < 4096 then s.mapPart p fun y => count { y with damage := y.damage ++ [ws] }
  else
    let six := s.overflowEntry p (x.damage.headD [])
    (s.mapPart p fun y => count { y with damage := [six, ws] }).postHardware { kind := 0x4F, agent := 7, part := p, synd := BitVec.ofNat 32 p }

/-- The management processor at work for a context (R462). -/
def mpEng (s : State) (ctx : Nat) : Eng := { ctx := ctx, core := none, agent := 7, since := s.free, rel := true, loc := 0, pc := 0, info := 0 }

/-- An entry in a launch's damage-map area (R462): at DMGMAP + 64 + 64 × (n mod CAP) before WIDX advances; one that fails
translation is skipped and counted in LOST. -/
def State.areaDamage (s : State) (ctx : Nat) (area : W64) (ws : Damage) : State :=
  if area = 0 then s else
    let e := mpEng s ctx
    match s.engRead e area 12 with
    | .error _ => s
    | .ok (s, bs) =>
      let hd := bytesWords bs
      let cap := (wordAt hd 0).toNat
      if cap = 0 then s else
        let n := wordAt hd 1
        match s.engWrite e (area + BitVec.ofNat 64 (64 + 64 * (n.toNat % cap))) (wordsBytes ws) with
        | .ok s' =>
          match s'.engWrite e (area + 4) (natBytes 4 (n + 1).toNat) with
          | .ok s'' => s''
          | .error _ => s'
        | .error _ =>
          match s.engWrite e (area + 8) (natBytes 4 (wordAt hd 2 + 1).toNat) with
          | .ok s' => s'
          | .error _ => s

/-- DMGMAP of a launch (R37). -/
def Launch.dmgmap (l : Launch) : W64 := if l.handler then 0 else wideAt l.words 14

/-- A damage entry written: the partition's list, and the area of the launch it names. -/
def State.addDamage (s : State) (d : DamageEntry) (launch : Option Nat) : State :=
  let ws := d.words s
  let s := s.listDamage d.part ws
  match launch with
  | some k => if (s.launchOf k).key = k then s.areaDamage d.ctx (s.launchOf k).dmgmap ws else s
  | none => s

/-- The queue that an entry names (R461). -/
def State.entryQueue (s : State) (b : Block) : Nat :=
  match b.kind with
  | .grid => (s.launchOf b.launch).queue.getD 0xFFF
  | _ => 0xFFF

/-- The entry for a killed block (R461 KIND 2). -/
def State.blockDamage (s : State) (b : Block) (cause : Nat) : DamageEntry :=
  { kind := 2, cause := cause, cluster := b.peers, part := b.part, ctx := b.ctx, core := some b.core, addr := b.wid
    count := s.entryQueue b, launch := (s.launchOf b.launch).index, tz := 0 }

/-- The entry for a killed tile task (R461 KIND 5). -/
def Task.damage (t : Task) (cause : Nat) (core : Option Nat) : DamageEntry :=
  { kind := 5, cause := cause, cluster := false, part := t.part, ctx := t.ctx, core := core, addr := 0, count := t.tok.toNat
    launch := BitVec.ofNat 32 (bitsAt t.words 320 32), tz := bitsAt t.words 352 16 }

/-! ### The block list -/

/-- The entries of the oldest launch with blocks in a list replaced by one that covers it (R458). -/
def mergeBlocks (l : List BlockEntry) : List BlockEntry :=
  match l.find? fun e => e.task.isNone with
  | none => l
  | some e =>
      { e with launch := 0xFFFFFFFF, wid := 0, blk := 0 } :: l.filter fun x => !(x.lkey = e.lkey && x.task.isNone)

/-- A core's block list with an entry added (R458): the oldest launch's entries merge when it is full; none when that frees
nothing, so that the block waits. -/
def addBlock (l : List BlockEntry) (e : BlockEntry) : Option (List BlockEntry) :=
  if l.length < 256 then some (l ++ [e])
  else
    let m := mergeBlocks l
    if m.length < 256 then some (m ++ [e]) else none

/-- Whether a core's block list takes no more entries (R458). -/
def listFull (l : List BlockEntry) : Bool := 256 ≤ l.length && 256 ≤ (mergeBlocks l).length

/-- The entry of a block-list entry when its core fails a scan (R460, R461 KINDs 3 and 4). -/
def State.entryDamage (s : State) (e : BlockEntry) (core : Nat) (cause : Nat) : DamageEntry :=
  match e.task with
  | some tok =>
    { kind := 4, cause := cause, cluster := false, part := e.part, ctx := e.ctx, core := some core, addr := 0, count := tok.toNat
      launch := BitVec.ofNat 32 (e.tx % 65536 + 65536 * e.ty), tz := e.tz }
  | none =>
    { kind := 3, cause := cause, cluster := e.cluster || (s.blockOf e.blk).peers, part := e.part, ctx := e.ctx, core := some core, addr := e.wid, count := e.queue
      launch := e.launch, tz := 0 }

/-- The entry of a write-range register when its core fails a scan (R460, R461 KIND 1). -/
def WriteRange.damage (r : WriteRange) (core cause : Nat) : DamageEntry :=
  { kind := 1, cause := cause, cluster := false, part := r.part, ctx := r.ctx, core := some core
    addr := BitVec.ofNat 64 (r.page * 4096), count := r.count, launch := 0, tz := 0 }

/-! ### Killing -/

/-- The lanes of a wave whose threads satisfy a condition. -/
def Wave.lanesWhere (w : Wave) (p : Thread → Bool) : Mask := bitsWhere fun i => (w.live? i).any p

/-- Threads end wherever they are: in waves, in bins and in images. -/
def State.endThreads (s : State) (p : Thread → Bool) : State :=
  let wave (w : Wave) : Wave := if w.lanesWhere p = 0 then w else w.endLanes (w.lanesWhere p)
  let bin (b : Bin) : Bin := { b with slots := b.slots.filter fun x => !p x.1 }
  let bins (l : List Bin) : List Bin := (l.map bin).filter fun b => b.slots ≠ []
  { s with waves := s.waves.map wave
           cores := s.cores.map fun c => { c with bins := bins c.bins }
           images := s.images.map fun i => { i with waves := i.waves.map wave, bins := bins i.bins } }

/-- A "section left open" record for a thread of a block that ends while it holds its section (R226). -/
def State.openSection (s : State) (b : Block) (t : Thread) : State :=
  s.notice b.ctx { kind := 0x32, die := coreDie b.core, synd := BitVec.ofNat 32 b.bslot, loc := locWord b.core 0 0 b.bslot, pc := t.pc }

/-- A block is killed (R226, R382, R460): its threads end, and it is entered in the damage map. It then completes when the step
settles. -/
def State.killBlock (s : State) (key cause : Nat) : State :=
  match s.block? key with
  | none => s
  | some b =>
    if b.ended then s else
      let s := (s.allThreads.filter fun t => t.blk = key && t.holds).foldl (fun s t => s.openSection b t) s
      let s := ((s.endThreads fun t => t.blk = key).addDamage (s.blockDamage b cause) (some b.launch)).drawStopped b.kind
      s.mapPart b.part fun p => { p with kills := satInc p.kills }

/-- A block is killed with its whole cluster (R460). -/
def State.killCluster (s : State) (cluster cause : Nat) : State :=
  (s.blocks.filter fun b => b.cluster = cluster && !b.ended).foldl (fun s b => s.killBlock b.key cause) s

/-- BLOCK_TIME_EXCEEDED (R382): a block that has run longer than MBT since its start, the time it was off its core apart. -/
def execBlockTimeExceeded (b : Nat) (s : State) : Host.Outcome State Fault Refusal :=
  .next (match s.block? b with
    | some x =>
      if !x.ended && !x.out && (s.part x.part).layout.mbt * 100 < s.now - x.start then
        (s.killBlock b 2).notice x.ctx
          { kind := 0x33, agent := 2, die := coreDie x.core, synd := BitVec.ofNat 32 x.bslot, loc := locWord x.core 0 0 x.bslot }
      else s
    | none => s)

/-- The threads on the cores that hold an ordered section, in waves and in bins (R226). -/
def State.holders (s : State) : List Thread :=
  ((s.waves.flatMap fun w => w.slots.filterMap (·.live?)) ++ s.cores.flatMap fun c => c.bins.flatMap fun b => b.slots.map (·.1)).filter (·.holds)

/-- SECTION_HOLD_EXCEEDED (R226): the block in a slot of a core, one thread of which has held its section beyond the section hold
limit. -/
def execSectionHoldExceeded (core bslot uid : Nat) (s : State) : Host.Outcome State Fault Refusal :=
  .next (match s.holders.find? fun t => t.uid = uid && (s.blockOf t.blk).core = core && (s.blockOf t.blk).bslot = bslot with
    | some t => if (s.part (s.blockOf t.blk).part).layout.sechold * 100 < s.now - t.holdStart then s.killBlock t.blk 3 else s
    | none => s)

end Sys2Proof.Machine
end

