-- ==== Sys2Proof/Machine/Sched.lean ====
section
/-! DEFINITION. The hardware task scheduler (R31 to R36, R40, R45, R230, R292, R379 to R381): whether a block fits on a core, how
its threads start, the choice of cores, and the starting of blocks, continuations and message handlers. -/
namespace Sys2Proof.Machine

/-! ### Launch fields -/

/-- Declared registers (R37). -/
def Launch.nregs (l : Launch) : Nat := (bitsAt l.words 171 5 + 1) * 8
/-- Threads of a block. -/
def Launch.threads (l : Launch) : Nat := bitsAt l.words 160 11
/-- Blocks of a cluster. -/
def Launch.clu (l : Launch) : Nat := bitsAt l.words 188 3 + 1
/-- The width of field Fk, k from 1 to 5. -/
def Launch.fieldWidth (l : Launch) (k : Nat) : Nat := bitsAt l.words (26 + 6 * k) 6
/-- The extents of F3 to F5. -/
def Launch.ext (l : Launch) (k : Nat) : Nat := (wordAt l.words (k - 1)).toNat
/-- Clusters of a launch. -/
def Launch.clusters (l : Launch) : Nat := l.ext 3 * l.ext 4 * l.ext 5
/-- The first PC of its threads (R40). -/
def Launch.entry (l : Launch) : W64 := l.pool + (wordAt l.words 0).signExtend 64

/-- Fields packed from bit 0 upwards (R34). -/
def packFields : List (Nat × Nat) → Nat
  | [] => 0
  | (v, w) :: r => v % 2 ^ w + 2 ^ w * packFields r

/-- The work identifier of a thread (R34): F0 to F5. -/
def Launch.widOf (l : Launch) (f0 f1 f2 f3 f4 f5 : Nat) : W64 :=
  BitVec.ofNat 64 (packFields [(f0, 5), (f1, l.fieldWidth 1), (f2, l.fieldWidth 2), (f3, l.fieldWidth 3), (f4, l.fieldWidth 4),
    (f5, l.fieldWidth 5)])

/-- A thread's stack area (R289): s.slim, and its size in bytes. -/
def State.stackArea (s : State) (l : Launch) (core bslot n : Nat) : W64 × Nat :=
  let size := l.stack * 16
  ((s.ctxOf l.ctx).stackBase + BitVec.ofNat 64 (((core * 64 + bslot) * 1024 + n) * size), size)

/-! ### A block that is to start -/

/-- What a thread of a draw starts with besides (R429, R430). -/
structure ThreadInit where
  regs   : List (Nat × W32)
  vertex : Option Nat
  pixel  : Option Pixel
  deriving DecidableEq, Repr

/-- A block before it is placed: its launch, its kind, its place in its cluster, its threads and how each starts. -/
structure NewBlock where
  launch  : Launch
  kind    : BlockKind
  cluster : Nat
  f2      : Nat
  n       : Nat
  scratch : Nat
  wid     : W64                              -- with F0 and F1 zero
  pc      : W64
  f1      : Bool                             -- the threads take F1 (R34); a continuation's do not (R45)
  regs    : List (Nat × W32)
  inits   : List ThreadInit := []
  deriving DecidableEq, Repr

/-- Thread `n` of a block as it starts (R40, R45, R289). -/
def NewBlock.thread (b : NewBlock) (s : State) (core bslot blk uid n : Nat) : Thread :=
  let (slim, size) := s.stackArea b.launch core bslot n
  let t : Thread := { Thread.blank with
    uid := uid, blk := blk, pc := b.pc, regs := List.replicate b.launch.nregs 0
    wid := b.wid ||| b.launch.widOf (n % 32) (if b.f1 then n / 32 else 0) 0 0 0 0
    slim := slim, sp := slim + BitVec.ofNat 64 size }
  let own : ThreadInit := b.inits.getD n ⟨[], none, none⟩
  (b.regs ++ own.regs).foldl (fun t r => t.setReg r.1 r.2) { t with vertex := own.vertex, pixel := own.pixel }

/-- The waves of a block (R31). -/
def NewBlock.waves (b : NewBlock) : Nat := (b.n + 31) / 32

/-- The scratchpad bytes that a window takes (R292). -/
def windowSpace (n : Nat) : Nat := (n + 383) / 384 * 384

/-- The scratchpad bytes in use on a core. -/
def State.scrUsed (s : State) (core : Nat) : Nat :=
  ((s.blocks.filter fun b => b.core = core && !b.out).map fun b => windowSpace (s.launchOf b.launch).scratch).sum

/-- The free block slots of a core (R31). -/
def State.freeBlockSlots (s : State) (core : Nat) : List Nat :=
  (List.range 64).filter fun k => !s.blocks.any fun b => b.core = core && b.bslot = k && !b.out

/-- Whether an evicted wave of a context waits for a core, before which no new block of the context starts there (R386). -/
def State.waveDue (s : State) (core ctx : Nat) : Bool :=
  s.images.any fun i => i.evict && i.core = core && i.waves.any fun w => (s.launchOf w.launch).ctx = ctx

/-- Whether a block's waves fit in a core's quadrants from quadrant `q` on (R32). -/
def State.quadsFit (s : State) (core q waves nregs : Nat) : Bool :=
  (List.range 4).all fun k =>
    ((List.range waves).filter fun w => (q + w) % 4 = k).length * nregs ≤ s.quadFree core k

/-- The block-list entry of a block (R458). -/
def NewBlock.entry (b : NewBlock) (blk : Nat) : BlockEntry :=
  let l := b.launch
  { part := l.part, ctx := l.ctx, queue := (match b.kind with | .grid => l.queue.getD 0xFFF | _ => 0xFFF), launch := l.index
    lkey := l.key, blk := blk, wid := b.wid, task := none, tx := 0, ty := 0, tz := 0, cluster := false }

/-- The waves of a block placed one after another, quadrants in turn (R32). -/
def State.addWaves (s : State) (b : NewBlock) (core bslot blk uid q : Nat) : Nat → Nat → State
  | _, 0 => s
  | k, n + 1 =>
    let ts := ((List.range 32).map (32 * k + ·)).filter (· < b.n) |>.map fun i => b.thread s core bslot blk (uid + i) i
    let wslot := chooseFrom s.free (131136 + k) 0 (s.freeSlots core)
    let w := newWave s.free core wslot ((q + k) % 4) b.launch.key b.launch.nregs (fillSlots ts) 0
    State.addWaves { s with waves := s.waves ++ [w] } b core bslot blk uid q (k + 1) n

/-- Whether a block's start is an acquire (R97): a continuation's, a handler's, and that of a launch that its queue orders after
another. -/
def State.startAcquires (s : State) (b : NewBlock) : Bool :=
  match b.kind with
  | .continuation => true
  | .handler => true
  | .grid => s.queues.any fun q => some q.q = b.launch.queue && bitsAt (s.queueWords q) 69 1 = 0
  | _ => false

/-- A block starts on a core, if it fits there now (R31, R32, R292, R386, R458). Which free block slot and wave slots it takes is
not said. -/
def State.tryBlock (s : State) (b : NewBlock) (core : Nat) : Option State :=
  let l := b.launch
  let q := s.bestQuad core
  let blk := s.serial + 1
  match addBlock (s.core core).blocks (b.entry blk), s.freeBlockSlots core with
  | some entries, k0 :: ks =>
    if s.quadsFit core q b.waves l.nregs && b.waves ≤ (s.freeSlots core).length && !s.waveDue core l.ctx &&
        s.scrUsed core + windowSpace b.scratch ≤ 393216 then
      let bslot := chooseFrom s.free 131072 k0 (k0 :: ks)
      let block : Block :=
        { key := blk, core := core, bslot := bslot, launch := l.key, ctx := l.ctx, part := l.part, cluster := b.cluster, f2 := b.f2
          nthreads := b.n, kind := b.kind, wid := b.wid, scratch := [], barriers := [], stash := [], serial := 1, kprog := 0
          mlkStop := none, start := s.now, stamp := s.free, ended := false, retired := [], peers := false, out := false }
      let s : State := { s with blocks := s.blocks ++ [block], serial := s.serial + 1 + b.n }
      let s := (s.mapCore core fun c => { c with blocks := entries }).mapLaunch l.key fun x =>
        { x with lastStart := some s.now, lastBlk := blk, started := x.started + 1 }
      let s := if s.startAcquires b then s.dropL1 core else s
      some (s.addWaves b core bslot blk (blk + 1) q 0 b.waves)
    else none
  | _, _ => none

/-! ### The choice of cores -/

/-- The cores that serve a partition now (R365, R380, R455, R464). -/
def State.serving (s : State) (p : Nat) : List Nat :=
  (List.range 96).filter fun c => (s.part p).layout.cores.getLsbD c && (s.health.getD c .reset).state = 0
    && !(s.health.getD c .reset).draining

/-- Cores or groups in rotation order from a place (R380). -/
def rotateFrom (from_ : Nat) (l : List Nat) : List Nat := (l.filter fun c => from_ ≤ c) ++ l.filter fun c => c < from_

/-- The first of some candidates with the lowest score (R380). -/
def lowestScore {α : Type} (score : α → Nat) : List α → Option α
  | [] => none
  | x :: r =>
    match lowestScore score r with
    | none => some x
    | some y => if score y < score x then some y else some x

/-- A core's sensor score (R380). -/
def State.score (s : State) (core : Nat) : Nat := s.scores.getD core 0

/-- Whether enough arithmetic clocks have passed since a launch's last start (R381). -/
def State.staggered (s : State) (l : Launch) (core : Nat) : Bool :=
  match l.lastStart with
  | none => true
  | some t => bitsAt l.words 208 10 * 32 ≤ s.cycles core (s.now - t)

/-- The pointer moves to the core after the chosen one (R380). -/
def State.movePointer (s : State) (p core : Nat) : State := s.mapPart p fun x => { x with pointer := (core + 1) % 96 }

/-- A single block placed on some of a partition's cores (R380): on the core with the lowest score among the first four, in
rotation order, that can take it. -/
def State.placeAmong (s : State) (p : Nat) (cores : BitVec 96) (b : NewBlock) : Option State :=
  let order := (rotateFrom (s.part p).pointer (s.serving p)).filter fun c => cores.getLsbD c && s.staggered b.launch c
  let can := (order.filterMap fun c => (s.tryBlock b c).map fun s' => (c, s')).take 4
  (lowestScore (fun x => s.score x.1) can).map fun x => x.2.movePointer p x.1

/-- A single block placed (R380). -/
def State.placeOne (s : State) (p : Nat) (b : NewBlock) : Option State := s.placeAmong p (BitVec.allOnes 96) b

/-- The first core of some that can take a block now: the state, that core and the cores from it on. -/
def State.firstCore (s : State) (b : NewBlock) : List Nat → Option (State × Nat × List Nat)
  | [] => none
  | c :: cs =>
    match s.tryBlock b c with
    | some s' => some (s', c, c :: cs)
    | none => State.firstCore s b cs

/-- The blocks of a cluster on the cores of a group, ascending (R380): each on the first core, from the last one used, that can
take it (log entry 34). The state and the cores taken. -/
def State.tryGroup (s : State) : List NewBlock → List Nat → Option (State × List Nat)
  | [], _ => some (s, [])
  | b :: bs, cs => do
    let (s, c, cs) ← s.firstCore b cs
    let (s, used) ← State.tryGroup s bs cs
    return (s, c :: used)

/-- A cluster placed (R380, R33). -/
def State.placeCluster (s : State) (p : Nat) (bs : List NewBlock) : Option State :=
  match bs with
  | [] => none
  | [b] => s.placeOne p b
  | b :: _ =>
    let cores := (s.serving p).filter (s.staggered b.launch)
    let groups := rotateFrom ((s.part p).pointer / 8) ((List.range 12).filter fun g => cores.any fun c => c / 8 = g)
    let can := (groups.filterMap fun g => s.tryGroup bs (cores.filter fun c => c / 8 = g)).take 4
    (lowestScore (fun x => (x.2.map s.score).foldl max 0) can).map fun x => x.1.movePointer p (x.2.getLastD 0)

/-! ### What waits to start -/

/-- A rank of a record (R42): the class, and the priority from the highest down. -/
def rankOf (l : Launch) : Nat := l.cls * 16 + (15 - l.prio)

/-- The blocks of a launch's next cluster (R33, R34, R40, R379). -/
def State.nextCluster (s : State) (l : Launch) : List NewBlock :=
  let i := l.nextClu
  let f3 := i % l.ext 3
  let f4 := i / l.ext 3 % l.ext 4
  let f5 := i / (l.ext 3 * l.ext 4)
  (List.range l.clu).map fun f2 =>
    { launch := l, kind := .grid, cluster := s.serial + 1, f2 := f2, n := l.threads, scratch := l.scratch
      wid := l.widOf 0 0 f2 f3 f4 f5, pc := l.entry, f1 := true, regs := [(2, l.param.setWidth 32), (3, l.param.extractLsb' 32 32)] }

/-- The launches of a partition that have clusters left to start. -/
def State.openLaunches (s : State) (p : Nat) : List Launch :=
  s.launches.filter fun l => l.part = p && !l.complete && !l.handler && l.draw.isNone && l.nextClu < l.clusters

/-- The launch whose next cluster starts (R42): of those that can be placed, the best rank, and in turn among equals the one whose last
block started before the others'. -/
def State.pickLaunch (s : State) (p : Nat) : Option (Launch × State) :=
  let can := (s.openLaunches p).filterMap fun l => (s.placeCluster p (s.nextCluster l)).map fun x => (l, x)
  lowestScore (fun x => rankOf x.1) (can.mergeSort fun a b => a.1.lastBlk ≤ b.1.lastBlk)

/-- The first queued record of a kind of a partition (R42): the records leave in the order in which they were produced. -/
def State.headRecord (s : State) (p kind : Nat) : Option (Nat × WorkRec) :=
  ((s.part p).work.mapIdx fun i r => (i, r)).find? fun x => x.2.kind = kind

/-- A context's message launch settings as a launch of their own, which handlers and their continuations run under (R383, R45). -/
def handlerWords (m : MsgSettings) : List W32 :=
  [0, 0, 1, 1, 1, BitVec.ofNat 32 (1 + 2048 * m.regs), BitVec.ofNat 32 (m.stack + 67108864 * m.cls + 268435456 * m.prio), 0] ++ splitWide m.pool ++ [0, 0, 0, 0, 0, 0]

/-- The launch that stands for a context's message launch settings, made when it is first needed. -/
def State.handlerLaunch (s : State) (c : Context) (m : MsgSettings) : State × Launch :=
  match s.launches.find? fun l => l.handler && l.ctx = c.id with
  | some l => (s, l)
  | none =>
    let l : Launch := { Launch.none with
      key := s.serial + 1, part := c.part, ctx := c.id, words := handlerWords m, prio := m.prio
      cls := max m.cls (s.part c.part).layout.cls, handler := true, stamp := s.free }
    ({ s with launches := s.launches ++ [l], serial := s.serial + 1 }, l)

/-- Whether a continuation record breaks a rule of R44 or R45. -/
def contBad (ws : List W32) : Bool :=
  bitsAt ws 192 6 = 0 || 32 < bitsAt ws 192 6 || bitsAt ws 0 2 ≠ 0 || bitsAt ws 198 58 ≠ 0

/-- The block of a continuation (R45). -/
def State.contBlock (s : State) (l : Launch) (ws : List W32) : NewBlock :=
  { launch := l, kind := .continuation, cluster := s.serial + 1, f2 := 0, n := bitsAt ws 192 6, scratch := l.scratch, wid := 0
    pc := wideAt ws 0, f1 := false, regs := [(2, wordAt ws 2), (3, wordAt ws 3), (4, wordAt ws 4), (5, wordAt ws 5)] }

/-- The block of a message handler (R230): v2 to v15. -/
def State.handlerBlock (s : State) (l : Launch) (ws payload : List W32) : NewBlock :=
  let from_ := BitVec.ofNat 32 (bitsAt ws 88 12 + 65536 * bitsAt ws 100 1)
  { launch := l, kind := .handler, cluster := s.serial + 1, f2 := 0, n := 1, scratch := 0, wid := 0, pc := wideAt ws 0, f1 := false
    regs := [(2, wordAt ws 4), (3, from_)] ++ ((List.range 12).map fun k => (4 + k, wordAt payload k)) }

/-- The rank and the placement of the first continuation of a partition, if it is one that can start. -/
def State.contReady (s : State) (p : Nat) : Option (Nat × State) :=
  match s.headRecord p 0 with
  | some (_, .cont l _ ws _ _ _) => (s.placeOne p (s.contBlock (s.launchOf l) ws)).map fun s' => (rankOf (s.launchOf l), s')
  | _ => none

/-- The rank and the placement of the first message of a partition, if its context still receives messages. -/
def State.msgReady (s : State) (p : Nat) : Option (Nat × State) :=
  match s.headRecord p 1 with
  | some (_, .msg c ws payload _ _) =>
    match (s.ctxOf c).msg with
    | some m =>
      let (s, l) := s.handlerLaunch (s.ctxOf c) m
      (s.placeOne p (s.handlerBlock l ws payload)).map fun s' => (rankOf l, s')
    | none => none
  | _ => none

/-! ### Threads of draws -/

/-- A block of a draw's launch (R429, R430). The fields F2 to F5 of its threads are not said, and free (log entry 51). -/
def State.drawBlock (s : State) (l : Launch) (kind : BlockKind) (inits : List ThreadInit) : NewBlock :=
  let f (k : Nat) : Nat := (Config.freeW32 s.free (66700 + k)).toNat
  { launch := l, kind := kind, cluster := s.serial + 1, f2 := 0, n := inits.length, scratch := l.scratch, wid := l.widOf 0 0 (f 2) (f 3) (f 4) (f 5)
    pc := l.entry, f1 := true, regs := [(2, l.param.setWidth 32), (3, l.param.extractLsb' 32 32)], inits := inits }

/-- The indices of the next vertex threads of a draw, at most `n`: its own, then those of the vertex records that its own microcode
emitted (R421). -/
def Draw.vertices (d : Draw) (n : Nat) : List W32 :=
  if d.vnext < d.vcount then (List.range (min n (d.vcount - d.vnext))).map fun i => BitVec.ofNat 32 (d.vnext + i) else d.extra.take n

/-- A draw once `n` of its vertex threads have started. -/
def Draw.tookVertices (d : Draw) (n : Nat) : Draw :=
  if d.vnext < d.vcount then { d with vnext := d.vnext + n } else { d with extra := d.extra.drop n }

/-- The next vertex threads of a draw (R429): vertex thread i has v4 = i. -/
def State.vertexBlock (s : State) (d : Draw) : Option NewBlock :=
  let l := s.launchOf d.vlaunch
  match if d.started then d.vertices l.threads else [] with
  | [] => none
  | vs => some (s.drawBlock l (.vertex d.key) (vs.map fun i => ⟨[(4, i)], some d.key, none⟩))

/-- The four pixels of a quad (R430). -/
def Quad.inits (q : Quad) (d : Draw) : List ThreadInit :=
  (List.range 4).map fun i =>
    let x := q.x + i % 2
    let y := q.y + i / 2
    let on := q.cover.getLsbD i
    ⟨[(4, BitVec.ofNat 32 x), (5, BitVec.ofNat 32 y), (6, BitVec.ofNat 32 on.toNat)], none,
      some ⟨d.part, wideAt d.words 8, x, y, q.order, d.key, q.planes, on⟩⟩

/-- How many quads a block of a draw's pixel threads takes: each has four slots of a wave (R430). -/
def Launch.quads (l : Launch) : Nat := max 1 (l.threads / 4)

/-- The next pixel threads of a draw (R430). -/
def State.pixelBlock (s : State) (d : Draw) : Option NewBlock :=
  let l := s.launchOf d.plaunch
  match d.quads.take l.quads with
  | [] => none
  | qs => some (s.drawBlock l (.pixel d.key) (qs.flatMap fun q => q.inits d))

/-- A draw's next vertex threads placed: their rank and the state. -/
def State.vertexReady (s : State) (d : Draw) : Option (Nat × State) := do
  let b ← s.vertexBlock d
  let s' ← s.placeAmong d.part (s.drawCores d) b
  return (rankOf b.launch, s'.mapDraw d.key fun d => d.tookVertices b.n)

/-- A draw's next pixel threads placed: their rank and the state. -/
def State.pixelReady (s : State) (d : Draw) : Option (Nat × State) := do
  let b ← s.pixelBlock d
  let s' ← s.placeAmong d.part (s.drawCores d) b
  return (rankOf b.launch, s'.mapDraw d.key fun d => { d with quads := d.quads.drop b.launch.quads })

/-- The ranks of the threads of draws that can start. -/
def State.drawRanks (s : State) (p : Nat) : List Nat :=
  (s.display.draws.filter (·.part = p)).flatMap fun d => ((s.vertexReady d).toList ++ (s.pixelReady d).toList).map (·.1)

/-- Whether a partition starts new work (R368, R384). -/
def State.starts (s : State) (p : Nat) : Bool := (s.part p).state = .running && !s.thermal.critical

/-- The records of a partition that can start now, with their kinds and ranks: 0 continuations, 1 messages, 3 blocks of launches,
4 threads of draws. -/
def State.readyRanks (s : State) (p : Nat) : List (Nat × Nat) :=
  ((s.contReady p).toList.map fun x => (0, x.1)) ++ ((s.msgReady p).toList.map fun x => (1, x.1)) ++
    ((s.pickLaunch p).toList.map fun x => (3, rankOf x.1)) ++ ((s.drawRanks p).map fun x => (4, x))

/-- How far a kind's turn is after the kind that started last (R42). -/
def turnOf (last kind : Nat) : Nat := (kind + 4 - last) % 5

/-- Whether no record of another kind that can start comes first (R42): by rank, and in turn among equals. -/
def State.noneBetter (s : State) (p kind rank : Nat) : Bool :=
  let last := (s.part p).turn
  (s.readyRanks p).all fun x => x.1 = kind || rank < x.2 || (rank = x.2 && turnOf last kind < turnOf last x.1)

/-- A record of a kind has started: the next turn is another kind's. -/
def State.tookTurn (s : State) (p kind : Nat) : State := s.mapPart p fun x => { x with turn := kind }

/-- Work of a partition waits: its cores whose block list is full move to the front of the rotation (R458, R457). -/
def State.listsWait (s : State) (p : Nat) : State :=
  (s.serving p).foldl (fun s c => if listFull (s.core c).blocks then s.moveFront c else s) s

/-- BLOCK_PLACE (R379 to R381). -/
def execBlockPlace (p : Nat) (s : State) : Host.Outcome State Fault Refusal :=
  .next (if !s.starts p then s else
    match s.pickLaunch p with
    | some (l, s') =>
      if s.noneBetter p 3 (rankOf l) then (s'.tookTurn p 3).mapLaunch l.key fun x => { x with nextClu := x.nextClu + 1 } else s
    | none => if (s.openLaunches p).isEmpty then s else s.listsWait p)

/-- A malformed continuation is rejected (R45): its context ends. -/
def State.rejectCont (s : State) (k l ctx : Nat) (fromHandler : Bool) (p : Nat) : State :=
  let s := s.takeWork p k
  let s := if fromHandler then s else s.mapLaunch l fun x => { x with pending := x.pending - 1 }
  s.fatal ctx { kind := 0x31, agent := 2, synd := 1 }

/-- CONTINUATION_START (R45). -/
def execContinuationStart (p : Nat) (s : State) : Host.Outcome State Fault Refusal :=
  .next (if !s.starts p then s else
    match s.headRecord p 0 with
    | some (k, .cont l ctx ws h _ _) =>
      if contBad ws then s.rejectCont k l ctx h p
      else
        match s.contReady p with
        | some (rank, s') => if s.noneBetter p 0 rank then (s'.tookTurn p 0).takeWork p k else s
        | none => s.listsWait p
    | _ => s)

/-- MESSAGE_HANDLER_START (R230): a message whose context receives none is discarded with a record for its sender. -/
def execMessageHandlerStart (p : Nat) (s : State) : Host.Outcome State Fault Refusal :=
  .next (if !s.starts p then s else
    match s.headRecord p 1 with
    | some (k, .msg c ws _ _ _) =>
      if (s.ctxOf c).msg.isNone ∨ (s.ctxOf c).ended then
        let s := s.takeWork p k
        if bitsAt ws 100 1 = 1 then s else s.undeliverable (bitsAt ws 88 12) { kind := 0x37, agent := 2 }
      else
        match s.msgReady p with
        | some (rank, s') => if s.noneBetter p 1 rank then (s'.tookTurn p 1).takeWork p k else s
        | none => s.listsWait p
    | _ => s)

/-- SENSOR_SCORE_REFRESH (R380): scores of 0 to 255. -/
def execSensorScoreRefresh (scores : List Nat) (s : State) : Host.Outcome State Fault Refusal :=
  .next { s with scores := (List.range 96).map fun c => min 255 (scores.getD c (s.score c)) }

end Sys2Proof.Machine
end

