-- ==== Sys2Proof/Machine/TaskSched.lean ====
section
/-! DEFINITION. Tile tasks in the hardware task scheduler (R252 to R254, R42, R458): dispatch to a free engine, completion, and
resumption after a stop at a k-step boundary. -/
namespace Sys2Proof.Machine

/-- Whether a queued task may be dispatched (R252): it waits for no record, and the tasks it names have completed. -/
def State.taskReady (s : State) (t : Task) : Bool :=
  t.state = .queued && t.wait.isNone && s.tokenOver t.part (wordAt t.words 12) && s.tokenOver t.part (wordAt t.words 13)

/-- The block-list entry of a task (R458). -/
def Task.entry (t : Task) : BlockEntry :=
  { part := t.part, ctx := t.ctx, queue := 0xFFF, launch := 0, lkey := t.launch, blk := 0, wid := 0, task := some t.tok
    tx := bitsAt t.words 320 16, ty := bitsAt t.words 336 16, tz := bitsAt t.words 352 16, cluster := false }

/-- The cores of a partition whose engine a task can take (R235, R252): idle, with room for its list entry. -/
def State.idleEngines (s : State) (t : Task) : List Nat :=
  (s.serving t.part).filter fun c =>
    let k := s.core c
    k.owner.isNone && k.task.isNone && k.hung.isNone && (addBlock k.blocks t.entry).isSome

/-- An engine for a task, if one is free: which one is not said. -/
def State.pickEngine (s : State) (t : Task) : Option Nat :=
  match s.idleEngines t with
  | [] => none
  | c :: r => some (chooseFrom s.free 131200 c (c :: r))

/-- A task has left its queue (R42): its ring slot is free, or the oldest task in a ring moves to the hardware queue. -/
def State.taskLeft (s : State) (t : Task) : State :=
  if t.ring then s.ringPop 2 (some t.ctx)
  else
    match s.tasks.find? fun x => x.part = t.part && x.state = .queued && x.ring with
    | some x => (s.mapTask x.part x.tok fun y => { y with ring := false }).ringPop 2 (some x.ctx)
    | none => s

/-- A task begins or goes on on an engine. -/
def State.runOn (s : State) (t : Task) (core : Nat) : State :=
  let s' := s.startTask t core
  let began := (s'.task? t.part t.tok).any fun x => x.state = .running && x.core = some core
  let s' := if began then
      s'.mapCore core fun c => { c with blocks := (addBlock c.blocks t.entry).getD c.blocks }
    else s'
  if t.state = .queued && !(s'.task? t.part t.tok).any (fun x => x.state = .queued) then s'.taskLeft t else s'

/-- TILE_TASK_DISPATCH (R252): the oldest task of the partition whose waits are met. -/
def execTileTaskDispatch (p : Nat) (tok : W32) (s : State) : Host.Outcome State Fault Refusal :=
  .next (if !s.starts p then s else
    match s.tasks.find? fun t => t.part = p && s.taskReady t with
    | some t =>
      if t.tok ≠ tok then s else
        match s.pickEngine t with
        | some c => s.runOn t c
        | none => s.listsWait p
    | none => s)

/-- A bound on the k-steps of a task (R251: NGRP is at most 65,532). -/
def allSteps : Nat := 65536

/-- TILE_TASK_COMPLETE (R253): the remaining k-steps, the write of C and the release. -/
def execTileTaskComplete (p : Nat) (tok : W32) (s : State) : Host.Outcome State Fault Refusal :=
  .next (match s.task? p tok with
    | some t =>
      match t.core with
      | some c => if t.state = .running && (s.core c).hung.isNone then s.runTask t c allSteps true else s
      | none => s
    | none => s)

/-- TILE_TASK_RESUME (R253): a task that stopped at a k-step boundary is translated again and goes on on any free engine. -/
def execTileTaskResume (p : Nat) (tok : W32) (s : State) : Host.Outcome State Fault Refusal :=
  .next (if !s.starts p then s else
    match s.task? p tok with
    | some t =>
      if t.state = .running && t.core.isNone && t.wait.isNone then
        match s.pickEngine t with
        | some c => s.runOn t c
        | none => s
      else s
    | none => s)

/-- A running task stops at a k-step boundary (R253, R387, R455): its accumulators and counter are kept. -/
def State.stopTask (s : State) (t : Task) : State :=
  match t.core with
  | some c => s.leaveEngine t c fun x => { x with core := none }
  | none => s

/-- The running tasks that satisfy a condition stop. -/
def State.stopTasks (s : State) (p : Task → Bool) : State :=
  (s.tasks.filter fun t => t.state = .running && p t).foldl State.stopTask s

end Sys2Proof.Machine
end

