-- ==== Sys2Proof/Machine/Queueing.lean ====
section
/-! DEFINITION. User queues and the queue scheduler (R39, R97, R343, R374 to R378): descriptors, hardware slots, and the reading,
rejection, start and completion of launches. -/
namespace Sys2Proof.Machine

/-! ### Descriptors -/

/-- The queue with a number. -/
def State.queue? (s : State) (q : Nat) : Option Queue := s.queues.find? fun x => x.q = q

/-- WIDX of a descriptor (R375). -/
def queueWidx (ws : List W32) : W32 := wordAt ws 3
/-- RIDX. -/
def queueRidx (ws : List W32) : W32 := wordAt ws 4
/-- LOGN. -/
def queueLogn (ws : List W32) : Nat := bitsAt ws 64 5
/-- PEND. -/
def queuePend (ws : List W32) : Bool := bitsAt ws 160 1 = 1
/-- STOP. -/
def queueStop (ws : List W32) : Bool := bitsAt ws 163 1 = 1

/-- Whether a descriptor is malformed, or its ring holds more records than it can (R375, R12). -/
def State.queueBad (s : State) (q : Queue) : Bool :=
  let ws := s.queueWords q
  let c := s.ctx? (bitsAt ws 80 12)
  queueLogn ws < 4 || 16 < queueLogn ws || !(c.any fun c => c.part = q.part && !c.ended) || bitsAt ws 70 10 ≠ 0 ||
    bitsAt ws 92 4 ≠ 0 || bitsAt ws 164 348 ≠ 0 || 2 ^ queueLogn ws < (queueWidx ws - queueRidx ws).toNat

/-- PEND of a descriptor written. -/
def State.setPend (s : State) (q : Queue) (on : Bool) : State :=
  let w := wordAt (s.queueWords q) 5
  s.setQueueWord q 5 (if on then w ||| 1 else w &&& ~~~1)

/-- Whether a queue has records left to read and is not stopped (R375, R376). -/
def State.queueWork (s : State) (q : Queue) : Bool :=
  let ws := s.queueWords q
  q.part < 8 && queueWidx ws ≠ queueRidx ws && (q.stop = 0 || (q.stop = 1 && !queueStop ws))

/-- The virtual address of a queue's next launch record (R375). -/
def State.nextRecord (s : State) (q : Queue) : W64 :=
  let ws := s.queueWords q
  wideAt ws 0 + BitVec.ofNat 64 (64 * ((queueRidx ws).toNat % 2 ^ queueLogn ws))

/-- The queue scheduler as it reads for a queue (R375). -/
def State.queueEng (s : State) (q : Queue) : Eng :=
  { ctx := s.queueCtx q, core := none, agent := 2, since := s.free, rel := true, loc := 0, pc := 0, info := BitVec.ofNat 64 q.q }

/-- The class of a launch record in a partition (R38). -/
def State.classOf (s : State) (p : Nat) (ws : List W32) : Nat := max (bitsAt ws 218 2) (s.part p).layout.cls

/-- The rank of a queue (R376): class and priority of its next launch, the lowest first. A record that cannot be read counts
with its partition's class and priority 0 (log entry 35). -/
def State.queueRank (s : State) (q : Queue) : Nat :=
  match s.engRead (s.queueEng q) (s.nextRecord q) 64 with
  | .ok (_, bs) => s.classOf q.part (bytesWords bs) * 16 + (15 - bitsAt (bytesWords bs) 220 4)
  | .error _ => (s.part q.part).layout.cls * 16 + 15

/-! ### Mapping -/

/-- A queue loses its slot (R376, R378): it is unmapped with work, or without. -/
def State.unmapQueue (s : State) (q : Queue) : State :=
  (s.setQueueState q (if s.queueWork q then 2 else 0) false).mapQueue q.q fun x => { x with slot := none }

/-- A queue whose descriptor is rejected as it is mapped (R375): it stops, with a record on the fatal lane of the PF. -/
def State.rejectQueue (s : State) (q : Queue) : State :=
  ((s.setQueueState q 3 false).mapQueue q.q fun x => { x with slot := none, stop := 2 }).postFatal 0
    { kind := 0x38, agent := 2, part := q.part, info := BitVec.ofNat 64 q.q }

/-- A queue takes a slot. -/
def State.mapTo (s : State) (q : Queue) (k : Nat) : State :=
  ((s.setPend q false).setQueueState q 1 false).mapQueue q.q fun x =>
    { x with slot := some k, stop := 0, emptyAt := none }

/-- The free hardware slots (R376). -/
def State.freeQueueSlots (s : State) : List Nat := (List.range 64).filter fun k => !s.queues.any fun q => q.slot = some k

/-- The mapped queue that gives up its slot to a queue of a rank (R376): of greater class, or of the same class and lower
priority; the greatest class, the lowest priority, the highest number. -/
def State.slotVictim (s : State) (rank : Nat) : Option Queue :=
  let vs := (s.queues.filter fun q => q.slot.isSome).map fun q => (s.queueRank q, q)
  (vs.filter fun v => rank < v.1).foldl (fun best v =>
    match best with
    | none => some v
    | some b => if b.1 < v.1 ∨ (b.1 = v.1 ∧ b.2.q < v.2.q) then some v else some b) none |>.map (·.2)

/-- One waiting queue gets a slot, if it can (R376). -/
def State.giveSlot (s : State) (q : Queue) : State :=
  if s.queueBad q then s.rejectQueue q
  else
    match s.freeQueueSlots with
    | k :: _ => s.mapTo q k
    | [] =>
      match s.slotVictim (s.queueRank q) with
      | some v => (s.unmapQueue v).mapTo q (v.slot.getD 0)
      | none => s

/-- The queues that wait for a slot in the order of R376. -/
def State.waitingQueues (s : State) : List Queue :=
  let l := (s.queues.filter fun q => q.slot.isNone && s.queueWork q).map fun q => (s.queueRank q, q)
  (l.mergeSort fun a b => a.1 < b.1 || (a.1 = b.1 && a.2.q ≤ b.2.q)).map (·.2)

/-- Whether a decision is due (R376): every 50 µs, or at a NOTIFY to a queue without a slot. -/
def State.decisionDue (s : State) : Bool :=
  5000 ≤ s.now - s.schedAt || s.queues.any fun q => q.asked && q.slot.isNone

/-- Whether a mapped queue's ring has been empty for 100 µs (R376). -/
def State.idleQueue (s : State) (q : Queue) : Bool := q.slot.isSome && q.emptyAt.any fun t => 10000 ≤ s.now - t

/-- QUEUE_SCHEDULER_DECISION (R376). -/
def execQueueSchedulerDecision (s : State) : Host.Outcome State Fault Refusal :=
  .next (if !s.decisionDue then s else
    let s := (s.queues.filter s.idleQueue).foldl State.unmapQueue s
    let s := s.waitingQueues.foldl (fun s q => match s.queue? q.q with
      | some q => s.giveSlot q
      | none => s) s
    { s with schedAt := s.now, queues := s.queues.map fun q => { q with asked := false } })

/-! ### Launches -/

/-- Whether a launch record breaks a rule of R39. -/
def launchBad (ws : List W32) : Bool :=
  let l : Launch := { Launch.none with words := ws }
  let widths := (List.range 5).map fun k => l.fieldWidth (k + 1)
  let w := (l.threads + 31) / 32
  let exts := [w, l.clu, l.ext 3, l.ext 4, l.ext 5]
  64 < 5 + widths.sum || (widths.zip exts).any (fun x => 2 ^ x.1 < x.2 || x.2 = 0) || l.threads = 0 || 1024 < l.threads ||
    3072 < bitsAt ws 176 12 || 1024 < (w + 3) / 4 * l.nregs || bitsAt ws 0 2 ≠ 0 || bitsAt ws 62 2 ≠ 0 || bitsAt ws 191 1 ≠ 0 ||
    bitsAt ws 224 32 ≠ 0

/-- A launch rejected (R39): a record for the queue's context, and the queue stops at that record. -/
def State.rejectLaunch (s : State) (q : Queue) : State :=
  ((s.setQueueState q 3 true).mapQueue q.q fun x => { x with slot := none, stop := 1 }).notice (s.queueCtx q)
    { kind := 0x30, agent := 2, info := BitVec.ofNat 64 q.q }

/-- A launch starts (R37, R377): the queue's read index moves on. -/
def State.startLaunch (s : State) (q : Queue) (ws : List W32) : State :=
  let d := s.queueWords q
  let l : Launch := { Launch.none with
    key := s.serial + 1, part := q.part, ctx := s.queueCtx q, queue := some q.q, index := queueRidx d, words := ws
    prio := bitsAt ws 220 4, cls := s.classOf q.part ws, since := s.now, stamp := s.free }
  let s : State := { s with launches := s.launches ++ [l], serial := s.serial + 1 }
  let s := s.setQueueWord q 4 (queueRidx d + 1)
  s.mapQueue q.q fun x => { x with last := some l.key, emptyAt := if queueWidx d = queueRidx d + 1 then some s.now else none }

/-- Whether a queue's order lets its next launch start (R377). -/
def State.orderMet (s : State) (q : Queue) : Bool :=
  match q.last with
  | none => true
  | some k =>
    match s.launches.find? fun l => l.key = k with
    | none => true
    | some l => l.complete || (bitsAt (s.queueWords q) 69 1 = 1 && l.clusters ≤ l.nextClu)

/-- A launch record that could not be read (R375): the queue waits for a replayable record, or its context ends. -/
def State.launchReadFailed (s : State) (q : Queue) : EngFail → State
  | .stop r =>
    let o := 1 + q.part
    if s.replayFull o then s
    else
      let (s, sq) := s.postReplay o { r with part := q.part } (some q.q)
      s.mapQueue q.q fun x => { x with wait := some (o, sq) }
  | .kill kind va level => s.fatal (s.queueCtx q) { (s.queueEng q).record kind va with synd := BitVec.ofNat 32 level }
  | .line va l x => s.lineError (s.queueCtx q) ((s.queueEng q).record 0 va) l x

/-- LAUNCH_READ (R375): the next record of a mapped queue that waits for nothing. -/
def execLaunchRead (q : Nat) (s : State) : Host.Outcome State Fault Refusal :=
  .next (match s.queue? q with
    | some x =>
      if x.slot.isSome && x.wait.isNone && s.queueWork x && s.orderMet x then
        match s.engRead (s.queueEng x) (s.nextRecord x) 64 with
        | .error f => s.launchReadFailed x f
        | .ok (s, bs) => if launchBad (bytesWords bs) then s.rejectLaunch x else s.startLaunch x (bytesWords bs)
      else s
    | none => s)

/-- Whether a launch's last block and its last continuation have completed (R45, R377). -/
def State.launchDone (s : State) (l : Launch) : Bool :=
  l.queue.isSome && !l.complete && l.clusters ≤ l.nextClu && l.pending = 0 && !(s.blocks.any fun b => b.launch = l.key)

/-- Whether a write of a context's threads waits at a held page. -/
def State.ctxBlocked (s : State) (c : Nat) : Bool := s.writes.any fun w => w.agent.ctx = some c && w.uid ≠ 0 && s.writeBlocked w

/-- LAUNCH_COMPLETE (R377): a release at .dev (R97). -/
def execLaunchComplete (l : Nat) (s : State) : Host.Outcome State Fault Refusal :=
  .next (match s.launches.find? fun x => x.key = l with
    | some x =>
      if s.launchDone x && !s.ctxBlocked x.ctx then
        (s.flushWhere fun w => w.agent.ctx = some x.ctx && w.uid ≠ 0).mapLaunch l fun y => { y with complete := true }
      else s
    | none => s)

/-! ### Host writes -/

/-- Whether a function reaches the user pages of a partition's queues (R340): the PF reaches all, VF k those of partition k. -/
def reaches (fn : Fn) (p : Nat) : Bool :=
  match fn with
  | .pf => true
  | .vf k => k = p

/-- USER_QUEUE_NOTIFY (R339, R340, R343, R375, R378): the write index, and PEND where the queue holds no slot; a mapped queue whose
ring would hold more than it can stops. A queue that no valid partition owns, or not the partition of the VF, takes no notice. -/
def execUserQueueNotify (page : UserPage) (idx : W32) (s : State) : Host.Outcome State Fault Refusal :=
  .next (match s.queue? page.queue with
    | some x =>
      if 8 ≤ x.part || !(s.part x.part).layout.valid || !reaches page.fn x.part then s else
        let more := idx ≠ queueRidx (s.queueWords x)
        let s := (s.setQueueWord x 3 idx).mapQueue page.queue fun y =>
          { y with emptyAt := if more then none else some (y.emptyAt.getD s.now), asked := y.slot.isNone }
        let ws := s.queueWords x
        if x.slot.isSome then (if 2 ^ queueLogn ws < (queueWidx ws - queueRidx ws).toNat then s.rejectQueue x else s)
        else
          let s := s.setPend x true
          if x.stop = 0 then s.setQueueState x 2 false else s
    | none => s)

/-- QUEUE_OWNER_WRITE (R374): a write that changes the owner or the descriptor unmaps the queue first. -/
def execQueueOwnerWrite (q : Nat) (value : W64) (s : State) : Host.Outcome State Fault Refusal :=
  .next (if 4096 ≤ q then s else
    let part := (value.extractLsb' 0 4).toNat
    let qdesc : W64 := value &&& 0x0000FFFFFFFFFFC0
    let fresh : Queue := { q := q, part := part, qdesc := qdesc, slot := none, emptyAt := none, asked := false, wait := none, last := none, stop := 0 }
    match s.queue? q with
    | some x =>
      if x.part = part ∧ x.qdesc = qdesc then s
      else
        let s := if x.slot.isSome then s.unmapQueue x else s
        s.mapQueue q fun _ => fresh
    | none => { s with queues := s.queues ++ [fresh] })

end Sys2Proof.Machine
end

