-- ==== Sys2Proof/Machine/Delivery.lean ====
section
/-! DEFINITION. The completion of replayable records (R414) and the debugger (R395 to R397). -/
namespace Sys2Proof.Machine

/-! ### Replayable records -/

/-- Every thread that has not ended, changed wherever it is. -/
def State.mapThreads (s : State) (f : Thread → Thread) : State :=
  let bin (b : Bin) : Bin := { b with slots := b.slots.map fun x => (f x.1, x.2) }
  { s with waves := s.waves.map fun w => w.mapAll f
           cores := s.cores.map fun c => { c with bins := c.bins.map bin }
           images := s.images.map fun i =>
             { i with waves := i.waves.map (fun w => w.mapAll f), raw := i.raw.map (fun w => w.mapAll f), bins := i.bins.map bin } }

/-- A thread stopped on a record, or waiting for the host's answer to its system call, goes on (R267, R414). -/
def Thread.replayed (o : Nat) (sq : W32) (t : Thread) : Thread :=
  if t.wait = .replay o sq ∨ t.wait = .sysc o sq then { t with wait := .ready } else t

/-- Everything that is stopped on a record goes on (R414). -/
def State.replayAll (s : State) (o : Nat) (sq : W32) : State :=
  let w : Option (Nat × W32) := some (o, sq)
  let clear (x : Option (Nat × W32)) : Option (Nat × W32) := if x = w then none else x
  let s := s.mapThreads (Thread.replayed o sq)
  { s with
    cmds := s.cmds.map fun c => { c with wait := clear c.wait }
    tasks := s.tasks.map fun t => { t with wait := clear t.wait }
    rays := s.rays.map fun r => { r with wait := clear r.wait }
    queues := s.queues.map fun q => { q with wait := clear q.wait }
    images := s.images.map fun i => { i with spill := i.spill.map fun x => (x.1, x.2.1, clear x.2.2) }
    parts := s.parts.map fun p => { p with render := { p.render with wait := clear p.render.wait } }
    display := { s.display with draws := s.display.draws.map fun d => { d with wait := clear d.wait } } }

/-- RDONE_SEQ (R412, R414): the record with this SEQ completes; what stopped on it replays, or its context ends with DISP = 1. A
residency request has stopped nothing. -/
def execRdoneSeq (owner : Nat) (sq : W32) (s : State) : Host.Outcome State Fault Refusal :=
  .next (match (s.owner owner).open_.find? fun r => r.sq = sq with
    | none => s
    | some r =>
      let fails := (s.owner owner).rdoneDisp && r.kind ≠ 0x03
      let s := s.setOwner owner fun w => { w with open_ := w.open_.filter fun x => x.sq ≠ sq }
      if fails then
        match s.ctx? r.ctx with
        | some c => if c.ended then s else s.fatal r.ctx { kind := 0x3D, va := r.va, synd := BitVec.ofNat 32 r.kind }
        | none => s
      else s.replayAll owner sq)

/-! ### The debugger -/

/-- The waves of a context begin to halt (R395): with reason "fault pending" where a thread is stopped on a fault (R397). -/
def Wave.beginHalt (w : Wave) : Wave :=
  if w.halt.state ≠ 0 then w else
    let fault := (lanesOf w.occupied).any fun i => (w.live? i).any fun t => match t.wait with
      | .replay _ _ => true
      | .trap _ _ _ _ => true
      | _ => false
    { w with halt := ⟨1, if fault then 2 else 0, 0⟩ }

/-- A change of the waves of a context, resident or off the cores. -/
def State.mapCtxWaves (s : State) (c : Nat) (f : Wave → Wave) : State :=
  let mine (w : Wave) : Bool := (s.launchOf w.launch).ctx = c
  { s with waves := updateWhere mine f s.waves
           images := s.images.map fun i => { i with waves := updateWhere mine f i.waves, raw := updateWhere mine f i.raw } }

/-- A halting wave with no class-V result outstanding, as every wave off the cores is, has stopped (R396). -/
def Wave.stopHalt (w : Wave) : Wave := if w.halt.state = 1 then { w with halt := { w.halt with state := 2 } } else w

/-- DEBUG_HALT (R395): every wave of the attached context; its rays are saved (R271). -/
def execDebugHalt (p : Nat) (s : State) : Host.Outcome State Fault Refusal :=
  let d := (s.part p).dbg
  .next (if d.attach then
      let s := s.mapCtxWaves d.ctx Wave.beginHalt
      let s : State := { s with images := s.images.map fun i => { i with waves := i.waves.map Wave.stopHalt } }
      (s.saveRays fun r => r.ctx = d.ctx).mapPart p fun x => { x with dbg := { x.dbg with state := 1 } }
    else s)

/-- DEBUG_RESUME (R395): every halted wave of the attached context; a partition that was held goes on within its window (R368). -/
def execDebugResume (p : Nat) (s : State) : Host.Outcome State Fault Refusal :=
  let d := (s.part p).dbg
  .next (if d.attach then
      let s := s.mapCtxWaves d.ctx fun w => { w with halt := ⟨0, 0, 0⟩ }
      let held := (s.part p).state = .held && s.inWindow p
      s.mapPart p fun x => { x with dbg := { x.dbg with state := 0 }, state := if held then .running else x.state }
    else s)

/-- HALT_COMPLETE (R396, R58): a halting wave whose class-V results have returned stops. -/
def execHaltComplete (core wslot : Nat) (s : State) : Host.Outcome State Fault Refusal :=
  .next (match s.wave? core wslot with
    | some w =>
      if w.halt.state = 1 && s.drained core wslot then s.mapWave core wslot Wave.stopHalt else s
    | none => s)

/-- The wave a debug block selects (R395), in its core or in an image. -/
def State.debugWave (s : State) (p : Nat) : Option Wave :=
  let d := (s.part p).dbg
  let mine (w : Wave) : Bool := w.core = d.core && w.wslot = d.wave && (s.launchOf w.launch).ctx = d.ctx
  if !d.attach then none else (s.waves ++ s.images.flatMap (·.waves)).find? mine

/-- DATA as a debug block reads it: the selected register of the selected slot (R395). -/
def State.debugData (s : State) (p : Nat) : W32 :=
  let d := (s.part p).dbg
  match (s.debugWave p).bind fun w => w.thread? d.lane with
  | some t => t.reg d.reg
  | none => 0

/-- A slot's thread changed, ended or not. -/
def Slot.mapThread (f : Thread → Thread) : Slot → Slot
  | .live t => .live (f t)
  | .exited t => .exited (f t)
  | .empty => .empty

/-- The selected wave's selected register takes a value. -/
def State.debugPoke (s : State) (p : Nat) (value : W32) : State :=
  let d := (s.part p).dbg
  s.mapCtxWaves d.ctx fun w =>
    if w.core = d.core && w.wslot = d.wave then
      { w with slots := updateAt w.slots d.lane (Slot.mapThread fun t => t.setReg d.reg value) }
    else w

/-- DEBUG_DATA_WRITE (R396): accepted for a stopped wave, else refused with BUSY. Log entry 36. -/
def execDebugDataWrite (p : Nat) (value : W32) (s : State) : Host.Outcome State Fault Refusal :=
  .next (match s.debugWave p with
    | some w =>
      if w.halt.state = 2 then s.debugPoke p value
      else s.mapPart p fun x => { x with dbg := { x.dbg with busy := true } }
    | none => s)

end Sys2Proof.Machine
end

