-- ==== Sys2Proof/Machine/Images.lean ====
section
/-! DEFINITION. Context images (R388 to R391, R393): the bytes and the size of a wave, a bin and a core image, the shadow share of
a partition, and the spill of an image to its save area. -/
namespace Sys2Proof.Machine

/-- Bytes of an image that the manual does not lay out: each is free. -/
def freeBytes (free tag n : Nat) : List Byte := (List.range n).map fun i => (Config.freeW32 free (tag + i)).setWidth 8

/-- The value that the 32 slots of a register store (R391): zero for an empty slot. -/
def slotWords (slots : List Slot) (k : Nat) : List W32 :=
  (List.range 32).map fun i => (((slots.getD i .empty).thread?).map fun t => t.reg k).getD 0

/-- Whether a register is zero in all 32 slots (R389). -/
def zeroReg (slots : List Slot) (k : Nat) : Bool := (slotWords slots k).all (· = 0)

/-- The registers an image stores (R391): kept, and not zero. -/
def storedRegs (slots : List Slot) (kept : Nat → Bool) (nregs : Nat) : List Nat :=
  (List.range nregs).filter fun k => k ≠ 0 && kept k && !zeroReg slots k

/-- The size of an image (R391): its sections before the threads, the thread sections, the stored registers. -/
def imageSize (head : Nat) (slots : List Slot) (kept : Nat → Bool) (nregs : Nat) : Nat :=
  head + 96 * (slots.filter fun x => x.live?.isSome).length + 128 * (storedRegs slots kept nregs).length

/-- A mask of 256 bits as words. -/
def maskWords (p : Nat → Bool) : List W32 :=
  (List.range 8).map fun w => bitsWhere fun i => p (32 * w + i)

/-- The header of an image (R389). -/
def imageHeader (nregs quad wslot bytes : Nat) (bin safe : Bool) (slots : List Slot) (kept : Nat → Bool) (ff : FFlags) : List Byte :=
  let w0 := (nregs / 8 - 1) + 32 * bin.toNat + 64 * safe.toNat + 128 * (quad % 4) + 512 * (wslot % 64) + 65536 * (bytes / 16 % 65536)
  let occ : W32 := bitsWhere fun i => ((slots.getD i .empty).live?).isSome
  let exited : W32 := bitsWhere fun i => match slots.getD i .empty with
    | .exited _ => true
    | _ => false
  wordsBytes ([BitVec.ofNat 32 w0, occ, exited, ff.setWidth 32] ++ maskWords (fun k => k < nregs && zeroReg slots k)
    ++ maskWords (fun k => k < nregs && kept k)) ++ List.replicate 176 0

/-- What a waiting thread waits for, and the argument of its wait (R390): a kind, and two numbers. -/
def Wait.parts : Wait → Nat × Nat × Nat
  | .ready => (0, 0, 0)
  | .bar n g => (1, n, g.toNat)
  | .barw n g => (2, n, g.toNat)
  | .barc g => (3, 0, g.toNat)
  | .ordered => (4, 0, 0)
  | .scoreboard _ lo n => (5, lo, n)
  | .await tok => (6, tok.toNat, 0)
  | .sysc _ sq => (7, sq.toNat, 0)
  | .replay _ sq => (8, sq.toNat, 0)
  | .retry (.task tok) => (9, tok.toNat, 0)
  | .retry _ => (10, 0, 0)
  | .save => (11, 0, 0)
  | .trap _ _ _ _ => (12, 0, 0)

/-- The thread section of a slot (R390), of a wave that a debugger has halted or not. How its block numbers and its wait are packed
is not said (log entry 36). -/
def threadSection (bslot : Thread → Nat) (halted : Bool) (t : Thread) : List Byte :=
  let (kind, a, b) := t.wait.parts
  let fault : Bool := kind == 8
  let kind3 := (Config.packing 0 kind 0).toNat % 8
  let flags := t.inHandler.toNat + 2 * kind3 + 16 * halted.toNat + 32 * fault.toNat
  natBytes 8 t.pc.toNat ++ natBytes 8 t.sp.toNat ++ natBytes 8 t.slim.toNat ++ natBytes 8 t.tvec.toNat ++ natBytes 8 t.tpc.toNat
    ++ natBytes 8 t.wid.toNat ++ natBytes 4 t.tcause.toNat ++ natBytes 4 t.synd.toNat ++ natBytes 4 t.unit.toNat
    ++ natBytes 4 t.tilex.toNat ++ natBytes 4 t.tiley.toNat ++ natBytes 4 t.tilez.toNat
    ++ natBytes 4 (Config.packing 1 (bslot t) t.blk).toNat ++ natBytes 2 t.depth.toNat ++ natBytes 1 t.starve ++ natBytes 1 flags
    ++ natBytes 4 (Config.packing 2 a b).toNat ++ natBytes 4 (Config.packing 3 a b).toNat ++ List.replicate 8 0

/-- The thread and register sections of an image (R390, R391). -/
def imageBody (bslot : Thread → Nat) (halted : Bool) (slots : List Slot) (kept : Nat → Bool) (nregs : Nat) : List Byte :=
  (slots.flatMap fun x => match x.live? with
    | some t => threadSection bslot halted t
    | none => []) ++
    (storedRegs slots kept nregs).flatMap fun k => wordsBytes (slotWords slots k)

/-- A free tag of an image. -/
def imageTag (core wslot : Nat) : Nat := 2251799813685248 + 65536 * (64 * core + wslot)

/-- The block slot of a thread's block. -/
def State.slotOf (s : State) (t : Thread) : Nat := (s.blockOf t.blk).bslot

/-- Every declared register, as an image keeps them that was not saved at a safe point (R389). -/
def keepAll (_ : Nat) : Bool := true

/-- A wave image (R389); how a rejoin entry fills its 32 bytes is not said. -/
def State.waveBytes (s : State) (w : Wave) (safe : Bool) (kept : Nat → Bool) : List Byte :=
  imageHeader w.nregs w.quad w.wslot (imageSize 768 w.slots kept w.nregs) false safe w.slots kept w.fflags
    ++ freeBytes s.free (imageTag w.core w.wslot + 16384) 512 ++ imageBody s.slotOf (w.halt.state ≠ 0) w.slots kept w.nregs

/-- A bin's threads as slots. -/
def Bin.asSlots (b : Bin) : List Slot := fillSlots (b.slots.map (·.1))

/-- A bin image (R389). -/
def State.binBytes (s : State) (b : Bin) : List Byte :=
  imageHeader b.nregs 0 0 (imageSize 256 b.asSlots keepAll b.nregs) true false b.asSlots keepAll (b.slots.foldl (fun a x => a ||| x.2) 0)
    ++ imageBody s.slotOf (s.launchHalted b.launch) b.asSlots keepAll b.nregs

/-- The accumulator tiles of an image (R388): all 32, of which those with no defined value hold free ones (R235). -/
def tileBytesOf (free tag : Nat) (accs : List (Nat × List W32)) : List Byte :=
  (List.range 32).flatMap fun k =>
    match accs.find? fun x => x.1 = k with
    | some x => wordsBytes x.2
    | none => freeBytes free (tag + 4096 * k) 4096

/-- The blocks whose state a core image holds. -/
def State.imageBlocks (s : State) (i : Image) : List Block :=
  if i.evict then [] else s.blocks.filter fun b => b.out && b.core = i.core && b.part = i.part

/-- The contexts whose state an image holds. -/
def State.imageCtxs (s : State) (i : Image) : List Nat :=
  ((i.waves.map fun w => (s.launchOf w.launch).ctx) ++ (i.bins.map fun b => (s.launchOf b.launch).ctx) ++ (s.imageBlocks i).map (·.ctx)).eraseDups

/-- A core image (R388) in parts, each with the context whose state it is (R477); the header and the block sections are not laid
out. -/
def State.coreParts (s : State) (i : Image) : List (Nat × List Byte) :=
  let blocks := s.imageBlocks i
  let tag := imageTag i.core 0
  [((s.imageCtxs i).headD noTag, freeBytes s.free (tag + 40960) 4096)]
    ++ (blocks.map fun b => (b.ctx, freeBytes s.free (tag + 49152 + 1024 * (b.bslot + 1)) 1024))
    ++ (blocks.map fun b => (b.ctx, b.scratch.readRun 0 (s.launchOf b.launch).scratch))
    ++ (i.owner.toList.map fun k => ((s.blockOf k).ctx, tileBytesOf s.free (tag + 9007199254740992) i.accs))
    ++ (i.waves.map fun w => ((s.launchOf w.launch).ctx, s.waveBytes w false keepAll))
    ++ i.bins.map fun b => ((s.launchOf b.launch).ctx, s.binBytes b)

/-- The size of a core image (R388, R391). -/
def State.coreImageSize (s : State) (blocks : List Block) (waves : List Wave) (bins : List Bin) (owned : Bool) : Nat :=
  4096 + 1024 * blocks.length + (blocks.map fun b => (s.launchOf b.launch).scratch).sum + (if owned then 131072 else 0)
    + (waves.map fun w => imageSize 768 w.slots keepAll w.nregs).sum
    + (bins.map fun b => imageSize 256 b.asSlots keepAll b.nregs).sum

/-- The bytes of a partition's shadow share in use: images, and 32 KiB for each microcode image (R423). -/
def State.shadowUsed (s : State) (p : Nat) : Nat :=
  ((s.images.filter fun i => i.part = p && i.shadow).map (·.bytes)).sum
    + ((s.ctxs.filter fun c => c.part = p).map fun c => 32768 * c.mcode.length).sum

/-- Whether an image of some bytes fits in a partition's shadow share (R386, R392). -/
def State.shadowFits (s : State) (p bytes : Nat) : Bool := s.shadowUsed p + bytes ≤ (s.part p).layout.shadow * 2 ^ 20

/-- What a core's part of a save area spans (R392). -/
def savePart : Nat := 1348 * 1024

/-- Where an image lies in its partition's save area: the part of its core, and for an evicted wave anywhere in that part (log
entry 37). -/
def State.savePlace (s : State) (i : Image) : Nat :=
  (s.part i.part).layout.savearea.toNat + i.core * savePart +
    (if i.evict then 16 * Config.freeIndex s.free (131300 + i.core) ((savePart - 36480) / 16) else 0)

/-- A write of the context engine for a context to a partition's save area (R393, R477), page by page through the partition stage: the
code of R416 when it faults. -/
def State.saveWrite (s : State) (p ctx ia : Nat) (bs : List Byte) : Nat → Except (Nat × Nat) State
  | 0 => .ok s
  | fuel + 1 =>
    if bs.isEmpty then .ok s else
      let k := min bs.length (4096 - ia % 4096)
      match stagePart s.mem s.free (131400 + ia / 4096) (s.partRoot p) ⟨4, true, false, true⟩ (ia % 2 ^ 48) with
      | .error c => .error (c, ia)
      | .ok l => State.saveWrite (s.homeWrite ctx (s.domain (some p)) 0 (l.pa ia) (bs.take k)) p ctx (ia + k) (bs.drop k) fuel

/-- The parts of an image written one after another. -/
def State.saveParts (s : State) (p ia : Nat) : List (Nat × List Byte) → Except (Nat × Nat) State
  | [] => .ok s
  | (ctx, bs) :: r => do
    let s ← s.saveWrite p ctx ia bs (bs.length / 4096 + 2)
    State.saveParts s p (ia + bs.length) r

/-- Whether an evicted wave's image keeps a register (R389). -/
def Image.keeps (i : Image) (k : Nat) : Bool := bitsAt i.kept k 1 = 1

/-- The bytes that an image writes to the save area, in parts. -/
def State.imageParts (s : State) (i : Image) : List (Nat × List Byte) :=
  if i.evict then i.raw.map fun w => ((s.launchOf w.launch).ctx, s.waveBytes w i.safe i.keeps)
  else s.coreParts i

/-- An image whose size follows what it still holds (R391). -/
def State.resized (s : State) (i : Image) : Image :=
  { i with bytes :=
      if i.evict then (i.raw.map fun w => imageSize 768 w.slots i.keeps w.nregs).sum
      else s.coreImageSize (s.imageBlocks i) i.waves i.bins i.owner.isSome }

/-- A spill of an image to the save area is tried (R393): it leaves shadow storage, or waits for a replayable record. -/
def State.trySpill (s : State) (i : Image) : State × Image :=
  match s.saveParts i.part (s.savePlace i) (s.imageParts i) with
  | .ok s => (s, { i with shadow := false, spill := none })
  | .error (code, ia) =>
    let since := (i.spill.map (·.1)).getD s.now
    let o := 1 + i.part
    if s.replayFull o then (s, { i with shadow := true, spill := some (since, s.now, none) })
    else
      let (s, sq) := s.postReplay o
        { kind := 0x05, agent := 5, ctx := (s.imageCtxs i).head?, part := i.part, pa := ia, synd := BitVec.ofNat 32 code }
      (s, { i with shadow := true, spill := some (since, s.now, some (o, sq)) })

/-- An image kept (R386, R388, R393): in the partition's shadow share while it fits, else spilled to the save area. -/
def State.keepImage (s : State) (i : Image) : State :=
  if s.shadowFits i.part i.bytes then { s with images := s.images ++ [{ i with shadow := true }] }
  else
    let (s, i) := s.trySpill i
    { s with images := s.images ++ [i] }

/-- The images of a partition tried again. -/
def State.spillAgain (s : State) (p : Nat) (due : Nat × Nat × Option (Nat × W32) → Bool) : State :=
  (List.range s.images.length).foldl (fun s k =>
    match s.images[k]? with
    | some i =>
      if i.part = p && i.spill.any due then
        let (s, i) := s.trySpill i
        { s with images := updateAt s.images k fun _ => i }
      else s
    | none => s) s

/-- SAVE_AREA_RETRY (R393): when the record has completed, and otherwise every 100 µs. -/
def execSaveAreaRetry (p : Nat) (s : State) : Host.Outcome State Fault Refusal :=
  .next (s.spillAgain p fun x => x.2.2.isNone || 10000 ≤ s.now - x.2.1)

/-- SAVE_AREA_TIMEOUT (R393): after SAVETO a context whose state the image holds becomes fatal, and its part of the image is discarded
with it; the spill of what is left of other contexts starts afresh. A CTX_SWAP in execution returns TIMEOUT (R398). -/
def execSaveAreaTimeout (p : Nat) (s : State) : Host.Outcome State Fault Refusal :=
  .next (match s.images.find? fun i => i.part = p && i.spill.any fun x => (s.part p).layout.saveto * 100 < s.now - x.1 with
    | some i =>
      let s : State := { s with mp := { s.mp with spillLost := true } }
      match s.imageCtxs i with
      | c :: _ =>
        let s := s.fatal c { kind := 0x3A, agent := 5, pa := s.savePlace i }
        let same (j : Image) : Bool := j.part = p && j.core = i.core && j.evict = i.evict && j.since = i.since
        { s with images := updateWhere same (fun j => s.resized { j with spill := j.spill.map fun x => (s.now, x.2) }) s.images }
      | [] => { s with images := s.images.filter (· ≠ i) }
    | none => s)

end Sys2Proof.Machine
end

