-- ==== Sys2Proof/Machine/Swap.lean ====
section
/-! DEFINITION. Partition states and windows (R368, R373, R384, R387, R397): drains, full swaps out of and into the cores. -/
namespace Sys2Proof.Machine

/-- The partition of a wave. -/
def State.wavePart (s : State) (w : Wave) : Nat := (s.launchOf w.launch).part

/-- The cores that hold state of a partition: waves, bins or blocks. -/
def State.heldCores (s : State) (p : Nat) : List Nat :=
  (List.range 96).filter fun c =>
    (s.waves.any fun w => w.core = c && s.wavePart w = p) || (s.blocks.any fun b => b.core = c && b.part = p && !b.out) ||
      (s.core c).bins.any fun b => (s.launchOf b.launch).part = p

/-- Every outstanding class-V result of some waves returns (R58). -/
def State.returnResults (s : State) (p : Wave → Bool) : State :=
  let mine (r : Result) : Bool := (s.wave? r.core r.wslot).any p
  let s' : State := { s with results := s.results.filter fun r => !mine r }
  (s.results.filter mine).foldl (fun t x => t.mapWave x.core x.wslot (x.returnTo s.free)) s'

/-- A table register after a swap (R235, R238): a valid one is dropped. -/
def Table.drop (t : Table) : Table := if t.state = 1 then { (t.setState 2) with entries := [] } else t

/-- One core's state of a partition saved as a core image (R387, R388): results return, the core's writes are performed and its
copies dropped, tile tasks stop at a k-step boundary, and the tables are dropped. -/
def State.saveCore (s : State) (core p : Nat) (ringlet : Bool) : State :=
  let s := s.returnResults fun w => w.core = core && s.wavePart w = p
  let s := (s.flushCore core).dropL1 core
  let s := s.stopTasks fun t => t.part = p && t.core = some core
  let k := s.core core
  let waves := (s.waves.filter fun w => w.core = core && s.wavePart w = p).map fun w => { w.stopHalt with marker := false }
  let bins := k.bins.filter fun b => (s.launchOf b.launch).part = p
  let blocks := s.blocks.filter fun b => b.core = core && b.part = p && !b.out
  let owner := k.owner.filter fun b => blocks.any fun x => x.key = b
  let i : Image :=
    { part := p, core := core, evict := false, ringlet := ringlet, waves := waves, bins := bins, owner := owner
      accs := if owner.isSome then k.accs else [], tables := if owner.isSome then k.tables.map fun x => (x.1, x.2.drop) else []
      bytes := s.coreImageSize blocks waves bins owner.isSome, shadow := false, since := s.now, raw := [], kept := [], safe := false, spill := none }
  let s : State := { s with
    waves := s.waves.filter fun w => !(w.core = core && s.wavePart w = p)
    blocks := updateWhere (fun b => b.core = core && b.part = p && !b.out) (fun b => { b with out := true }) s.blocks }
  let s := s.mapCore core fun c =>
    let c := { c with bins := c.bins.filter fun b => (s.launchOf b.launch).part ≠ p }
    if owner.isSome then c.freeEngine else c
  s.keepImage i

/-- A thread back on its core: the time it was off counts neither against its section's limit (R226) nor its block's (R455). -/
def Thread.later (d : Nat) (t : Thread) : Thread := { t with holdStart := t.holdStart + d }

/-- An evicted wave's image follows its block to another core. -/
def Image.follow (i : Image) (part from_ core : Nat) : Image :=
  if i.evict && i.part = part && i.core = from_ then { i with core := core } else i

/-- The hit records and the rays of a partition follow its waves to another core (R260). -/
def State.moveHits (s : State) (p from_ core : Nat) : State :=
  if from_ = core then s else
    let mine (h : HitRec) : Bool := (s.launchOf h.launch).part = p
    let hits := (s.core from_).hits.filter mine
    let s := (s.mapCore from_ fun c => { c with hits := c.hits.filter fun h => !mine h }).mapCore core fun c => { c with hits := c.hits ++ hits }
    { s with rays := updateWhere (fun r => r.part = p && r.core = from_) (fun r => { r with core := core }) s.rays }

/-- A core image back on a core (R387), whose copies of lines, which may be older than what these threads have read, are dropped
(R100). -/
def State.loadCore (s : State) (i : Image) (core : Nat) : State :=
  let d := s.now - i.since
  let waves := i.waves.map fun w => { (w.mapAll (Thread.later d)) with core := core }
  let bins := i.bins.map fun b => { b with first := b.first + d }
  let s : State := { s with
    waves := s.waves ++ waves
    blocks := updateWhere (fun b => b.core = i.core && b.part = i.part && b.out)
      (fun b => { b with out := false, core := core, start := b.start + d }) s.blocks
    images := (s.images.filter (· ≠ i)).map fun j => j.follow i.part i.core core }
  ((s.moveHits i.part i.core core).dropL1 core).mapCore core fun c =>
    { c with bins := c.bins ++ bins, owner := if i.owner.isSome then i.owner else c.owner
             accs := if i.owner.isSome then i.accs else c.accs, tables := if i.owner.isSome then i.tables else c.tables }

/-- A full swap of a partition out of its cores begins (R387), its rays saved (R271): it is SWAPPING until the context engine is done
(R368). -/
def State.swapOut (s : State) (p : Nat) : State :=
  let s := (s.stopTasks fun t => t.part = p).saveRays fun r => r.part = p
  let s := (s.heldCores p).foldl (fun s c => s.saveCore c p false) s
  s.mapPart p fun x => { x with state := .swapping, swaps := satInc x.swaps }

/-- Whether a partition's images are all in place: none of its spills waits (R393, R398). -/
def State.spilled (s : State) (p : Nat) : Bool := !s.images.any fun i => i.part = p && i.spill.isSome

/-- The core for an image of a partition (R367, R387): its own while it serves, else the first that serves and holds nothing. -/
def State.imageCore (s : State) (p : Nat) (i : Image) : Option Nat :=
  let cores := s.serving p
  if cores.contains i.core then some i.core
  else cores.find? fun c => !(s.heldCores p).contains c && !s.images.any fun j => j.part = p && j.core = c && !j.evict

/-- The images of a partition's cores. -/
def State.coreImages (s : State) (p : Nat) : List Image := s.images.filter fun i => i.part = p && !i.evict && !i.ringlet

/-- A full swap of a partition into its cores (R387, R392). -/
def State.swapIn (s : State) (p : Nat) : State :=
  let s := (s.coreImages p).foldl (fun s i => match s.imageCore p i with
    | some c => s.loadCore i c
    | none => s) s
  s.mapPart p fun x => { x with state := .running, swaps := satInc x.swaps }

/-- A swap ends (R368): out of the cores once every image is in place, or into them. -/
def State.endSwap (s : State) (p : Nat) : State :=
  match (s.part p).state with
  | .swapping => if s.spilled p then s.mapPart p fun x => { x with state := .out } else s
  | .swappingIn => s.swapIn p
  | _ => s

/-! ### Windows -/

/-- Whether two partitions share a core (R365). -/
def State.shareCores (s : State) (p q : Nat) : Bool := p ≠ q && (s.part p).layout.cores &&& (s.part q).layout.cores ≠ 0

/-- Whether some thread of a partition's waves is halted by a debugger. -/
def State.partHalted (s : State) (p : Nat) : Bool := s.waves.any fun w => s.wavePart w = p && w.halt.state ≠ 0

/-- Whether a partition's running blocks have all completed (R384). -/
def State.partIdle (s : State) (p : Nat) : Bool := !s.blocks.any fun b => b.part = p

/-- A draining partition whose last block has completed waits (R384). -/
def State.endDrain (s : State) (p : Nat) : State :=
  if (s.part p).state = .draining && s.partIdle p then
    (s.stopTasks fun t => t.part = p).mapPart p fun x => { x with state := .waiting }
  else s

/-- The drains that are done. -/
def State.endDrains (s : State) : State :=
  if s.parts.any fun x => x.state = .draining then (List.range 8).foldl State.endDrain s else s

/-- Whether a partition is in a state from which its window opens (R368). -/
def PState.opens : PState → Bool
  | .waiting => true
  | .out => true
  | _ => false

/-- Whether a partition still occupies its cores at another's window start (R373). -/
def PState.occupies : PState → Bool
  | .running => true
  | .draining => true
  | .swapping => true
  | .swappingIn => true
  | .resetting => true
  | _ => false

/-- Whether a partition's state turns commands that name it away with BUSY (R348, R349). -/
def PState.inTransition : PState → Bool
  | .resetting => true
  | .swapping => true
  | .swappingIn => true
  | _ => false

/-- Whether two layout entries differ in a field whose change drains the partition (R367). -/
def Layout.differs (a b : Layout) : Bool :=
  a.valid ≠ b.valid || (a.valid && (a.cores ≠ b.cores || a.dbase ≠ b.dbase || a.dm ≠ b.dm || a.cls ≠ b.cls))

/-- Whether a layout commit in progress holds a partition that it changes (R367): it starts no new work. -/
def State.commitHolds (s : State) (p : Nat) : Bool :=
  s.mp.prepared.any fun x => x.sealed && (x.entries.getD p .none).differs (s.part p).layout

/-- WINDOW_START (R373, R368): once the previous occupants have drained or swapped; those that wait or are held first leave their
cores, and a partition that is OUT first comes in. -/
def execWindowStart (p : Nat) (s : State) : Host.Outcome State Fault Refusal :=
  let x := s.part p
  let others := (List.range 8).filter fun q => s.shareCores p q
  .next (if !(x.layout.valid && x.state.opens && s.inWindow p) || s.commitHolds p || others.any fun q => (s.part q).state.occupies then s
    else
      match others.filter fun q => (s.part q).state = .waiting || (s.part q).state = .held with
      | [] => s.mapPart p fun y => { y with state := if x.state = .out then .swappingIn else .running }
      | qs => qs.foldl State.swapOut s)

/-- The drain of a running partition begins (R384): at once done when nothing runs. -/
def State.beginDrain (s : State) (p : Nat) : State :=
  (s.mapPart p fun y => { y with state := .draining, drainAt := s.now }).endDrain p

/-- WINDOW_END (R373, R384): a partition with a wave that a debugger halts is held and forfeits its window (R397). -/
def execWindowEnd (p : Nat) (s : State) : Host.Outcome State Fault Refusal :=
  let x := s.part p
  .next (if x.layout.valid && x.state = .running && !s.inWindow p then
      if s.partHalted p then s.mapPart p fun y => { y with state := .held }
      else s.beginDrain p
    else s)

/-- DRAIN_ESCALATION (R384): a drain that exceeds MBT. -/
def execDrainEscalation (p : Nat) (s : State) : Host.Outcome State Fault Refusal :=
  let x := s.part p
  .next (if x.state = .draining && x.layout.mbt * 100 < s.now - x.drainAt then
      let s : State := { s with telem := { s.telem with escalations := satInc s.telem.escalations } }
      s.swapOut p
    else s)

end Sys2Proof.Machine
end

