-- ==== Sys2Proof/Machine/Evict.lean ====
section
/-! DEFINITION. Partial eviction (R48, R385, R386, R398) and what settles after every step: waits that end, waves and blocks that
end, waves that are saved, drains that are done. -/
namespace Sys2Proof.Machine

/-! ### Records that wait -/

/-- A record that waits for a core (R385): its class, since when, the cores it may take, and the blocks it would start. -/
structure Waiter where
  cls    : Nat
  since  : Nat
  cores  : BitVec 96
  blocks : List NewBlock

/-- The records of a partition that wait for a core (R385): continuations, messages, clusters of launches, threads of draws. -/
def State.waiters (s : State) (p : Nat) : List Waiter :=
  let since (l : Launch) : Nat := max l.since (l.lastStart.getD 0)
  let cont := match s.headRecord p 0 with
    | some (_, .cont l _ ws _ t _) => [⟨(s.launchOf l).cls, t, BitVec.allOnes 96, [s.contBlock (s.launchOf l) ws]⟩]
    | _ => []
  let msg := match s.headRecord p 1 with
    | some (_, .msg c ws pl t _) =>
      match (s.ctxOf c).msg with
      | some m => let l := (s.handlerLaunch (s.ctxOf c) m).2; [⟨l.cls, t, BitVec.allOnes 96, [s.handlerBlock l ws pl]⟩]
      | none => []
    | _ => []
  let grids := (s.openLaunches p).map fun l => ⟨l.cls, since l, BitVec.allOnes 96, s.nextCluster l⟩
  let draws := (s.display.draws.filter (·.part = p)).flatMap fun d =>
    ((s.vertexBlock d).toList ++ (s.pixelBlock d).toList).map fun b => ⟨b.launch.cls, since b.launch, s.drawCores d, [b]⟩
  cont ++ msg ++ grids ++ draws

/-- Whether a waiting record could start now. -/
def State.canStart (s : State) (p : Nat) (x : Waiter) : Bool :=
  match x.blocks with
  | [b] => (s.placeAmong p x.cores b).isSome
  | bs => (s.placeCluster p bs).isSome

/-- Whether a waiting record could start now on a core, or for a cluster at all. -/
def State.fitsOn (s : State) (p : Nat) (x : Waiter) (core : Nat) : Bool :=
  match x.blocks with
  | [b] => (s.tryBlock b core).isSome
  | bs => (s.placeCluster p bs).isSome

/-! ### Candidates -/

/-- The blocks of a wave's threads. -/
def Wave.blockKeys (w : Wave) : List Nat := ((lanesOf w.occupied).filterMap fun i => (w.live? i).map (·.blk)).eraseDups

/-- Whether a wave may be evicted for a record of a class (R48, R226, R385). -/
def State.evictable (s : State) (p cls : Nat) (w : Wave) : Bool :=
  let l := s.launchOf w.launch
  l.part = p && cls < l.cls && w.saving.isNone && w.halt.state = 0 &&
    w.blockKeys.all (fun k => (s.blocks.filter fun b => b.cluster = (s.blockOf k).cluster).length ≤ 1 && (s.core w.core).owner ≠ some k) &&
    !(lanesOf w.occupied).any fun i => (w.live? i).any (·.holds)

/-- A wave's age: the serial of its oldest thread. -/
def Wave.birth (w : Wave) : Nat := w.stream

/-- Whether one wave is evicted before another (R385): greatest class, then lowest priority, then youngest. -/
def State.evictBefore (s : State) (a b : Wave) : Bool :=
  let x := s.launchOf a.launch
  let y := s.launchOf b.launch
  y.cls < x.cls || (x.cls = y.cls && (x.prio < y.prio || (x.prio = y.prio && b.birth ≤ a.birth)))

/-- The candidates of a quadrant in order. -/
def State.evictees (s : State) (p cls core quad : Nat) : List Wave :=
  (s.waves.filter fun w => w.core = core && w.quad = quad && s.evictable p cls w).mergeSort s.evictBefore

/-- How many evictions in a quadrant make room for a record on its core, beside the waves selected already; none when no number
does. -/
def State.evictionsFor (s : State) (p : Nat) (x : Waiter) (core quad : Nat) : Option Nat :=
  let ws := s.evictees p x.cls core quad
  (List.range (ws.length + 1)).find? fun k =>
    let gone := ws.take k
    (({ s with waves := s.waves.filter fun w =>
        !(w.saving.isSome && s.wavePart w = p) && !gone.any fun g => g.core = w.core && g.wslot = w.wslot } : State).fitsOn p x core)

/-- The waves selected for a record (R385): none while those selected already make room; else on the first core in rotation order,
in the quadrant with the fewest evictions. -/
def State.selectWaves (s : State) (p : Nat) (x : Waiter) : List Wave :=
  let order := (rotateFrom (s.part p).pointer (s.serving p)).filter fun c => x.cores.getLsbD c
  let options := order.filterMap fun c =>
    lowestScore (fun y => y.2) ((List.range 4).filterMap fun q => (s.evictionsFor p x c q).map fun k => ((c, q), k))
  if options.any fun o => o.2 = 0 then []
  else match options with
    | [] => []
    | ((c, q), k) :: _ => (s.evictees p x.cls c q).take k

/-- Every bin of some contexts drawn (R30, R385), as far as wave slots and registers allow. -/
def State.drawBins (s : State) (ctxs : List Nat) : State :=
  s.cores.foldl (fun s c => c.bins.foldl (fun s b => if ctxs.contains (s.launchOf b.launch).ctx then s.drawBin c.core b else s) s) s

/-- Waves selected for a save (R386). -/
def State.markWaves (s : State) (cls : Nat) (ws : List Wave) : State :=
  ws.foldl (fun s w => s.mapWave w.core w.wslot fun x => { x with saving := some (s.now, cls) }) s

/-- PARTIAL_EVICTION (R385): for the first record that has waited longer than EVDELAY and cannot be placed. -/
def execPartialEviction (p : Nat) (s : State) : Host.Outcome State Fault Refusal :=
  .next (if !s.starts p then s else
    let due := (s.waiters p).filter fun x =>
      (s.part p).layout.evdelay * 100 < s.now - x.since && !s.canStart p x &&
        s.waves.any fun w => s.wavePart w = p && x.cls < (s.launchOf w.launch).cls
    match lowestScore (·.cls) due with
    | none => s
    | some x =>
      let ctxs := ((s.waves.filter fun w => s.wavePart w = p && x.cls < (s.launchOf w.launch).cls).map fun w => (s.launchOf w.launch).ctx).eraseDups
      let s := s.drawBins ctxs
      s.markWaves x.cls (s.selectWaves p x))

/-! ### Saves -/

/-- A wave that was selected goes on (R386, R398). -/
def Wave.release (w : Wave) : Wave :=
  { (w.mapAll fun t => if t.wait = .save then { t with wait := .ready } else t) with saving := none }

/-- EVICTION_WAVE_TIMEOUT (R386): a selected wave that is not ready within 10 µs, and the next candidate. -/
def execEvictionWaveTimeout (core wslot : Nat) (s : State) : Host.Outcome State Fault Refusal :=
  .next (match s.wave? core wslot with
    | some w =>
      match w.saving with
      | some (t, cls) =>
        if 1000 < s.now - t then
          let next := (s.evictees (s.wavePart w) cls core w.quad).take 1
          (s.mapWave core wslot Wave.release).markWaves cls next
        else s
      | none => s
    | none => s)

/-- What a thread's save at its PC keeps (R278, R389): whether it stands at a safe point, and its live mask there, where it has
one. -/
def State.savedMask (s : State) (l : Launch) (core : Nat) (t : Thread) : Except EngFail (Bool × Option (List W32)) := do
  if ← s.safePoint l core t.pc then return (true, ← s.liveMask l core t.pc) else return (false, none)

/-- A thread that goes on when its saved wave is restored. -/
def Thread.unsaved (t : Thread) : Thread := if t.wait = .save then { t with wait := .ready } else t

/-- The registers that some threads' masks keep together: all where one has none. -/
def joinMasks (ms : List (Option (List W32))) : List W32 :=
  ms.foldl (fun a m => match m with
    | some ws => List.zipWith (· ||| ·) a ws
    | none => List.replicate 8 0xFFFFFFFF) (List.replicate 8 0)

/-- A wave's image as it is saved (R386, R389): with every thread at a safe point the live masks apply, and what a mask does not
keep is unpredictable once the wave is restored. -/
def State.savedImage (s : State) (w : Wave) : Except EngFail Image := do
  let l := s.launchOf w.launch
  let masks ← w.slots.mapM fun x => match x with
    | .live t => (s.savedMask l w.core t).map some
    | _ => pure none
  let safe := masks.all fun m => m.all (·.1)
  let raw := { (w.mapAll Thread.unsaved) with saving := none, marker := false }
  let slots := raw.slots.mapIdx fun k x => x.mapLive fun t => t.keepLive s.free ((masks.getD k none).bind (·.2))
  let kept := if safe then joinMasks ((masks.filterMap id).map (·.2)) else List.replicate 8 0xFFFFFFFF
  return s.resized
    { part := l.part, core := w.core, evict := true, ringlet := false, waves := [{ raw with slots := slots }], bins := [], owner := none
      accs := [], tables := [], bytes := 0, shadow := false, since := s.now, raw := [raw], kept := kept, safe := safe, spill := none }

/-- A wave that is ready is saved (R386): its image is kept, and its registers and wave slot are free. -/
def State.evictWave (s : State) (w : Wave) : State :=
  let l := s.launchOf w.launch
  match s.savedImage w with
  | .error f => s.tableFailed l { kind := 0x22, die := coreDie w.core, loc := locWord w.core w.wslot 0 0 } f
  | .ok i =>
    let s : State := { s with waves := s.waves.filter fun y => !(y.core = w.core && y.wslot = w.wslot) }
    (s.keepImage i).mapPart l.part fun y => { y with evictions := satInc y.evictions }

/-- The threads of a selected wave that stand at a safe point wait there (R386); a failed table read ends their context. -/
def State.parkSafe (s : State) (w : Wave) : State :=
  let l := s.launchOf w.launch
  (lanesOf w.eligible).foldl (fun s i =>
    match w.live? i with
    | none => s
    | some t =>
      match s.safePoint l w.core t.pc with
      | .error f => s.tableFailed l { kind := 0x22, die := coreDie w.core, loc := locWord w.core w.wslot i 0, pc := t.pc } f
      | .ok true => s.mapWave w.core w.wslot fun w => w.mapLanes (bitsWhere (· = i)) fun _ t => { t with wait := .save }
      | .ok false => s) s

/-- A selected wave in this step: released when a thread of it holds a section (R398), else saved once every thread waits and
its class-V results have returned (R58). -/
def State.saveStep (s : State) (core wslot : Nat) : State :=
  match s.wave? core wslot with
  | none => s
  | some w =>
    if w.saving.isNone then s
    else if (lanesOf w.occupied).any (fun i => (w.live? i).any (·.holds)) || w.halt.state ≠ 0 then s.mapWave core wslot Wave.release
    else
      let s := s.parkSafe w
      match s.wave? core wslot with
      | some w => if !w.marker && w.eligible = 0 && s.drained core wslot then s.evictWave w else s
      | none => s

/-- Selected waves that are ready are saved. -/
def State.saveSteps (s : State) : State :=
  if s.waves.any fun w => w.saving.isSome then s.waves.foldl (fun s w => s.saveStep w.core w.wslot) s else s

/-- Whether a record of a better class than an evicted wave's could start on its core now, as the one for which it was evicted does
(log entry 138). -/
def State.betterWaits (s : State) (p cls core : Nat) : Bool :=
  (s.waiters p).any fun x => x.cls < cls && x.cores.getLsbD core && s.canStart p x && s.fitsOn p x core

/-- Whether a core image waits for a core while its partition runs (R349: its own core was quarantined). -/
def State.strayImage (s : State) (i : Image) : Bool := !i.evict && !i.ringlet && (s.part i.part).state = .running

/-- WAVE_RESTORE (R386): to the same core, as soon as registers and a wave slot are free there. A core image whose core left
service while its partition runs goes to another core (R384, R349). -/
def execWaveRestore (n : Nat) (s : State) : Host.Outcome State Fault Refusal :=
  .next (match s.images[n]? with
    | some i =>
      if s.strayImage i then
        match s.imageCore i.part i with
        | some c => s.loadCore i c
        | none => s
      else
      match i.waves, s.freeSlots i.core with
      | [w], k0 :: ks =>
        let q := s.bestQuad i.core
        let st := (s.part i.part).state
        if i.evict && (st = .running || st = .draining) && (s.health.getD i.core .reset).state = 0 && w.nregs ≤ s.quadFree i.core q &&
            !s.betterWaits i.part (s.launchOf w.launch).cls i.core then
          let wslot := chooseFrom s.free 131500 k0 (k0 :: ks)
          let base := (newWave s.free i.core wslot q w.launch w.nregs [] 0).base
          { s with waves := s.waves ++ [{ w with core := i.core, wslot := wslot, quad := q, base := base }], images := s.images.eraseIdx n }
        else s
      | _, _ => s
    | none => s)

/-! ### Settling -/

/-- The images in shadow storage take the space of what they still hold (R391, R393). -/
def State.resizeImages (s : State) : State :=
  if s.images.isEmpty then s else { s with images := s.images.map fun i => if i.shadow then s.resized i else i }

/-- Clean lines in error that were met are fetched again, and counted (R465). -/
def State.refetchMet (s : State) : State :=
  let l := (s.met.filter (·.clean)).map (·.line)
  if l.isEmpty then s else
    { s with
      met := s.met.filter fun m => !m.clean
      storage := { s.storage with badClean := s.storage.badClean.filter fun x => !l.contains x }
      telem := { s.telem with cacheClean := l.foldl (fun n x => if Config.freeBool s.free (66040 + x) then n else satInc n) s.telem.cacheClean } }

/-- Everything that a step has brought about within the machine: ended threads complete barriers, waves and blocks, and waits
whose causes have passed end. -/
def State.settle (s : State) : State :=
  let s := (s.recheckBarriers).reapWaves
  let s := (s.endBlocks).freeBlocks.tidyImages
  let s := s.waves.foldl (fun s w => s.wakeWave w.core w.wslot) s
  let s := s.waves.foldl (fun s w => s.enterTraps w.core w.wslot) s
  let s := (s.saveSteps).endDrains.refetchMet.resizeImages
  { s with waves := s.waves.map Wave.restCounts, cur := none }

end Sys2Proof.Machine
end

