-- ==== Sys2Proof/Machine/Parts.lean ====
section
/-! DEFINITION. Partitions as a whole: reset (R394), the write-back of a domain, and the flip of the layout sets (R352, R367,
R447). -/
namespace Sys2Proof.Machine

/-! ### Dirty lines of a partition -/

/-- The slices of an interleave domain (R299). -/
def inDomain (dom : Nat × Nat) (slice : Nat) : Bool := dom.1 ≤ slice && slice < dom.1 + 2 ^ dom.2

/-- Whether a dirty line may be a partition's: its tag names a context of it, or no context and it lies in its domain (log entry
39). -/
def State.lineOfPart (s : State) (p : Nat) (d : DirtyLine) : Bool :=
  if d.tag = noTag then (s.part p).layout.valid && inDomain (s.domain (some p)) d.slice
  else (s.ctx? d.tag).any fun c => c.part = p

/-- One byte of a lost line: freely one of those it held since the last write-back (R394). -/
def State.loseByte (s : State) (d : DirtyLine) (off : Nat) : State :=
  let pa := d.line * 128 + off
  let now := s.mem.read pa
  let b := chooseFrom s.free (4503599627370496 + pa) now (now :: (d.hist.filter fun h => h.1 = off).map (·.2))
  { s with mem := s.mem.write pa b, past := addPast s.free s.past pa [now] [b] }

/-- Dirty lines discarded without being written back (R394). -/
def State.loseLines (s : State) (p : DirtyLine → Bool) : State :=
  let lost := s.dirty.filter p
  let s := lost.foldl (fun s d => ((d.hist.map (·.1)).eraseDups).foldl (fun s off => s.loseByte d off) s) s
  { s with dirty := s.dirty.filter fun d => !p d }

/-! ### Reset -/

/-- The contexts of a partition. -/
def State.partCtxs (s : State) (p : Nat) : List Nat := (s.ctxs.filter fun c => c.part = p).map (·.id)

/-- Everything of a partition halts and is killed (R394): its writes on their way are performed, its contexts end, its queues
stop, and its records, tasks and images are gone. -/
def State.killPart (s : State) (p : Nat) : State :=
  let s := s.postFatal 0 { kind := 0x3B, agent := 7, part := p }
  let s := s.flushWhere fun w => s.agentPart w.agent = some p
  let s := (s.partCtxs p).foldl (fun s c => (s.discardCtx c).mapCtx c fun x => { x with ended := true }) s
  let s := s.stopQueues fun q => q.part = p
  let s : State := { s with tasks := s.tasks.filter fun t => t.part ≠ p, images := s.images.filter fun i => i.part ≠ p }
  s.mapPart p fun x => { x with work := [], state := .resetting, dbg := { x.dbg with state := 0 } }

/-- The end of a partition's reset (R394): its dirty lines are written back or lost, its contexts are destroyed, and it is
IDLE. -/
def State.endReset (s : State) (p : Nat) (keep : Bool) : State :=
  let s := if keep then s.writeBack fun d => s.lineOfPart p d else s.loseLines fun d => s.lineOfPart p d
  let s : State := { s with ctxs := s.ctxs.filter fun c => c.part ≠ p }
  s.mapPart p fun x => { x with state := if x.layout.valid then .idle else .absent }

/-- VF_FUNCTION_LEVEL_RESET (R341, R363): PART_RESET without the keep flag, and the blocks of the page are discarded. -/
def execVfFunctionLevelReset (k : Nat) (s : State) : Host.Outcome State Fault Refusal :=
  .next (if !s.vfOn k then s else
    let x := s.part k
    let s := if x.layout.valid && x.state ≠ .resetting then (s.killPart k).endReset k false else s
    let held := s.mp.inExec.any fun x => x.1 = 1 + k
    { s with
      pages := updateAt s.pages (1 + k) fun g => { g with cons := g.prod, examine := false, viaVf := false, past := [] }
      mp := { s.mp with inExec := if held then none else s.mp.inExec } })

/-! ### The flip -/

/-- The partitions that a prepared set changes (R367). -/
def State.changedParts (s : State) (x : Prepared) : List Nat :=
  (List.range 8).filter fun p => (x.entries.getD p .none).differs (s.part p).layout

/-- A changed partition begins to drain (R367): a held one is swapped out, and one that waits or is out is left as it is. -/
def State.drainForCommit (s : State) (p : Nat) : State :=
  match (s.part p).state with
  | .running => s.beginDrain p
  | .held => s.swapOut p
  | _ => s

/-- Whether a partition has drained or swapped (R367). -/
def PState.isDrained : PState → Bool
  | .absent => true
  | .idle => true
  | .waiting => true
  | .out => true
  | _ => false

/-- Whether every partition that a set changes has drained or swapped (R367). -/
def State.allDrained (s : State) (x : Prepared) : Bool := (s.changedParts x).all fun p => (s.part p).state.isDrained

/-- A partition under its new layout entry (R367, R368, R447). -/
def Partition.flip (x : Partition) (l : Layout) : Partition :=
  { x with
    layout := l
    sgen := if x.layout.dbase ≠ l.dbase ∨ x.layout.dm ≠ l.dm then x.sgen + 1 else x.sgen
    state := if !l.valid then .absent else if x.state = .absent then .idle else x.state }

/-- The lines of the changed partitions' old domains are written back (R367), and homed anew from then on. -/
def State.writeBackOld (s : State) (ps : List Nat) : State :=
  ps.foldl (fun s p =>
    let dom := s.domain (some p)
    if (s.part p).layout.valid then (s.writeBack fun d => inDomain dom d.slice).forgetHomes fun h => inDomain dom h.slice else s) s

/-- A launch under its partition's class (R38): the greater of its own and that. -/
def Launch.inClass (l : Launch) (cls : Nat) : Launch := { l with cls := max (bitsAt l.words 218 2) cls }

/-- The shadow and the active set are exchanged as one operation (R352, R367). -/
def State.flipLayout (s : State) (x : Prepared) : State :=
  let s := s.writeBackOld (s.changedParts x)
  { s with
    parts := s.parts.mapIdx fun p y => y.flip (x.entries.getD p .none)
    launches := s.launches.map fun l => l.inClass (x.entries.getD l.part .none).cls
    boot := { s.boot with period := x.period, flips := s.boot.flips + 1 }
    mp := { s.mp with prepared := none } }

end Sys2Proof.Machine
end

