-- ==== Sys2Proof/Machine/Mp.lean ====
section
/-! DEFINITION. The management processor (R345 to R348, R353 to R356): the command pages, the order in which blocks are taken,
their checks and their responses, its accesses to memory, its watchdog and its restart. -/
namespace Sys2Proof.Machine

/-! ### Memory -/

/-- The physical pieces of an address argument (R346): device physical on the privileged page, guest-physical through the
partition stage on a partition page; none when it fails, or leaves the installed memory. `fuel` bounds the pages. -/
def State.mpPieces (s : State) (page : Nat) (wr : Bool) (a n : Nat) : Nat → Option (List (Nat × Nat))
  | 0 => some []
  | fuel + 1 =>
    if n = 0 then some []
    else if page = 0 then (if a + n ≤ s.installed then some [(a, n)] else none)
    else
      let k := min n (4096 - a % 4096)
      match s.guestPa (page - 1) wr a with
      | none => none
      | some pa =>
        if pa + k ≤ s.installed then (State.mpPieces s page wr (a + k) (n - k) fuel).map ((pa, k) :: ·) else none

/-- Whether every line of some pieces serves the management processor (log entry 40). -/
def State.mpServed (s : State) (rd : Bool) (ps : List (Nat × Nat)) : Bool :=
  ps.all fun p => (linesOf p.1 p.2).all fun l => s.lineState rd (9007199254740992 + l % 65536) (l * 128) = .ok

/-- The home partition of a page's accesses where its command names none (R300). -/
def State.pageHome (s : State) (page : Nat) : Option Nat := some (if page = 0 then s.boot.winPart else page - 1)

/-- Bytes that the management processor reads, homed as R300 states; none where the argument is BAD_ARG. -/
def State.mpRead (s : State) (page : Nat) (home : Option Nat) (a n : Nat) : Option (List Byte) := do
  let ps ← s.mpPieces page false a n (n / 4096 + 2)
  if s.mpServed true ps then some (ps.flatMap fun p => s.domainRead 0 (s.domain home) 0 p.1 p.2) else none

/-- Bytes that the management processor writes, homed as R300 states. -/
def State.mpWrite (s : State) (page : Nat) (home : Option Nat) (a : Nat) (bs : List Byte) : Option State := do
  let ps ← s.mpPieces page true a bs.length (bs.length / 4096 + 2)
  if s.mpServed false ps then
    some (ps.foldl (fun (x : State × Nat) p =>
      (x.1.homeWrite noTag (x.1.domain home) 0 p.1 ((bs.drop x.2).take p.2), x.2 + p.2)) (s, 0)).1
  else none

/-! ### Pages and blocks -/

/-- A page. -/
def State.page (s : State) (k : Nat) : Page := s.pages.getD k .reset

/-- A page changed. -/
def State.mapPage (s : State) (k : Nat) (f : Page → Page) : State := { s with pages := updateAt s.pages k f }

/-- The blocks that wait on a page (R345): a difference above 60 is read as 60. -/
def Page.waiting (g : Page) : Nat := min (g.prod - g.cons).toNat 60

/-- The slot of a page's next block. -/
def Page.slot (g : Page) : Nat := g.cons.toNat % 60

/-- One byte of a slot as the management processor reads it: freely one of those written in breach of R345. -/
def Page.slotByte (g : Page) (free off : Nat) : Byte :=
  let b := g.slots.read off
  chooseFrom free (18014398509481984 + off) b (b :: (g.past.filter fun x => x.1 = off).map (·.2))

/-- The words of a page's next block (R346). -/
def Page.block (g : Page) (free : Nat) : List W32 :=
  bytesWords ((List.range 64).map fun i => g.slotByte free (64 * g.slot + i))

/-- Whether a page has a block that the management processor was asked to take. -/
def Page.pending (g : Page) : Bool := g.examine && 0 < g.waiting

/-- The page whose block is taken next (R347): the one in execution; the privileged page before each turn of a partition page;
else the partition pages from the one after the last served. -/
def State.nextPage (s : State) : Option Nat :=
  match s.mp.inExec with
  | some (k, _) => some k
  | none =>
    let priv := if (s.page 0).pending then [0] else []
    let parts := ((List.range 8).map fun i => 1 + (s.mp.nextPage + i) % 8).filter fun k => (s.page k).pending
    (if s.mp.privTurn then priv ++ parts else parts ++ priv).head?

/-- The codes of the commands (R350), with whether they belong to the privileged page alone, their argument words and their
result words. -/
def commandRow : Nat → Option (Bool × List Nat × List Nat)
  | 0x01 => some (false, [], [2, 3, 4, 5, 6, 7, 8, 9, 10, 11])
  | 0x02 => some (true, [2, 3, 4, 5], [6])
  | 0x03 => some (true, [2], [])
  | 0x04 => some (true, [], [])
  | 0x05 => some (true, [2, 3], [])
  | 0x06 => some (false, [2, 3, 4, 5, 6, 7, 8, 9, 10, 11, 12], [13])
  | 0x07 => some (false, [2], [])
  | 0x08 => some (true, [2, 3], [4])
  | 0x09 => some (false, [2, 3, 4, 5, 6, 7], [])
  | 0x0A => some (true, [2, 3, 4, 5], [])
  | 0x0B => some (false, [2, 3, 4, 5, 6], [])
  | 0x0C => some (true, [2, 3], [4])
  | 0x0D => some (true, [2, 3], [])
  | 0x0E => some (true, [2, 3], [4])
  | 0x0F => some (true, [2], [3, 4])
  | 0x10 => some (true, [2], [])
  | 0x11 => some (true, [2], [])
  | 0x12 => some (true, [2], [])
  | 0x13 => some (true, [2, 3], [])
  | 0x14 => some (false, [2, 3, 4, 5], [6])
  | 0x15 => some (false, [2, 3], [])
  | 0x16 => some (true, [2, 3, 4], [])
  | 0x17 => some (true, [2, 3, 4, 5], [])
  | 0x18 => some (true, [2, 3, 4, 5, 6, 7], [])
  | 0x19 => some (true, [2, 3, 4], [])
  | 0x1A => some (false, [2, 3, 4, 5], [6])
  | 0x1B => some (false, [2, 3, 4, 5, 6, 7], [])
  | 0x1C => some (true, [2, 3], [])
  | 0x1D => some (true, [2, 3], [])
  | 0x1E => some (false, [2, 3, 4], [5])
  | 0x1F => some (true, [2, 3, 4, 5], [])
  | 0x20 => some (true, [2], [])
  | _ => none

/-- The status values (R348). -/
inductive Status where
  | ok | malformed | denied | badState | badArg | busy | crc | noResource | timeout | aborted | mpRestart
  deriving DecidableEq, Repr

/-- Their codes. -/
def Status.code : Status → Nat
  | .ok => 0
  | .malformed => 1
  | .denied => 2
  | .badState => 3
  | .badArg => 4
  | .busy => 5
  | .crc => 6
  | .noResource => 7
  | .timeout => 8
  | .aborted => 9
  | .mpRestart => 10

/-- CODE of a block. -/
def blockCode (ws : List W32) : Nat := (wordAt ws 0).toNat % 256

/-- The checks that every block meets before its command's own (R339, R346 to R348, R350): a page answers BAD_STATE for a partition
that is not valid, and through a VF that is not there. Log entry 41. -/
def State.blockStatus (s : State) (page : Nat) (ws : List W32) : Status :=
  match commandRow (blockCode ws) with
  | none => .malformed
  | some (priv, args, results) =>
    if wordAt ws 0 &&& 0xFF00FE00 ≠ 0 ∨ ((List.range 14).map (· + 2)).any (fun k => !args.contains k && !results.contains k && wordAt ws k ≠ 0) then
      .malformed
    else if page ≠ 0 ∧ blockCode ws ≠ 1 ∧ (!(s.part (page - 1)).layout.valid || ((s.page page).viaVf && !s.vfOn (page - 1))) then .badState
    else if page ≠ 0 ∧ priv then .denied
    else .ok

/-- The commands that change resources a layout names (R352). -/
def changesLayout (code : Nat) : Bool := [0x05, 0x08, 0x0A, 0x0E, 0x10, 0x11, 0x12, 0x1C].contains code

/-- The vectors of a page (R344). -/
def State.raisePage (s : State) (page : Nat) : State :=
  let s := s.raise .pf page
  if page ≠ 0 && s.vfOn (page - 1) then s.raise (.vf (page - 1)) 0 else s

/-- What a completed command does to a PREPARED set and to the count of PART_PREPARE commands (R352, R366). -/
def Mp.completed (m : Mp) (code : Nat) (st : Status) : Mp :=
  let m := if code = 2 then { m with prepCount := m.prepCount + 1 } else m
  if changesLayout code && (st = .ok || st = .timeout || st = .mpRestart) && m.prepared.isSome then
    { m with prepared := none, discarded := true }
  else m

/-- What makes two blocks the same (R356): their code and their arguments. -/
def blockArgs (ws : List W32) : List W32 :=
  (wordAt ws 0 &&& 0xFF) :: (match commandRow (blockCode ws) with
    | some (_, args, _) => args.map (wordAt ws)
    | none => [])

/-- The block completed with MP_RESTART last is kept until the same block is completed (R356). -/
def Mp.redoAfter (m : Mp) (ws : List W32) (st : Status) : Option (List W32) :=
  if st = .mpRestart then some (blockArgs ws) else if m.redo = some (blockArgs ws) then none else m.redo

/-- A block is completed (R346, R347): results and STATUS, DONE, CONS, and the page's vector. -/
def State.respond (s : State) (page : Nat) (ws : List W32) (st : Status) (results : List (Nat × W32)) : State :=
  let g := s.page page
  let w0 := (wordAt ws 0 &&& 0xFF00FEFF) ||| 0x100 ||| BitVec.ofNat 32 (65536 * st.code)
  let out := results.foldl (fun ws r => setWord ws r.1 r.2) (setWord ws 0 w0)
  let lo := 64 * g.slot
  let g : Page := { g with
    slots := g.slots.writeRun lo (wordsBytes out)
    past := g.past.filter fun x => x.1 < lo || lo + 64 ≤ x.1
    cons := g.cons + 1
    examine := g.examine && g.prod ≠ g.cons + 1 }
  let m := s.mp.completed (blockCode ws) st
  let m : Mp := { m with inExec := none, serviced := s.now, privTurn := page ≠ 0, redo := m.redoAfter ws st
                         nextPage := if page = 0 then m.nextPage else page % 8 }
  ({ s with pages := updateAt s.pages page fun _ => g, mp := m } : State).raisePage page

/-- Whether Larkspur serves blocks now: it is not restarting, its own work is done or waits for the block in execution, and bring-up has reached state 4, or state 1
for DEV_INFO (R353, R347, R357; log entry 42). -/
def State.mpServes (s : State) (code : Nat) : Bool :=
  s.mp.restartAt.isNone && (s.mp.own.isEmpty || s.mp.inExec.isSome) && (s.boot.state = 4 || (s.boot.state ≠ 0 && code = 1))

/-- Blocks that no command takes are rejected as their turn comes (R348); `fuel` bounds how many. -/
def State.rejectUnknown (s : State) : Nat → State
  | 0 => s
  | fuel + 1 =>
    match s.nextPage with
    | none => s
    | some k =>
      let ws := (s.page k).block s.free
      if (commandRow (blockCode ws)).isNone && s.mpServes 0 then (s.respond k ws .malformed []).rejectUnknown fuel else s

/-- What a command answers: its status and results, or nothing while it is still in execution. -/
abbrev Answer := State × Option (Status × List (Nat × W32))

/-- A command that is turned away. -/
def State.turnedAway (s : State) (st : Status) : Answer := (s, some (st, []))

/-- A command that is done, with its results. -/
def State.answered (s : State) (results : List (Nat × W32)) : Answer := (s, some (.ok, results))

/-- A block that stays in execution. -/
def State.holdBlock (s : State) (page : Nat) : State :=
  if s.mp.inExec.isSome then s
  else { s with mp := { s.mp with inExec := some (page, (s.page page).cons), takenAt := s.now } }

/-- The command of a code, if its block is the next to be taken and lies on a page (R347). -/
def State.serve (s : State) (code page : Nat) (body : List W32 → State → Answer) : State :=
  match s.nextPage with
  | none => s
  | some k =>
    let ws := (s.page k).block s.free
    if k = page ∧ blockCode ws = code ∧ s.mpServes code then
      match s.blockStatus page ws with
      | .ok =>
        match body ws s with
        | (s, some (st, results)) => (s.respond page ws st results).rejectUnknown 540
        | (s, none) => s.holdBlock page
      | st => (s.respond page ws st []).rejectUnknown 540
    else s

/-- Whether a hardware step of a command exceeds its bound (R349): a matter of timing, which the model leaves free (log entry
43). -/
def State.isLate (s : State) : Bool := Config.freeBool s.free 66000

/-- COMMAND_PAGE_NOTIFY (R345, R347). -/
def execCommandPageNotify (page : Nat) (s : State) : Host.Outcome State Fault Refusal :=
  .next ((s.mapPage page fun g => { g with examine := g.prod ≠ g.cons }).rejectUnknown 540)

/-! ### Domain splits in progress -/

/-- The step that the domain registers of some partitions show (R447). -/
def State.showStep (s : State) (names : List (Nat × (Nat × Nat))) (n : Nat) : State :=
  names.foldl (fun s x => s.mapPart x.1 fun p => { p with sstate := n }) s

/-- A split is at a step (R445). -/
def State.splitAt (s : State) (x : Split) (n : Nat) : State :=
  ({ s with mp := { s.mp with split := some { x with stage := n } } } : State).showStep x.names n

/-- A split is over: done (R445), or left before its slices hold nothing any more (R448). -/
def State.endSplit (s : State) (x : Split) : State := ({ s with mp := { s.mp with split := none } } : State).showStep x.names 0

/-- The split that a block in execution has in progress; one that went late goes on by itself (R349). -/
def State.heldSplit (s : State) : Option Split := if s.mp.late.contains .split then none else s.mp.split

/-- What the watchdog does to a split (R448): before the domains change, its slices leave hold and serve under the old map. -/
def State.dropSplit (s : State) : State :=
  match s.heldSplit with
  | some x => if x.stage < 3 then s.endSplit x else s
  | none => s

/-- What a restart does to a split whose domains have changed (R448): its slices complete it. -/
def State.settleSplit (s : State) : State :=
  match s.heldSplit with
  | some x => s.endSplit x
  | none => s

/-! ### Watchdog and restart -/

/-- A set is sealed with a checksum (R352), and the partitions that it changes begin to drain (R367). -/
def State.sealSet (s : State) (x : Prepared) (sum : W32) : State :=
  let s := if x.sealed then s else (s.changedParts x).foldl State.drainForCommit s
  { s with mp := { s.mp with prepared := some { x with sealed := true, sealedBy := sum } } }

/-- What Larkspur may have begun of a block it had just taken (log entry 44): nothing, or the sealing of the set by a PART_COMMIT
with its checksum, of which any word may have been written. -/
def State.begunBlock (s : State) (ws : List W32) : State :=
  match s.mp.prepared with
  | some x =>
    if blockCode ws = 3 && wordAt ws 2 = x.checksum && !x.sealed && Config.freeBool s.free 66003 then
      s.sealSet x (if Config.freeBool s.free 66004 then x.checksum else Config.freeW32 s.free 66005)
    else s
  | none => s

/-- MP_WATCHDOG_FIRE (R353): once Larkspur has not serviced it for the period. A block may have been taken, whose changes had not
begun, but for the sealing of a set (log entry 44). -/
def execMpWatchdogFire (s : State) : Host.Outcome State Fault Refusal :=
  .next (if s.boot.state = 0 || s.mp.restartAt.isSome || s.now - s.mp.serviced < s.mp.wdMs * 100000 then s
    else
      let s : State := { s.dropSplit with mp := { s.dropSplit.mp with restartAt := some s.now } }
      match s.mp.inExec, s.nextPage with
      | none, some k =>
        if Config.freeBool s.free 66001 then
          let s : State := { s with mp := { s.mp with inExec := some (k, (s.page k).cons) } }
          if k = 0 then s.begunBlock ((s.page k).block s.free) else s
        else s
      | _, _ => s)

/-- Whether a set was sealed with its own checksum, so that it is to be flipped (R352, R354). -/
def Prepared.good (x : Prepared) : Bool := x.sealed && x.sealedBy = x.checksum

/-- Steps 1 and 3 of a restart (R354): a set that is not sealed, or whose seal is not its checksum, is discarded; a sealed one is
flipped. -/
def State.settleSets (s : State) : State :=
  match s.mp.prepared with
  | none => s
  | some x =>
    if x.good then s.flipLayout x
    else
      let s : State := { s with mp := { s.mp with prepared := none } }
      s.mapPage 0 fun g => { g with evAbort := true }

/-- MP_RESTART (R354, R356): the flip of a sealed set waits for the partitions that it drains (log entry 45). -/
def execMpRestart (s : State) : Host.Outcome State Fault Refusal :=
  .next (if s.mp.restartAt.isNone || s.mp.prepared.any fun x => x.good && !s.allDrained x then s
    else
      let s := s.settleSets.settleSplit
      let s := match s.mp.inExec with
        | some (k, _) => s.respond k ((s.page k).block s.free) .mpRestart []
        | none => s
      let s := s.mapPage 0 fun g => { g with evRestart := true }
      let s : State := { s with mp := { s.mp with restartAt := none, serviced := s.now, inExec := none } }
      (s.raise .pf 0).rejectUnknown 540)

end Sys2Proof.Machine
end

