-- ==== Sys2Proof/Machine/Health.lean ====
section
/-! DEFINITION. Reliability (R271, R454 to R469, R473, R477 to R479): Ringlet and the scans of quarantined cores, failing cores
and their damage, readmission, safety mismatches, lookup engines that hang, storage errors and their containment, and thermal
limits. -/
namespace Sys2Proof.Machine

/-! ### Scans -/

/-- A core's health. -/
def State.healthOf (s : State) (core : Nat) : Health := s.health.getD core .reset

/-- A core's health changed. -/
def State.mapHealth (s : State) (core : Nat) (f : Health → Health) : State := { s with health := updateAt s.health core f }

/-- Whether an injection makes a core's next scan fail (R472 kinds 3 and 6). -/
def CoreSt.scanFails (c : CoreSt) : Bool := c.inject.any fun i => i.kind = 3 || i.kind = 6

/-- The injections that a scan uses up. -/
def CoreSt.scanned (c : CoreSt) : CoreSt := { c with inject := c.inject.filter fun i => i.kind ≠ 3 && i.kind ≠ 6 }

/-- A core's record (R471), with LOC bit 31 where an injection caused it. -/
def coreRec (kind core : Nat) (injected : Bool) : Rec :=
  let loc := locWord core 0 0 0
  { kind := kind, agent := 7, die := coreDie core, loc := if injected then injectedLoc loc else loc }

/-- A core leaves the rotation in progress, or has passed in it (R459): with the last one ROTGEN increments, and the next
rotation begins with the cores in service. -/
def State.leaveRotation (s : State) (core : Nat) : State :=
  let r := s.ringlet
  if !r.left.contains core then s else
    let left := r.left.filter (· ≠ core)
    if left.isEmpty then
      { s with ringlet := { r with
          left := (List.range 96).filter fun c => (s.healthOf c).state = 0
          rotgen := satInc r.rotgen, rotus := BitVec.ofNat 32 ((s.now - r.rotStart) / 100), rotStart := s.now } }
    else { s with ringlet := { r with left := left } }

/-- A core passes a scan (R459): its write ranges and block list are cleared, PSEQ and LASTPASS move on. -/
def State.corePasses (s : State) (core : Nat) : State :=
  let s := s.mapCore core fun c => { c.scanned with ranges := [], blocks := [] }
  let s := s.mapHealth core fun h => { h with pseq := h.pseq + 1, lastpass := s.dieTime (coreDie core) }
  { s with telem := { s.telem with passes := satInc s.telem.passes } }

/-- A failed scan counted (R460, R464, R474). -/
def State.countFailure (s : State) (core : Nat) : State :=
  let s := s.mapHealth core fun h => { h with fails := min 255 (h.fails + 1), passrun := 0 }
  { s with telem := { s.telem with fails := satInc s.telem.fails } }

/-- All damage entries written so far. -/
def State.damageCount (s : State) : Nat := (s.parts.map (·.dmgCount.toNat)).sum

/-- The blocks resident on a core, on it or in its image. -/
def State.residents (s : State) (core : Nat) : List Block := s.blocks.filter fun b => b.core = core && !b.ended

/-- The blocks of a core killed, with their clusters when `clusters` (R460, R469), and damage entries for its write ranges and the
rest of its block list; both are then empty. -/
def State.condemn (s : State) (core cause : Nat) (clusters : Bool) : State :=
  let keys := (s.residents core).map (·.key)
  let s := if clusters then ((s.residents core).map (·.cluster)).eraseDups.foldl (fun s k => s.killCluster k cause) s
    else keys.foldl (fun s k => s.killBlock k cause) s
  let k := s.core core
  let s := k.ranges.foldl (fun s r => s.addDamage (r.damage core cause) none) s
  let s := (k.blocks.filter fun e => !keys.contains e.blk).foldl (fun s e => s.addDamage (s.entryDamage e core cause) (some e.lkey)) s
  s.mapCore core fun c => { c with ranges := [], blocks := [] }

/-- The images of a core that were saved for a Ringlet scan. -/
def State.scanImages (s : State) (core : Nat) : List Image := s.images.filter fun i => i.ringlet && i.core = core

/-- A core that has been quarantined, or retired, counted (R474). -/
def State.countQuarantine (s : State) (retired : Bool) : State :=
  { s with telem := if retired then { s.telem with retired := satInc s.telem.retired }
                    else { s.telem with quarantined := satInc s.telem.quarantined } }

/-- A core fails its scan (R460): its image is discarded with its blocks, the damage is written, and it is quarantined. -/
def State.coreFails (s : State) (core qby : Nat) : State :=
  let before := s.damageCount
  let injected := (s.core core).scanFails
  let s := s.condemn core 0 true
  let s : State := { s with images := s.images.filter fun i => !(i.ringlet && i.core = core) }
  let s := ((s.countFailure core).countQuarantine false).mapHealth core fun h => { h with state := 1, qby := qby, draining := false }
  let s := s.mapCore core CoreSt.scanned
  let s := s.postHardware { coreRec 0x42 core injected with
    synd := BitVec.ofNat 32 (s.damageCount - before), info := (s.healthOf core).pseq.setWidth 64 }
  s.leaveRotation core

/-! ### Ringlet -/

/-- The core that Ringlet takes out next (R454): the first that was moved to the front, else the next in service after the one
scanned last. -/
def State.ringletNext (s : State) : Option Nat :=
  let free (c : Nat) : Bool := (s.healthOf c).state = 0 && !(s.healthOf c).draining
  match s.ringlet.fronts.find? free with
  | some c => some c
  | none => (rotateFrom (s.ringlet.lastCore + 1) (List.range 96)).find? free

/-- RINGLET_TAKE_OUT (R454, R455): after the gap, unless Larkspur restarts or the device is held. -/
def execRingletTakeOut (s : State) : Host.Outcome State Fault Refusal :=
  .next (if !s.ringlet.en || s.ringlet.cur.isSome || s.now < s.ringlet.readyAt || s.mp.restartAt.isSome || s.thermal.critical then s
    else
      match s.ringletNext with
      | none => s
      | some c =>
        let r := s.ringlet
        let start := if r.left.isEmpty then (List.range 96).filter fun c => (s.healthOf c).state = 0 else r.left
        let s : State := { s with ringlet := { r with
          cur := some c, curAt := s.now, lastCore := c, fronts := r.fronts.filter (· ≠ c)
          left := start, rotStart := if r.left.isEmpty then s.now else r.rotStart } }
        let s := s.mapHealth c fun h => { h with state := 3, front := false }
        let s := s.stopTasks fun t => t.core = some c
        (List.range 8).foldl (fun s p => if (s.heldCores p).contains c then s.saveCore c p true else s) s)

/-- The block-list entry of a block that goes on after its core's pass (R458). -/
def State.listAgain (s : State) (b : Block) : State :=
  let l := s.launchOf b.launch
  let e : BlockEntry :=
    { part := b.part, ctx := b.ctx, queue := s.entryQueue b, launch := l.index, lkey := l.key, blk := b.key, wid := b.wid, task := none
      tx := 0, ty := 0, tz := 0, cluster := b.peers }
  s.mapCore b.core fun c => { c with blocks := (addBlock c.blocks e).getD c.blocks }

/-- The images of a scan go back to their core, whose blocks go on (R455). -/
def State.returnCore (s : State) (core : Nat) : State :=
  let s := (s.scanImages core).foldl (fun s i => s.loadCore i core) s
  (s.residents core).foldl State.listAgain s

/-- A group's duty after a core of it has passed three times or failed (R469): with the last one the group is readmitted. -/
def State.dutyDone (s : State) (core : Nat) : State :=
  let g := core / 8
  match s.ringlet.duty.find? fun d => d.1 = g with
  | none => s
  | some (_, cs) =>
    let cs := cs.filter (· ≠ core)
    let rest := s.ringlet.duty.filter fun d => d.1 ≠ g
    if cs.isEmpty then
      ({ s with ringlet := { s.ringlet with duty := rest, gstate := s.ringlet.gstate.set g 0 } } : State).postHardware
        { kind := 0x45, agent := 7, synd := BitVec.ofNat 32 g }
    else { s with ringlet := { s.ringlet with duty := rest ++ [(g, cs)] } }

/-- Whether a core is on a group's duty list. -/
def State.onDuty (s : State) (core : Nat) : Bool := s.ringlet.duty.any fun d => d.2.contains core

/-- RINGLET_SCAN_COMPLETE (R455, R459, R460, R476): a core whose group was quarantined meanwhile stays in quarantine with one
pass. -/
def execRingletScanComplete (pass : Bool) (s : State) : Host.Outcome State Fault Refusal :=
  .next (match s.ringlet.cur with
    | none => s
    | some c =>
      let fails := !pass || (s.core c).scanFails
      let s : State := { s with ringlet := { s.ringlet with cur := none, readyAt := s.now + s.ringlet.gap * 100 } }
      if fails then (s.coreFails c 0).dutyDone c
      else if s.onDuty c then
        (((s.corePasses c).countQuarantine false).mapHealth c fun h => { h with state := 1, qby := 1, passrun := 1 }).leaveRotation c
      else
        (((s.corePasses c).mapHealth c fun h => { h with state := 0 }).returnCore c).leaveRotation c)

/-! ### Quarantine -/

/-- A core returns to service (R468, R471 KIND 0x43). -/
def State.readmit (s : State) (core : Nat) : State :=
  let run := (s.healthOf core).passrun
  (s.mapHealth core fun h => { h with state := 0 }).postHardware { coreRec 0x43 core false with info := BitVec.ofNat 64 run }

/-- A scan of a quarantined core passes (R468, R469): with the third pass in a row it is readmitted, unless a command quarantined
it, and its group waits for it no more. -/
def State.quarantinePass (s : State) (core : Nat) : State :=
  let s := (s.corePasses core).mapHealth core fun h => { h with passrun := min 3 (h.passrun + 1) }
  if (s.healthOf core).passrun = 3 then (if (s.healthOf core).qby ≠ 2 then s.readmit core else s).dutyDone core else s

/-- A scan of a quarantined core fails (R468, R469): it ran nothing, so there is no damage. -/
def State.quarantineFail (s : State) (core : Nat) : State :=
  let injected := (s.core core).scanFails
  let s := (s.countFailure core).mapHealth core fun h => { h with qby := if h.qby = 1 then 0 else h.qby }
  let s := s.mapCore core CoreSt.scanned
  (s.postHardware { coreRec 0x42 core injected with info := (s.healthOf core).pseq.setWidth 64 }).dutyDone core

/-- A scan of a quarantined core ends. -/
def State.quarantineScan (s : State) (core : Nat) (pass : Bool) : State :=
  if !pass || (s.core core).scanFails then s.quarantineFail core else s.quarantinePass core

/-- QUARANTINE_SCAN_COMPLETE (R468): of a core that no command quarantined. -/
def execQuarantineScanComplete (core : Nat) (pass : Bool) (s : State) : Host.Outcome State Fault Refusal :=
  .next (if (s.healthOf core).state = 1 && (s.healthOf core).qby ≠ 2 then s.quarantineScan core pass else s)

/-- A core group quarantined for a safety layer (R469): tile tasks on its cores stop, its blocks are killed, what its cores wrote is entered as damage, and the
cores that are to pass or fail before it returns are noted. -/
def State.quarantineForSafety (s : State) (g : Nat) : State :=
  if s.ringlet.duty.any fun d => d.1 = g then s else
    let cores := (List.range 8).map (8 * g + ·)
    let s := s.stopTasks fun t => t.core.any cores.contains
    let s := cores.foldl (fun s c => s.condemn c 1 false) s
    let duty := cores.filter fun c => (s.healthOf c).state = 0 || (s.healthOf c).state = 3 || ((s.healthOf c).state = 1 && (s.healthOf c).qby ≠ 2)
    let s := cores.foldl (fun s c =>
      if (s.healthOf c).state = 0 then
        ((s.countQuarantine false).mapHealth c fun h => { h with state := 1, qby := 1, passrun := 0, draining := false }).leaveRotation c
      else s) s
    if duty.isEmpty then s
    else { s with ringlet := { s.ringlet with duty := s.ringlet.duty ++ [(g, duty)], gstate := s.ringlet.gstate.set g 1 } }

/-- A comparison mismatch or a missed deadline of a safety layer (R437, R469): record 0x44, and both groups. -/
def State.safetyMismatch (s : State) (ga gb : Nat) (r : Rec) : State :=
  let s := s.postHardware { r with kind := 0x44, agent := 6 }
  let s := s.quarantineForSafety ga
  if ga = gb then s else s.quarantineForSafety gb

/-! ### Lookup engines -/

/-- The C range of a killed task entered in the damage map (R271). -/
def Task.cDamage (t : Task) (core : Nat) : DamageEntry :=
  let lo := (t.rowAddr 0).toNat / 4096
  let hi := ((t.rowAddr 15).toNat + (t.rowBytes [] 0).length - 1) / 4096
  { kind := 1, cause := 4, cluster := false, part := t.part, ctx := t.ctx, core := some core, addr := BitVec.ofNat 64 (lo * 4096)
    count := hi + 1 - lo, launch := 0, tz := 0 }

/-- An engine after its reset (R271): no owner, empty table registers, and the accumulator tiles cleared. -/
def CoreSt.resetEngine (c : CoreSt) : CoreSt :=
  { c.freeEngine with hung := none, accs := (List.range 32).map fun t => (t, List.replicate 1024 0) }

/-- LOOKUP_ENGINE_RESET (R271): after 2 ms without progress; only an injection makes an engine hang (R472). -/
def execLookupEngineReset (core : Nat) (s : State) : Host.Outcome State Fault Refusal :=
  .next (let k := s.core core
    if !(k.hung.any fun t => 200000 ≤ s.now - t) then s else
      let task := k.task.bind fun tok => s.tasks.find? fun t => t.tok = tok && t.core = some core
      let s := match task with
        | some t =>
          let s := (s.addDamage (t.damage 4 (some core)) (some t.launch)).addDamage (t.cDamage core) none
          s.mapTask t.part t.tok fun x => { x with state := .killed, core := none, acc := [] }
        | none => s
      let s := match k.owner with
        | some b => s.killBlock b 4
        | none => s
      (s.mapCore core CoreSt.resetEngine).postHardware (coreRec 0x4E core true))

/-! ### Storage errors -/

/-- A 64 KiB page leaves service (R466): its lines are dropped. -/
def State.retirePage (s : State) (pa : Nat) : State :=
  let pg := pageOf pa
  if s.storage.retired.contains pg then s else
    { s with
      dirty := s.dirty.filter fun d => pageOf (d.line * 128) ≠ pg
      storage := { s.storage with retired := s.storage.retired ++ [pg], held := s.storage.held.filter fun h => h.1 ≠ pg
                                  badDirty := s.storage.badDirty.filter fun l => pageOf (l * 128) ≠ pg
                                  badClean := s.storage.badClean.filter fun l => pageOf (l * 128) ≠ pg }
      met := s.met.filter fun m => pageOf (m.line * 128) ≠ pg
      telem := { s.telem with pages := satInc s.telem.pages } }

/-- A way of a slice is removed from allocation (R467): its dirty lines but the one in error are written back. -/
def State.quarantineWay (s : State) (slice way : Nat) : State :=
  if s.storage.ways.contains (slice, way) then s else
    let s := s.writeBack fun d => d.slice = slice && d.way = way
    { s with storage := { s.storage with ways := s.storage.ways ++ [(slice, way)] }
             telem := { s.telem with ways := satInc s.telem.ways } }

/-- The record of a retired page (R471); `by_` is 0 for the device and 1 for a command. -/
def State.pageRecord (s : State) (pa by_ : Nat) : State :=
  s.postHardware { kind := 0x49, agent := 7, pa := pageOf pa * 65536, info := BitVec.ofNat 64 by_ }

/-- The record of a quarantined way (R471); SYND names the slice and the way as R482 shows. -/
def State.wayRecord (s : State) (slice way by_ : Nat) : State :=
  s.postHardware { kind := 0x4A, agent := 7, synd := BitVec.ofNat 32 (slice % 64 + 64 * (way % 16)), info := BitVec.ofNat 64 by_ }

/-- The request that met a line (R465, R478): the one noted, and otherwise one that the step names, whose VA, LOC and PC are not said
unless it is of no context. -/
def State.metBy (s : State) (line ctx : Nat) (wb : Bool) : MetLine :=
  match s.met.find? fun m => m.line = line && !m.clean with
  | some m => m
  | none =>
    if ctx = noTag ∨ wb then { metBack line with ctx := ctx, wb := wb }
    else
      let f (k : Nat) : W32 := Config.freeW32 s.free (66020 + k)
      ⟨line, false, ctx, false, (f 0).toNat % 8, (f 1).toNat % 11, f 2 ++ f 3, f 4 &&& 0x00FFFFFF, f 5 ++ f 6⟩

/-- UNCORRECTABLE_DIRTY_LINE (R465, R477, R478 steps 1 to 3): the line is poisoned, its record is written, its owner ends, and
Larkspur is to retire its page and its way. -/
def execUncorrectableDirtyLine (line ctx : Nat) (wb : Bool) (s : State) : Host.Outcome State Fault Refusal :=
  .next (match s.dirty.find? fun d => d.line = line && !d.poison with
    | none => { s with met := s.met.filter fun x => x.line ≠ line || x.clean }
    | some d =>
      let m := s.metBy line ctx wb
      let injected := s.storage.badDirty.contains line && !s.storage.wild.contains line
      let s : State := { s with
        dirty := updateWhere (fun e => e.line = line) (fun e => { e with poison := true }) s.dirty
        storage := { s.storage with badDirty := if s.storage.badDirty.contains line then s.storage.badDirty else line :: s.storage.badDirty
                                    wild := if injected then s.storage.wild else line :: s.storage.wild
                                    held := (pageOf (line * 128), m.ctx) :: s.storage.held }
        met := s.met.filter fun x => x.line ≠ line
        telem := { s.telem with cacheDirty := satInc s.telem.cacheDirty } }
      let s := s.postHardware
        { kind := 0x46, agent := m.agent, die := m.die, ctx := if d.tag = noTag then none else some d.tag, pa := line * 128
          synd := BitVec.ofNat 32 (d.slice % 64 + 64 * (d.way % 16) + 1024 * d.set), va := m.va, pc := m.pc
          loc := if injected then injectedLoc m.loc else m.loc, info := BitVec.ofNat 64 (m.ctx % 4096 + 4096 * m.wb.toNat) }
      let s := if d.tag = noTag then s else s.endContext d.tag
      { s with mp := { s.mp with own := s.mp.own ++ [.retirePage (line * 128), .quarantineWay d.slice d.way] } })

/-- Whether Larkspur can do its own work now (R347): at a boundary between commands. -/
def State.ownTurn (s : State) : Bool := s.mp.inExec.isNone && s.mp.restartAt.isNone && s.boot.state ≠ 0

/-- DEVICE_PAGE_RETIREMENT (R478 step 4, R465): what was held at the page is then an access to a retired page. -/
def execDevicePageRetirement (s : State) : Host.Outcome State Fault Refusal :=
  .next (match s.mp.own with
    | .retirePage pa :: rest =>
      if s.ownTurn then (({ s with mp := { s.mp with own := rest } } : State).retirePage pa).pageRecord pa 0 else s
    | _ => s)

/-- DEVICE_WAY_QUARANTINE (R478 step 5). -/
def execDeviceWayQuarantine (s : State) : Host.Outcome State Fault Refusal :=
  .next (match s.mp.own with
    | .quarantineWay slice way :: rest =>
      if s.ownTurn then (({ s with mp := { s.mp with own := rest } } : State).quarantineWay slice way).wayRecord slice way 0 else s
    | _ => s)

/-- MEMORY_SCRUB (R465): a line whose read from memory is uncorrectable; every other line is left as it is. -/
def execMemoryScrub (line : Nat) (s : State) : Host.Outcome State Fault Refusal :=
  .next (if s.storage.badMem.contains line && !s.storage.retired.contains (pageOf (line * 128)) then
      (s.memoryMet line).postHardware { kind := 0x48, agent := 7, pa := line * 128, loc := s.errorLoc line 0 }
    else s)

/-- An uncorrectable word of a core's storage (R465, R471 KIND 0x4C): the blocks on the core whose state holds it are killed, and
the core moves to the front of the rotation. -/
def State.coreUpset (s : State) (core place : Nat) (blks : List Nat) : State :=
  let keys := ((s.residents core).map (·.key)).filter blks.contains
  let s := (keys.foldl (fun s k => s.killBlock k 5) s).moveFront core
  ({ s with telem := { s.telem with coreUncorr := satInc s.telem.coreUncorr } } : State).postHardware
    { coreRec 0x4C core false with synd := BitVec.ofNat 32 place }

/-- Whether an image holds state of a context. -/
def State.imageOf (s : State) (i : Image) (ctx : Nat) : Bool :=
  i.waves.any (fun w => (s.launchOf w.launch).ctx = ctx) || i.bins.any (fun b => (s.launchOf b.launch).ctx = ctx) ||
    i.owner.any fun k => (s.blockOf k).ctx = ctx

/-- A storage error (R465, log entry 128). -/
def State.upset (s : State) : Upset → State
  | .corrected place =>
    let t := s.telem
    { s with telem :=
        if place = 0 then { t with cacheCorr := satInc t.cacheCorr } else if place = 1 then { t with memCorr := satInc t.memCorr }
        else { t with coreCorr := satInc t.coreCorr } }
  | .cleanLine => { s with telem := { s.telem with cacheClean := satInc s.telem.cacheClean } }
  | .coreWord core place blks => if core < 96 && place < 5 then s.coreUpset core place blks else s
  | .l1Line core line =>
    if core < 96 then ({ s with l1 := s.l1.filter fun x => !(x.core = core && x.line = line) } : State).coreUpset core 4 [] else s
  | .memoryLine line =>
    if s.storage.badMem.contains line then s
    else { s with storage := { s.storage with badMem := line :: s.storage.badMem, wild := line :: s.storage.wild } }
  | .fma core quad lanes =>
    if core < 96 && quad < 4 then s.mapCore core fun c => { c with inject := c.inject ++ [⟨10, BitVec.ofNat 64 (quad + 4 * lanes.toNat)⟩] } else s
  | .lookup core scale steps =>
    if core < 96 then s.mapCore core fun c => { c with inject := c.inject ++ [⟨if scale then 9 else 8, BitVec.ofNat 64 steps⟩] } else s
  | .tableEntry core reg => s.mapCore core fun c => { c with tables := c.tables.filter fun x => x.1 ≠ reg }
  | .imageWord n ctx =>
    match s.images[n]?, s.ctx? ctx with
    | some i, some x =>
      if i.shadow && s.imageOf i ctx && !x.ended then
        (s.postHardware { kind := 0x4D, agent := 7, ctx := some ctx, part := x.part }).endContext ctx
      else s
    | _, _ => s

/-! ### Thermal limits -/

/-- Whether a die must be slower (R473): over the threshold, or the device over its power limits. -/
def Thermal.tooHot (t : Thermal) (die : Nat) : Bool :=
  t.threshold < t.temps.getD die 0 || t.limit * 1000 < t.power || 450000 < t.peak

/-- Whether a die may be faster (R473): 2 °C below the threshold, and the power within its limits. -/
def Thermal.mayRise (t : Thermal) (die : Nat) : Bool :=
  t.temps.getD die 0 + 4 ≤ t.threshold && t.power ≤ t.limit * 1000 && t.peak ≤ 450000

/-- A 32-bit counter that saturates (R474). -/
def satAdd (x : W32) (n : Nat) : W32 := BitVec.ofNat 32 (min 0xFFFFFFFF (x.toNat + n))

/-- A die enters throttling, or leaves it (R471 KIND 0x52). -/
def State.throttle (s : State) (die : Nat) (on : Bool) : State :=
  let t := s.thermal
  let dies := if on then t.throttled ++ [die] else t.throttled.filter (· ≠ die)
  let t' : Thermal :=
    if on then { t with throttled := dies, since := if t.throttled.isEmpty then s.now else t.since }
    else { t with throttled := dies
                  usThrottled := if dies.isEmpty then satAdd t.usThrottled ((s.now - t.since) / 100) else t.usThrottled }
  ({ s with thermal := t' } : State).postHardware { kind := 0x52, agent := 7, die := die, synd := BitVec.ofNat 32 die }

/-- THERMAL_THRESHOLD (R473): a die's temperature and the device's power as they are sampled. -/
def execThermalThreshold (die : Nat) (halfDeg : Int) (milliWatt peakMilliWatt : Nat) (s : State) : Host.Outcome State Fault Refusal :=
  .next (if 11 ≤ die then s else
    let t : Thermal := { s.thermal with temps := s.thermal.temps.set die halfDeg, power := milliWatt, peak := peakMilliWatt }
    let s : State := { s with thermal := t }
    if t.tooHot die && !t.throttled.contains die then s.throttle die true else s)

/-- THROTTLE_CLOCK_STEP (R473): 200 MHz down every 100 µs to 1.5 GHz, or up every 1 ms to 3.1 GHz, where throttling ends. -/
def execThrottleClockStep (die : Nat) (s : State) : Host.Outcome State Fault Refusal :=
  .next (let t := s.thermal
    let clock := t.clocks.getD die 3100
    let since := s.now - t.stepAt.getD die 0
    let set (c : Nat) : State := { s with thermal := { t with clocks := t.clocks.set die c, stepAt := t.stepAt.set die s.now } }
    if 11 ≤ die || !t.throttled.contains die then s
    else if t.tooHot die then (if 10000 ≤ since && 1500 < clock then set (max 1500 (clock - 200)) else s)
    else if t.mayRise die && 100000 ≤ since then
      (if clock + 200 < 3100 then set (clock + 200) else (set 3100).throttle die false)
    else s)

/-- Every enabled layer of LEVEL 2 or 3 of a pipe given to Foxglove, at once (R473). -/
def Pipe.toFoxglove (p : Pipe) : Pipe :=
  let bits := p.layers.foldl (fun (m : Byte) l =>
    if bitsAt l.words 0 1 = 1 && 2 ≤ bitsAt l.words 1 2 then m ||| BitVec.ofNat 8 (2 ^ l.n) else m) p.foxg
  { p with foxg := bits, fox := p.fox ||| bits }

/-- THERMAL_CRITICAL (R473): at 125 °C on a die every core and sequencer is held until device reset. -/
def execThermalCritical (die : Nat) (s : State) : Host.Outcome State Fault Refusal :=
  .next (if s.thermal.critical || s.thermal.temps.getD die 0 < 250 then s
    else
      ({ s with thermal := { s.thermal with critical := true }
                display := { s.display with pipes := s.display.pipes.map Pipe.toFoxglove } } : State).postHardware
        { kind := 0x53, agent := 7, die := die, synd := BitVec.ofNat 32 die })

end Sys2Proof.Machine
end

