-- ==== Sys2Proof/Machine/Firmware.lean ====
section
/-! DEFINITION. The commands of Larkspur that read or set one unit (R350): identity, storage and cores in quarantine, Ringlet,
damage and error lanes, shares, limits, telemetry and injection. -/
namespace Sys2Proof.Machine

/-- An argument word as a number. -/
def arg (ws : List W32) (k : Nat) : Nat := (wordAt ws k).toNat

/-- A 64-bit argument as a number. -/
def argWide (ws : List W32) (k : Nat) : Nat := (wideAt ws k).toNat

/-- Whether a word with one field of `n` bits sets a reserved bit above it (log entry 41). -/
def wordOver (ws : List W32) (k n : Nat) : Bool := 2 ^ n ≤ arg ws k

/-- The cores in service as three words (R350, DEV_INFO). -/
def State.coreWords (s : State) : List W32 :=
  (List.range 3).map fun k => bitsWhere fun i => (s.healthOf (32 * k + i)).state = 0

/-- DEV_INFO. -/
def devInfoBody (_ws : List W32) (s : State) : Answer :=
  let b := s.boot
  let info : List W32 := [0x5BE00D96, 1, BitVec.ofNat 32 (b.form + 256 * b.gib), 0x00010000, BitVec.ofNat 32 b.state] ++ s.coreWords
    ++ splitWide b.serial
  s.answered (info.mapIdx fun i w => (2 + i, w))

/-- DEV_INFO (R350). -/
def execDevInfo (page : Nat) (s : State) : Host.Outcome State Fault Refusal := .next (s.serve 0x01 page devInfoBody)

/-- PART_ABORT (R352): a PREPARED set is discarded. -/
def partAbortBody (_ws : List W32) (s : State) : Answer := ({ s with mp := { s.mp with prepared := none } } : State).answered []

/-- PART_ABORT (R352). -/
def execPartAbort (page : Nat) (s : State) : Host.Outcome State Fault Refusal := .next (s.serve 0x04 page partAbortBody)

/-! ### Storage -/

/-- PAGE_RETIRE (R466). -/
def pageRetireBody (ws : List W32) (s : State) : Answer :=
  let pa := argWide ws 2
  if pa % 65536 ≠ 0 ∨ s.installed ≤ pa then s.turnedAway .badArg
  else if s.storage.retired.contains (pageOf pa) then s.answered [(4, 1)]
  else ((s.retirePage pa).pageRecord pa 1).answered [(4, 0)]

/-- PAGE_RETIRE (R466, R363). -/
def execPageRetire (page : Nat) (s : State) : Host.Outcome State Fault Refusal := .next (s.serve 0x0C page pageRetireBody)

/-- WAY_QUARANTINE (R467). -/
def wayQuarantineBody (ws : List W32) (s : State) : Answer :=
  if 63 < arg ws 2 ∨ 11 < arg ws 3 then s.turnedAway .badArg
  else if s.storage.ways.contains (arg ws 2, arg ws 3) then s.answered []
  else ((s.quarantineWay (arg ws 2) (arg ws 3)).wayRecord (arg ws 2) (arg ws 3) 1).answered []

/-- WAY_QUARANTINE (R467). -/
def execWayQuarantine (page : Nat) (s : State) : Host.Outcome State Fault Refusal := .next (s.serve 0x0D page wayQuarantineBody)

/-! ### Cores -/

/-- The outcome of a scan that a command makes: the silicon's, which is free, but for an injected failure. -/
def State.scanPasses (s : State) (core : Nat) : Bool := Config.freeBool s.free (66100 + core) && !(s.core core).scanFails

/-- Whether a core has drained (R468, R384): no block of it is left, and no task runs on its engine. -/
def State.coreDrained (s : State) (core : Nat) : Bool :=
  (s.residents core).isEmpty && !(s.waves.any fun w => w.core = core) && (s.core core).bins.isEmpty

/-- A core's drain begins (R468): it takes no more work, and a task on its engine stops. -/
def State.drainCore (s : State) (core : Nat) : State :=
  (s.stopTasks fun t => t.core = some core).mapHealth core fun h => { h with draining := true }

/-- The record of a core quarantined or retired by command (R471 KIND 0x54). -/
def State.quarantineRecord (s : State) (core : Nat) (perm : Bool) : State :=
  s.postHardware { coreRec 0x54 core false with synd := BitVec.ofNat 32 perm.toNat }

/-- A core retired where the command says so (R468); a group that waited for it returns without it (R469, log entry 137). -/
def State.retireCore (s : State) (core : Nat) (perm : Bool) : State :=
  if perm then ((s.countQuarantine true).mapHealth core fun h => { h with state := 2, perm := true }).dutyDone core else s

/-- A drained core is scanned once and quarantined by command (R468); a failure applies R460. -/
def State.quarantineDrained (s : State) (core : Nat) (perm : Bool) : State :=
  let s := if s.scanPasses core then
      (((s.corePasses core).countQuarantine false).mapHealth core fun h =>
        { h with state := 1, qby := 2, passrun := 1, draining := false }).leaveRotation core
    else s.coreFails core 2
  (s.retireCore core perm).quarantineRecord core perm

/-- A core that is in quarantine already, quarantined by command. -/
def State.quarantineAgain (s : State) (core : Nat) (perm : Bool) : State :=
  let s := s.mapHealth core fun h => { h with qby := 2 }
  let s := s.quarantineScan core (s.scanPasses core)
  (s.retireCore core perm).quarantineRecord core perm

/-- Whether a block on some draining cores has run past its partition's maximum block time since the command was taken (R384). -/
def State.drainLate (s : State) (cores : List Nat) : Bool :=
  cores.any fun c => (s.residents c).any fun b => (s.part b.part).layout.mbt * 100 < s.now - s.mp.takenAt

/-- The drain of some cores escalates (R384, R349): what is left on them is swapped out, and they are quarantined. -/
def State.escalateCores (s : State) (cores : List Nat) (perm : Bool) : State :=
  let s : State := { s with telem := { s.telem with escalations := satInc s.telem.escalations } }
  cores.foldl (fun s c =>
    let s := (List.range 8).foldl (fun s p => if (s.heldCores p).contains c then s.saveCore c p false else s) s
    let out := s.blocks.filter fun b => b.core = c && b.out
    let keep := s.blocks
    let s : State := { s with blocks := s.blocks.filter fun b => !out.contains b }
    let s := s.quarantineDrained c perm
    { s with blocks := keep }) s

/-- CORE_QUARANTINE (R468, R476): a Ringlet scan of the core finishes first; the drain may take many steps. -/
def coreQuarantineBody (ws : List W32) (s : State) : Answer :=
  let c := arg ws 2
  let perm := arg ws 3 % 2 = 1
  if wordOver ws 3 1 then s.turnedAway .malformed
  else if 95 < c then s.turnedAway .badArg
  else
    let h := s.healthOf c
    if h.state = 3 then (s, none)
    else if h.state = 2 then s.answered [(4, 2)]
    else if h.state = 1 then (s.quarantineAgain c perm).answered [(4, 1)]
    else
      let s := if h.draining then s else s.drainCore c
      if s.coreDrained c then (s.quarantineDrained c perm).answered [(4, 0)]
      else if h.draining && s.drainLate [c] then
        ({ s with mp := { s.mp with late := s.mp.late ++ [.quarantine [c] perm] } }, some (.timeout, []))
      else (s, none)

/-- CORE_QUARANTINE (R468). -/
def execCoreQuarantine (page : Nat) (s : State) : Host.Outcome State Fault Refusal := .next (s.serve 0x0E page coreQuarantineBody)

/-- CORE_TEST (R468): a late scan counts as a failure (R349). -/
def coreTestBody (ws : List W32) (s : State) : Answer :=
  let c := arg ws 2
  if 95 < c then s.turnedAway .badArg
  else if (s.healthOf c).state ≠ 1 then s.turnedAway .badState
  else
    let late := s.isLate
    let pass := !late && s.scanPasses c
    let s := s.quarantineScan c pass
    (s, some (if late then .timeout else .ok, [(3, BitVec.ofNat 32 pass.toNat), (4, (s.healthOf c).pseq)]))

/-- CORE_TEST (R468). -/
def execCoreTest (page : Nat) (s : State) : Host.Outcome State Fault Refusal := .next (s.serve 0x0F page coreTestBody)

/-- CORE_ADMIT (R468). -/
def coreAdmitBody (ws : List W32) (s : State) : Answer :=
  let c := arg ws 2
  if 95 < c then s.turnedAway .badArg
  else if (s.healthOf c).state ≠ 1 ∨ (s.healthOf c).passrun < 3 then s.turnedAway .badState
  else (s.readmit c).answered []

/-- CORE_ADMIT (R468). -/
def execCoreAdmit (page : Nat) (s : State) : Host.Outcome State Fault Refusal := .next (s.serve 0x10 page coreAdmitBody)

/-- The cores of a group. -/
def groupCores (g : Nat) : List Nat := (List.range 8).map (8 * g + ·)

/-- A group leaves a safety layer's duty: only GROUP_ADMIT returns it from now on. -/
def State.groupByCommand (s : State) (g : Nat) : State :=
  { s with ringlet := { s.ringlet with gstate := s.ringlet.gstate.set g 1, duty := s.ringlet.duty.filter fun d => d.1 ≠ g } }

/-- GROUP_QUARANTINE (R469): as CORE_QUARANTINE on all 8 cores at once. -/
def groupQuarantineBody (ws : List W32) (s : State) : Answer :=
  let g := arg ws 2
  if 11 < g then s.turnedAway .badArg
  else
    let cores := groupCores g
    let live := cores.filter fun c => (s.healthOf c).state = 0
    if cores.any fun c => (s.healthOf c).state = 3 then (s, none)
    else
      let begun := live.all fun c => (s.healthOf c).draining
      let s := live.foldl (fun s c => if (s.healthOf c).draining then s else s.drainCore c) s
      if live.all s.coreDrained then
        let s := (cores.filter fun c => (s.healthOf c).state = 1).foldl (fun s c => s.quarantineAgain c false) s
        ((live.foldl (fun s c => s.quarantineDrained c false) s).groupByCommand g).answered []
      else if begun && s.drainLate live then
        (({ s with mp := { s.mp with late := s.mp.late ++ [.quarantine live false] } } : State).groupByCommand g, some (.timeout, []))
      else (s, none)

/-- GROUP_QUARANTINE (R469). -/
def execGroupQuarantine (page : Nat) (s : State) : Host.Outcome State Fault Refusal := .next (s.serve 0x11 page groupQuarantineBody)

/-- GROUP_ADMIT (R469): as CORE_ADMIT on all 8 cores at once, but for those that are retired. -/
def groupAdmitBody (ws : List W32) (s : State) : Answer :=
  let g := arg ws 2
  let out := (groupCores g).filter fun c => (s.healthOf c).state = 1
  if 11 < g then s.turnedAway .badArg
  else if s.ringlet.gstate.getD g 0 = 0 ∨ out.any fun c => (s.healthOf c).passrun < 3 then s.turnedAway .badState
  else
    let s := out.foldl State.readmit s
    let s : State := { s with ringlet := { s.ringlet with
      gstate := s.ringlet.gstate.set g 0, duty := s.ringlet.duty.filter fun d => d.1 ≠ g } }
    (s.postHardware { kind := 0x45, agent := 7, synd := BitVec.ofNat 32 g }).answered []

/-- GROUP_ADMIT (R469). -/
def execGroupAdmit (page : Nat) (s : State) : Host.Outcome State Fault Refusal := .next (s.serve 0x12 page groupAdmitBody)

/-- RINGLET_CFG (R454). -/
def ringletCfgBody (ws : List W32) (s : State) : Answer :=
  if wordOver ws 2 1 then s.turnedAway .malformed
  else if 10000 < arg ws 3 then s.turnedAway .badArg
  else ({ s with ringlet := { s.ringlet with en := arg ws 2 = 1, gap := arg ws 3 } } : State).answered []

/-- RINGLET_CFG (R454). -/
def execRingletCfg (page : Nat) (s : State) : Host.Outcome State Fault Refusal := .next (s.serve 0x13 page ringletCfgBody)

/-! ### Damage and lanes -/

/-- DAMAGE_READ (R462) on a page. -/
def damageReadBody (page : Nat) (ws : List W32) (s : State) : Answer :=
  let p := arg ws 2
  if page ≠ 0 ∧ p ≠ page - 1 then s.turnedAway .denied
  else if 7 < p then s.turnedAway .badArg
  else if (s.part p).state = .resetting then s.turnedAway .busy
  else
    let list := (s.part p).damage
    let n := min list.length (arg ws 5 / 64)
    match s.mpWrite page (some p) (argWide ws 3) ((list.take n).flatMap wordsBytes) with
    | none => s.turnedAway .badArg
    | some s => (s.mapPart p fun x => { x with damage := x.damage.drop n }).answered [(6, BitVec.ofNat 32 (64 * n))]

/-- DAMAGE_READ (R462). -/
def execDamageRead (page : Nat) (s : State) : Host.Outcome State Fault Refusal := .next (s.serve 0x14 page (damageReadBody page))

/-- ERR_DRAIN (R412, R413) for the owner of a page. -/
def errDrainBody (page : Nat) (ws : List W32) (s : State) : Answer :=
  match arg ws 2 with
  | 0 => ((s.setOwner page fun o => { o with fcons := wordAt ws 3 }).drainSlots page 256).answered []
  | 1 => (s.setOwner page fun o => { o with rcons := wordAt ws 3 }).answered []
  | _ => s.turnedAway .badArg

/-- ERR_DRAIN (R412). -/
def execErrDrain (page : Nat) (s : State) : Host.Outcome State Fault Refusal := .next (s.serve 0x15 page (errDrainBody page))

/-! ### Shares and limits -/

/-- SHADOW_CFG: the shares of the valid partitions sum to at most 64 MiB (R365). -/
def shadowCfgBody (ws : List W32) (s : State) : Answer :=
  let p := arg ws 2
  let rest := ((List.range 8).filter fun q => q ≠ p && (s.part q).layout.valid).map fun q => (s.part q).layout.shadow
  if 7 < p ∨ 64 < arg ws 3 then s.turnedAway .badArg
  else if !(s.part p).layout.valid then s.turnedAway .badState
  else if (s.part p).state.inTransition then s.turnedAway .busy
  else if 64 < rest.sum + arg ws 3 then s.turnedAway .noResource
  else (s.mapPart p fun x => { x with layout := { x.layout with shadow := arg ws 3 } }).answered []

/-- SHADOW_CFG (R350). -/
def execShadowCfg (page : Nat) (s : State) : Host.Outcome State Fault Refusal := .next (s.serve 0x1C page shadowCfgBody)

/-- THERMAL_CFG (R473). -/
def thermalCfgBody (ws : List W32) (s : State) : Answer :=
  if arg ws 2 < 120 ∨ 230 < arg ws 2 ∨ arg ws 3 < 100 ∨ 380 < arg ws 3 then s.turnedAway .badArg
  else ({ s with thermal := { s.thermal with threshold := arg ws 2, limit := arg ws 3 } } : State).answered []

/-- THERMAL_CFG (R473). -/
def execThermalCfg (page : Nat) (s : State) : Host.Outcome State Fault Refusal := .next (s.serve 0x1D page thermalCfgBody)

/-- WATCHDOG_CFG (R353). -/
def watchdogCfgBody (ws : List W32) (s : State) : Answer :=
  if arg ws 2 < 10 ∨ 1000 < arg ws 2 then s.turnedAway .badArg
  else ({ s with mp := { s.mp with wdMs := arg ws 2 } } : State).answered []

/-- WATCHDOG_CFG (R353). -/
def execWatchdogCfg (page : Nat) (s : State) : Host.Outcome State Fault Refusal := .next (s.serve 0x20 page watchdogCfgBody)

/-! ### Telemetry -/

/-- The four words of a core's health register (R464). -/
def Health.words (h : Health) : List W32 :=
  BitVec.ofNat 32 (h.state % 4 + 4 * (h.qby % 4) + 16 * (h.passrun % 4) + 64 * h.front.toNat + 256 * (h.fails % 256) + 65536 * (h.resid % 65536))
    :: h.pseq :: splitWide h.lastpass

/-- µs spent throttled (R474). -/
def State.throttledTime (s : State) : W32 :=
  if s.thermal.throttled.isEmpty then s.thermal.usThrottled
  else satAdd s.thermal.usThrottled ((s.now - s.thermal.since) / 100)

/-- The sum of the owners' LOST, saturating. -/
def State.lostSum (s : State) : W32 := BitVec.ofNat 32 (min 0xFFFFFFFF (s.owners.map (·.lost.toNat)).sum)

/-- The telemetry record (R474) as a page receives it. -/
def State.telemetryBytes (s : State) (page : Nat) : List Byte :=
  let t := s.telem
  let sees (p : Nat) : Bool := page = 0 || p + 1 = page
  let seesCore (c : Nat) : Bool := page = 0 || (s.part (page - 1)).layout.cores.getLsbD c
  wordsBytes ([1792, 0x00010000] ++ splitWide s.boot.serial ++ splitWide (s.dieTime 0))
    ++ ((List.range 11).flatMap fun d => natBytes 2 (s.thermal.temps.getD d 0 % 65536).toNat) ++ [0, 0]
    ++ wordsBytes ([BitVec.ofNat 32 s.thermal.power, BitVec.ofNat 32 s.thermal.peak, s.throttledTime, t.escalations, s.ringlet.rotgen, t.passes,
      t.fails, t.resid, t.cacheCorr, t.cacheClean, t.cacheDirty, t.memCorr, t.memUncorr, t.coreCorr, t.coreUncorr, t.pages, t.ways,
      t.quarantined, t.retired, s.lostSum]
      ++ ((List.range 8).flatMap fun p => if sees p then [(s.part p).kills, (s.part p).dmgCount, (s.part p).evictions, (s.part p).swaps]
          else [0, 0, 0, 0])
      ++ (List.range 96).flatMap fun c => if seesCore c then (s.healthOf c).words else [0, 0, 0, 0])

/-- TELEMETRY (R474) on a page. -/
def telemetryBody (page : Nat) (ws : List W32) (s : State) : Answer :=
  let n := if 1792 ≤ arg ws 4 then 1792 else arg ws 4 / 64 * 64
  match s.mpWrite page (s.pageHome page) (argWide ws 2) ((s.telemetryBytes page).take n) with
  | none => s.turnedAway .badArg
  | some s => s.answered [(5, BitVec.ofNat 32 n)]

/-- TELEMETRY (R474). -/
def execTelemetry (page : Nat) (s : State) : Host.Outcome State Fault Refusal := .next (s.serve 0x1E page (telemetryBody page))

/-! ### Injection -/

/-- An injection kept with its core until it is met (R472). -/
def State.injectCore (s : State) (core kind : Nat) (x : W64) : State :=
  s.mapCore core fun c => { c with inject := c.inject ++ [⟨kind, x⟩] }

/-- ERR_INJECT (R472). A line that is not dirty may or may not be held, clean, in its home slice (log entry 5). -/
def errInjectBody (ws : List W32) (s : State) : Answer :=
  let kind := arg ws 2
  let core := arg ws 3
  let x := wideAt ws 4
  let pa := x.toNat
  if kind = 0 ∨ 7 < kind ∨ 95 < core then s.turnedAway .badArg
  else if (kind = 2 ∨ kind = 3 ∨ kind = 7) ∧ x ≠ 0 then s.turnedAway .malformed
  else if (kind = 1 ∧ 4 ≤ pa) ∨ ((kind = 4 ∨ kind = 5) ∧ s.installed ≤ pa) ∨ (kind = 6 ∧ 2 ^ 23 ≤ pa) then s.turnedAway .badArg
  else if kind = 4 then
    if (s.dirtyAt pa).isSome then
      ({ s with storage := { s.storage with badDirty := (pa / 128) :: s.storage.badDirty } } : State).answered []
    else if Config.freeBool s.free 66200 then
      ({ s with storage := { s.storage with badClean := (pa / 128) :: s.storage.badClean } } : State).answered []
    else s.turnedAway .badState
  else if kind = 5 then ({ s with storage := { s.storage with badMem := (pa / 128) :: s.storage.badMem } } : State).answered []
  else (s.injectCore core kind x).answered []

/-- ERR_INJECT (R472). -/
def execErrInject (page : Nat) (s : State) : Host.Outcome State Fault Refusal := .next (s.serve 0x1F page errInjectBody)

end Sys2Proof.Machine
end

