-- ==== Sys2Proof/Machine/Layouts.lean ====
section
/-! DEFINITION. The commands of Larkspur that act on partitions, contexts and address translation (R350): layouts (R364 to R367),
resets and swaps (R392, R394), contexts, microcode (R423), domain splits (R443 to R448), ranged write-back (R410),
invalidations (R407) and migration (R409); and the late steps of commands (R349). -/
namespace Sys2Proof.Machine

/-! ### The layout table -/

/-- A value, or its default where it is 0 (R364). -/
def orDefault (x d : Nat) : Nat := if x = 0 then d else x

/-- An entry of the layout table (R364), in µs where it gives times. -/
def layoutOf (ws : List W32) : Layout :=
  if bitsAt ws 0 1 = 0 then .none else
    { valid := true, cls := bitsAt ws 1 2, bwshare := bitsAt ws 8 7, dbase := bitsAt ws 16 6, dm := bitsAt ws 22 3
      cores := BitVec.ofNat 96 (bitsAt ws 32 96), savearea := wideAt ws 4, woff := bitsAt ws 192 16, wlen := bitsAt ws 208 16
      mbt := orDefault (bitsAt ws 224 16) 10000 * 10, binage := orDefault (bitsAt ws 240 15) 2048
      sechold := orDefault (bitsAt ws 256 16) 1000 * 10, saveto := orDefault (bitsAt ws 272 16) 200 * 10
      evdelay := orDefault (bitsAt ws 288 16) 20, shadow := bitsAt ws 304 7 }

/-- Whether an entry's reserved fields are zero (R364). -/
def entryReserved (ws : List W32) : Bool :=
  bitsAt ws 3 5 = 0 && bitsAt ws 15 1 = 0 && bitsAt ws 25 7 = 0 && bitsAt ws 255 1 = 0 && bitsAt ws 311 201 = 0

/-- Whether the fields of a valid entry lie in their ranges (R364, R365). -/
def Layout.inRange (l : Layout) (period : Nat) : Bool :=
  l.bwshare ≤ 64 && l.dm ≤ 6 && l.dbase + 2 ^ l.dm ≤ 64 && l.dbase % 2 ^ l.dm = 0 && l.savearea.toNat % 4096 = 0 && l.savearea.toNat < 2 ^ 48 &&
    1 ≤ l.wlen && l.woff + l.wlen ≤ period && 256 ≤ l.binage && l.binage ≤ 16384 && l.shadow ≤ 64

/-- Whether two valid entries may stand beside each other (R365). -/
def Layout.apart (a b : Layout) : Bool :=
  (a.cores &&& b.cores = 0 || a.woff + a.wlen ≤ b.woff || b.woff + b.wlen ≤ a.woff) &&
    (a.dbase + 2 ^ a.dm ≤ b.dbase || b.dbase + 2 ^ b.dm ≤ a.dbase)

/-- The checks of a set's entries against each other and against the active layout (R365). -/
def State.setOk (s : State) (period : Nat) (es : List Layout) : Bool :=
  let valid := es.filter (·.valid)
  100 ≤ period && valid.all (fun l => l.inRange period) &&
    (valid.mapIdx fun i a => (i, a)).all (fun x => (valid.drop (x.1 + 1)).all fun b => x.2.apart b) &&
    (valid.map (·.bwshare)).sum ≤ 64 && (valid.map (·.shadow)).sum ≤ 64 &&
    (List.range 8).all fun p => !((s.part p).layout.valid && !(s.partCtxs p).isEmpty) || (es.getD p .none).valid

/-- PART_PREPARE (R365, R366). -/
def partPrepareBody (ws : List W32) (s : State) : Answer :=
  if arg ws 4 ≠ 576 then s.turnedAway .badArg
  else
    match s.mpRead 0 (s.pageHome 0) (argWide ws 2) 576 with
    | none => s.turnedAway .badArg
    | some bs =>
      let tbl := bytesWords bs
      let entry (p : Nat) : List W32 := (tbl.drop (16 + 16 * p)).take 16
      let es := (List.range 8).map fun p => layoutOf (entry p)
      let period := bitsAt tbl 0 16
      if crc32c bs ≠ wordAt ws 5 then s.turnedAway .crc
      else if bitsAt tbl 16 496 ≠ 0 ∨ !(List.range 8).all (fun p => entryReserved (entry p)) then s.turnedAway .malformed
      else if !s.setOk period es then s.turnedAway .badArg
      else
        let sum := crc32c (bs ++ natBytes 4 (s.mp.prepCount + 1).toNat)
        ({ s with mp := { s.mp with prepared := some ⟨period, es, sum, false, 0⟩, discarded := false } } : State).answered [(6, sum)]

/-- PART_PREPARE (R365). -/
def execPartPrepare (page : Nat) (s : State) : Host.Outcome State Fault Refusal := .next (s.serve 0x02 page partPrepareBody)

/-- Whether the drains and swaps of a commit have gone past their partitions' maximum block times and the command's bound (R349,
R350). -/
def State.commitLate (s : State) (x : Prepared) : Bool :=
  (s.changedParts x).any fun p => !(s.part p).state.isDrained && (s.part p).layout.mbt * 100 + 100000 < s.now - s.mp.takenAt

/-- A late commit (R349): the set is discarded. -/
def State.dropCommit (s : State) : Answer := ({ s with mp := { s.mp with prepared := none } }, some (.timeout, []))

/-- PART_COMMIT (R352, R355, R367): the drains may take many steps, the flip is one, and the write-back before it may be late. -/
def partCommitBody (ws : List W32) (s : State) : Answer :=
  match s.mp.prepared with
  | none => ({ s with mp := { s.mp with discarded := false } }, some (if s.mp.discarded then .aborted else .badState, []))
  | some x =>
    if wordAt ws 2 ≠ x.checksum then s.turnedAway .crc
    else
      let s := if x.sealed then s else (s.changedParts x).foldl State.drainForCommit s
      if s.allDrained x then (if s.isLate then s.dropCommit else (s.flipLayout x).answered [])
      else if s.commitLate x then s.dropCommit
      else (s.sealSet x x.checksum, none)

/-- PART_COMMIT (R367). -/
def execPartCommit (page : Nat) (s : State) : Host.Outcome State Fault Refusal := .next (s.serve 0x03 page partCommitBody)

/-- PART_RESET (R394): a late reset goes on (R349). -/
def partResetBody (ws : List W32) (s : State) : Answer :=
  let p := arg ws 2
  let keep := arg ws 3 = 1
  if wordOver ws 3 1 then s.turnedAway .malformed
  else if 7 < p then s.turnedAway .badArg
  else if (s.part p).state = .resetting then s.turnedAway .busy
  else if !(s.part p).layout.valid then s.turnedAway .badState
  else
    let late := s.isLate
    let s := s.killPart p
    if late then ({ s with mp := { s.mp with late := s.mp.late ++ [.reset p keep] } }, some (.timeout, []))
    else (s.endReset p keep).answered []

/-- PART_RESET (R394). -/
def execPartReset (page : Nat) (s : State) : Host.Outcome State Fault Refusal := .next (s.serve 0x05 page partResetBody)

/-! ### Contexts -/

/-- The partition that a command names on a page: its word on the privileged page, the page's own elsewhere. -/
def pagePart (page : Nat) (ws : List W32) (k : Nat) : Nat := if page = 0 then arg ws k else page - 1

/-- The message launch settings (R383); an error for a non-zero reserved field. -/
def msgSettings (ws : List W32) : Option MsgSettings :=
  if bitsAt ws 92 36 ≠ 0 ∨ bitsAt ws 192 64 ≠ 0 then none
  else some { pool := wideAt ws 0, regs := bitsAt ws 64 5, stack := bitsAt ws 69 16, cls := bitsAt ws 85 2, prio := bitsAt ws 87 4
              remote := bitsAt ws 91 1 = 1, kdesc := wideAt ws 4 }

/-- The lowest free context identifier (R350). -/
def State.freeCtx (s : State) : Option Nat := (List.range 0xFFF).find? fun k => k ≠ 0 && (s.ctx? k).isNone

/-- The state of a partition once it has a context (R368): an IDLE one runs when it is within its window and its cores are free,
and else waits for its window (log entry 46). -/
def State.startPart (s : State) (p : Nat) : State :=
  if (s.part p).state ≠ .idle then s
  else
    let clear := s.inWindow p && !(List.range 8).any fun q => s.shareCores p q && (s.part q).state.occupies
    s.mapPart p fun x => { x with state := if clear then .running else .waiting }

/-- A context as CTX_CREATE makes it (R350, R43). -/
def newContext (id p : Nat) (ws : List W32) (m : Option MsgSettings) : Context :=
  { id := id, part := p, root := wideAt ws 3, priv := arg ws 5 % 2 = 1, dbg := arg ws 5 / 2 % 2 = 1, stackBase := wideAt ws 6, msg := m
    ovfBase := wideAt ws 10, ovfSize := if argWide ws 10 = 0 then 0 else arg ws 12, rings := List.replicate 4 ⟨0, 0⟩, ended := false
    mcode := [] }

/-- The message launch settings that a block names: an error, none, or the settings. -/
def State.readSettings (s : State) (page : Nat) (ws : List W32) : Except Status (Option MsgSettings) :=
  if argWide ws 8 = 0 then .ok none
  else
    match s.mpRead page (some (pagePart page ws 2)) (argWide ws 8) 32 with
    | none => .error .badArg
    | some bs =>
      match msgSettings (bytesWords bs) with
      | none => .error .malformed
      | some m => .ok (some m)

/-- CTX_CREATE on a page. -/
def ctxCreateBody (page : Nat) (ws : List W32) (s : State) : Answer :=
  let p := pagePart page ws 2
  let ovf := argWide ws 10
  if wordOver ws 5 2 then s.turnedAway .malformed
  else if 7 < p then s.turnedAway .badArg
  else if (s.part p).state.inTransition then s.turnedAway .busy
  else if !(s.part p).layout.valid then s.turnedAway .badState
  else if argWide ws 3 % 128 ≠ 0 ∨ 2 ^ 48 ≤ argWide ws 3 ∨ (ovf ≠ 0 ∧ (ovf % 65536 ≠ 0 ∨ arg ws 12 = 0 ∨ 65535 < arg ws 12)) then
    s.turnedAway .badArg
  else
    match s.readSettings page ws, s.freeCtx with
    | .error st, _ => s.turnedAway st
    | .ok _, none => s.turnedAway .noResource
    | .ok m, some id =>
      (({ s with ctxs := s.ctxs ++ [newContext id p ws m] } : State).startPart p).answered [(13, BitVec.ofNat 32 id)]

/-- CTX_CREATE (R350, R383). -/
def execCtxCreate (page : Nat) (s : State) : Host.Outcome State Fault Refusal := .next (s.serve 0x06 page (ctxCreateBody page))

/-- The context that a word names on a page, or the status that turns the command away. -/
def State.namedCtx (s : State) (page id : Nat) : Except Status Context :=
  match s.ctx? id with
  | none => .error .badState
  | some c => if page ≠ 0 ∧ c.part ≠ page - 1 then .error .denied else .ok c

/-- CTX_DESTROY on a page: the context ends, as R417 states, and its identifier is free. -/
def ctxDestroyBody (page : Nat) (ws : List W32) (s : State) : Answer :=
  match s.namedCtx page (arg ws 2) with
  | .error st => s.turnedAway st
  | .ok c =>
    if (s.part c.part).state.inTransition then s.turnedAway .busy
    else
      let s := (s.refuseMessages c.id).endContext c.id
      let s : State := { s with owners := s.owners.map fun o =>
        { o with open_ := o.open_.map fun r => if r.ctx = c.id then { r with ctx := 0 } else r } }
      let s := if (s.ctxs.all fun x => x.part ≠ c.part || x.id = c.id) then s.mapPart c.part fun x => { x with state := .idle } else s
      ({ s with ctxs := s.ctxs.filter fun x => x.id ≠ c.id } : State).answered []

/-- CTX_DESTROY (R350, R363). -/
def execCtxDestroy (page : Nat) (s : State) : Host.Outcome State Fault Refusal := .next (s.serve 0x07 page (ctxDestroyBody page))

/-! ### Swaps -/

/-- The bytes of a partition's images. -/
def State.swapBytes (s : State) (p : Nat) : W32 := BitVec.ofNat 32 ((s.images.filter fun i => i.part = p).map (·.bytes)).sum

/-- A swap out ends once its spills are done (R398). -/
def State.endSwapOut (s : State) (p : Nat) : Answer :=
  if s.mp.spillLost then (s.mapPart p fun x => { x with state := .out }, some (.timeout, []))
  else if s.spilled p then (s.mapPart p fun x => { x with state := .out }).answered [(4, s.swapBytes p)]
  else (s.mapPart p fun x => { x with state := .swapping }, none)

/-- CTX_SWAP out (R387, R392, R393); `on` says that the block goes on with a swap that it began before, or before a restart (R356). -/
def State.ctxSwapOut (s : State) (p : Nat) (on : Bool) : Answer :=
  match (s.part p).state with
  | .swapping => if on then s.endSwapOut p else s.turnedAway .busy
  | .out => if on then s.answered [(4, s.swapBytes p)] else s.turnedAway .badState
  | .resetting => s.turnedAway .busy
  | .absent | .idle => s.turnedAway .badState
  | _ => (({ s with mp := { s.mp with spillLost := false } } : State).swapOut p).endSwapOut p

/-- CTX_SWAP in (R392, R349): not while another partition occupies the cores. -/
def State.ctxSwapIn (s : State) (p : Nat) : Answer :=
  let others := (List.range 8).filter fun q => s.shareCores p q
  match (s.part p).state with
  | .out =>
    if others.any fun q => (s.part q).state.occupies then s.turnedAway .badState
    else if s.isLate then s.turnedAway .timeout
    else
      let n := s.swapBytes p
      let s := (others.filter fun q => (s.part q).state = .waiting || (s.part q).state = .held).foldl (fun s q => (s.swapOut q).endSwap q) s
      (s.swapIn p).answered [(4, n)]
  | .swapping | .swappingIn | .resetting => s.turnedAway .busy
  | _ => s.turnedAway .badState

/-- CTX_SWAP. -/
def ctxSwapBody (ws : List W32) (s : State) : Answer :=
  if 7 < arg ws 2 then s.turnedAway .badArg
  else
    match arg ws 3 with
    | 0 => s.ctxSwapOut (arg ws 2) (s.mp.inExec.isSome || s.mp.redo = some (blockArgs ws))
    | 1 => s.ctxSwapIn (arg ws 2)
    | _ => s.turnedAway .badArg

/-- CTX_SWAP (R392). -/
def execCtxSwap (page : Nat) (s : State) : Host.Outcome State Fault Refusal := .next (s.serve 0x08 page ctxSwapBody)

/-! ### Domain splits -/

/-- The slices of a partition's old domain that move (R444). -/
def movingSlices (old new : Nat × Nat) : List Nat :=
  (List.range 64).filter fun k => inDomain old k && !(inDomain new k && new.1 = old.1 && new.2 ≤ old.2)

/-- The new domain that a word names (R350). -/
def splitDomain (w : Nat) : Nat × Nat := (w % 64, w / 256 % 8)

/-- Whether a new domain is one (R443). -/
def domainOk (d : Nat × Nat) : Bool := d.2 ≤ 6 && d.1 % 2 ^ d.2 = 0 && d.1 + 2 ^ d.2 ≤ 64

/-- Whether two domains share a slice. -/
def domainsMeet (a b : Nat × Nat) : Bool := a.1 < b.1 + 2 ^ b.2 && b.1 < a.1 + 2 ^ a.2

/-- The status of a split's block, in the order of R443. -/
def State.splitStatus (s : State) (ws : List W32) (names : List (Nat × (Nat × Nat))) : Status :=
  let reserved (w : Nat) : Bool := w / 64 % 4 ≠ 0 || w / 2048 ≠ 0
  let rest := (List.range 8).filter fun q => (s.part q).layout.valid && !names.any fun x => x.1 = q
  if reserved (arg ws 3) ∨ (if arg ws 4 = 0xFF then arg ws 5 ≠ 0 else reserved (arg ws 5)) then .malformed
  else if names.any fun x => !(s.part x.1).layout.valid then .badState
  else if arg ws 2 = arg ws 4 ∨ names.any fun x => !domainOk x.2 then .badArg
  else if (names.any fun x => names.any fun y => x.1 ≠ y.1 && domainsMeet x.2 y.2) ||
      names.any fun x => rest.any fun q => domainsMeet x.2 (s.domain (some q)) then .badArg
  else if names.any fun x => (s.part x.1).state.inTransition then .busy
  else .ok

/-- Whether a line of a stash window lies in some slices (R110), and in any case where its page no longer translates. -/
def State.windowMoves (s : State) (b : Block) (w : Stash) (moving : List Nat) (k : Nat) : Bool :=
  let va := w.base + BitVec.ofNat 64 (128 * k)
  match s.translate b.ctx ⟨0, false, false, true⟩ va (2251799813685248 + 8 * (va.toNat / 4096)) with
  | .error _ => true
  | .ok t => moving.contains (homeSlice (s.domain (some b.part)) t.tgeo (t.paOf va.toNat))

/-- The stash-window copies of the lines of some slices are recalled (R110, R445 step 2b). -/
def State.recallWindows (s : State) (moving : List Nat) : State :=
  { s with blocks := s.blocks.map fun b => { b with stash := b.stash.map fun w =>
      { w with filled := w.filled.filter fun k => !s.windowMoves b w moving k, dirty := w.dirty.filter fun k => !s.windowMoves b w moving k } } }

/-- Steps 2b and 2c of a split (R445, R447): the moving slices write back their lines and lose them, with every stash-window copy; the
domains change; and what was caught in flight at a moving slice is answered "misdirected" in step 2d. -/
def State.splitDomains (s : State) (x : Split) : State :=
  let s := (((s.writeBack fun d => x.moving.contains d.slice).recallWindows x.moving).forgetHomes fun h => x.moving.contains h.slice)
  let s := x.names.foldl (fun s n => s.mapPart n.1 fun p =>
    { p with layout := { p.layout with dbase := n.2.1, dm := n.2.2 }
             sgen := if (p.layout.dbase, p.layout.dm) = n.2 then p.sgen else p.sgen + 1 }) s
  { s with writes := s.writes.map fun w => if x.moving.contains w.slice && !isRemote w.addr then { w with misdirected := true } else w }

/-- A split makes one of its steps (R445): the write-back of step 1, steps 2a to 2c, or the answers of step 2d. -/
def State.splitOn (s : State) : State :=
  match s.mp.split with
  | none => s
  | some x =>
    match x.stage with
    | 1 => (s.writeBack fun d => x.moving.contains d.slice).splitAt x 2
    | 2 => (s.splitDomains x).splitAt x 3
    | _ => s.endSplit x

/-- A split begins (R445). -/
def State.beginSplit (s : State) (names : List (Nat × (Nat × Nat))) : State :=
  s.splitAt ⟨names, names.flatMap fun x => movingSlices (s.domain (some x.1)) x.2, 1⟩ 1

/-- DOMAIN_SPLIT, step by step; a late write-back leaves step 1 or step 2 in progress (R349), and another split waits for its end
(R448). -/
def domainSplitBody (ws : List W32) (s : State) : Answer :=
  let b := arg ws 4
  let names := (arg ws 2, splitDomain (arg ws 3)) :: if b = 0xFF then [] else [(b, splitDomain (arg ws 5))]
  if s.mp.late.contains .split then (s, none)
  else
    match s.mp.split with
    | none =>
      match s.splitStatus ws names with
      | .ok => (s.beginSplit names, none)
      | st => s.turnedAway st
    | some x =>
      if x.stage < 3 && s.isLate then ({ s with mp := { s.mp with late := s.mp.late ++ [.split] } }, some (.timeout, []))
      else if x.stage < 3 then (s.splitOn, none)
      else s.splitOn.answered []

/-- DOMAIN_SPLIT (R443 to R447). -/
def execDomainSplit (page : Nat) (s : State) : Host.Outcome State Fault Refusal := .next (s.serve 0x0A page domainSplitBody)

/-! ### Ranges -/

/-- Whether every byte of a range is canonical (R88, R410). -/
def canonicalRange (va n : Nat) : Bool :=
  n = 0 || va + n ≤ 2 ^ 51 || (2 ^ 64 - 2 ^ 51 ≤ va && va + n ≤ 2 ^ 64 + 2 ^ 51)

/-- Whether a context runs on a core. -/
def State.runsOn (s : State) (c core : Nat) : Bool := s.blocks.any fun b => b.ctx = c && b.core = core

/-- Whether a line has been dirtied again since a step, before this one. -/
def State.writtenSince (s : State) (start line : Nat) : Bool :=
  s.past.any fun p => start < p.at_ && p.at_ < s.free && p.pa / 128 = line

/-- One page's part of a ranged write-back (R410): writes on their way from the context's cores are performed, and then its dirty
lines are written to memory, freely so where a line has been dirtied again since the command started; a page that does not translate
is skipped. -/
def State.writeBackPage (s : State) (c : Nat) (va : W64) (n start : Nat) : State :=
  match s.translate c ⟨0, false, false, true⟩ va (36028797018963968 + 8 * (va.toNat / 4096)) with
  | .error _ => s
  | .ok t =>
    let pa := t.paOf va.toNat
    let lines := linesOf pa n
    let s := s.flushWhere fun w => !isRemote w.addr && w.agent.core.any (fun k => s.runsOn c k) && (linesOf w.addr w.data.length).any lines.contains
    s.writeBack fun d => lines.contains d.line && (!s.writtenSince start d.line || Config.freeBool s.free (65536 * 67000 + d.line))

/-- The write-back of a range. -/
def State.writeBackRange (s : State) (c : Nat) (va : W64) (n start : Nat) : State :=
  (accessParts va n).foldl (fun s p => s.writeBackPage c p.1 p.2.2 start) s

/-- RANGE_WB on a page. -/
def rangeWbBody (page : Nat) (ws : List W32) (s : State) : Answer :=
  let va := wideAt ws 3
  let n := argWide ws 5
  let clash (x : LateStep) : Bool := match x with
    | .rangeWb c va' n' _ => c = arg ws 2 && va'.toNat < va.toNat + n && va.toNat < va'.toNat + n'.toNat
    | _ => false
  if !canonicalRange va.toNat n then s.turnedAway .badArg
  else
    match s.namedCtx page (arg ws 2) with
    | .error st => s.turnedAway st
    | .ok c =>
      if s.mp.late.any clash then s.turnedAway .busy
      else if n ≠ 0 && s.isLate then
        ({ s with mp := { s.mp with late := s.mp.late ++ [.rangeWb c.id va (wideAt ws 5) s.free] } }, some (.timeout, []))
      else (s.writeBackRange c.id va n s.free).answered []

/-- RANGE_WB (R410). -/
def execRangeWb (page : Nat) (s : State) : Host.Outcome State Fault Refusal := .next (s.serve 0x0B page (rangeWbBody page))

/-! ### Invalidations -/

/-- Whether an invalidation names a context, or a partition's stage (R407). -/
def State.invalCovers (s : State) (x : TlbInval) (c : Nat) : Bool :=
  match x.ctx, x.part with
  | some k, _ => k = c
  | none, some p => s.entryPart c = some p
  | none, none => true

/-- Whether an invalidation's range meets some bytes; a page count of 0 covers everything. -/
def TlbInval.meets (x : TlbInval) (va n : Nat) : Bool :=
  x.pages = 0 || (va < x.va.toNat / 4096 * 4096 + 4096 * x.pages && x.va.toNat / 4096 * 4096 < va + n)

/-- The declared ranges of a tile task (R252); none where a record of it can no longer be read. -/
def State.taskRanges (s : State) (t : Task) : Option (List (Nat × Nat)) :=
  match s.taskRecords (t.eng (t.core.getD 0)) t with
  | .ok (_, r, cbase, nent) =>
    let b := taskBuild t.words nent
    let (na, nb, nc, nk) := t.sizes b r
    some [((wideAt t.words 2).toNat, na), ((wideAt t.words 4).toNat, nb), ((wideAt t.words 6).toNat, 15 * bitsAt t.words 272 16 + nc),
      (cbase.toNat, nk)]
  | .error _ => none

/-- Whether an invalidation meets the ranges of a task. -/
def State.invalTask (s : State) (x : TlbInval) (t : Task) : Bool :=
  s.invalCovers x t.ctx && (s.taskRanges t).all fun l => l.any fun r => x.meets r.1 r.2

/-- Every cached translation of an invalidation dropped (R406, R407): the writes that used one are performed, the tile tasks whose
ranges it meets stop, and a traversal step that may use one saves its record. -/
def State.dropTranslations (s : State) (x : TlbInval) : State :=
  let s := s.flushWhere fun w => w.agent.ctx.any (s.invalCovers x) && x.meets w.va.toNat w.data.length
  let s := s.stopTasks (s.invalTask x)
  let s := s.saveRays fun r => s.invalCovers x r.ctx && r.started && Config.freeBool s.free (r.tag 47)
  { s with tlb := s.tlb.filter fun e => !(s.invalCovers x e.ctx && x.meets e.tr.va (2 ^ e.tr.bits)) }

/-- Whether a write that used a translation of an invalidation is held, so that its token waits. -/
def State.invalHeld (s : State) (x : TlbInval) : Bool :=
  s.writes.any fun w => w.agent.ctx.any (s.invalCovers x) && x.meets w.va.toNat w.data.length && s.writeBlocked w

/-- The next token of an owner taken for an invalidation (R407): serials start at 1 and skip 0. -/
def State.takeToken (s : State) (owner : Nat) (ctx part : Option Nat) (va : W64) (pages : Nat) : State × W32 :=
  let token := (s.owner owner).tlbSer
  (({ s with invals := s.invals ++ [⟨owner, token, ctx, part, va, pages⟩] } : State).setOwner owner fun o =>
    { o with tlbSer := if token = 0xFFFFFFFF then 1 else token + 1 }, token)

/-- The oldest token of an owner completes, unless a write holds it (R407). -/
def State.completeInval (s : State) (owner : Nat) : State :=
  match s.invals.find? fun x => x.owner = owner with
  | none => s
  | some x =>
    if s.invalHeld x then s
    else
      let s := s.dropTranslations x
      ({ s with invals := s.invals.filter fun y => !(y.owner = owner && y.token = x.token) } : State).setOwner owner fun o =>
        { o with tlbiDone := x.token }

/-- TLB_INVAL_COMPLETE (R407): tokens complete in order. -/
def execTlbInvalComplete (owner : Nat) (s : State) : Host.Outcome State Fault Refusal := .next (s.completeInval owner)

/-- TLB_INVAL on a page: DONE is written when the invalidation has reached every agent, or it is late (R349). -/
def tlbInvalBody (page : Nat) (ws : List W32) (s : State) : Answer :=
  let id := arg ws 2
  let all := id = 0xFFF
  match (if all then .ok Context.none else s.namedCtx page id) with
  | .error st => s.turnedAway (if 0xFFF < id then .badArg else st)
  | .ok c =>
    let (s, token) := s.takeToken page (if all then none else some c.id) (if all ∧ page ≠ 0 then some (page - 1) else none) (wideAt ws 3) (arg ws 5)
    (s, some (if s.isLate then .timeout else .ok, [(6, token)]))

/-- TLB_INVAL (R407). -/
def execTlbInval (page : Nat) (s : State) : Host.Outcome State Fault Refusal := .next (s.serve 0x1A page (tlbInvalBody page))

/-! ### Migration -/

/-- A leaf of the context stage: its size in bits, the physical address of its entry, and the entry. -/
structure LeafAt where
  shift : Nat
  pte   : Nat
  e     : W64
  deriving DecidableEq, Repr

/-- The leaf that maps a virtual address, whatever its RES (R400). -/
def leafAt (mem : Cells) (n : Nat) (root2 : Option Nat) (va : Nat) : List Nat → Nat → Option LeafAt
  | [], _ => none
  | level :: rest, table =>
    let shift := levelShift level
    let idx := if level = 0 then va / 2 ^ 48 % 16 else va / 2 ^ shift % 512
    let ia := (table + 8 * idx) % 2 ^ 48
    match stagePart mem n 66300 root2 accWalk ia with
    | .error _ => none
    | .ok l2 =>
      let e := readPte mem (l2.pa ia)
      if !e.getLsbD 0 || pteMalformed false level e then none
      else if e.getLsbD 1 then some ⟨shift, l2.pa ia, e⟩
      else leafAt mem n root2 va rest (pteAddr e)

/-- The leaves of a range, which must be whole (R409); `fuel` bounds their number. -/
def State.leavesOf (s : State) (c : Context) (va n : Nat) : Nat → Option (List (Nat × LeafAt))
  | 0 => if n = 0 then some [] else none
  | fuel + 1 =>
    if n = 0 then some []
    else
      match leafAt s.mem s.free (s.partRoot c.part) va [0, 1, 2, 3, 4] (c.root.toNat % 2 ^ 48) with
      | none => none
      | some l =>
        if va % 2 ^ l.shift ≠ 0 ∨ n < 2 ^ l.shift then none
        else (State.leavesOf s c (va + 2 ^ l.shift) (n - 2 ^ l.shift) fuel).map ((va, l) :: ·)

/-- The tile bytes of a geometry code (R302); 1 for a plain page. -/
def tileBytes (tgeo : BitVec 7) : Nat := if tgeo.getLsbD 6 then 2 ^ (bitField tgeo.toNat 3 3 + 7) else 1

/-- Whether every leaf may move to its place at a new address (R409 step 1). -/
def leavesFit (va pa : Nat) (ls : List (Nat × LeafAt)) : Bool :=
  ls.all fun x =>
    let to_ := pa + (x.1 - va)
    to_ % 2 ^ x.2.shift = 0 && to_ % tileBytes (x.2.e.extractLsb' 48 7) = 0

/-- The leaves of a range rewritten. -/
def State.rewriteLeaves (s : State) (c : Context) (ls : List (Nat × LeafAt)) (f : Nat → W64 → W64) : State :=
  ls.foldl (fun s x => s.homeWrite noTag (s.domain (some c.part)) 0 x.2.pte (natBytes 8 (f x.1 x.2.e).toNat)) s

/-- Step 2 of a migration (R409): RES is cleared. -/
def State.unmapLeaves (s : State) (c : Context) (ls : List (Nat × LeafAt)) : State :=
  s.rewriteLeaves c ls fun _ e => e &&& ~~~4

/-- The physical address of a new address (R346): as it is on the privileged page, through the partition stage elsewhere. -/
def State.migratePa (s : State) (page part ia : Nat) : Option Nat := if page = 0 then some ia else s.guestPa part true ia

/-- The 4 KiB pages of a leaf's move (R409 step 4): the old and the new physical address of each; none where one of them does not
translate at the partition stage. -/
def State.movePages (s : State) (c : Context) (page to_ : Nat) (l : LeafAt) : Option (List (Nat × Nat)) :=
  (List.range (2 ^ l.shift / 4096)).mapM fun k =>
    match stagePart s.mem s.free 66301 (s.partRoot c.part) accWalk (pteAddr l.e + 4096 * k), s.migratePa page c.part (to_ + 4096 * k) with
    | .ok l2, some pa => some (l2.pa (pteAddr l.e + 4096 * k), pa)
    | _, _ => none

/-- The pages of a whole range's move. -/
def State.moveRange (s : State) (c : Context) (page va pa : Nat) (ls : List (Nat × LeafAt)) : Option (List (LeafAt × List (Nat × Nat))) :=
  ls.mapM fun x => (s.movePages c page (pa + (x.1 - va)) x.2).map fun ps => (x.2, ps)

/-- One leaf's bytes copied from its old pages to its new ones, as accesses of the context (R409 step 4). -/
def State.copyLeaf (s : State) (c : Context) (l : LeafAt) (ps : List (Nat × Nat)) : State :=
  let tgeo := l.e.extractLsb' 48 7
  let dom := s.domain (some c.part)
  ps.foldl (fun s p => s.homeWrite c.id dom tgeo p.2 (s.domainRead 0 dom tgeo p.1 4096)) s

/-- An entry with a new ADDR and RES set (R409 step 5). -/
def remapped (e : W64) (ia : Nat) : W64 := (pteFields e ||| (BitVec.ofNat 64 ia &&& 0x0000FFFFFFFFF000)) ||| 4

/-- Every replayable record raised against a range completed with retry, but for residency requests (R409 step 6). -/
def State.replayRange (s : State) (c : Context) (va n : Nat) : State :=
  let o := 1 + c.part
  let mine := (s.owner o).open_.filter fun r => r.ctx = c.id && r.kind ≠ 3 && va ≤ r.va.toNat && r.va.toNat < va + n
  mine.foldl (fun s r => (s.setOwner o fun w => { w with open_ := w.open_.filter fun x => x.sq ≠ r.sq }).replayAll o r.sq) s

/-- Steps 4 to 6 of a migration (R409), once its token has completed: none while a page of the move does not translate. -/
def State.finishMigrate (s : State) (page : Nat) (c : Context) (va pa pages : Nat) (ls : List (Nat × LeafAt)) : Option State :=
  (s.moveRange c page va pa ls).map fun moves =>
    let s := moves.foldl (fun s m => s.copyLeaf c m.1 m.2) s
    let s := s.rewriteLeaves c ls fun a e => remapped e (pa + (a - va))
    s.replayRange c va (4096 * pages)

/-- Whether a token of an owner has not completed yet. -/
def State.tokenWaits (s : State) (owner : Nat) (token : W32) : Bool := s.invals.any fun x => x.owner = owner && x.token = token

/-- Steps 3 to 6 of a migration whose leaves are unmapped (R409): the token is waited for, and the tokens before it (R407). None while
one of them is held, or a page of the move does not translate. -/
def State.migrateOn (s : State) (page : Nat) (c : Context) (va pa pages : Nat) (token : W32) (ls : List (Nat × LeafAt)) : Option State :=
  let s := (List.range s.invals.length).foldl (fun s _ => if s.tokenWaits page token then s.completeInval page else s) s
  if s.tokenWaits page token then none else s.finishMigrate page c va pa pages ls

/-- MIGRATE on a page: a late step leaves the range unmapped (R349). -/
def migrateBody (page : Nat) (ws : List W32) (s : State) : Answer :=
  let va := argWide ws 3
  let pa := argWide ws 5
  let pages := arg ws 7
  let busy (x : LateStep) : Bool := match x with
    | .migrate _ c _ _ _ _ => c = arg ws 2
    | _ => false
  match s.namedCtx page (arg ws 2) with
  | .error st => s.turnedAway st
  | .ok c =>
    if s.mp.late.any busy ∨ (s.part c.part).state.inTransition then s.turnedAway .busy
    else
      match s.leavesOf c va (4096 * pages) (pages + 1) with
      | none => s.turnedAway .badArg
      | some ls =>
        let beyond := if page = 0 then s.installed < pa + 4096 * pages
          else (List.range pages).any fun k => (s.guestPa (page - 1) true (pa + 4096 * k)).isNone
        if va % 4096 ≠ 0 ∨ !canonicalRange va (4096 * pages) ∨ beyond ∨ !leavesFit va pa ls then s.turnedAway .badArg
        else if ls.any fun x => x.2.e.getLsbD 3 then s.turnedAway .badState
        else
          let late := s.isLate
          let (s, token) := (s.unmapLeaves c ls).takeToken page (some c.id) none (BitVec.ofNat 64 va) pages
          match if late then none else s.migrateOn page c va pa pages token ls with
          | some s => s.answered []
          | none =>
            ({ s with mp := { s.mp with late := s.mp.late ++ [.migrate page c.id (BitVec.ofNat 64 va) pa pages token] } }, some (.timeout, []))

/-- MIGRATE (R409). -/
def execMigrate (page : Nat) (s : State) : Host.Outcome State Fault Refusal := .next (s.serve 0x1B page (migrateBody page))

/-! ### Late steps -/

/-- A late step ends (R349). -/
def State.finishLate (s : State) : LateStep → State
  | .reset p keep => s.endReset p keep
  | .split => if s.splitOn.mp.split.isSome then { s.splitOn with mp := { s.splitOn.mp with late := s.splitOn.mp.late ++ [.split] } } else s.splitOn
  | .quarantine cores perm => s.escalateCores cores perm
  | .migrate page c va pa pages token =>
    match s.ctx? c with
    | none => s
    | some x =>
      match s.leavesOf x va.toNat (4096 * pages) (pages + 1) with
      | none => s
      | some ls =>
        match s.migrateOn page x va.toNat pa pages token ls with
        | some s => s
        | none => { s with mp := { s.mp with late := s.mp.late ++ [.migrate page c va pa pages token] } }
  | .rangeWb c va len start => if (s.ctx? c).isSome then s.writeBackRange c va len.toNat start else s

/-- LATE_STEP_COMPLETE (R349, R368, R445). -/
def execLateStepComplete (n : Nat) (s : State) : Host.Outcome State Fault Refusal :=
  .next (match s.mp.late[n]? with
    | none => s
    | some x => ({ s with mp := { s.mp with late := s.mp.late.eraseIdx n } } : State).finishLate x)

end Sys2Proof.Machine
end

