-- ==== Sys2Proof/Machine/Draws.lean ====
section
/-! DEFINITION. Draw rings, geometry sequencers and rasterisers (R422, R428 to R430, R435): how draws are taken, passed over or
rejected, how triangles are assembled and covered, and how vertex and pixel threads start. -/
namespace Sys2Proof.Machine

/-! ### Rings -/

/-- A render block's ring fields: whether its draws may be taken (R428). -/
def State.ringOn (s : State) (p : Nat) : Bool :=
  let b := (s.part p).render
  b.dring ≠ 0 && 4 ≤ b.dlog && b.dlog ≤ 12 && (s.ctx? b.dctx).any fun c => c.part = p && !c.ended

/-- A render block changed. -/
def State.mapRender (s : State) (p : Nat) (f : RenderBlock → RenderBlock) : State := s.mapPart p fun x => { x with render := f x.render }

/-- An access of a sequencer that failed (R422, R428): on a replayable record `wait` notes it, else the context ends. -/
def State.drawFault (s : State) (p ctx : Nat) (wait : State → Option (Nat × W32) → State) : EngFail → State
  | .stop r =>
    if s.replayFull (1 + p) then s
    else
      let (s, n) := s.postReplay (1 + p) { r with part := p }
      wait s (some (1 + p, n))
  | .kill kind va level => s.fatal ctx { (s.ringEng ctx).record kind va with synd := BitVec.ofNat 32 level }
  | .line va l x => s.lineError ctx ((s.ringEng ctx).record 0 va) l x

/-- An access to a ring that failed. -/
def State.ringFault (s : State) (p ctx : Nat) (f : EngFail) : State :=
  s.drawFault p ctx (fun s w => s.mapRender p fun b => { b with wait := w }) f

/-- The draw that a partition's geometry sequencer has taken. -/
def State.taken (s : State) (p : Nat) : Option Draw := s.display.draws.find? fun d => d.part = p

/-- DRAW_RING_ENABLE (R428): RIDX is read when the conditions come to hold. -/
def execDrawRingEnable (p : Nat) (s : State) : Host.Outcome State Fault Refusal :=
  .next (
    let b := (s.part p).render
    if s.ringOn p && b.ridx.isNone && b.wait.isNone && (s.taken p).isNone then
      match s.engRead (s.ringEng b.dctx) (b.dring + 4) 4 with
      | .error f => s.ringFault p b.dctx f
      | .ok (s, bs) =>
        let n : W32 := BitVec.ofNat 32 (bytesNat bs)
        s.mapRender p fun b => { b with ridx := some n, widx := n }
    else s)

/-- DRAW_RING_POLL (R428): an idle sequencer reads WIDX. -/
def execDrawRingPoll (p : Nat) (s : State) : Host.Outcome State Fault Refusal :=
  .next (
    let b := (s.part p).render
    if s.ringOn p && b.ridx.isSome && b.wait.isNone && (s.taken p).isNone then
      match s.engRead (s.ringEng b.dctx) b.dring 4 with
      | .error f => s.ringFault p b.dctx f
      | .ok (s, bs) => s.mapRender p fun b => { b with widx := BitVec.ofNat 32 (bytesNat bs) }
    else s)

/-! ### Taking a draw -/

/-- Whether a launch record of a draw breaks a rule of R39, its extents aside (R429). -/
def drawLaunchBad (ws : List W32) : Bool := launchBad (setWord (setWord (setWord ws 2 1) 3 1) 4 1)

/-- Whether a draw record's reserved bits are zero (R429). -/
def drawRecordOk (ws : List W32) : Bool := bitsAt ws 171 21 = 0 && bitsAt ws 224 32 = 0 && bitsAt ws 384 128 = 0

/-- Whether a render-target table's entries are in order (R429). -/
def targetsOk (ws : List W32) : Bool := (List.range 8).all fun t => (wordAt ws (4 * t + 3)).toNat ≤ 2

/-- Whether the compare point of a draw's frame has passed. -/
def State.framePassed (s : State) (d : Draw) : Bool := (s.pipe d.pipe).compared.any fun n => (n - d.frame).toNat < 2147483648

/-- Whether a tagged draw is passed over as it is taken (R434, R435, R485): its ring's partition renders no layer of this name, or
its rendering's group is quarantined, or not among the partition's cores, or its frame's compare point has passed while it
would wait. -/
def State.passesOver (s : State) (d : Draw) : Bool :=
  match s.drawLayer d with
  | none => false
  | some l =>
    let g := l.group d.rend
    s.ringlet.gstate.getD g 0 = 1 || !s.rendersFor l d.part || !(s.part d.part).holds g ||
      (l.safety && d.rend = 1 && (l.rend d.frame 0).first.isNone && s.framePassed d)

/-- Whether rendering B may start (R435): OFFSET after rendering A's first draw of the frame started or was passed over. -/
def State.offsetPassed (s : State) (d : Draw) : Bool :=
  match s.drawLayer d with
  | none => true
  | some l => !l.safety || d.rend = 0 || (l.rend d.frame 0).first.any fun t => t + l.offset * 100 ≤ s.now

/-- A draw whose record has been read. -/
def State.newDraw (s : State) (p : Nat) (n : W32) (ws targets : List W32) : Draw :=
  { key := s.serial + 1, part := p, ctx := (s.part p).render.dctx, ring := (s.part p).render.dring, index := n, words := ws, targets := targets
    vlaunch := s.serial + 2, plaunch := s.serial + 3, vnext := 0, started := true, skipped := false, verts := [], strips := [], tris := []
    raster := [], quads := [], extra := [], wait := none, overrun := false }

/-- A draw taken. -/
def State.addDraw (s : State) (d : Draw) : State :=
  { s with serial := s.serial + 3, display := { s.display with draws := s.display.draws ++ [d] } }

/-- A launch of a draw (R429): it belongs to no queue. -/
def State.drawLaunch (s : State) (d : Draw) (key : Nat) (ws : List W32) : Launch :=
  { Launch.none with
    key := key, part := d.part, ctx := d.ctx, index := d.index, words := ws, prio := bitsAt ws 220 4, cls := s.classOf d.part ws
    draw := some d.key, since := s.now, stamp := s.free }

/-- A draw passed over or rejected (R429, R485): it counts as completed with nothing drawn, and its rendering as not completed. -/
def State.skipDraw (s : State) (d : Draw) : State :=
  let s := (s.voidRend d).beginRend d
  if s.display.draws.any (·.key = d.key) then s.mapDraw d.key fun d => { d with skipped := true, started := true, vnext := d.vcount }
  else s.addDraw { d with skipped := true, vnext := d.vcount }

/-- A rejected draw's record (R429). -/
def State.rejectDraw (s : State) (d : Draw) : State :=
  (s.notice d.ctx { (s.ringEng d.ctx).record 0x30 0 with info := d.index ++ (0xFFFFFFFF : W32) }).skipDraw d

/-- A draw whose launches and targets are in order: it starts, unless it waits for its offset (R435). -/
def State.startDraw (s : State) (d : Draw) (vws pws : List W32) : State :=
  let go := s.offsetPassed d
  let s := { s with launches := s.launches ++ [s.drawLaunch d d.vlaunch vws, s.drawLaunch d d.plaunch pws] }.addDraw { d with started := go }
  if go then s.beginRend d else s

/-- What a draw's records hold: its launches and its target table, read in turn (R429). -/
def State.readDraw (s : State) (e : Eng) (ws : List W32) : Except EngFail (State × List W32 × List W32 × List W32) := do
  let (s, v) ← s.engRead e (wideAt ws 0) 64
  let (s, p) ← s.engRead e (wideAt ws 2) 64
  let (s, t) ← s.engRead e (wideAt ws 8) 128
  return (s, bytesWords v, bytesWords p, bytesWords t)

/-- A rejected draw record or target table (R12, R493): its context ends. -/
def State.badDraw (s : State) (ctx : Nat) (va : W64) : State := s.fatal ctx { (s.ringEng ctx).record 0x31 va with synd := 7 }

/-- The next draw of a ring taken (R428, R429). -/
def State.takeDraw (s : State) (p : Nat) (n : W32) : State :=
  let b := (s.part p).render
  let e := s.ringEng b.dctx
  let va := b.dring + BitVec.ofNat 64 (64 + 64 * (n.toNat % 2 ^ b.dlog))
  match s.engRead e va 64 with
  | .error f => s.ringFault p b.dctx f
  | .ok (s, bs) =>
    let ws := bytesWords bs
    let d := s.newDraw p n ws []
    if !drawRecordOk ws then s.badDraw b.dctx va
    else if s.passesOver d then s.skipDraw d
    else
      match s.readDraw e ws with
      | .error f => s.ringFault p b.dctx f
      | .ok (s, vws, pws, tws) =>
        if !targetsOk tws then s.badDraw b.dctx (wideAt ws 8)
        else if drawLaunchBad vws ∨ drawLaunchBad pws then s.rejectDraw d
        else s.startDraw { d with targets := tws } vws pws

/-- Whether everything of a draw is done: its threads have ended and their writes can be performed. -/
def State.drawDone (s : State) (d : Draw) : Bool :=
  d.started && d.vcount ≤ d.vnext && d.verts.isEmpty && d.tris.isEmpty && d.raster.isEmpty && d.quads.isEmpty && d.extra.isEmpty && d.wait.isNone &&
    !(s.blocks.any fun b => b.launch = d.vlaunch || b.launch = d.plaunch) && !s.ctxBlocked d.ctx

/-- A draw completes (R428, R435): its threads' writes are performed, RIDX advances past it, and its rendering's END is noted. -/
def State.finishDraw (s : State) (d : Draw) : State :=
  let s := s.flushWhere fun w => w.agent.ctx = some d.ctx && w.uid ≠ 0
  match s.engWrite (s.ringEng d.ctx) (d.ring + 4) (natBytes 4 (d.index + 1).toNat) with
  | .error f => s.ringFault d.part d.ctx f
  | .ok s =>
    let s : State := { s with
      launches := s.launches.filter fun l => l.draw ≠ some d.key
      display := { s.display with draws := s.display.draws.filter fun x => x.key ≠ d.key } }
    let s := s.mapRender d.part fun b => { b with ridx := b.ridx.map fun _ => d.index + 1 }
    if d.isLast && !d.skipped then s.mapDrawRend d fun r => { r with ended := true } else s

/-- DRAW_TAKE (R428, R429): the sequencer's draw goes on with its next vertex threads or completes; with none the next is taken. -/
def execDrawTake (p : Nat) (s : State) : Host.Outcome State Fault Refusal :=
  .next (if !s.starts p || (s.part p).render.wait.isSome then s else
    match s.taken p with
    | some d =>
      match s.vertexReady d with
      | some (rank, s') => if s.noneBetter p 4 rank then s'.tookTurn p 4 else s
      | none => if s.drawDone d then s.finishDraw d else s
    | none =>
      match (s.part p).render.ridx with
      | some n => if s.ringOn p && (s.part p).render.widx ≠ n then s.takeDraw p n else s
      | none => s)

/-- RENDERING_B_START (R435). -/
def execRenderingBStart (p : Nat) (s : State) : Host.Outcome State Fault Refusal :=
  .next (match s.taken p with
    | some d => if !d.started && s.offsetPassed d then (s.mapDraw d.key fun d => { d with started := true }).beginRend d else s
    | none => s)

/-- The draws that still wait at their frame's compare point are passed over (R435). -/
def State.passWaiting (s : State) (pipe : Nat) : State :=
  (s.display.draws.filter fun d => !d.started && d.pipe = pipe && s.framePassed d).foldl State.skipDraw s

/-! ### Assembly -/

/-- A clip coordinate mapped to the screen (R429), each step rounded to f32. -/
def mapClip (c w : W32) (org ext : Nat) : W32 :=
  let e := mulRne (addRne (divRne c w) 0x3F800000) (intRne ext)
  addRne (intRne org) (mulRne e 0x3F000000)

/-- Whether an f32 is finite. -/
def isFinite (x : W32) : Bool := match fromF32 x with
  | .fin _ _ _ _ => true
  | _ => false

/-- A vertex's mapped x and y; none where its clip position culls its triangles (R429). -/
def Vertex.mapped (v : Vertex) (view : Nat × Nat × Nat × Nat) : Option (List W32) :=
  let w := wordAt v.clip 3
  if v.clip.all isFinite && fpLt 0 w then
    some [mapClip (wordAt v.clip 0) w view.1 view.2.2.1, mapClip (wordAt v.clip 1) w view.2.1 view.2.2.2]
  else none

/-- A mapped point, exactly. -/
def pointOf (p : List W32) : Point := (fromF32 (wordAt p 0), fromF32 (wordAt p 1))

/-- A triangle's screen area, exactly (R429). -/
def screenArea (a b c : Point) : FVal := crossVal (subVal b.1 a.1, subVal b.2 a.2) (subVal c.1 a.1, subVal c.2 a.2)

/-- Whether a mapped triangle is culled (R429). With a coordinate beyond f32 its area is not said: it is culled freely (log
entry 52). -/
def culled (free : Nat) (cull : Bool) (pts : List (List W32)) : Bool :=
  if pts.all fun p => p.all isFinite then
    match signOf (screenArea (pointOf (pts.getD 0 [])) (pointOf (pts.getD 1 [])) (pointOf (pts.getD 2 []))) with
    | some z => z = 0 || (cull && z < 0)
    | none => true
  else Config.freeBool free 66730

/-- The triangle of three vertices, if it is not culled. -/
def Draw.triangle (d : Draw) (free order : Nat) (vs : List Vertex) : Option Tri :=
  match vs.mapM fun v => v.mapped d.view with
  | none => none
  | some pts => if culled free d.cull pts then none else some ⟨pts, vs.map (·.clip), vs.map (·.attrs), order⟩

/-- A stream's open strip: triangles so far, and its last two vertices. -/
def Draw.strip (d : Draw) (stream : Nat) : Nat × List Vertex := ((d.strips.find? fun x => x.1 = stream).map (·.2)).getD (0, [])

/-- The next emitted vertex joins its strip (R263, R429): the draw, and the vertices of the triangle that it completes. -/
def Draw.assemble (d : Draw) : Option (Draw × Option (List Vertex)) :=
  match d.verts with
  | [] => none
  | (stream, v) :: rest =>
    let (k, vs) := d.strip stream
    let others := d.strips.filter fun x => x.1 ≠ stream
    match vs with
    | [a, b] =>
      let strips := if v.last then others else (stream, (k + 1, [b, v])) :: others
      some ({ d with verts := rest, strips := strips }, some (if k % 2 = 0 then [a, b, v] else [b, a, v]))
    | _ =>
      let strips := if v.last then others else (stream, (k, vs ++ [v])) :: others
      some ({ d with verts := rest, strips := strips }, none)

/-- A triangle joins a draw with the next serial of its ring (R430). -/
def State.addTri (s : State) (d : Draw) (t : Option Tri) : State :=
  match t with
  | some t =>
    (s.mapDraw d.key fun _ => { d with tris := d.tris ++ [t] }).mapRender d.part fun b => { b with prims := b.prims + 1 }
  | none => s.mapDraw d.key fun _ => d

/-- The geometry sequencer's work on the next vertex of a draw. -/
def State.assembleDraw (s : State) (d : Draw) : State :=
  match d.assemble with
  | none => s
  | some (d, vs) => s.addTri d (vs.bind fun vs => d.triangle s.free (s.part d.part).render.prims vs)

/-- Whether a draw's sequencers go on (R368). -/
def State.drawRuns (s : State) (d : Draw) : Bool := s.starts d.part && d.wait.isNone && !d.overrun

/-- PRIMITIVE_ASSEMBLY (R429), by the standard microcode. -/
def execPrimitiveAssembly (n : Nat) (s : State) : Host.Outcome State Fault Refusal :=
  .next (match s.display.draws[n]? with
    | some d => if s.drawRuns d && (s.ownMicrocode d.ctx 0).isNone then s.assembleDraw d else s
    | none => s)

/-! ### Coverage -/

/-- ⌊x⌋ of a finite value. -/
def floorVal : FVal → Int
  | .fin s n d e =>
    let r := (roundToInt 2 s n d e).1
    if s then -(r : Int) else r
  | _ => 0

/-- Whether a triangle covers the centre of a pixel (R425, R429). With a coordinate beyond f32 it does so freely (log entry 52). -/
def Tri.covers (t : Tri) (free x y : Nat) : Bool :=
  if t.pts.all fun p => p.all isFinite then
    let at_ (k : Nat) : Point :=
      let p := pointOf (t.pts.getD k [])
      (subVal p.1 (.dy false (2 * x + 1) (-1)), subVal p.2 (.dy false (2 * y + 1) (-1)))
    coveredBy (at_ 0) (at_ 1) (at_ 2)
  else Config.freeBool free (4398046511104 + 65536 * y + x)

/-- The pixels along one axis that a triangle can cover: the viewport's, and those its points span. -/
def Tri.span (t : Tri) (axis org ext : Nat) : Nat × Nat :=
  let vs := t.pts.map fun p => wordAt p axis
  if vs.all isFinite then
    let fs := vs.map fun v => floorVal (fromF32 v)
    let lo := fs.foldl min (fs.headD 0)
    let hi := fs.foldl max (fs.headD 0)
    (max org lo.toNat, min (org + ext) (hi + 1).toNat)
  else (org, org + ext)

/-- The place of a quad in the order of a draw (R430): the tile, and the quad within it, by rows or by columns. -/
def Draw.quadKey (d : Draw) (q : Quad) : Nat :=
  let (x0, y0, _, _) := d.view
  let tx := (q.x + 64 - x0) / 64
  let ty := (q.y + 64 - y0) / 64
  let key (a b c e : Nat) : Nat := ((a * 65536 + b) * 65536 + c) * 65536 + e
  if d.byColumns then key tx ty q.x q.y else key ty tx q.y q.x

/-- The quads with covered pixels of a triangle, in order (R430). -/
def Draw.quadsOf (d : Draw) (t : Tri) (free : Nat) (planes : List W32) : List Quad :=
  let (x0, y0, w, h) := d.view
  let xs := t.span 0 x0 w
  let ys := t.span 1 y0 h
  let inside (x y : Nat) : Bool := xs.1 ≤ x && x < xs.2 && ys.1 ≤ y && y < ys.2 && t.covers free x y
  let quads := (List.range (ys.2 / 2 + 1 - ys.1 / 2)).flatMap fun j => (List.range (xs.2 / 2 + 1 - xs.1 / 2)).filterMap fun i =>
    let x := 2 * (xs.1 / 2 + i)
    let y := 2 * (ys.1 / 2 + j)
    let cover : BitVec 4 := BitVec.ofNat 4 ((List.range 4).foldl (fun m k => if inside (x + k % 2) (y + k / 2) then m + 2 ^ k else m) 0)
    if cover = 0 then none else some (Quad.mk x y cover t.order planes)
  quads.mergeSort fun a b => d.quadKey a ≤ d.quadKey b

/-- A primitive's plane set (R429): the planes of 16 attributes, of 1/w and of z. C of an attribute is the provoking vertex's value
(R264): which of the three it is, and every other coefficient as a function of the vertices, the manual does not say; nor what a
vertex with fewer attributes holds (log entry 28). -/
def Tri.planes (t : Tri) (free : Nat) : List W32 :=
  let attr (i v : Nat) : W32 := ((t.attrs.getD v [])[i]?).getD (Config.freeW32 free (66800 + 3 * i + v))
  let slopes (vals : List W32) : List W32 := [Config.plane 0 t.pts vals, Config.plane 1 t.pts vals]
  let clip (k : Nat) : List W32 := t.clips.map fun c => wordAt c k
  ((List.range 16).flatMap fun i =>
    let vals := (List.range 3).map (attr i)
    slopes vals ++ [vals.getD (Config.freeIndex 0 66870 3) 0]) ++
    slopes (clip 3) ++ [Config.plane 2 t.pts (clip 3)] ++ slopes (clip 2) ++ [Config.plane 2 t.pts (clip 2)]

/-- A plane set written to the next place of the render area (R429): 256 bytes, of which the manual says only what they hold. -/
def State.writePlanes (s : State) (d : Draw) (planes : List W32) : State :=
  let b := (s.part d.part).render
  if b.rsize < 64 then s
  else
    let s' := s.mapRender d.part fun b => { b with areaNext := b.areaNext + 1 }
    match s.guestPa d.part true (b.rarea.toNat + 256 * (b.areaNext % (b.rsize * 256))) with
    | some pa =>
      let rest := (List.range 10).map fun k => Config.freeW32 s.free (66860 + k)
      s'.homeWrite d.ctx (s.domain (some d.part)) 0 pa (wordsBytes (planes ++ rest))
    | none => s'

/-- How many more quads the pixel-quad queue of a draw's GT-die takes, of `n` (R42, R431). -/
def State.quadRoom (s : State) (d : Draw) (n : Nat) : Nat :=
  let held := ((s.display.draws.filter fun x => s.drawDie x = s.drawDie d).map fun x => x.quads.length).sum
  if s.queueRoom d.part (1025 - n) 66404 held then n else 1024 - held

/-- The quads that a rasteriser has covered enter the queue, in order, while it has room. -/
def State.sendQuads (s : State) (key : Nat) : State :=
  match s.draw? key with
  | some d =>
    let n := s.quadRoom d d.raster.length
    s.mapDraw key fun d => { d with raster := d.raster.drop n, quads := d.quads ++ d.raster.take n }
  | none => s

/-- The rasteriser's work on the next triangle of a draw. -/
def State.rasteriseDraw (s : State) (d : Draw) : State :=
  match d.tris with
  | [] => s
  | t :: rest =>
    let planes := t.planes s.free
    let qs := d.quadsOf t s.free planes
    let s' := (s.mapDraw d.key fun d => { d with tris := rest, raster := qs }).sendQuads d.key
    if qs.isEmpty then s' else s'.writePlanes d planes

/-- RASTERISE (R429, R430), by the standard microcode. -/
def execRasterise (n : Nat) (s : State) : Host.Outcome State Fault Refusal :=
  .next (match s.display.draws[n]? with
    | some d =>
      if !s.drawRuns d then s
      else if !d.raster.isEmpty then s.sendQuads d.key
      else if (s.ownMicrocode d.ctx 1).isNone then s.rasteriseDraw d else s
    | none => s)

/-- PIXEL_QUAD_START (R430). -/
def execPixelQuadStart (n : Nat) (s : State) : Host.Outcome State Fault Refusal :=
  .next (match s.display.draws[n]? with
    | some d =>
      if !s.starts d.part then s else
        match s.pixelReady d with
        | some (rank, s') => if s.noneBetter d.part 4 rank then s'.tookTurn d.part 4 else s
        | none => s
    | none => s)

/-! ### Items of own microcode -/

/-- What a geometry item of own microcode yields besides the records it emits is not said: a triangle that is a function of its
registers, or none (log entry 50). -/
def State.ownTriangle (s : State) (d : Draw) (ws : List W32) : State :=
  let f := Config.emitted 3 ws
  let t : Tri := ⟨[[f 0, f 1], [f 2, f 3], [f 4, f 5]], [], [], (s.part d.part).render.prims⟩
  s.addTri { d with verts := d.verts.tail } (if (f 6).getLsbD 0 then some t else none)

/-- A record that an item of a draw emitted (R421, R431): a vertex record or a pixel-quad record, whose contents are a function of the
item's registers. A texel record finds no sample that waits for it. -/
def State.emitted (s : State) (key : Nat) (kind : Nat) (ws : List W32) : State :=
  let f := Config.emitted kind ws
  match kind with
  | 0 => s.mapDraw key fun d => { d with extra := d.extra ++ [f 0] }
  | 1 =>
    s.mapDraw key fun d =>
      let q : Quad :=
        { x := (f 0).toNat % 65536 / 2 * 2, y := (f 1).toNat % 65536 / 2 * 2, cover := (f 2).setWidth 4
          order := (s.part d.part).render.prims, planes := (List.range 54).map fun k => f (3 + k) }
      { d with raster := d.raster ++ [q] }
  | _ => s

/-- An item of own microcode has ended (R421): what it took is done with, and its records are sent in the order they were emitted. -/
def State.itemDone (s : State) (d : Draw) (kind : Nat) (i : Item) : State :=
  let s := if kind = 0 then s.ownTriangle d i.ws else s.mapDraw d.key fun d => { d with tris := d.tris.tail }
  (i.emits.foldl (fun s x => s.emitted d.key x.1 x.2) s).sendQuads d.key

/-- Whether the vertex queue of a draw's GT-die takes another record (R431). -/
def State.vertexRoom (s : State) (d : Draw) : Bool :=
  s.queueRoom d.part 256 66405 (((s.display.draws.filter fun x => s.drawDie x = s.drawDie d).map fun x => x.extra.length).sum)

/-- One item of a context's own microcode for a draw. -/
def State.runItem (s : State) (d : Draw) (kind : Nat) (image : List W64) : State :=
  match (Item.start 32).run s (s.ringEng d.ctx) image 1048576 with
  | (s, .done i) => s.itemDone d kind i
  | (s, .fault f) => s.drawFault d.part d.ctx (fun s w => s.mapDraw d.key fun d => { d with wait := w }) f
  | (s, .limit) => s.mapDraw d.key fun d => { d with overrun := true }

/-- SEQUENCER_ITEM (R420): the next item of a draw, of a geometry sequencer or of a rasteriser. -/
def execSequencerItem (n : Nat) (s : State) : Host.Outcome State Fault Refusal :=
  .next (match s.display.draws[n]? with
    | some d =>
      if !s.drawRuns d then s
      else if !d.verts.isEmpty then
        match s.ownMicrocode d.ctx 0 with
        | some image => if s.vertexRoom d then s.runItem d 0 image else s
        | none => s.assembleDraw d
      else if !d.raster.isEmpty then s.sendQuads d.key
      else if !d.tris.isEmpty then
        match s.ownMicrocode d.ctx 1 with
        | some image => s.runItem d 1 image
        | none => s.rasteriseDraw d
      else s
    | none => s)

/-- MICROOP_LIMIT_KILL (R422, R492): of a ray, or, beyond the rays, of a draw's item. -/
def execMicroopLimitKill (n : Nat) (s : State) : Host.Outcome State Fault Refusal :=
  .next (match s.rays[n]? with
    | some r => if r.state = .flight && r.wait.isNone && s.overLimit r then s.killRay r (Config.freeIndex s.free 66920 64) else s
    | none =>
      match s.display.draws[n - s.rays.length]? with
      | some d =>
        if !d.overrun then s
        else
          let s := s.notice d.ctx ((s.ringEng d.ctx).record 0x3C 0)
          s.mapDraw d.key fun d =>
            if d.verts.isEmpty then { d with overrun := false, tris := d.tris.tail } else { d with overrun := false, verts := d.verts.tail }
      | none => s)

/-! ### Loading microcode -/

/-- Whether a record of a context for a kind of sequencer is queued, running or saved (R423). -/
def State.microBusy (s : State) (ctx kind : Nat) : Bool :=
  match kind with
  | 2 => s.rays.any fun r => r.ctx = ctx && !r.isOver
  | 3 => s.results.any (fun x => x.tex = some ctx) || s.waves.any fun w => (s.launchOf w.launch).ctx = ctx && w.slots.any fun x =>
      match x.live?.map Thread.wait with
      | some (.replay o sq) => (s.owner o).open_.any fun r => r.sq = sq && (r.agent = 3 || r.agent = 6)
      | _ => false
  | _ => s.display.draws.any fun d => d.ctx = ctx

/-- The 64-bit words of a byte string. -/
def bytesWide (bs : List Byte) : List W64 := (List.range (bs.length / 8)).map fun k => BitVec.ofNat 64 (bytesNat ((bs.drop (8 * k)).take 8))

/-- Whether 32 KiB of a partition's shadow share is free for an image of a kind (R423); one that it replaces makes room. -/
def State.microRoom (s : State) (c : Context) (kind : Nat) : Bool :=
  let old := if c.mcode.any (·.1 = kind) then 32768 else 0
  s.shadowUsed c.part + 32768 ≤ (s.part c.part).layout.shadow * 1048576 + old

/-- MCODE_LOAD on a page, in the order of R423. -/
def mcodeLoadBody (page : Nat) (ws : List W32) (s : State) : Answer :=
  let kind := arg ws 3
  let n := arg ws 6
  match s.namedCtx page (arg ws 2) with
  | .error st => s.turnedAway st
  | .ok c =>
    if (s.part c.part).state.inTransition then s.turnedAway .busy
    else if 3 < kind ∨ n = 0 ∨ 4096 < n then s.turnedAway .badArg
    else
      match s.mpRead page (some c.part) (argWide ws 4) (8 * n) with
      | none => s.turnedAway .badArg
      | some bs =>
        let image := bytesWide bs
        if crc32c bs ≠ wordAt ws 7 then s.turnedAway .crc
        else if !image.all (microWordOk kind n) then s.turnedAway .badArg
        else if s.microBusy c.id kind then s.turnedAway .badState
        else if !s.microRoom c kind then s.turnedAway .noResource
        else (s.mapCtx c.id fun c => { c with mcode := (kind, image) :: c.mcode.filter fun m => m.1 ≠ kind }).answered []

/-- MCODE_LOAD (R423, R442). -/
def execMcodeLoad (page : Nat) (s : State) : Host.Outcome State Fault Refusal := .next (s.serve 0x09 page (mcodeLoadBody page))

end Sys2Proof.Machine
end

