-- ==== Sys2Proof/Machine/Display.lean ====
section
/-! DEFINITION. The display path (R432 to R442, R485 to R487): pipes and their modes, layers, signatures and their comparison,
Foxglove's tell-tales, the warp stage and the camera path. -/
namespace Sys2Proof.Machine

/-! ### Modes -/

/-- The period of a mode's frames in counts of 10 ns (R432): HTOT × VTOT ÷ PCLK. -/
def framePeriod (m : List W32) : Nat := bitsAt m 32 16 * bitsAt m 48 16 * 100000 / (wordAt m 4).toNat

/-- The time of `n` lines of a mode. -/
def lineTime (m : List W32) (n : Nat) : Nat := n * bitsAt m 32 16 * 100000 / (wordAt m 4).toNat

/-- FLATCH in µs. -/
def flatch (m : List W32) : Nat := if bitsAt m 168 16 = 0 then 500 else bitsAt m 168 16

/-- WARP. -/
def warps (m : List W32) : Bool := bitsAt m 167 1 = 1

/-- Whether a link can carry a mode (R432). -/
def linkCarries (m : List W32) : Bool :=
  let lanes := 2 ^ bitsAt m 161 2
  let rate := [27, 54, 81, 100, 135, 200].getD (bitsAt m 163 3) 0
  let need := (wordAt m 4).toNat * (if bitsAt m 166 1 = 1 then 30 else 24)
  if bitsAt m 163 3 ≤ 2 then need ≤ lanes * rate * 80000 else need * 132 ≤ lanes * rate * 100000 * 128

/-- The ranges of a mode descriptor (R432). -/
def modeOk (m : List W32) : Bool :=
  let f (k : Nat) : Nat := bitsAt m (16 * k) 16
  64 ≤ f 0 && f 0 ≤ 7680 && 64 ≤ f 1 && f 1 ≤ 7680 && f 0 < f 2 && f 1 < f 3 && f 5 ≠ 0 && f 7 ≠ 0 && f 0 ≤ f 4 && f 4 + f 5 ≤ f 2 &&
    f 1 ≤ f 6 && f 6 + f 7 ≤ f 3 && wordAt m 4 ≠ 0 && bitsAt m 161 2 ≠ 3 && bitsAt m 163 3 ≤ 5 && !(bitsAt m 160 1 = 1 && 2 < bitsAt m 163 3) &&
    linkCarries m && flatch m * (wordAt m 4).toNat < f 2 * f 3 * 1000

/-- A pipe with a mode, or without output (R349). -/
def Pipe.configure (p : Pipe) (now : Nat) (m : Option (List W32)) : Pipe :=
  match m with
  | some m => { p with mode := some m, output := true, frameAt := now, band := 0, bandAt := now + framePeriod m }
  | none => { p with mode := none, output := false, foxg := 0, fox := 0 }

/-- After the critical temperature every layer of LEVEL 2 or 3 of a pipe is on Foxglove, a new one too (R473). -/
def State.criticalFox (s : State) (k : Nat) : State := if s.thermal.critical then s.mapPipe k Pipe.toFoxglove else s

/-- DISPLAY_CFG (R432, R349): link training may be late. -/
def displayCfgBody (ws : List W32) (s : State) : Answer :=
  let k := arg ws 2
  if 5 < k then s.turnedAway .badArg
  else
    match s.mpRead 0 (s.pageHome 0) (argWide ws 3) 64 with
    | none => s.turnedAway .badArg
    | some bs =>
      let m := bytesWords bs
      let other := (List.range 6).any fun j => j ≠ k && (s.pipe j).mode.any warps
      if bitsAt m 184 328 ≠ 0 then s.turnedAway .malformed
      else if !modeOk m ∨ (warps m ∧ other) then s.turnedAway .badArg
      else if s.isLate then (s.mapPipe k fun p => p.configure s.now none, some (.timeout, []))
      else ((s.mapPipe k fun p => p.configure s.now (some m)).criticalFox k).answered []

/-- DISPLAY_CFG (R432). -/
def execDisplayCfg (page : Nat) (s : State) : Host.Outcome State Fault Refusal := .next (s.serve 0x16 page displayCfgBody)

/-! ### Layers -/

/-- A layer that is not shown. -/
def Layer.blank (n : Nat) : Layer := ⟨n, [], none, none, [], none, none, false, false, none, 0, false⟩

/-- A descriptor taken into effect: a camera's age counts from now, and a layer that is not of LEVEL 2 or 3 leaves Foxglove at the next
first active line, since it is shown as rendered (R435). -/
def Layer.apply (l : Layer) (now : Nat) (ws : List W32) : Layer :=
  { l with words := ws, next := none, frame := none, frameAt := now, stale := false, back := l.back || !(bitsAt ws 0 1 = 1 && 2 ≤ bitsAt ws 1 2) }

/-- A layer as the current frame is scanned out: under the descriptor before one that took effect at the compare point (R442). -/
def Layer.inFrame (l : Layer) : Layer :=
  match l.shown with
  | some (ws, f) => { l with words := ws, frame := f }
  | none => l

/-- Whether a descriptor's fields are such as R434 allows. -/
def State.layerOk (s : State) (l : Layer) : Bool :=
  let groups :=
    l.group 0 ≠ l.group 1 &&
      (if l.hpart < 8 then (s.part l.hpart).holds (l.group 0) && (s.part l.hpart).holds (l.group 1)
       else (List.range 8).any fun p => s.rendersFor l p)
  l.fmt ≤ 1 && (l.hpart < 8 || l.hpart = 15) && (l.level < 2 || l.camera || groups) && !(l.camera && l.level = 3)

/-- A layer's new descriptor: in effect at the next compare point of a pipe that has a mode (R442). -/
def Pipe.setLayer (p : Pipe) (now n : Nat) (ws : List W32) : Pipe :=
  let p := if (p.layer? n).isSome then p else { p with layers := p.layers ++ [.blank n] }
  { p with layers := updateWhere (·.n = n) (fun l => if p.mode.isSome then { l with next := some ws } else l.apply now ws) p.layers }

/-- LAYER_CFG. -/
def layerCfgBody (ws : List W32) (s : State) : Answer :=
  if 5 < arg ws 2 ∨ 7 < arg ws 3 then s.turnedAway .badArg
  else
    match s.mpRead 0 (s.pageHome 0) (argWide ws 4) 64 with
    | none => s.turnedAway .badArg
    | some bs =>
      let x := bytesWords bs
      if bitsAt x 23 9 ≠ 0 ∨ bitsAt x 480 32 ≠ 0 then s.turnedAway .malformed
      else if !s.layerOk { Layer.blank 0 with words := x } then s.turnedAway .badArg
      else ((s.mapPipe (arg ws 2) fun p => p.setLayer s.now (arg ws 3) x).criticalFox (arg ws 2)).answered []

/-- LAYER_CFG (R434, R442). -/
def execLayerCfg (page : Nat) (s : State) : Host.Outcome State Fault Refusal := .next (s.serve 0x17 page layerCfgBody)

/-! ### Tell-tales and meshes -/

/-- The bytes of Foxglove's store that other bitmaps than a layer's take (R438). -/
def Display.tellUsed (d : Display) (pipe layer : Nat) : Nat :=
  (((d.tell ++ d.tellNext).filter fun t => !(t.pipe = pipe && t.layer = layer)).map (·.bytes)).sum

/-- A bitmap stored: drawn from the next frame of a pipe that has a mode (R442). -/
def State.storeTell (s : State) (t : Telltale) : State :=
  let others (l : List Telltale) : List Telltale := l.filter fun x => !(x.pipe = t.pipe && x.layer = t.layer)
  let d := s.display
  if (s.pipe t.pipe).mode.isSome then { s with display := { d with tellNext := others d.tellNext ++ [t] } }
  else { s with display := { d with tell := others d.tell ++ [t] } }

/-- TELLTALE_LOAD, in the order of R438. -/
def telltaleLoadBody (ws : List W32) (s : State) : Answer :=
  let n := arg ws 6
  if 5 < arg ws 2 ∨ 7 < arg ws 3 ∨ 4194304 < n then s.turnedAway .badArg
  else
    match s.mpRead 0 (s.pageHome 0) (argWide ws 4) n with
    | none => s.turnedAway .badArg
    | some bs =>
      let x := bytesWords bs
      let w := bitsAt x 0 16
      let h := bitsAt x 16 16
      if crc32c bs ≠ wordAt ws 7 then s.turnedAway .crc
      else if bitsAt x 64 64 ≠ 0 then s.turnedAway .malformed
      else if w = 0 ∨ h = 0 ∨ n ≠ 16 + 4 * w * h then s.turnedAway .badArg
      else if 16777216 < s.display.tellUsed (arg ws 2) (arg ws 3) + n then s.turnedAway .noResource
      else (s.storeTell ⟨arg ws 2, arg ws 3, x, n⟩).answered []

/-- TELLTALE_LOAD (R438). -/
def execTelltaleLoad (page : Nat) (s : State) : Host.Outcome State Fault Refusal := .next (s.serve 0x18 page telltaleLoadBody)

/-- The bytes of a mesh image (R439). -/
def meshBytes (n : Nat) : Nat := 16 + n * 33 * 17 * 8

/-- WARP_CFG: the number of meshes gives the image's length (R439). -/
def warpCfgBody (ws : List W32) (s : State) : Answer :=
  match s.mpRead 0 (s.pageHome 0) (argWide ws 2) 16 with
  | none => s.turnedAway .badArg
  | some hd =>
    let n := (wordAt (bytesWords hd) 0).toNat
    if n = 0 ∨ 4 < n then s.turnedAway .badArg
    else
      match s.mpRead 0 (s.pageHome 0) (argWide ws 2) (meshBytes n) with
      | none => s.turnedAway .badArg
      | some bs =>
        let x := bytesWords bs
        if crc32c bs ≠ wordAt ws 4 then s.turnedAway .crc
        else if bitsAt x 32 96 ≠ 0 then s.turnedAway .malformed
        else
          let live := s.display.pipes.any fun p => p.mode.any warps
          let d := s.display
          ({ s with display := if live then { d with meshNext := some x } else { d with mesh := some x, meshNext := none } } : State).answered []

/-- WARP_CFG (R439). -/
def execWarpCfg (page : Nat) (s : State) : Host.Outcome State Fault Refusal := .next (s.serve 0x19 page warpCfgBody)

/-! ### Signatures -/

/-- The signature of a tile's words (R436). -/
def tileSignature (ws : List W32) : W64 :=
  let ab := ws.foldl (fun (x : Nat × Nat) w =>
    let a := (x.1 + w.toNat) % 4294967295
    (a, (x.2 + a) % 4294967295)) (0, 0)
  BitVec.ofNat 64 (ab.2 * 4294967296 + ab.1)

/-- Bytes that the display path reads for a layer at a device physical address, homed as the layer says (R300, R434); beyond the
usable memory they are free (log entry 6). -/
def State.displayRead (s : State) (l : Layer) (pa n : Nat) : List Byte :=
  s.domainRead (72057594037927936 + pa) (s.domain l.home) 0 (pa % 281474976710656) n

/-- The words of a tile of a layer's plane (R436): row by row, inside the layer. -/
def State.tileWords (s : State) (l : Layer) (base tx ty : Nat) : List W32 :=
  (List.range (min 64 (l.h - 64 * ty))).flatMap fun j =>
    bytesWords (s.displayRead l (base + (64 * ty + j) * l.pitch + 256 * tx) (4 * min 64 (l.w - 64 * tx)))

/-- The tiles of a layer across and down. -/
def Layer.tiles (l : Layer) : Nat × Nat := ((l.w + 63) / 64, (l.h + 63) / 64)

/-- The signatures of a plane's tiles, row by row. -/
def State.planeSignatures (s : State) (l : Layer) (base : Nat) : List W64 :=
  (List.range l.tiles.2).flatMap fun ty => (List.range l.tiles.1).map fun tx => tileSignature (s.tileWords l base tx ty)

/-- A signature array as it stands in memory. -/
def State.signatureArray (s : State) (l : Layer) (rend : Nat) : List W64 :=
  bytesWide (s.displayRead l (l.sig rend) (8 * (l.tiles.1 * l.tiles.2)))

/-- Whether the lines of a run of bytes serve the display path (R465, R466, R479). -/
def State.displayServed (s : State) (rd : Bool) (pa n : Nat) : Bool := s.mpServed rd [(pa % 281474976710656, n)]

/-- SIGNATURE_COMPUTE (R435, R436): after a rendering's END draw has completed; while a line of its plane or array does not serve
the unit, it is not signed (log entry 53). -/
def execSignatureCompute (pipe layer rend : Nat) (s : State) : Host.Outcome State Fault Refusal :=
  .next (match (s.pipe pipe).layer? layer with
    | some l =>
      match l.rends.find? fun r => r.rend = rend && r.ended && !r.signed with
      | some r =>
        let bytes := (s.planeSignatures l (l.plane rend)).flatMap fun x => natBytes 8 x.toNat
        if l.safety && s.displayServed true (l.plane rend) (l.h * l.pitch) && s.displayServed false (l.sig rend) bytes.length then
          (s.homeWrite noTag (s.domain l.home) 0 (l.sig rend % 281474976710656) bytes).mapLayer pipe layer fun l =>
            l.mapRend r.frame rend fun r => { r with signed := true }
        else s
      | none => s
    | none => s)

/-! ### Compare points -/

/-- A layer's bit in FOXG and MISMATCH. -/
def layerBit (n : Nat) : Byte := BitVec.ofNat 8 (2 ^ n)

/-- Whether Foxglove draws a layer. -/
def Pipe.onFoxglove (p : Pipe) (n : Nat) : Bool := p.foxg &&& layerBit n ≠ 0

/-- A layer goes to Foxglove (R437), which draws it from the first line of the next frame; `mark` sets its MISMATCH bit. -/
def State.takeOver (s : State) (pipe n : Nat) (mark : Bool) : State :=
  (s.mapPipe pipe fun p => { p with foxg := p.foxg ||| layerBit n, mismatch := if mark then p.mismatch ||| layerBit n else p.mismatch }).mapLayer
    pipe n fun l => { l with back := false }

/-- SYND of a record about a layer (R471). -/
def layerSynd (pipe n : Nat) (late scan : Bool) (tile : Nat) : W32 :=
  BitVec.ofNat 32 (pipe + 8 * n + 64 * late.toNat + 128 * scan.toNat + 65536 * (tile % 65536))

/-- The first entry in which two arrays differ. -/
def firstDiff (a b : List W64) : Option Nat := (List.range (max a.length b.length)).find? fun k => a.getD k 0 ≠ b.getD k 0

/-- A comparison that fails (R437, R469): with a missed deadline there is no differing tile, and its fields are free (log entry
54). -/
def State.failLayer (s : State) (pipe : Nat) (l : Layer) (late : Bool) (tile : Nat) (a b : W64) : State :=
  (s.takeOver pipe l.n true).safetyMismatch (l.group 0) (l.group 1) { kind := 0x44, synd := layerSynd pipe l.n late false tile, va := a, info := b }

/-- One layer at the compare point of frame `n` (R437, R486). -/
def State.compareLayer (s : State) (pipe : Nat) (n : W32) (k : Nat) : State :=
  match (s.pipe pipe).layer? k with
  | none => s
  | some l =>
    let held := s.ringlet.gstate.getD (l.group 0) 0 = 1 || s.ringlet.gstate.getD (l.group 1) 0 = 1
    let fox := (s.pipe pipe).onFoxglove k
    if !l.safety || (fox && held) then s
    else if !((l.rend n 0).complete && (l.rend n 1).complete) then
      let f := Config.free s.free
      s.failLayer pipe l true (f (66930 + 4 * k)).toNat (f (66931 + 4 * k)) (f (66932 + 4 * k))
    else
      let a := s.signatureArray l 0
      let b := s.signatureArray l 1
      match firstDiff a b with
      | some t => s.failLayer pipe l false t (a.getD t 0) (b.getD t 0)
      | none => s.mapLayer pipe k fun l => { l with agreed := some n, back := l.back || (fox && !l.scanBad) }

/-- The descriptors that wait for the compare point take effect; the current frame ends under those before them (R442). -/
def Pipe.applyNext (p : Pipe) (now : Nat) : Pipe :=
  { p with layers := p.layers.map fun l => match l.next with
      | some ws => { (l.apply now ws) with shown := some (l.shown.getD (l.words, l.frame)) }
      | none => l }

/-- What is left of a layer's renderings after the compare point of frame `n`: those of later frames, and those that ended and are
still to be signed (R435). -/
def Layer.dropRends (l : Layer) (n : W32) : Layer :=
  { l with rends := l.rends.filter fun r => 2147483648 ≤ (n - r.frame).toNat || (r.ended && !r.signed) }

/-- The number of the next frame. -/
def Pipe.nextFrame (p : Pipe) : W32 := p.fcount + 1

/-- COMPARE_POINT (R437, R442): FLATCH before the first active line of the next frame. -/
def execComparePoint (pipe : Nat) (s : State) : Host.Outcome State Fault Refusal :=
  .next (
    let p := s.pipe pipe
    match p.mode with
    | none => s
    | some m =>
      if p.compared = some p.nextFrame || s.now + flatch m * 100 < p.frameAt + framePeriod m then s
      else
        let n := p.nextFrame
        let s := (s.mapPipe pipe fun p => { p.applyNext s.now with compared := some n }).criticalFox pipe
        let s := (List.range 8).foldl (fun s k => s.compareLayer pipe n k) (s.passWaiting pipe)
        s.mapPipe pipe fun p => { p with layers := p.layers.map fun l => l.dropRends n })

/-- The bits of the layers that leave Foxglove at a first active line (R437, R486): none of LEVEL 2 or 3 after the critical temperature
(R473). -/
def Pipe.backs (p : Pipe) (critical : Bool) : Byte :=
  p.layers.foldl (fun (b : Byte) l => if l.back && !(critical && l.en && 2 ≤ l.level) then b ||| layerBit l.n else b) 0

/-- A pipe at the first active line of its next frame (R433, R437, R440, R442, R486). -/
def Pipe.nextStarts (p : Pipe) (m : List W32) (critical : Bool) : Pipe :=
  { p with
    fcount := p.nextFrame, frameAt := p.frameAt + framePeriod m
    foxg := p.foxg &&& ~~~p.backs critical, fox := p.foxg &&& ~~~p.backs critical
    recs := p.recsNext, recsNext := [], layers := p.layers.map fun l => { l with back := false, shown := none } }

/-- FRAME_START (R433, R438, R439, R486): the first active line of the next frame. -/
def execFrameStart (pipe : Nat) (s : State) : Host.Outcome State Fault Refusal :=
  .next (
    let p := s.pipe pipe
    match p.mode with
    | none => s
    | some m =>
      if p.compared ≠ some p.nextFrame || s.now < p.frameAt + framePeriod m then s
      else
        let s := s.mapPipe pipe fun p => p.nextStarts m s.thermal.critical
        let d := s.display
        let mine := d.tellNext.filter fun t => t.pipe = pipe
        let kept := d.tell.filter fun t => !mine.any fun x => x.pipe = t.pipe && x.layer = t.layer
        let d := { d with tell := kept ++ mine, tellNext := d.tellNext.filter fun t => t.pipe ≠ pipe }
        { s with display := if warps m && d.meshNext.isSome then { d with mesh := d.meshNext, meshNext := none } else d })

/-- SCANOUT_SIGNATURE_CHECK (R437): a LEVEL 3 layer's plane signed again as a frame whose renderings agreed is scanned out. A
record is written as the layer goes to Foxglove (log entry 55). -/
def execScanoutSignatureCheck (pipe layer : Nat) (s : State) : Host.Outcome State Fault Refusal :=
  .next (
    let p := s.pipe pipe
    match (p.layer? layer).map Layer.inFrame with
    | some l =>
      if !(l.safety && l.level = 3 && l.agreed = some p.fcount && l.scanned ≠ some p.fcount) then s
      else
        let a := s.signatureArray l 0
        let b := s.planeSignatures l (l.plane 0)
        let s := s.mapLayer pipe layer fun l => { l with scanned := some p.fcount }
        match firstDiff a b with
        | none => if l.scanBad then s.mapLayer pipe layer fun l => { l with scanBad := false, back := true } else s
        | some t =>
          if l.scanBad then s
          else
            ((s.takeOver pipe layer true).mapLayer pipe layer fun l => { l with scanBad := true }).postHardware
              { kind := 0x44, agent := 6, synd := layerSynd pipe layer false true t, va := a.getD t 0, info := b.getD t 0 }
    | none => s)

/-! ### The warp stage -/

/-- The words that a latch takes from a buffer (R440): during a write of the selected buffer each is the old or the new one. -/
def Pipe.latchWords (p : Pipe) (free now : Nat) : List W32 :=
  let new := if p.lsel then p.latch1 else p.latch0
  match p.past with
  | some (t, old) => if t = now then new.mapIdx fun k w => chooseFrom free (66970 + k) w [w, wordAt old k] else new
  | none => new

/-- The record of the next band to latch kept for that band (R440): of the current frame, or of the next one. -/
def Pipe.keepRecord (p : Pipe) (ws : List W32) : Pipe :=
  if p.bandAt ≤ p.frameAt then { p with recs := (p.band, ws) :: p.recs } else { p with recsNext := (p.band, ws) :: p.recsNext }

/-- The record with which a band of the current frame is warped (R440); of a band that is not latched yet, the newest one. -/
def Pipe.bandRecord (p : Pipe) (band : Nat) : List W32 := ((p.recs.find? fun x => x.1 = band).map (·.2)).getD p.latched

/-- BAND_LATCH (R440, R442): 400 µs before the first line of the next band of 64 lines. -/
def execBandLatch (pipe : Nat) (s : State) : Host.Outcome State Fault Refusal :=
  .next (
    let p := s.pipe pipe
    match p.mode with
    | none => s
    | some m =>
      if !warps m || s.now + 40000 < p.bandAt + lineTime m (64 * p.band) then s
      else
        let ws := p.latchWords s.free s.now
        let last := (bitsAt m 16 16 + 63) / 64 ≤ p.band + 1
        s.mapPipe pipe fun p => { p.keepRecord ws with
          latched := ws, lgen := wordAt ws 13, lband := BitVec.ofNat 16 p.band
          band := if last then 0 else p.band + 1, bandAt := if last then p.bandAt + framePeriod m else p.bandAt })

/-- LSEL_WRITE (R433, R440): the next latch takes the selected buffer. -/
def execLselWrite (pipe : Nat) (value : W32) (s : State) : Host.Outcome State Fault Refusal :=
  .next (s.mapPipe pipe fun p => { p with lsel := value.getLsbD 0, past := if p.lsel = value.getLsbD 0 then p.past else none })

/-! ### Cameras -/

/-- A pixel's channel in a camera frame, its place clamped to the frame (R257, R441). Word 0 of a frame gives its width and
height. -/
def framePixel (px : List W32) (x y : Int) (c : Nat) : W32 :=
  let w := bitsAt px 0 16
  let h := bitsAt px 16 16
  let cx := (max 0 (min x (w - 1))).toNat
  let cy := (max 0 (min y (h - 1))).toNat
  elemF32 7 ((wordAt px (1 + cy * w + cx)).toNat / 2 ^ (8 * c) % 256)

/-- A pixel of a camera layer (R257, R441): the CROP rectangle scaled to W × H. How a frame's 8-bit components become the 10-bit
ones of FMT 1 is not said: such a word is free (log entry 56). -/
def Layer.cameraPixel (l : Layer) (free : Nat) (px : List W32) (i j : Nat) : W32 :=
  let crop (k : Nat) : Nat := bitsAt l.words (416 + 16 * k) 16
  let at_ (k : Nat) (n m : Nat) : Option (Int × FVal) := floorF32 (samplePoint (intRne (crop k)) (intRne (crop k + crop (k + 2))) n m)
  match at_ 0 j l.w, at_ 1 i l.h with
  | some (x, fx), some (y, fy) =>
    let chan (c : Nat) : Nat :=
      let v (dx dy : Int) : W32 := framePixel px (x + dx) (y + dy) c
      windowCode 7 (fromF32 (bilinear fx fy (v 0 0) (v 1 0) (v 0 1) (v 1 1)))
    if l.fmt = 0 then BitVec.ofNat 32 (((chan 3 * 256 + chan 2) * 256 + chan 1) * 256 + chan 0)
    else Config.freeW32 free (288230376151711744 + 65536 * i + j)
  | _, _ => Config.freeW32 free (288230376151711744 + 65536 * i + j)

/-- Where a frame of a camera layer's ring lies (R441). -/
def Layer.frameBase (l : Layer) (slot : Nat) : Nat := l.plane 0 + slot * (l.h * l.pitch)

/-- A frame written to a camera layer's ring of three (R441). -/
def State.cameraWrite (s : State) (pipe : Nat) (l : Layer) (px : List W32) : State :=
  let slot := match l.frame with
    | some k => (k + 1) % 3
    | none => 0
  let row (s : State) (i : Nat) : State :=
    s.homeWrite noTag (s.domain l.home) 0 ((l.frameBase slot + i * l.pitch) % 281474976710656)
      (wordsBytes ((List.range l.w).map fun j => l.cameraPixel s.free px i j))
  ((List.range l.h).foldl row s).mapLayer pipe l.n fun l =>
    { l with frame := some slot, frameAt := s.now, stale := false, back := l.back || l.stale }

/-- CAMERA_FRAME (R441): a frame of a port goes to every layer that shows the port. -/
def execCameraFrame (port : Nat) (pixels : List W32) (s : State) : Host.Outcome State Fault Refusal :=
  .next ((List.range 6).foldl (fun s k =>
    ((s.pipe k).layers.filter fun l => l.en && l.camera && l.port = port).foldl (fun s l => s.cameraWrite k l pixels) s) s)

/-- CAMERA_FRAME_STALE (R438): a camera layer of LEVEL 2 with no frame for FRESH ms, which Foxglove draws at once. -/
def execCameraFrameStale (pipe layer : Nat) (s : State) : Host.Outcome State Fault Refusal :=
  .next (match (s.pipe pipe).layer? layer with
    | some l =>
      if l.en && l.camera && l.level = 2 && !l.stale && l.frameAt + l.fresh * 100000 ≤ s.now then
        (((s.takeOver pipe layer false).mapPipe pipe fun p => { p with fox := p.fox ||| layerBit layer }).mapLayer pipe layer
          fun l => { l with stale := true }).postHardware
          { kind := 0x50, agent := 6, synd := layerSynd pipe layer false false 0 }
      else s
    | none => s)

/-! ### What a pipe shows -/

/-- A pixel's premultiplied red, green and blue with its alpha, as counts out of a largest count each. -/
structure Texel where
  rgb    : List Nat
  top    : Nat
  a      : Nat
  atop   : Nat
  deriving DecidableEq, Repr

/-- A word of a format as a pixel (R434, R265). -/
def texelOf (fmt : Nat) (w : W32) : Texel :=
  let f (lo n : Nat) : Nat := w.toNat / 2 ^ lo % 2 ^ n
  if fmt = 0 then ⟨[f 16 8, f 8 8, f 0 8], 255, f 24 8, 255⟩ else ⟨[f 0 10, f 10 10, f 20 10], 1023, f 30 2, 3⟩

/-- The layer number under which Foxglove holds a pipe's bitmap of the boot image, which is no layer of LAYER_CFG. -/
def bootLayer : Nat := 8

/-- The tell-tale's pixel at a place of a layer (R438): nothing outside the bitmap. -/
def State.tellPixel (s : State) (pipe layer x y : Nat) : Option Texel := do
  let t ← s.display.tell.find? fun t => t.pipe = pipe && t.layer = layer
  let (w, h, ox, oy) := (bitsAt t.words 0 16, bitsAt t.words 16 16, bitsAt t.words 32 16, bitsAt t.words 48 16)
  if ox ≤ x ∧ x < ox + w ∧ oy ≤ y ∧ y < oy + h then some (texelOf 0 (wordAt t.words (4 + (y - oy) * w + (x - ox)))) else none

/-- A layer's pixel at a place of its pipe (R434, R435, R437, R441, R442). -/
def State.layerPixel (s : State) (pipe : Nat) (layer : Layer) (x y : Nat) : Option Texel :=
  let l := layer.inFrame
  let lx := x - l.x
  let ly := y - l.y
  if !l.en ∨ x < l.x ∨ y < l.y ∨ l.w ≤ lx ∨ l.h ≤ ly then none
  else if (s.pipe pipe).fox &&& layerBit l.n ≠ 0 then s.tellPixel pipe l.n lx ly
  else
    let word (base : Nat) : Texel := texelOf l.fmt (BitVec.ofNat 32 (bytesNat (s.displayRead l (base + ly * l.pitch + 4 * lx) 4)))
    if l.camera then l.frame.map fun k => word (l.frameBase k) else some (word (l.plane 0))

/-- A rational number that is not negative: numerator and denominator. -/
abbrev Ratio := Nat × Nat

/-- src + dst × (1 − α) for one channel, exactly (R434). -/
def composeOne (dst : Ratio) (src : Texel) (c : Nat) : Ratio :=
  (src.rgb.getD c 0 * dst.2 * src.atop + dst.1 * (src.atop - src.a) * src.top, src.top * dst.2 * src.atop)

/-- A ratio rounded to nearest even at a depth of `top` steps, and no more than that. -/
def roundRatio (x : Ratio) (top : Nat) : Nat :=
  let q := x.1 * top / x.2
  let r := x.1 * top % x.2
  min top (if x.2 < 2 * r ∨ (2 * r = x.2 ∧ q % 2 = 1) then q + 1 else q)

/-- The largest count of a pipe's depth (R432 BPC). -/
def depthTop (m : List W32) : Nat := if bitsAt m 166 1 = 1 then 1023 else 255

/-- What lights a pipe of the boot image until LAYER_CFG hands it a layer (R357, R358), at half resolution: the camera-mirror direct
path, whose source and scaling the rules do not place in the mode descriptor, so that its pixels are free (log entry 143), under the
tell-tales of the boot image. -/
def State.bootTexels (s : State) (pipe x y : Nat) : List Texel :=
  if (s.display.tell.any fun t => t.pipe = pipe && t.layer = bootLayer) && (s.pipe pipe).layers.all fun l => l.inFrame.words = [] then
    texelOf 0 (Config.freeW32 s.free (1152921504606846976 + 65536 * (y / 2) + x / 2) ||| 0xFF000000) ::
      (s.tellPixel pipe bootLayer (x / 2) (y / 2)).toList
  else []

/-- The composed image of a pipe at a pixel (R434): its layers from 0 upwards over black, or what lights it before it has one, rounded
once at the pipe's depth. -/
def State.composed (s : State) (pipe : Nat) (m : List W32) (x y : Nat) : List Nat :=
  let texels := s.bootTexels pipe x y ++ (List.range 8).filterMap fun n => ((s.pipe pipe).layer? n).bind fun l => s.layerPixel pipe l x y
  (List.range 3).map fun c => roundRatio (texels.foldl (fun d t => composeOne d t c) (0, 1)) (depthTop m)

/-- A mesh's point (R439). -/
def meshPoint (mesh : List W32) (n i j : Nat) : W32 × W32 :=
  let k := 4 + 2 * (n * 561 + j * 33 + i)
  (wordAt mesh k, wordAt mesh (k + 1))

/-- A value between two with f32 rounding at each step. -/
def lerpRne (f a b : W32) : W32 := addRne (mulRne a (subRne 0x3F800000 f)) (mulRne b f)

/-- The source position of an output pixel (R439, R440): the mesh between its points, then the latched matrix. -/
def warpSource (mesh m rec_ : List W32) (x y : Nat) : W32 × W32 :=
  let n := if (wordAt rec_ 0).toNat % 4 < (wordAt mesh 0).toNat then (wordAt rec_ 0).toNat % 4 else 0
  let cell (v total cells : Nat) : Nat × W32 :=
    let k := min (v * cells / total) (cells - 1)
    (k, subRne (divRne (intRne (v * cells)) (intRne total)) (intRne k))
  let (i, fx) := cell x (bitsAt m 0 16) 32
  let (j, fy) := cell y (bitsAt m 16 16) 16
  let p (di dj : Nat) := meshPoint mesh n (i + di) (j + dj)
  let u := lerpRne fy (lerpRne fx (p 0 0).1 (p 1 0).1) (lerpRne fx (p 0 1).1 (p 1 1).1)
  let v := lerpRne fy (lerpRne fx (p 0 0).2 (p 1 0).2) (lerpRne fx (p 0 1).2 (p 1 1).2)
  let w (k : Nat) : W32 := wordAt rec_ (1 + k)
  (fmaRne (w 0) u (fmaRne (w 1) v (w 2)), fmaRne (w 3) u (fmaRne (w 4) v (w 5)))

/-- One channel of a pixel after the warp stage (R439): the composed image sampled with the weights of R257, zero outside it. -/
def State.warped (s : State) (pipe : Nat) (m mesh : List W32) (x y c : Nat) : Nat :=
  let (u, v) := warpSource mesh m ((s.pipe pipe).bandRecord (y / 64)) x y
  match floorF32 u, floorF32 v with
  | some (xl, fx), some (yl, fy) =>
    let at_ (dx dy : Int) : W32 :=
      let px := xl + dx
      let py := yl + dy
      if 0 ≤ px ∧ px < bitsAt m 0 16 ∧ 0 ≤ py ∧ py < bitsAt m 16 16 then intRne ((s.composed pipe m px.toNat py.toNat).getD c 0) else 0
    match fromF32 (bilinear fx fy (at_ 0 0) (at_ 1 0) (at_ 0 1) (at_ 1 1)) with
    | .fin neg n d e => if neg then 0 else min (depthTop m) (roundToInt 0 false n d e).1
    | _ => 0
  | _, _ => 0

/-- What a pipe sends to its panel at a pixel: red, green and blue counts; nothing without output (R349, R434, R439, R487). -/
def State.glass (s : State) (pipe x y : Nat) : Option (List Nat) :=
  match (s.pipe pipe).mode with
  | none => none
  | some m =>
    match warps m, s.display.mesh with
    | true, some mesh => some ((List.range 3).map fun c => s.warped pipe m mesh x y c)
    | _, _ => some (s.composed pipe m x y)

end Sys2Proof.Machine
end

