-- ==== Sys2Proof/Machine/HostLink.lean ====
section
/-! DEFINITION. The host link and bring-up (R18, R338, R341, R342, R357 to R359): device reset, the supply, the states of
BOOT_STATE, link training, and the host's windows onto memory. -/
namespace Sys2Proof.Machine

/-! ### Reset and supply -/

/-- Device reset (R11, R341, R367): every unit is at its reset value. What the board and the silicon fix stays, the die counters
run on (R3), and the sensors read what they last read. -/
def State.deviceReset (s : State) : State :=
  { State.reset with
    agenda := s.agenda
    free := s.free
    now := s.now
    serial := s.serial
    mp := { State.reset.mp with serviced := s.now }
    boot := { State.reset.boot with
      since := s.now, power := s.boot.power, gib := s.boot.gib, form := s.boot.form, serial := s.boot.serial
      rate := s.boot.rate, width := s.boot.width, phase := s.boot.phase }
    thermal := { State.reset.thermal with temps := s.thermal.temps, power := s.thermal.power, peak := s.thermal.peak }
    schedAt := s.now
    vectors := s.vectors }

/-- A device reset that the host asks for: BOOT_STATE changes, which vector 11 tells (R344). -/
def State.hostReset (s : State) : State := if s.boot.state = 0 then s.deviceReset else s.deviceReset.raise .pf 11

/-- PF_FUNCTION_LEVEL_RESET (R341): every unit of the device, the MP included. -/
def execPfFunctionLevelReset (s : State) : Host.Outcome State Fault Refusal := .next s.hostReset

/-- DEV_RESET (R341): writing 1 resets the device, as a PF function level reset does. -/
def execDevReset (value : W32) (s : State) : Host.Outcome State Fault Refusal :=
  .next (if value.getLsbD 0 then s.hostReset else s)

/-- POWER_LOSS (R18): nothing of the power cycle is left. -/
def execPowerLoss (s : State) : Host.Outcome State Fault Refusal :=
  .next ({ s.deviceReset with
    boot := { s.deviceReset.boot with power := false, rate := State.reset.boot.rate, width := State.reset.boot.width }
    thermal := State.reset.thermal })

/-- POWER_GOOD (R357): bring-up starts with the base die in reset. -/
def execPowerGood (s : State) : Host.Outcome State Fault Refusal :=
  .next (if s.boot.power then s else { s.deviceReset with boot := { s.deviceReset.boot with power := true } })

/-! ### Bring-up -/

/-- Bytes of an image from an offset. -/
def flashBytes (img : List Byte) (off n : Nat) : List Byte := (img.drop off).take n

/-- The words of the boot image header (R358). -/
def bootHeader (flash : List Byte) : List W32 := bytesWords (flashBytes flash 0 64)

/-- Whether a boot image is present and its CRC is right (R358, R359). -/
def bootImageOk (flash : List Byte) : Bool :=
  let h := bootHeader flash
  let n := (wordAt h 1).toNat
  wordAt h 0 = 0x544F4F42 && 64 ≤ n && n ≤ 16777216 && n ≤ flash.length && (wordAt h 3).toNat ≤ 6 &&
    crc32c (flashBytes flash 0 8 ++ [0, 0, 0, 0] ++ flashBytes flash 12 (n - 12)) = wordAt h 2

/-- One pipe lit from its entry of the boot image (R357, R358): its mode, and its tell-tales in Foxglove's store. -/
def State.lightPipe (s : State) (flash : List Byte) (i : Nat) : State :=
  let e := bytesWords (flashBytes flash (64 + 64 * i) 64)
  let pipe := (wordAt e 0).toNat
  let mode := bytesWords (flashBytes flash (wordAt e 2).toNat 64)
  let bytes := (wordAt e 4).toNat
  let t : Telltale := ⟨pipe, bootLayer, bytesWords (flashBytes flash (wordAt e 3).toNat bytes), bytes⟩
  if 6 ≤ pipe || !modeOk mode then s
  else
    let s := s.mapPipe pipe fun p => p.configure s.now (some mode)
    { s with display := { s.display with tell := s.display.tell ++ [t] } }

/-- The published offset of a die (R362): measured to within one count. -/
def State.measuredOffset (s : State) (d : Nat) : W64 :=
  if d = 0 then 0
  else (BitVec.ofNat 64 (Config.freeIndex s.free (66940 + d) 3) - 1) + s.dieTime 0 - s.dieTime d

/-- Whether a rewrite of the offset table is in progress (R362): OFFGEN is odd. -/
def Boot.rewriting (b : Boot) : Bool := b.offgen.getLsbD 0

/-- The end of a rewrite of the offset table (R362): OFFGEN is even again. -/
def State.endRewrite (s : State) : State :=
  if s.boot.rewriting then { s with boot := { s.boot with offgen := s.boot.offgen + 1, offOld := [] } } else s

/-- The entries of the offset table, of which the last is the paired device's (R362). -/
def State.offsets (s : State) : List W64 := (List.range 11).map (s.boot.offs.getD · 0) ++ [s.gulnos.peerOff]

/-- A rewrite of the offset table begins (R362): OFFGEN is odd, and the entries from before are read beside the new ones; an earlier
rewrite has ended. -/
def State.rewriteOffsets (s : State) (offs : List W64) (peer : W64) : State :=
  let s := s.endRewrite
  { s with
    boot := { s.boot with offOld := s.offsets, offs := offs, offgen := s.boot.offgen + 1 }
    gulnos := { s.gulnos with peerOff := peer } }

/-- State 1 (R357, R359, R362): the MP runs, the pipes of the boot image are lit, and the die offsets are published. -/
def State.boot1 (s : State) (flash : List Byte) : State :=
  let ok := bootImageOk flash
  let s := if ok then (List.range (wordAt (bootHeader flash) 3).toNat).foldl (fun s i => s.lightPipe flash i) s else s
  let s := s.rewriteOffsets ((List.range 11).map s.measuredOffset) s.gulnos.peerOff
  { s with boot := { s.boot with err := if ok then s.boot.err else s.boot.err ||| 1 }, mp := { s.mp with serviced := s.now } }

/-- State 2 (R357, R359): the memory whose channels trained. -/
def State.boot2 (s : State) (found : BootFinding) : State :=
  { s with boot := { s.boot with gib := found.gib, err := if found.channelsOk then s.boot.err else s.boot.err ||| 2 } }

/-- A core's initial scan (R357, R359): a failing core is quarantined, with its record in the fatal lane. -/
def State.initialScan (s : State) (failed : List Nat) (core : Nat) : State :=
  if failed.contains core then
    let s := ((s.countFailure core).countQuarantine false).mapHealth core fun h => { h with state := 1, qby := 3 }
    s.postHardware (coreRec 0x42 core false)
  else s.corePasses core

/-- State 3 (R357, R359): the initial Ringlet scan of every core. -/
def State.boot3 (s : State) (found : BootFinding) : State :=
  let s := (List.range 96).foldl (fun s c => s.initialScan found.failedCores c) s
  { s with boot := { s.boot with err := if (found.failedCores.filter (· < 96)).isEmpty then s.boot.err else s.boot.err ||| 4 } }

/-- What a bring-up stage does as it completes. -/
def State.bootStage (s : State) (found : BootFinding) : State :=
  match s.boot.state with
  | 0 => s.boot1 found.flash
  | 1 => s.boot2 found
  | 2 => s.boot3 found
  | _ => s

/-- BOOT_STATE_ADVANCE (R344, R357). -/
def execBootStateAdvance (found : BootFinding) (s : State) : Host.Outcome State Fault Refusal :=
  .next (if !s.boot.power || 4 ≤ s.boot.state then s
    else
      let n := s.boot.state
      let s := s.bootStage found
      ({ s with boot := { s.boot with state := n + 1 } } : State).raise .pf 11)

/-- HOST_LINK_TRAINING (R338): the highest listed rate (twice its GT/s) and width that the other end supports too. -/
def execHostLinkTraining (rate width : Nat) (s : State) : Host.Outcome State Fault Refusal :=
  .next (match [256, 128, 64, 32, 16, 10, 5].find? (· ≤ rate), [8, 4, 2, 1].find? (· ≤ width) with
    | some r, some w => { s with boot := { s.boot with rate := r, width := w } }
    | _, _ => s)

/-! ### BAR 4 -/

/-- The host enables virtual functions, at most 8 (R338). -/
def State.setVfs (s : State) (n : Nat) : State := if n ≤ 8 then { s with boot := { s.boot with numVfs := n } } else s

/-- The host sets the size of BAR 4, from 256 MiB to 256 GiB (R340). -/
def State.setBar4 (s : State) (bits : Nat) : State :=
  if 28 ≤ bits ∧ bits ≤ 38 then { s with boot := { s.boot with bar4 := bits } } else s

/-- A poisoned write from the host is discarded (R338). -/
def State.poisonedWrite (s : State) (_fn : Fn) (_off : Nat) (_bytes : List Byte) : State := s

/-- Whether a function exists (R338). -/
def Fn.valid : Fn → Bool
  | .pf => true
  | .vf k => k < 8

/-- The owner whose fatal lane tells of a function's failed accesses (R342). -/
def fnOwner : Fn → Nat
  | .pf => 0
  | .vf k => 1 + k

/-- The home partition of a function's window (R300). -/
def State.fnHome (s : State) : Fn → Option Nat
  | .pf => some s.boot.winPart
  | .vf k => some k

/-- The address of a window's offset: device physical for the PF, guest-physical for a VF (R340, R342). -/
def State.fnAddr (s : State) (fn : Fn) (off : Nat) : Nat :=
  match fn with
  | .pf => s.boot.winBase.toNat + off
  | .vf _ => off

/-- The physical pieces of a window's range; none where it leaves the installed memory or fails translation (R342). -/
def State.fnPieces (s : State) (fn : Fn) (wr : Bool) (off n : Nat) : Option (List (Nat × Nat)) :=
  s.mpPieces (fnOwner fn) wr (s.fnAddr fn off) n (n / 4096 + 2)

/-- Whether an access of a function lies in its BAR 4 (R340). -/
def State.inBar4 (s : State) (fn : Fn) (off n : Nat) : Bool := s.boot.power && Fn.valid fn && off + n ≤ 2 ^ s.boot.bar4

/-- The translations of a virtual function's window kept (R406). -/
def State.cacheWindow (s : State) (fn : Fn) (off n : Nat) : State :=
  match fn with
  | .pf => s
  | .vf k => s.cacheGuests k off n (n / 4096 + 2)

/-- The "host access failed" record (R342, R415). -/
def State.hostFailed (s : State) (fn : Fn) (wr : Bool) (off : Nat) : State :=
  let part := fnOwner fn - 1
  let pa := match fn with
    | .pf => s.fnAddr fn off
    | .vf k => (s.guestPa k wr off).getD off
  s.postFatal (fnOwner fn) { kind := 0x39, agent := 6, part := part, pa := pa }

/-- The lines of some pieces. -/
def piecesLines (ps : List (Nat × Nat)) : List Nat := ps.flatMap fun p => linesOf p.1 p.2

/-- BAR4_WRITE (R113, R342, R363, R479): a write to a held page waits; what does not lie in the window is not for it (R340). -/
def execBar4Write (fn : Fn) (off : Nat) (bytes : List Byte) (s : State) : Host.Outcome State Fault Refusal :=
  .next (if !s.inBar4 fn off bytes.length then s else
    match s.fnPieces fn true off bytes.length with
    | none => s.hostFailed fn true off
    | some ps =>
      let states := (piecesLines ps).map fun l => s.requestState (s.domain (s.fnHome fn)) 0 false 0 l
      if states.contains .retired then s.hostFailed fn true off
      else if states.any LineState.waits then s
      else (ps.foldl (fun (x : State × Nat) p =>
        (x.1.homeWrite noTag (x.1.domain (s.fnHome fn)) 0 p.1 ((bytes.drop x.2).take p.2), x.2 + p.2)) (s.cacheWindow fn off bytes.length, 0)).1)

/-- A host read answered. -/
def State.answerHost (s : State) (bytes : List Byte) (poisoned : Bool) : State := { s with answer := bytes, poisoned := poisoned }

/-- A line that is uncorrectable where it is dirty (R342, R479). -/
def State.lineLost (s : State) (l : Nat) : Bool :=
  (s.dirtyAt (l * 128)).any fun d => d.poison || s.storage.badDirty.contains l

/-- An uncorrectable read from memory for no context (R465): the page is to be retired. -/
def State.hostMetBad (s : State) (l : Nat) : State :=
  (s.memoryMet l).postHardware { kind := 0x47, agent := 6, pa := l * 128, loc := s.errorLoc l 0 }

/-- The state that a step gives, or `s` where it gives none. -/
def onward (s : State) : Host.Outcome State Fault Refusal → State
  | .next t => t
  | _ => s

/-- BAR4_READ (R113, R342, R479): all ones where the access fails, and with a poisoned completion where a line is uncorrectable; a
read of another line of a held page waits. -/
def execBar4Read (fn : Fn) (off len : Nat) (s : State) : Host.Outcome State Fault Refusal :=
  .next (if !s.inBar4 fn off len then s else
    let ones : List Byte := List.replicate len 0xFF
    match s.fnPieces fn false off len with
    | none => (s.hostFailed fn false off).answerHost ones false
    | some ps =>
      let lines := (piecesLines ps).map fun l => (l, s.requestState (s.domain (s.fnHome fn)) 0 true (576460752303423488 + l) l)
      if lines.any fun x => x.2 = .retired then (s.hostFailed fn false off).answerHost ones false
      else
        match lines.find? fun x => x.2 ≠ .ok with
        | none => (s.cacheWindow fn off len).answerHost (ps.flatMap fun p => s.domainRead 0 (s.domain (s.fnHome fn)) 0 p.1 p.2) false
        | some (_, .moving) => s
        | some (l, .badMemory) => (s.hostMetBad l).answerHost ones true
        | some (l, _) =>
          if s.lineLost l then
            let s := s.noteMet ⟨l, false, noTag, false, 6, 0, 0, 0, 0⟩
            (onward s (execUncorrectableDirtyLine l noTag false s)).answerHost ones true else s)

end Sys2Proof.Machine
end

