-- ==== Sys2Proof/Machine/Gulnos.lean ====
section
/-! DEFINITION. The links to a paired device (R114, R360 to R362): training, pairing, and the remote accesses that arrive here or
stay unanswered. -/
namespace Sys2Proof.Machine

/-- The handshake completes (R360, R362): the peer's identity and its base die's offset are known. -/
def State.pair (s : State) (peerStep : Byte) (offset : W64) : State :=
  let s := s.rewriteOffsets s.boot.offs offset
  { s with gulnos := { s.gulnos with paired := true, peerId := 0x5BE00D00 ||| peerStep.setWidth 32 } }

/-- Pairing is lost (R362): entry 11 of the offset table is zero again. -/
def State.unpair (s : State) : State :=
  if s.gulnos.paired then
    let s := s.rewriteOffsets s.boot.offs 0
    { s with gulnos := { s.gulnos with paired := false, peerId := 0 } }
  else s

/-- GULNOS_LINK_UP (R360): a link is trained; with pairing enabled the handshake completes. -/
def execGulnosLinkUp (link : Nat) (peerStep : Byte) (offset : W64) (s : State) : Host.Outcome State Fault Refusal :=
  .next (if 2 ≤ link || !s.boot.power then s
    else
      let s : State := { s with gulnos := { s.gulnos with lup := s.gulnos.lup ||| BitVec.ofNat 2 (2 ^ link) } }
      if s.gulnos.en && !s.gulnos.paired then s.pair peerStep offset else s)

/-- GULNOS_LINK_DOWN (R361, R362): a link is lost; with neither link up pairing is lost. -/
def execGulnosLinkDown (link : Nat) (s : State) : Host.Outcome State Fault Refusal :=
  .next (if 2 ≤ link then s
    else
      let s : State := { s with gulnos := { s.gulnos with lup := s.gulnos.lup &&& ~~~BitVec.ofNat 2 (2 ^ link) } }
      if s.gulnos.lup = 0 then s.unpair else s)

/-- Whether the paired device may access a range here (R360, R361). -/
def Gulnos.allows (g : Gulnos) (addr len : Nat) : Bool := g.rbase.toNat ≤ addr && addr + len ≤ g.rlimit.toNat

/-- A discarded remote access (R360, R361): counted, and a read returns all ones. -/
def State.denyRemote (s : State) (data : Option (List Byte)) (len : Nat) : State :=
  let s : State := { s with gulnos := { s.gulnos with rxDenied := s.gulnos.rxDenied + 1 } }
  if data.isNone then s.answerHost (List.replicate len 0xFF) false else s

/-- REMOTE_ACCESS (R114, R361): a write (`data`) or a read that arrives over Gulnos, within the range the peer may access. It
belongs to no context of this device, and its home is the device domain. On a held page it waits; what a retired page or an
uncorrectable line gives it is free, with the record of its page. -/
def execRemoteAccess (addr : Nat) (data : Option (List Byte)) (len : Nat) (s : State) : Host.Outcome State Fault Refusal :=
  .next (if !s.linkUp then s else
    let n := match data with
      | some bs => bs.length
      | none => len
    if !s.gulnos.allows addr n then s.denyRemote data n
    else
      let lines := (linesOf addr n).map fun l => (l, s.requestState (s.domain none) 0 data.isNone (576460752303423488 + l) l)
      match lines.find? fun x => x.2 ≠ .ok, data with
      | none, some bs => s.homeWrite noTag (s.domain none) 0 addr bs
      | none, none => s.answerHost (s.domainRead 0 (s.domain none) 0 addr n) false
      | some (l, .retired), _ =>
        let s := s.postHardware { kind := 0x4B, agent := 6, pa := l * 128 }
        if data.isNone then s.answerHost ((List.range n).map fun k => (Config.freeW32 s.free (66960 + k)).setWidth 8) false else s
      | some (l, .badMemory), _ =>
        (s.hostMetBad l).answerHost ((List.range n).map fun k => (Config.freeW32 s.free (66960 + k)).setWidth 8) false
      | some _, _ => s)

/-- What a lane's result gives when one of its remote requests is not answered (R361). -/
def LaneResult.expire (n : Nat) (l : LaneResult) : LaneResult :=
  { l with dsts := l.dsts ++ (l.late.filter fun x => x.1 = n).flatMap (·.2), late := l.late.filter fun x => x.1 ≠ n }

/-- REMOTE_ACCESS_TIMEOUT (R361): a request not answered within 1 ms is discarded, its read gives all ones, and a record names the
context. -/
def execRemoteAccessTimeout (n : Nat) (s : State) : Host.Outcome State Fault Refusal :=
  .next (match s.gulnos.pending.find? fun p => p.1 = n with
    | some (_, pa, at_, a, _) =>
      if s.now - at_ < 100000 then s
      else
        ({ s with
          gulnos := { s.gulnos with pending := s.gulnos.pending.filter fun p => p.1 ≠ n }
          results := s.results.map fun r => { r with lanes := r.lanes.map (LaneResult.expire n) } } : State).remoteFailed pa a
    | none => s)

/-- The paired device takes the first of what was sent to it (R114, R361); a message that it could not deliver, to a context that
receives none from outside, comes back as a record for its sender (R230). -/
def State.peerTakes (s : State) (delivered : Bool) : State :=
  match s.gulnos.out with
  | [] => s
  | x :: r =>
    let s : State := { s with gulnos := { s.gulnos with out := r } }
    match x with
    | .message _ ws => if delivered then s else s.undeliverable (bitsAt ws 88 12) { kind := 0x37 }
    | .write _ _ _ => s

/-- An active message arrives from the paired device (R230, R361): a context whose launch settings accept it gets it queued, with
SREM set, and any other message is discarded; with a full queue it waits on the link (log entry 127). -/
def State.peerMessage (s : State) (words payload : List W32) : State :=
  let c := bitsAt words 64 12
  let ws := words.set 3 (wordAt words 3 ||| 0x10)
  match s.ctx? c with
  | some x =>
    if s.gulnos.paired && s.gulnos.lup ≠ 0 && !x.ended && x.msg.any (·.remote) then
      match s.pushWork x.part c (.msg c ws payload s.now false) with
      | .done t => t
      | .full => s
      | .rejected t => t
    else s
  | none => s

end Sys2Proof.Machine
end

