-- ==== Sys2Proof/Machine/Registers.lean ====
section
/-! DEFINITION. The register space of BAR 0 (R11 to R13, R340 to R345, R360, R362, R374, R395, R412, R428, R433, R447, R463,
R464): what a 32-bit word reads as, and what a write of it does. -/
namespace Sys2Proof.Machine

/-! ### Words -/

/-- A half of a 64-bit register: the high one for `hi`. -/
def halfOf (x : W64) (hi : Bool) : W32 := if hi then x.extractLsb' 32 32 else x.setWidth 32

/-- A 64-bit register with one half written. -/
def setHalf (x : W64) (hi : Bool) (v : W32) : W64 := if hi then v ++ x.setWidth 32 else x.extractLsb' 32 32 ++ v

/-- A field of `n` bits from bit `lo` of a word. -/
def fieldOf (v : W32) (lo n : Nat) : Nat := v.toNat / 2 ^ lo % 2 ^ n

/-- A word from its fields, each with its lowest bit. -/
def wordOf (fs : List (Nat × Nat)) : W32 := BitVec.ofNat 32 ((fs.map fun f => f.2 * 2 ^ f.1).sum)

/-- The bits of WIN_BASE that are kept (R341). -/
def winBaseMask : W64 := 0x0000FFFFF0000000

/-! ### Device control and Gulnos -/

/-- A device control register (R341). -/
def State.controlWord (s : State) (off : Nat) : W32 :=
  match off with
  | 0x000 => 0x5BE00D96
  | 0x004 => 1
  | 0x008 => wordOf [(0, s.boot.state), (4, s.boot.err)]
  | 0x010 => halfOf s.boot.winBase false
  | 0x014 => halfOf s.boot.winBase true
  | 0x020 => BitVec.ofNat 32 s.boot.winPart
  | _ => 0

/-- A write of a device control register (R341). -/
def State.writeControl (s : State) (off : Nat) (v : W32) : State :=
  match off with
  | 0x010 => { s with boot := { s.boot with winBase := setHalf s.boot.winBase false v &&& winBaseMask } }
  | 0x014 => { s with boot := { s.boot with winBase := setHalf s.boot.winBase true v &&& winBaseMask } }
  | 0x018 => onward s (execDevReset v s)
  | 0x020 => { s with boot := { s.boot with winPart := fieldOf v 0 4 } }
  | _ => s

/-- A Gulnos register (R360). -/
def Gulnos.word (g : Gulnos) (off : Nat) : W32 :=
  match off with
  | 0x000 => wordOf [(0, Bool.toNat g.en), (1, g.lup.toNat), (3, Bool.toNat g.paired)]
  | 0x004 => g.peerId
  | 0x008 => halfOf g.rbase false
  | 0x00C => halfOf g.rbase true
  | 0x010 => halfOf g.rlimit false
  | 0x014 => halfOf g.rlimit true
  | 0x018 => g.rxDenied
  | _ => 0

/-- A write of a Gulnos register (R360): pairing that is no longer enabled is lost. -/
def State.writeGulnos (s : State) (off : Nat) (v : W32) : State :=
  let g := s.gulnos
  let put (g : Gulnos) : State := { s with gulnos := g }
  match off with
  | 0x000 => if v.getLsbD 0 then put { g with en := true } else (put { g with en := false }).unpair
  | 0x008 => put { g with rbase := setHalf g.rbase false v }
  | 0x00C => put { g with rbase := setHalf g.rbase true v }
  | 0x010 => put { g with rlimit := setHalf g.rlimit false v }
  | 0x014 => put { g with rlimit := setHalf g.rlimit true v }
  | 0x018 => put { g with rxDenied := g.rxDenied &&& ~~~v }
  | _ => s

/-! ### Command pages -/

/-- An entry of the counter-offset table (R362): freely the old or the new one while the table is rewritten. -/
def State.offsetEntry (s : State) (d : Nat) : W64 :=
  let new := if d = 11 then s.gulnos.peerOff else s.boot.offs.getD d 0
  if s.boot.rewriting then chooseFrom s.free (66970 + d) new [new, s.boot.offOld.getD d 0] else new

/-- A word of a command page (R345, R362). -/
def State.pageWord (s : State) (k off : Nat) : W32 :=
  let g := s.page k
  if 0x100 ≤ off then BitVec.ofNat 32 (bytesNat (g.slots.readRun (off - 0x100) 4))
  else if 0x048 ≤ off ∧ off < 0x0A8 then halfOf (s.offsetEntry ((off - 0x048) / 8)) (off % 8 = 4)
  else
    match off with
    | 0x004 => g.prod
    | 0x008 => g.cons
    | 0x00C => wordOf [(0, Bool.toNat g.evAbort), (1, Bool.toNat g.evRestart)]
    | 0x040 => s.boot.offgen
    | _ => 0

/-- Whether a slot of a page holds a placed block that is not completed, so that writing it is a breach (R345). -/
def Page.inUse (g : Page) (slot : Nat) : Bool := (List.range g.waiting).any fun i => (g.cons.toNat + i) % 60 = slot

/-- A word of a page's slots written (R345). -/
def Page.writeSlot (g : Page) (off : Nat) (v : W32) : Page :=
  let old := (List.range 4).map fun i => (off + i, g.slots.read (off + i))
  { g with slots := g.slots.writeRun off (natBytes 4 v.toNat), past := if g.inUse (off / 64) then g.past ++ old else g.past }

/-- A write of a word of a command page (R345). -/
def State.writePage (s : State) (k off : Nat) (v : W32) : State :=
  if 0x100 ≤ off then s.mapPage k fun g => g.writeSlot (off - 0x100) v
  else
    match off with
    | 0x000 => onward s (execCommandPageNotify k s)
    | 0x004 => s.mapPage k fun g => { g with prod := v }
    | 0x00C => s.mapPage k fun g => { g with evAbort := g.evAbort && !v.getLsbD 0, evRestart := g.evRestart && !v.getLsbD 1 }
    | _ => s

/-- A write of a word of a command page by the PF, or through its VF (R339), of which a NOTIFY tells. -/
def State.writePageVia (s : State) (vf : Bool) (k off : Nat) (v : W32) : State :=
  (if off = 0 then s.mapPage k fun g => { g with viaVf := vf } else s).writePage k off v

/-! ### The MSI-X tables -/

/-- The place of a word of a function's MSI-X page in the list of those that were written. -/
def msixKey (fn : Fn) (off : Nat) : Nat := fnOwner fn * 4096 + off

/-- A word of an MSI-X page (R340). -/
def State.msixWord (s : State) (fn : Fn) (off : Nat) : W32 := ((s.msix.find? fun x => x.1 = msixKey fn off).map (·.2)).getD 0

/-- A write of a word of an MSI-X page. -/
def State.writeMsix (s : State) (fn : Fn) (off : Nat) (v : W32) : State :=
  { s with msix := (s.msix.filter fun x => x.1 ≠ msixKey fn off) ++ [(msixKey fn off, v)] }

/-! ### Queues, debug blocks, lanes -/

/-- A queue's owner register (R374). -/
def State.queueReg (s : State) (q : Nat) : W64 :=
  match s.queue? q with
  | some x => x.qdesc ||| BitVec.ofNat 64 x.part
  | none => 0xF

/-- A word of a debug block (R395). -/
def State.debugWord (s : State) (p off : Nat) : W32 :=
  let d := (s.part p).dbg
  let h := ((s.debugWave p).map (·.halt)).getD ⟨0, 0, 0⟩
  match off with
  | 0x00 => wordOf [(0, Bool.toNat d.attach), (1, Bool.toNat d.brk), (4, d.ctx)]
  | 0x04 => wordOf [(0, d.core), (8, d.wave), (16, d.lane), (24, d.reg)]
  | 0x08 => s.debugData p
  | 0x0C => wordOf [(0, h.state), (2, h.reason), (6, Bool.toNat d.busy), (7, Bool.toNat (decide ((s.part p).state = .held))), (16, h.code.toNat)]
  | _ => 0

/-- Whether a debug block may attach to a context (R395). -/
def State.mayAttach (s : State) (p c : Nat) : Bool := (s.ctx? c).any fun x => x.dbg && x.part = p

/-- HALT and RESUME of one write (R395); with both set either may come last. -/
def State.debugCommands (s : State) (p : Nat) (v : W32) : State :=
  let halt (s : State) : State := if v.getLsbD 2 then onward s (execDebugHalt p s) else s
  let resume (s : State) : State := if v.getLsbD 3 then onward s (execDebugResume p s) else s
  if v.getLsbD 2 && v.getLsbD 3 && Config.freeBool s.free 66951 then halt (resume s) else resume (halt s)

/-- A write of a word of a debug block (R395, R396). -/
def State.writeDebug (s : State) (p off : Nat) (v : W32) : State :=
  let put (f : DebugBlock → DebugBlock) : State := s.mapPart p fun x => { x with dbg := f x.dbg }
  match off with
  | 0x00 =>
    let c := fieldOf v 4 12
    let same := (s.part p).dbg.attach && (s.part p).dbg.ctx = c
    (put fun d => { d with attach := v.getLsbD 0 && s.mayAttach p c, brk := v.getLsbD 1, ctx := c
                           state := if same && v.getLsbD 0 then d.state else 0 }).debugCommands p v
  | 0x04 => put fun d => { d with core := fieldOf v 0 7, wave := fieldOf v 8 6, lane := fieldOf v 16 5, reg := fieldOf v 24 8 }
  | 0x08 => onward s (execDebugDataWrite p v s)
  | 0x0C => put fun d => { d with busy := d.busy && !v.getLsbD 6 }
  | _ => s

/-- A word of a lane block (R412). -/
def Owner.word (w : Owner) (off : Nat) : W32 :=
  match off with
  | 0x00 => halfOf w.fbase false
  | 0x04 => halfOf w.fbase true
  | 0x08 => w.fprod
  | 0x0C => w.fcons
  | 0x10 => halfOf w.rbase false
  | 0x14 => halfOf w.rbase true
  | 0x18 => w.rprod
  | 0x1C => w.rcons
  | 0x20 => w.lost
  | 0x24 => w.tlbiDone
  | 0x30 => halfOf w.psroot false ||| wordOf [(0, Bool.toNat w.psen)]
  | 0x34 => halfOf w.psroot true
  | _ => 0

/-- The bits of PSROOT (R412). -/
def psrootMask : W64 := 0x0000FFFFFFFFF000

/-- A write of a word of a lane block (R412): PSEN is reserved for owner 0. -/
def State.writeLane (s : State) (o off : Nat) (v : W32) : State :=
  let put (f : Owner → Owner) : State := s.setOwner o f
  match off with
  | 0x00 => put fun w => { w with fbase := setHalf w.fbase false v }
  | 0x04 => put fun w => { w with fbase := setHalf w.fbase true v }
  | 0x10 => put fun w => { w with rbase := setHalf w.rbase false v }
  | 0x14 => put fun w => { w with rbase := setHalf w.rbase true v }
  | 0x20 => put fun w => { w with lost := w.lost &&& ~~~v }
  | 0x28 => onward s (execRdoneSeq o v s)
  | 0x2C => put fun w => { w with rdoneDisp := v.getLsbD 0 }
  | 0x30 => put fun w => { w with psen := o ≠ 0 && v.getLsbD 0, psroot := setHalf w.psroot false v &&& psrootMask }
  | 0x34 => put fun w => { w with psroot := setHalf w.psroot true v &&& psrootMask }
  | _ => s

/-! ### Render blocks and pipes -/

/-- A word of a render block (R428). -/
def RenderBlock.word (b : RenderBlock) (off : Nat) : W32 :=
  match off with
  | 0x00 => halfOf b.dring false
  | 0x04 => halfOf b.dring true
  | 0x08 => wordOf [(0, b.dctx), (16, b.dlog)]
  | 0x10 => halfOf b.rarea false
  | 0x14 => halfOf b.rarea true
  | 0x18 => BitVec.ofNat 32 b.rsize
  | _ => 0

/-- A render block with a word written. -/
def RenderBlock.put (b : RenderBlock) (off : Nat) (v : W32) : RenderBlock :=
  match off with
  | 0x00 => { b with dring := setHalf b.dring false v }
  | 0x04 => { b with dring := setHalf b.dring true v }
  | 0x08 => { b with dctx := fieldOf v 0 12, dlog := fieldOf v 16 4 }
  | 0x10 => { b with rarea := setHalf b.rarea false v }
  | 0x14 => { b with rarea := setHalf b.rarea true v }
  | 0x18 => { b with rsize := fieldOf v 0 16 }
  | _ => b

/-- A ring that is no longer enabled: RIDX is read again when it is (R428). -/
def State.ringSettled (s : State) (p : Nat) : State :=
  if s.ringOn p then s else s.mapRender p fun b => { b with ridx := none, wait := none }

/-- A word of a pipe's block (R433). -/
def Pipe.word (p : Pipe) (off : Nat) : W32 :=
  if 0x100 ≤ off ∧ off < 0x140 then wordAt p.latch0 ((off - 0x100) / 4)
  else if 0x140 ≤ off ∧ off < 0x180 then wordAt p.latch1 ((off - 0x140) / 4)
  else
    match off with
    | 0x00 => p.fcount
    | 0x04 => p.foxg.setWidth 32
    | 0x08 => p.mismatch.setWidth 32
    | 0x10 => wordOf [(0, Bool.toNat p.lsel)]
    | 0x14 => p.lgen
    | 0x18 => p.lband.setWidth 32
    | _ => 0

/-- A word of a latch buffer written; the old record of the selected buffer is kept for a latch that meets the write (R440). -/
def Pipe.writeLatch (p : Pipe) (now : Nat) (one : Bool) (k : Nat) (v : W32) : Pipe :=
  let old := if one then p.latch1 else p.latch0
  let p := if p.lsel = one then { p with past := some (now, old) } else p
  if one then { p with latch1 := setWord old k v } else { p with latch0 := setWord old k v }

/-- A write of a word of a pipe's block (R433, R440). -/
def State.writePipe (s : State) (k off : Nat) (v : W32) : State :=
  if 0x100 ≤ off ∧ off < 0x140 then s.mapPipe k fun p => p.writeLatch s.now false ((off - 0x100) / 4) v
  else if 0x140 ≤ off ∧ off < 0x180 then s.mapPipe k fun p => p.writeLatch s.now true ((off - 0x140) / 4) v
  else
    match off with
    | 0x08 => s.mapPipe k fun p => { p with mismatch := p.mismatch &&& ~~~v.setWidth 8 }
    | 0x10 => onward s (execLselWrite k v s)
    | _ => s

/-! ### Read-only blocks -/

/-- A partition's domain register (R447). -/
def State.domainReg (s : State) (p : Nat) : W64 :=
  let x := s.part p
  x.sgen ++ wordOf [(0, x.layout.dbase), (8, x.layout.dm), (12, x.sstate)]

/-- Whether a group is named by an enabled layer of LEVEL 2 or 3 (R463). -/
def State.groupSafety (s : State) (g : Nat) : Bool :=
  s.display.pipes.any fun p => p.layers.any fun l => l.en && 2 ≤ l.level && (l.group 0 = g || l.group 1 = g)

/-- A word of the Ringlet block (R463). -/
def State.ringletWord (s : State) (off : Nat) : W32 :=
  let r := s.ringlet
  if 0x40 ≤ off ∧ off < 0x70 then
    let g := (off - 0x40) / 4
    wordOf [(0, r.gstate.getD g 0), (2, Bool.toNat (s.groupSafety g))]
  else
    match off with
    | 0x00 => wordOf [(0, Bool.toNat r.en), (16, r.gap)]
    | 0x04 => BitVec.ofNat 32 (r.cur.getD 0x7F)
    | 0x08 => r.rotgen
    | 0x0C => r.rotus
    | _ => 0

/-- A word of a core's health register (R464). -/
def Health.word (h : Health) (off : Nat) : W32 :=
  match off with
  | 0 => wordOf [(0, h.state), (2, h.qby), (4, h.passrun), (6, Bool.toNat h.front), (8, h.fails), (16, h.resid)]
  | 4 => h.pseq
  | 8 => halfOf h.lastpass false
  | _ => halfOf h.lastpass true

/-! ### The map -/

/-- A block of unit registers (R340). -/
inductive Unit_ where
  | queue (q : Nat) (hi : Bool)
  | dbg (p off : Nat)
  | lane (o off : Nat)
  | render (p off : Nat)
  | domain (p : Nat) (hi : Bool)
  | pipe (k off : Nat)
  | ringlet (off : Nat)
  | health (core off : Nat)
  | reserved
  deriving DecidableEq, Repr

/-- The block that a word of the unit registers belongs to, by its offset from 0x0100_0000. -/
def unitAt (x : Nat) : Unit_ :=
  if x < 0x8000 then .queue (x / 8) (x % 8 = 4)
  else if x < 0x8800 then .dbg ((x - 0x8000) / 0x100) (x % 0x100)
  else if 0xA000 ≤ x ∧ x < 0xA240 then .lane ((x - 0xA000) / 0x40) (x % 0x40)
  else if 0xC000 ≤ x ∧ x < 0xC800 then .render ((x - 0xC000) / 0x100) (x % 0x100)
  else if 0xE000 ≤ x ∧ x < 0xE040 then .domain ((x - 0xE000) / 8) (x % 8 = 4)
  else if 0x10000 ≤ x ∧ x < 0x16000 then .pipe ((x - 0x10000) / 0x1000) (x % 0x1000)
  else if 0x18000 ≤ x ∧ x < 0x18100 then .ringlet (x - 0x18000)
  else if 0x18100 ≤ x ∧ x < 0x18700 then .health ((x - 0x18100) / 16) (x % 16)
  else .reserved

/-- A word of the unit registers. -/
def State.unitWord (s : State) : Unit_ → W32
  | .queue q hi => halfOf (s.queueReg q) hi
  | .dbg p off => s.debugWord p off
  | .lane o off => (s.owner o).word off
  | .render p off => (s.part p).render.word off
  | .domain p hi => halfOf (s.domainReg p) hi
  | .pipe k off => (s.pipe k).word off
  | .ringlet off => s.ringletWord off
  | .health c off => (s.healthOf c).word off
  | .reserved => 0

/-- A write of a word of the unit registers. -/
def State.writeUnit (s : State) (v : W32) : Unit_ → State
  | .queue q hi => onward s (execQueueOwnerWrite q (setHalf (s.queueReg q) hi v) s)
  | .dbg p off => s.writeDebug p off v
  | .lane o off => s.writeLane o off v
  | .render p off => (s.mapRender p fun b => b.put off v).ringSettled p
  | .pipe k off => s.writePipe k off v
  | _ => s

/-- A word of a function's BAR 0 (R340). -/
def State.barWord (s : State) (fn : Fn) (off : Nat) : W32 :=
  match fn with
  | .pf =>
    if off < 0x1000 then s.controlWord off
    else if off < 0xA000 then s.pageWord (off / 0x1000 - 1) (off % 0x1000)
    else if 0x10000 ≤ off ∧ off < 0x11000 then s.gulnos.word (off % 0x1000)
    else if 0x20000 ≤ off ∧ off < 0x21000 then s.msixWord fn (off % 0x1000)
    else if 0x1000000 ≤ off then s.unitWord (unitAt (off - 0x1000000))
    else 0
  | .vf k =>
    if off < 0x1000 then s.pageWord (1 + k) off
    else if off < 0x2000 then s.msixWord fn (off % 0x1000)
    else if off < 0x2040 then (s.owner (1 + k)).word (off % 0x1000)
    else 0

/-- A write of a word of a function's BAR 0 (R340, R412). -/
def State.writeBar (s : State) (fn : Fn) (off : Nat) (v : W32) : State :=
  match fn with
  | .pf =>
    if off < 0x1000 then s.writeControl off v
    else if off < 0xA000 then s.writePageVia false (off / 0x1000 - 1) (off % 0x1000) v
    else if 0x10000 ≤ off ∧ off < 0x11000 then s.writeGulnos (off % 0x1000) v
    else if 0x20000 ≤ off ∧ off < 0x21000 then s.writeMsix fn (off % 0x1000) v
    else if 0x1000000 ≤ off then s.writeUnit v (unitAt (off - 0x1000000))
    else s
  | .vf k =>
    if off < 0x1000 then s.writePageVia true (1 + k) off v
    else if off < 0x2000 then s.writeMsix fn (off % 0x1000) v
    else if off = 0x2028 ∨ off = 0x202C then s.writeLane (1 + k) (off % 0x1000) v
    else s

/-- Whether a register access is one that BAR 0 accepts (R13): 32 or 64 bits, naturally aligned. -/
def accessOk (off size : Nat) : Bool := (size = 4 || size = 8) && off % size = 0

/-- What a register access reads (R13, R340): all ones for an access that is not accepted. -/
def State.registerRead (s : State) (fn : Fn) (off size : Nat) : W64 :=
  if !accessOk off size then 0xFFFFFFFFFFFFFFFF
  else if size = 4 then (s.barWord fn off).setWidth 64
  else s.barWord fn (off + 4) ++ s.barWord fn off

/-- REGISTER_WRITE (R11 to R13, R340): a write that is not accepted is discarded. Which word of a 64-bit write acts first is
free. -/
def execRegisterWrite (fn : Fn) (off size : Nat) (value : W64) (s : State) : Host.Outcome State Fault Refusal :=
  .next (if !s.boot.power || !Fn.valid fn || !accessOk off size then s
    else if size = 4 then s.writeBar fn off (value.setWidth 32)
    else if Config.freeBool s.free 66950 then (s.writeBar fn off (halfOf value false)).writeBar fn (off + 4) (halfOf value true)
    else (s.writeBar fn (off + 4) (halfOf value true)).writeBar fn off (halfOf value false))

/-- A word of a user page (R339, R343): it reads zero while no valid partition owns its queue, and through the VF of another
partition. -/
def State.userPageWord (s : State) (fn : Fn) (q off : Nat) : W32 :=
  match s.queue? q with
  | none => 0
  | some x =>
    if 8 ≤ x.part || !(s.part x.part).layout.valid || !reaches fn x.part then 0
    else
      match off with
      | 0x008 => queueRidx (s.queueWords x)
      | 0x00C => BitVec.ofNat 32 (bitsAt (s.queueWords x) 161 2)
      | _ => 0

end Sys2Proof.Machine
end

