-- ==== Sys2Proof/Machine/Agenda.lean ====
section
/-! DEFINITION. What happens next (log entry 32): the acts that the model's own scheduler tries when the agenda names none, the
passing of time, and the progress of commands and tile tasks. -/
namespace Sys2Proof.Machine

/-- Time passes (R3) by counts of 10 ns; the bins of launches that a debugger halts do not age (R62). -/
def State.pass (s : State) (n : Nat) : State :=
  let age (b : Bin) : Bin := if s.launchHalted b.launch then { b with first := b.first + n } else b
  { s with now := s.now + n
           cores := s.cores.map fun c => if c.bins = [] then c else { c with bins := c.bins.map age } }

/-- A command in flight makes progress by some of its elements (R212). -/
def State.advanceCmd (s : State) (n elems : Nat) : State :=
  match s.readyCmd n with
  | some c => s.runCmd c (some elems)
  | none => s

/-- A running tile task makes some k-steps (R253). -/
def State.advanceTask (s : State) (p : Nat) (tok : W32) (steps : Nat) : State :=
  match s.task? p tok with
  | some t =>
    match t.core with
    | some k => if t.state = .running then s.runTask t k steps false else s
    | none => s
  | none => s

/-- The quadrants that have a wave with an eligible thread, the one that issued the longest ago first (R46). -/
def State.issueActs (s : State) : List Act :=
  let qs := ((s.waves.filter fun w => w.eligible ≠ 0).map fun w => (w.core, w.quad)).eraseDups
  let when (q : Nat × Nat) : Nat := (s.core q.1).issuedAt.getD q.2 0
  (qs.mergeSort fun a b => when a ≤ when b).map fun q => .issue q.1 q.2

/-- A list from a place that turns. -/
def turned {α : Type} (n : Nat) (l : List α) : List α := l.drop (n % (l.length + 1)) ++ l.take (n % (l.length + 1))

/-- A step that the model's own scheduler may try: the meaning of an event, by name. -/
abbrev Try := State → Host.Outcome State Fault Refusal

/-- The draws of bins that are past their age limit (R28, R46). -/
def State.dueBins (s : State) : List Try :=
  s.cores.flatMap fun c => (c.bins.filter fun b =>
    (s.part (s.launchOf b.launch).part).layout.binage ≤ s.cycles c.core (s.now - b.first)).map fun b => execBinDraw c.core b.n

/-- The steps within the cores that can be due: R26, results, writes, commands, bins. -/
def State.coreActs (s : State) : List Try :=
  ((s.waves.filter Wave.deadlocked).map fun w => execRejoinDisarm w.core w.wslot) ++
    (if s.results.isEmpty then [] else [execResultReturn 0]) ++
    ((s.met.filter fun m => !m.clean).map fun m => execUncorrectableDirtyLine m.line m.ctx m.wb) ++
    ((List.range s.writes.length).flatMap fun n => [execSliceAccess n, execMisdirectedReissue n]) ++
    ((List.range s.cmds.length).map fun n => execEngineCommandRetire n) ++
    s.cores.flatMap fun c => c.bins.map fun b => execBinDraw c.core b.n

/-- The step of a command by its code and page (R350). -/
def commandStep (code page : Nat) : Option Try :=
  match code with
  | 0x01 => some (execDevInfo page)
  | 0x02 => some (execPartPrepare page)
  | 0x03 => some (execPartCommit page)
  | 0x04 => some (execPartAbort page)
  | 0x05 => some (execPartReset page)
  | 0x06 => some (execCtxCreate page)
  | 0x07 => some (execCtxDestroy page)
  | 0x08 => some (execCtxSwap page)
  | 0x09 => some (execMcodeLoad page)
  | 0x0A => some (execDomainSplit page)
  | 0x0B => some (execRangeWb page)
  | 0x0C => some (execPageRetire page)
  | 0x0D => some (execWayQuarantine page)
  | 0x0E => some (execCoreQuarantine page)
  | 0x0F => some (execCoreTest page)
  | 0x10 => some (execCoreAdmit page)
  | 0x11 => some (execGroupQuarantine page)
  | 0x12 => some (execGroupAdmit page)
  | 0x13 => some (execRingletCfg page)
  | 0x14 => some (execDamageRead page)
  | 0x15 => some (execErrDrain page)
  | 0x16 => some (execDisplayCfg page)
  | 0x17 => some (execLayerCfg page)
  | 0x18 => some (execTelltaleLoad page)
  | 0x19 => some (execWarpCfg page)
  | 0x1A => some (execTlbInval page)
  | 0x1B => some (execMigrate page)
  | 0x1C => some (execShadowCfg page)
  | 0x1D => some (execThermalCfg page)
  | 0x1E => some (execTelemetry page)
  | 0x1F => some (execErrInject page)
  | 0x20 => some (execWatchdogCfg page)
  | _ => none

/-- The block that Larkspur takes next (R347). -/
def State.commandActs (s : State) : List Try :=
  match s.nextPage with
  | some k => (commandStep (blockCode ((s.page k).block s.free)) k).toList
  | none => []

/-- The steps of each partition's scheduler, windows, swaps, saves and sequencers. -/
def State.partActs (p : Nat) : List Try :=
  [fun s => .next (s.endSwap p), execBlockPlace p, execContinuationStart p, execMessageHandlerStart p, execWindowStart p, execWindowEnd p,
   execDrainEscalation p, execPartialEviction p, execSaveAreaRetry p, execSaveAreaTimeout p,
   execDrawRingEnable p, execDrawRingPoll p, execDrawTake p, execRenderingBStart p]

/-- The steps of each launch, block, queue, task, image, ray and draw. -/
def State.workActs (s : State) : List Try :=
  (execQueueSchedulerDecision :: s.queues.flatMap fun q => [execLaunchRead q.q]) ++
    (s.launches.map fun l => execLaunchComplete l.key) ++ (s.blocks.map fun b => execBlockTimeExceeded b.key) ++
    (s.tasks.flatMap fun t =>
      [execTileTaskDispatch t.part t.tok, execTileTaskComplete t.part t.tok, execTileTaskResume t.part t.tok]) ++
    (s.waves.flatMap fun w => [execEvictionWaveTimeout w.core w.wslot, execHaltComplete w.core w.wslot]) ++
    (s.holders.map fun t => execSectionHoldExceeded (s.blockOf t.blk).core (s.blockOf t.blk).bslot t.uid) ++
    ((List.range s.images.length).map fun n => execWaveRestore n) ++
    ((List.range s.rays.length).flatMap fun n =>
      let sq := 32 * ((s.rays[n]?.map Ray.die).getD 0) + n % 32
      [execRayResume n sq, execTraversalStep n sq, execMicroopLimitKill n]) ++
    (List.range s.display.draws.length).flatMap fun n =>
      [execPrimitiveAssembly n, execRasterise n, execSequencerItem n, execPixelQuadStart n,
       execMicroopLimitKill (s.rays.length + n)]

/-- The steps of a display pipe and its layers. -/
def State.pipeActs (s : State) (k : Nat) : List Try :=
  [execComparePoint k, execFrameStart k, execBandLatch k] ++ (s.pipe k).layers.flatMap fun l =>
    [execSignatureCompute k l.n 0, execSignatureCompute k l.n 1, execScanoutSignatureCheck k l.n,
     execCameraFrameStale k l.n]

/-- The steps of Larkspur, Ringlet, the error paths and the clocks. A scan's outcome is the silicon's, which is free. -/
def State.unitActs (s : State) : List Try :=
  let rot : List Try :=
    if s.boot.state < 4 then []
    else [execRingletScanComplete (Config.freeBool s.free 66952), execRingletTakeOut]
  let scans := ((List.range 96).filter fun c => (s.healthOf c).state = 1).map fun c =>
    execQuarantineScanComplete c (Config.freeBool s.free (66100 + c))
  [fun s => .next s.endRewrite, execMpRestart, execDevicePageRetirement, execDeviceWayQuarantine] ++ s.commandActs ++ rot ++ scans ++
    (s.cores.map fun c => execLookupEngineReset c.core) ++ ((List.range 9).map fun o => execTlbInvalComplete o) ++
    (s.storage.badMem.map fun l => execMemoryScrub l) ++ (s.thermal.throttled.map fun d => execThrottleClockStep d) ++
    ((List.range s.mp.late.length).map fun n => execLateStepComplete n) ++
    (s.gulnos.pending.map fun p => execRemoteAccessTimeout p.1)

/-- The device steps that can be due. -/
def State.deviceActs (s : State) : List Try :=
  s.workActs ++ (List.range 8).flatMap State.partActs ++ (List.range 6).flatMap s.pipeActs ++ s.unitActs

end Sys2Proof.Machine
end

