-- ==== Sys2Proof/Machine/ConvertOps.lean ====
section
/-! DEFINITION. Group 4: conversions, quantisation and packing (R180 to R185). -/
namespace Sys2Proof.Machine

/-- cvtf (R181). -/
def execCvtf (o : Operands) (s : State) : Host.Outcome State Fault Refusal :=
  withIssue s fun v => v.classF o 1 fun i =>
    outF (cvtfLane o.mod.toNat (if modBit o.mod.toNat 4 then v.intA o i else v.f32A o i) (immNat o.b) (v.oldDst o i))

/-- cvtfi (R182): a pair for the 64-bit integer types. -/
def execCvtfi (o : Operands) (s : State) : Host.Outcome State Fault Refusal :=
  withIssue s fun v => 
    if 6 ≤ o.mod.toNat / 4 % 8 then v.classF o 2 fun i => (splitWide (cvtfiLane o.mod.toNat (v.f32A o i)).1, (cvtfiLane o.mod.toNat (v.f32A o i)).2)
    else v.classF o 1 fun i => ([(cvtfiLane o.mod.toNat (v.f32A o i)).1.setWidth 32], (cvtfiLane o.mod.toNat (v.f32A o i)).2)

/-- cvtif (R182). -/
def execCvtif (o : Operands) (s : State) : Host.Outcome State Fault Refusal :=
  withIssue s fun v => v.classF o 1 fun i =>
    outF (cvtifLane o.mod.toNat (if 6 ≤ o.mod.toNat / 4 % 8 then v.wideA o i else (v.intA o i).setWidth 64))

/-- cvti (R182). -/
def execCvti (o : Operands) (s : State) : Host.Outcome State Fault Refusal :=
  withIssue s fun v => v.classF o 1 fun i => outF (cvtiLane o.mod.toNat (v.intA o i))

/-- qcvt (R183). -/
def execQcvt (o : Operands) (s : State) : Host.Outcome State Fault Refusal :=
  withIssue s fun v => v.classF o 1 fun i =>
    outF (qcvtLane o.mod.toNat (v.f32A o i) (if modBit o.mod.toNat 4 then v.intB o i else v.f32B o i) (v.intC o i))

/-- dqcvt (R183). -/
def execDqcvt (o : Operands) (s : State) : Host.Outcome State Fault Refusal :=
  withIssue s fun v => v.classF o 1 fun i =>
    outF (dqcvtLane o.mod.toNat (Config.freeBool v.s.free (readTag i 6 0)) (v.intA o i) (if modBit o.mod.toNat 4 then v.intB o i else v.f32B o i) (v.intC o i))

/-- qpack (R184). -/
def execQpack (o : Operands) (s : State) : Host.Outcome State Fault Refusal :=
  withIssue s fun v => v.classF o 1 fun i =>
    if o.mod.toNat % 16 ≤ 5 then outF (qpackLane o.mod.toNat (v.f32A o i) (v.f32B o i) (immNat o.c) (v.oldDst o i))
    else outF (qpackLane o.mod.toNat (v.intA o i) (v.intB o i) (immNat o.c) (v.oldDst o i))

/-- qunpack (R184): a pair. -/
def execQunpack (o : Operands) (s : State) : Host.Outcome State Fault Refusal :=
  withIssue s fun v => v.classF o 2 fun i => (splitWide (qunpackLane o.mod.toNat (v.intA o i) (immNat o.b)).1, (qunpackLane o.mod.toNat (v.intA o i) (immNat o.b)).2)

/-- scexp (R185). -/
def execScexp (o : Operands) (s : State) : Host.Outcome State Fault Refusal :=
  withIssue s fun v => v.classF o 1 fun i => out32 (scexpLane o.mod.toNat (v.f32A o i))

end Sys2Proof.Machine
end

