-- ==== Sys2Proof/Machine/Shift.lean ====
section
/-! DEFINITION. Group 1: shifts, predicates, moves, addresses and fields (R148 to R156). -/
namespace Sys2Proof.Machine

/-- A shift (R149): operand a is a pair, and so is the destination, with W. -/
def View.shift (v : View) (o : Operands) (f : Nat → W64 → W32 → W64) : State :=
  if modBit o.mod.toNat 0 then v.classF o 2 fun i => out64 (f 64 (v.wideA o i) (v.intB o i))
  else v.classF o 1 fun i => out32 ((f 32 ((v.intA o i).setWidth 64) (v.intB o i)).setWidth 32)

/-- shl (R149): 64 bits with W. -/
def execShl (o : Operands) (s : State) : Host.Outcome State Fault Refusal :=
  withIssue s fun v => v.shift o aluShl

/-- shr (R149): 64 bits with W. -/
def execShr (o : Operands) (s : State) : Host.Outcome State Fault Refusal :=
  withIssue s fun v => v.shift o aluShr

/-- sra (R149): 64 bits with W. -/
def execSra (o : Operands) (s : State) : Host.Outcome State Fault Refusal :=
  withIssue s fun v => v.shift o aluSra

/-- rotl (R149): 64 bits with W. -/
def execRotl (o : Operands) (s : State) : Host.Outcome State Fault Refusal :=
  withIssue s fun v => v.shift o aluRotl

/-- shf (R150). -/
def execShf (o : Operands) (s : State) : Host.Outcome State Fault Refusal :=
  withIssue s fun v => v.classF o 1 fun i => out32 (aluShf o.mod.toNat (v.intA o i) (v.intB o i) (v.intC o i))

/-- icmp (R151): one bit of the destination. -/
def execIcmp (o : Operands) (s : State) : Host.Outcome State Fault Refusal :=
  withIssue s fun v => v.classF o 1 fun i => out32 (aluIcmp o.mod.toNat (v.intA o i) (v.intB o i) (immNat o.c) (v.oldDst o i))

/-- icmp64 (R151): one bit of the destination. -/
def execIcmp64 (o : Operands) (s : State) : Host.Outcome State Fault Refusal :=
  withIssue s fun v => v.classF o 1 fun i => out32 (aluIcmp64 o.mod.toNat (v.wideA o i) (v.wideB o i) (immNat o.c) (v.oldDst o i))

/-- setc (R152). -/
def execSetc (o : Operands) (s : State) : Host.Outcome State Fault Refusal :=
  withIssue s fun v => v.classF o 1 fun i => out32 (aluSetc o.mod.toNat (v.intA o i))

/-- sel (R152): pairs with W. -/
def execSel (o : Operands) (s : State) : Host.Outcome State Fault Refusal :=
  withIssue s fun v => 
    if modBit o.mod.toNat 5 then v.classF o 2 fun i => out64 (aluSel o.mod.toNat (v.wideA o i) (v.wideB o i) (v.intC o i))
    else v.classF o 1 fun i => out32 ((aluSel o.mod.toNat ((v.intA o i).setWidth 64) ((v.intB o i).setWidth 64) (v.intC o i)).setWidth 32)

/-- mov (R153). -/
def execMov (o : Operands) (s : State) : Host.Outcome State Fault Refusal :=
  withIssue s fun v => v.classF o 1 fun i => out32 (v.intA o i)

/-- movl (R153). -/
def execMovl (o : Operands) (s : State) : Host.Outcome State Fault Refusal :=
  withIssue s fun v => v.classF o 2 fun i => out64 (v.wideA o i)

/-- pmov (R152): one bit of the destination. -/
def execPmov (o : Operands) (s : State) : Host.Outcome State Fault Refusal :=
  withIssue s fun v => v.classF o 1 fun i => out32 (aluPmov o.mod.toNat (v.intA o i) (immNat o.b) (v.oldDst o i))

/-- plop (R152): one bit of the destination. -/
def execPlop (o : Operands) (s : State) : Host.Outcome State Fault Refusal :=
  withIssue s fun v => v.classF o 1 fun i => out32 (aluPlop o.mod.toNat (v.intA o i) (v.intB o i) (immNat o.c) (v.oldDst o i))

/-- lea (R154). -/
def execLea (o : Operands) (s : State) : Host.Outcome State Fault Refusal :=
  withIssue s fun v => v.classF o 1 fun i => out32 (aluLea o.mod.toNat (v.intA o i) (v.intB o i))

/-- lea64 (R154). -/
def execLea64 (o : Operands) (s : State) : Host.Outcome State Fault Refusal :=
  withIssue s fun v => v.classF o 2 fun i => out64 (aluLea64 o.mod.toNat (v.wideA o i) (v.intB o i))

/-- iadd64 (R154). -/
def execIadd64 (o : Operands) (s : State) : Host.Outcome State Fault Refusal :=
  withIssue s fun v => v.classF o 2 fun i => out64 (v.wideA o i + v.wideB o i)

/-- isub64 (R154). -/
def execIsub64 (o : Operands) (s : State) : Host.Outcome State Fault Refusal :=
  withIssue s fun v => v.classF o 2 fun i => out64 (v.wideA o i - v.wideB o i)

/-- wfield (R156): the thread's own identifier, or that of operand a with .x. -/
def execWfield (o : Operands) (s : State) : Host.Outcome State Fault Refusal :=
  withIssue s fun v => 
    let r (i : Nat) : W64 :=
      if modBit o.mod.toNat 0 then aluWfield (v.wideA o i) (v.intB o i) (immNat o.c) else aluWfield (v.thread i).wid v.launch.wlay (immNat o.a)
    if modBit o.mod.toNat 1 then v.classF o 2 fun i => out64 (r i) else v.classF o 1 fun i => out32 ((r i).setWidth 32)

/-- pack (R155). -/
def execPack (o : Operands) (s : State) : Host.Outcome State Fault Refusal :=
  withIssue s fun v => v.classF o 1 fun i => out32 (aluPack o.mod.toNat (v.intA o i) (v.intB o i))

end Sys2Proof.Machine
end

