-- ==== Sys2Proof/Machine/Dispatch.lean ====
section
/-! DEFINITION. What each step does: one arm for each constructor, each a call of its meaning. -/
namespace Sys2Proof.Machine

/-- The meaning of an instruction of R129 on the issue in progress, or of a step of the device. -/
def exec (i : Instr) (s : State) : Host.Outcome State Fault Refusal :=
  match i with
  | .iadd o => Sys2Proof.Machine.execIadd o s
  | .isub o => Sys2Proof.Machine.execIsub o s
  | .iadd3 o => Sys2Proof.Machine.execIadd3 o s
  | .imul o => Sys2Proof.Machine.execImul o s
  | .imulh o => Sys2Proof.Machine.execImulh o s
  | .imad o => Sys2Proof.Machine.execImad o s
  | .imadw o => Sys2Proof.Machine.execImadw o s
  | .imin o => Sys2Proof.Machine.execImin o s
  | .imax o => Sys2Proof.Machine.execImax o s
  | .iabs o => Sys2Proof.Machine.execIabs o s
  | .ineg o => Sys2Proof.Machine.execIneg o s
  | .iclamp o => Sys2Proof.Machine.execIclamp o s
  | .idiv o => Sys2Proof.Machine.execIdiv o s
  | .irem o => Sys2Proof.Machine.execIrem o s
  | .andB o => Sys2Proof.Machine.execAndB o s
  | .orB o => Sys2Proof.Machine.execOrB o s
  | .xorB o => Sys2Proof.Machine.execXorB o s
  | .andn o => Sys2Proof.Machine.execAndn o s
  | .notB o => Sys2Proof.Machine.execNotB o s
  | .lop3 o => Sys2Proof.Machine.execLop3 o s
  | .popc o => Sys2Proof.Machine.execPopc o s
  | .clz o => Sys2Proof.Machine.execClz o s
  | .ctz o => Sys2Proof.Machine.execCtz o s
  | .brev o => Sys2Proof.Machine.execBrev o s
  | .bfe o => Sys2Proof.Machine.execBfe o s
  | .bfi o => Sys2Proof.Machine.execBfi o s
  | .bperm o => Sys2Proof.Machine.execBperm o s
  | .dp4 o => Sys2Proof.Machine.execDp4 o s
  | .dp2 o => Sys2Proof.Machine.execDp2 o s
  | .sad o => Sys2Proof.Machine.execSad o s
  | .shl o => Sys2Proof.Machine.execShl o s
  | .shr o => Sys2Proof.Machine.execShr o s
  | .sra o => Sys2Proof.Machine.execSra o s
  | .rotl o => Sys2Proof.Machine.execRotl o s
  | .shf o => Sys2Proof.Machine.execShf o s
  | .icmp o => Sys2Proof.Machine.execIcmp o s
  | .icmp64 o => Sys2Proof.Machine.execIcmp64 o s
  | .setc o => Sys2Proof.Machine.execSetc o s
  | .sel o => Sys2Proof.Machine.execSel o s
  | .mov o => Sys2Proof.Machine.execMov o s
  | .movl o => Sys2Proof.Machine.execMovl o s
  | .pmov o => Sys2Proof.Machine.execPmov o s
  | .plop o => Sys2Proof.Machine.execPlop o s
  | .lea o => Sys2Proof.Machine.execLea o s
  | .lea64 o => Sys2Proof.Machine.execLea64 o s
  | .iadd64 o => Sys2Proof.Machine.execIadd64 o s
  | .isub64 o => Sys2Proof.Machine.execIsub64 o s
  | .wfield o => Sys2Proof.Machine.execWfield o s
  | .pack o => Sys2Proof.Machine.execPack o s
  | .bra o => Sys2Proof.Machine.execBra o s
  | .brx o => Sys2Proof.Machine.execBrx o s
  | .call o => Sys2Proof.Machine.execCall o s
  | .callx o => Sys2Proof.Machine.execCallx o s
  | .ret o => Sys2Proof.Machine.execRet o s
  | .exit o => Sys2Proof.Machine.execExit o s
  | .rejoin o => Sys2Proof.Machine.execRejoin o s
  | .reform o => Sys2Proof.Machine.execReform o s
  | .yield o => Sys2Proof.Machine.execYield o s
  | .nop o => Sys2Proof.Machine.execNop o s
  | .brkp o => Sys2Proof.Machine.execBrkp o s
  | .jtbl o => Sys2Proof.Machine.execJtbl o s
  | .loopd o => Sys2Proof.Machine.execLoopd o s
  | .fadd o => Sys2Proof.Machine.execFadd o s
  | .fsub o => Sys2Proof.Machine.execFsub o s
  | .fmul o => Sys2Proof.Machine.execFmul o s
  | .fma o => Sys2Proof.Machine.execFma o s
  | .ftsum o => Sys2Proof.Machine.execFtsum o s
  | .fmin o => Sys2Proof.Machine.execFmin o s
  | .fmax o => Sys2Proof.Machine.execFmax o s
  | .fclamp o => Sys2Proof.Machine.execFclamp o s
  | .fdiv o => Sys2Proof.Machine.execFdiv o s
  | .frcp o => Sys2Proof.Machine.execFrcp o s
  | .frsq o => Sys2Proof.Machine.execFrsq o s
  | .fsqrt o => Sys2Proof.Machine.execFsqrt o s
  | .fexp2 o => Sys2Proof.Machine.execFexp2 o s
  | .flog2 o => Sys2Proof.Machine.execFlog2 o s
  | .fsin o => Sys2Proof.Machine.execFsin o s
  | .fcos o => Sys2Proof.Machine.execFcos o s
  | .ftanh o => Sys2Proof.Machine.execFtanh o s
  | .fcmp o => Sys2Proof.Machine.execFcmp o s
  | .fclass o => Sys2Proof.Machine.execFclass o s
  | .fround o => Sys2Proof.Machine.execFround o s
  | .ffrac o => Sys2Proof.Machine.execFfrac o s
  | .fldexp o => Sys2Proof.Machine.execFldexp o s
  | .fexpo o => Sys2Proof.Machine.execFexpo o s
  | .hfma2 o => Sys2Proof.Machine.execHfma2 o s
  | .hadd2 o => Sys2Proof.Machine.execHadd2 o s
  | .hmul2 o => Sys2Proof.Machine.execHmul2 o s
  | .hmin2 o => Sys2Proof.Machine.execHmin2 o s
  | .hmax2 o => Sys2Proof.Machine.execHmax2 o s
  | .fdot2 o => Sys2Proof.Machine.execFdot2 o s
  | .cvtf o => Sys2Proof.Machine.execCvtf o s
  | .cvtfi o => Sys2Proof.Machine.execCvtfi o s
  | .cvtif o => Sys2Proof.Machine.execCvtif o s
  | .cvti o => Sys2Proof.Machine.execCvti o s
  | .qcvt o => Sys2Proof.Machine.execQcvt o s
  | .dqcvt o => Sys2Proof.Machine.execDqcvt o s
  | .qpack o => Sys2Proof.Machine.execQpack o s
  | .qunpack o => Sys2Proof.Machine.execQunpack o s
  | .scexp o => Sys2Proof.Machine.execScexp o s
  | .shfl o => Sys2Proof.Machine.execShfl o s
  | .vote o => Sys2Proof.Machine.execVote o s
  | .matchB o => Sys2Proof.Machine.execMatchB o s
  | .redadd o => Sys2Proof.Machine.execRedadd o s
  | .redmin o => Sys2Proof.Machine.execRedmin o s
  | .redmax o => Sys2Proof.Machine.execRedmax o s
  | .redabs o => Sys2Proof.Machine.execRedabs o s
  | .redbit o => Sys2Proof.Machine.execRedbit o s
  | .scan o => Sys2Proof.Machine.execScan o s
  | .bcast o => Sys2Proof.Machine.execBcast o s
  | .amask o => Sys2Proof.Machine.execAmask o s
  | .ld o => Sys2Proof.Machine.execLd o s
  | .st o => Sys2Proof.Machine.execSt o s
  | .ldp o => Sys2Proof.Machine.execLdp o s
  | .stp o => Sys2Proof.Machine.execStp o s
  | .lds o => Sys2Proof.Machine.execLds o s
  | .sts o => Sys2Proof.Machine.execSts o s
  | .ldk o => Sys2Proof.Machine.execLdk o s
  | .ldf o => Sys2Proof.Machine.execLdf o s
  | .stf o => Sys2Proof.Machine.execStf o s
  | .pf o => Sys2Proof.Machine.execPf o s
  | .ldt o => Sys2Proof.Machine.execLdt o s
  | .stt o => Sys2Proof.Machine.execStt o s
  | .smap o => Sys2Proof.Machine.execSmap o s
  | .swb o => Sys2Proof.Machine.execSwb o s
  | .sinv o => Sys2Proof.Machine.execSinv o s
  | .resq o => Sys2Proof.Machine.execResq o s
  | .cwb o => Sys2Proof.Machine.execCwb o s
  | .cinv o => Sys2Proof.Machine.execCinv o s
  | .atom o => Sys2Proof.Machine.execAtom o s
  | .cas o => Sys2Proof.Machine.execCas o s
  | .atoms o => Sys2Proof.Machine.execAtoms o s
  | .cass o => Sys2Proof.Machine.execCass o s
  | .atomr o => Sys2Proof.Machine.execAtomr o s
  | .atomsc o => Sys2Proof.Machine.execAtomsc o s
  | .bar o => Sys2Proof.Machine.execBar o s
  | .bara o => Sys2Proof.Machine.execBara o s
  | .barw o => Sys2Proof.Machine.execBarw o s
  | .barc o => Sys2Proof.Machine.execBarc o s
  | .fence o => Sys2Proof.Machine.execFence o s
  | .osb o => Sys2Proof.Machine.execOsb o s
  | .ose o => Sys2Proof.Machine.execOse o s
  | .sbwait o => Sys2Proof.Machine.execSbwait o s
  | .sbq o => Sys2Proof.Machine.execSbq o s
  | .await o => Sys2Proof.Machine.execAwait o s
  | .cpy o => Sys2Proof.Machine.execCpy o s
  | .cpy2d o => Sys2Proof.Machine.execCpy2d o s
  | .cpyg o => Sys2Proof.Machine.execCpyg o s
  | .coll o => Sys2Proof.Machine.execColl o s
  | .amsg o => Sys2Proof.Machine.execAmsg o s
  | .spawn o => Sys2Proof.Machine.execSpawn o s
  | .join o => Sys2Proof.Machine.execJoin o s
  | .crec o => Sys2Proof.Machine.execCrec o s
  | .tbld o => Sys2Proof.Machine.execTbld o s
  | .tspill o => Sys2Proof.Machine.execTspill o s
  | .tfill o => Sys2Proof.Machine.execTfill o s
  | .tinv o => Sys2Proof.Machine.execTinv o s
  | .tstat o => Sys2Proof.Machine.execTstat o s
  | .mlk o => Sys2Proof.Machine.execMlk o s
  | .azero o => Sys2Proof.Machine.execAzero o s
  | .aload o => Sys2Proof.Machine.execAload o s
  | .adrain o => Sys2Proof.Machine.execAdrain o s
  | .tenq o => Sys2Proof.Machine.execTenq o s
  | .twait o => Sys2Proof.Machine.execTwait o s
  | .tprog o => Sys2Proof.Machine.execTprog o s
  | .win o => Sys2Proof.Machine.execWin o s
  | .wpool o => Sys2Proof.Machine.execWpool o s
  | .crsz o => Sys2Proof.Machine.execCrsz o s
  | .trace o => Sys2Proof.Machine.execTrace o s
  | .traceq o => Sys2Proof.Machine.execTraceq o s
  | .hitrep o => Sys2Proof.Machine.execHitrep o s
  | .vfetch o => Sys2Proof.Machine.execVfetch o s
  | .prim o => Sys2Proof.Machine.execPrim o s
  | .rqpop o => Sys2Proof.Machine.execRqpop o s
  | .interp o => Sys2Proof.Machine.execInterp o s
  | .tsamp o => Sys2Proof.Machine.execTsamp o s
  | .pxout o => Sys2Proof.Machine.execPxout o s
  | .srd o => Sys2Proof.Machine.execSrd o s
  | .swr o => Sys2Proof.Machine.execSwr o s
  | .trap o => Sys2Proof.Machine.execTrap o s
  | .tret o => Sys2Proof.Machine.execTret o s
  | .sysc o => Sys2Proof.Machine.execSysc o s
  | .clk o => Sys2Proof.Machine.execClk o s
  | .resultReturn n => Sys2Proof.Machine.execResultReturn n s
  | .rejoinDisarm core wslot => Sys2Proof.Machine.execRejoinDisarm core wslot s
  | .binDraw core bin => Sys2Proof.Machine.execBinDraw core bin s
  | .sliceAccess n => Sys2Proof.Machine.execSliceAccess n s
  | .misdirectedReissue n => Sys2Proof.Machine.execMisdirectedReissue n s
  | .engineCommandRetire n => Sys2Proof.Machine.execEngineCommandRetire n s
  | .queueSchedulerDecision => Sys2Proof.Machine.execQueueSchedulerDecision s
  | .launchRead q => Sys2Proof.Machine.execLaunchRead q s
  | .launchComplete l => Sys2Proof.Machine.execLaunchComplete l s
  | .blockPlace p => Sys2Proof.Machine.execBlockPlace p s
  | .continuationStart p => Sys2Proof.Machine.execContinuationStart p s
  | .messageHandlerStart p => Sys2Proof.Machine.execMessageHandlerStart p s
  | .tileTaskDispatch p tok => Sys2Proof.Machine.execTileTaskDispatch p tok s
  | .tileTaskComplete p tok => Sys2Proof.Machine.execTileTaskComplete p tok s
  | .tileTaskResume p tok => Sys2Proof.Machine.execTileTaskResume p tok s
  | .blockTimeExceeded b => Sys2Proof.Machine.execBlockTimeExceeded b s
  | .sectionHoldExceeded core bslot uid => Sys2Proof.Machine.execSectionHoldExceeded core bslot uid s
  | .windowStart p => Sys2Proof.Machine.execWindowStart p s
  | .windowEnd p => Sys2Proof.Machine.execWindowEnd p s
  | .drainEscalation p => Sys2Proof.Machine.execDrainEscalation p s
  | .partialEviction p => Sys2Proof.Machine.execPartialEviction p s
  | .evictionWaveTimeout core wslot => Sys2Proof.Machine.execEvictionWaveTimeout core wslot s
  | .waveRestore n => Sys2Proof.Machine.execWaveRestore n s
  | .saveAreaRetry p => Sys2Proof.Machine.execSaveAreaRetry p s
  | .saveAreaTimeout p => Sys2Proof.Machine.execSaveAreaTimeout p s
  | .sensorScoreRefresh scores => Sys2Proof.Machine.execSensorScoreRefresh scores s
  | .tlbInvalComplete owner => Sys2Proof.Machine.execTlbInvalComplete owner s
  | .drawRingPoll p => Sys2Proof.Machine.execDrawRingPoll p s
  | .drawTake p => Sys2Proof.Machine.execDrawTake p s
  | .primitiveAssembly d => Sys2Proof.Machine.execPrimitiveAssembly d s
  | .rasterise d => Sys2Proof.Machine.execRasterise d s
  | .pixelQuadStart d => Sys2Proof.Machine.execPixelQuadStart d s
  | .traversalStep n sq => Sys2Proof.Machine.execTraversalStep n sq s
  | .rayResume n sq => Sys2Proof.Machine.execRayResume n sq s
  | .microopLimitKill n => Sys2Proof.Machine.execMicroopLimitKill n s
  | .sequencerItem n => Sys2Proof.Machine.execSequencerItem n s
  | .frameStart pipe => Sys2Proof.Machine.execFrameStart pipe s
  | .signatureCompute pipe layer rend => Sys2Proof.Machine.execSignatureCompute pipe layer rend s
  | .comparePoint pipe => Sys2Proof.Machine.execComparePoint pipe s
  | .scanoutSignatureCheck pipe layer => Sys2Proof.Machine.execScanoutSignatureCheck pipe layer s
  | .bandLatch pipe => Sys2Proof.Machine.execBandLatch pipe s
  | .cameraFrame port pixels => Sys2Proof.Machine.execCameraFrame port pixels s
  | .cameraFrameStale pipe layer => Sys2Proof.Machine.execCameraFrameStale pipe layer s
  | .ringletTakeOut => Sys2Proof.Machine.execRingletTakeOut s
  | .ringletScanComplete pass => Sys2Proof.Machine.execRingletScanComplete pass s
  | .quarantineScanComplete core pass => Sys2Proof.Machine.execQuarantineScanComplete core pass s
  | .lookupEngineReset core => Sys2Proof.Machine.execLookupEngineReset core s
  | .uncorrectableDirtyLine line ctx wb => Sys2Proof.Machine.execUncorrectableDirtyLine line ctx wb s
  | .devicePageRetirement => Sys2Proof.Machine.execDevicePageRetirement s
  | .deviceWayQuarantine => Sys2Proof.Machine.execDeviceWayQuarantine s
  | .memoryScrub line => Sys2Proof.Machine.execMemoryScrub line s
  | .thermalThreshold die halfDeg milliWatt peakMilliWatt => Sys2Proof.Machine.execThermalThreshold die halfDeg milliWatt peakMilliWatt s
  | .throttleClockStep die => Sys2Proof.Machine.execThrottleClockStep die s
  | .thermalCritical die => Sys2Proof.Machine.execThermalCritical die s
  | .powerGood => Sys2Proof.Machine.execPowerGood s
  | .bootStateAdvance found => Sys2Proof.Machine.execBootStateAdvance found s
  | .mpWatchdogFire => Sys2Proof.Machine.execMpWatchdogFire s
  | .mpRestart => Sys2Proof.Machine.execMpRestart s
  | .pfFunctionLevelReset => Sys2Proof.Machine.execPfFunctionLevelReset s
  | .vfFunctionLevelReset k => Sys2Proof.Machine.execVfFunctionLevelReset k s
  | .bar4Write fn off bytes => Sys2Proof.Machine.execBar4Write fn off bytes s
  | .bar4Read fn off len => Sys2Proof.Machine.execBar4Read fn off len s
  | .gulnosLinkUp link peerStep offset => Sys2Proof.Machine.execGulnosLinkUp link peerStep offset s
  | .gulnosLinkDown link => Sys2Proof.Machine.execGulnosLinkDown link s
  | .remoteAccess addr data len => Sys2Proof.Machine.execRemoteAccess addr data len s
  | .remoteAccessTimeout n => Sys2Proof.Machine.execRemoteAccessTimeout n s
  | .userQueueNotify page idx => Sys2Proof.Machine.execUserQueueNotify page idx s
  | .commandPageNotify page => Sys2Proof.Machine.execCommandPageNotify page s
  | .devReset value => Sys2Proof.Machine.execDevReset value s
  | .queueOwnerWrite q value => Sys2Proof.Machine.execQueueOwnerWrite q value s
  | .rdoneSeq owner sq => Sys2Proof.Machine.execRdoneSeq owner sq s
  | .debugHalt p => Sys2Proof.Machine.execDebugHalt p s
  | .debugResume p => Sys2Proof.Machine.execDebugResume p s
  | .haltComplete core wslot => Sys2Proof.Machine.execHaltComplete core wslot s
  | .debugDataWrite p value => Sys2Proof.Machine.execDebugDataWrite p value s
  | .lselWrite pipe value => Sys2Proof.Machine.execLselWrite pipe value s
  | .drawRingEnable p => Sys2Proof.Machine.execDrawRingEnable p s
  | .registerWrite fn off size value => Sys2Proof.Machine.execRegisterWrite fn off size value s
  | .devInfo page => Sys2Proof.Machine.execDevInfo page s
  | .partPrepare page => Sys2Proof.Machine.execPartPrepare page s
  | .partCommit page => Sys2Proof.Machine.execPartCommit page s
  | .partAbort page => Sys2Proof.Machine.execPartAbort page s
  | .partReset page => Sys2Proof.Machine.execPartReset page s
  | .ctxCreate page => Sys2Proof.Machine.execCtxCreate page s
  | .ctxDestroy page => Sys2Proof.Machine.execCtxDestroy page s
  | .ctxSwap page => Sys2Proof.Machine.execCtxSwap page s
  | .mcodeLoad page => Sys2Proof.Machine.execMcodeLoad page s
  | .domainSplit page => Sys2Proof.Machine.execDomainSplit page s
  | .rangeWb page => Sys2Proof.Machine.execRangeWb page s
  | .pageRetire page => Sys2Proof.Machine.execPageRetire page s
  | .wayQuarantine page => Sys2Proof.Machine.execWayQuarantine page s
  | .coreQuarantine page => Sys2Proof.Machine.execCoreQuarantine page s
  | .coreTest page => Sys2Proof.Machine.execCoreTest page s
  | .coreAdmit page => Sys2Proof.Machine.execCoreAdmit page s
  | .groupQuarantine page => Sys2Proof.Machine.execGroupQuarantine page s
  | .groupAdmit page => Sys2Proof.Machine.execGroupAdmit page s
  | .ringletCfg page => Sys2Proof.Machine.execRingletCfg page s
  | .damageRead page => Sys2Proof.Machine.execDamageRead page s
  | .errDrain page => Sys2Proof.Machine.execErrDrain page s
  | .displayCfg page => Sys2Proof.Machine.execDisplayCfg page s
  | .layerCfg page => Sys2Proof.Machine.execLayerCfg page s
  | .telltaleLoad page => Sys2Proof.Machine.execTelltaleLoad page s
  | .warpCfg page => Sys2Proof.Machine.execWarpCfg page s
  | .tlbInval page => Sys2Proof.Machine.execTlbInval page s
  | .migrate page => Sys2Proof.Machine.execMigrate page s
  | .shadowCfg page => Sys2Proof.Machine.execShadowCfg page s
  | .thermalCfg page => Sys2Proof.Machine.execThermalCfg page s
  | .telemetry page => Sys2Proof.Machine.execTelemetry page s
  | .errInject page => Sys2Proof.Machine.execErrInject page s
  | .watchdogCfg page => Sys2Proof.Machine.execWatchdogCfg page s
  | .lateStepComplete n => Sys2Proof.Machine.execLateStepComplete n s
  | .renderingBStart p => Sys2Proof.Machine.execRenderingBStart p s
  | .powerLoss => Sys2Proof.Machine.execPowerLoss s
  | .hostLinkTraining rate width => Sys2Proof.Machine.execHostLinkTraining rate width s

end Sys2Proof.Machine
end

