-- ==== Sys2Proof/Machine/Place.lean ====
section
/-! DEFINITION. Placing one instruction where the next step fetches it: at the PC of the issue that is due, or in a program of one
thread that is loaded with its context, page tables, launch, block and wave (log entry 33). -/
namespace Sys2Proof.Machine

/-- Everything the model's own scheduler tries (R46): the bins whose age limit has passed first, and then issues, the cores' steps,
the device's steps and the passing of time, in an order that turns with the step number. -/
def State.ownActs (s : State) : List (Act ⊕ Try) :=
  let turn := s.free / 4
  let due := s.dueBins.map (Sum.inr : Try → Act ⊕ Try)
  let a := s.issueActs.map (Sum.inl : Act → Act ⊕ Try)
  let b := (turned turn s.coreActs).map (Sum.inr : Try → Act ⊕ Try)
  let c := (turned turn s.deviceActs).map (Sum.inr : Try → Act ⊕ Try)
  due ++ match s.free % 4 with
  | 0 => a ++ b ++ c
  | 1 => b ++ c ++ a
  | 2 => c ++ a ++ b
  | _ => .inl (.pass 1) :: []

/-- Bytes placed at their physical addresses, one by one, as a load from outside the machine. -/
def placeBytes (m : Cells) : List Nat → List Byte → Cells
  | pa :: ps, b :: bs => placeBytes (m.write pa b) ps bs
  | _, _ => m

/-- A 64-bit word placed at a physical address. -/
def placeWide (m : Cells) (pa x : Nat) : Cells := m.writeRun pa (natBytes 8 x)

/-- The page tables of the loaded program: one page of 1 GiB, virtual as physical, RC, resident, with W, X and U (R400, R401). -/
def loadedTables (m : Cells) : Cells :=
  placeWide (placeWide (placeWide m 0x10000 0x11001) 0x11000 0x12001) 0x12000 0x1D7

/-- The key of everything that is loaded. -/
def loadedKey : Nat := 1

/-- The context of the loaded program: privileged, so that every special register is in reach. -/
def loadedContext : Context := ⟨loadedKey, 0, 0x10000, true, false, 0x20000000, none, 0, 0, [], false, []⟩

/-- The record of the loaded program's launch: 256 registers, POOL at 0x20000, no scratchpad, no stack. -/
def loadedRecord : List W32 := [0, 0, 1, 1, 1, 0xF801, 0, 0, 0x20000, 0, 0, 0, 0, 0, 0, 0]

/-- Its launch. -/
def loadedLaunch (stamp : Nat) : Launch :=
  { Launch.none with key := loadedKey, ctx := loadedKey, words := loadedRecord, nextClu := 1, started := 1, stamp := stamp, raySerial := 0 }

/-- Its block. -/
def loadedBlock (stamp : Nat) : Block :=
  { Block.none with key := loadedKey, launch := loadedKey, ctx := loadedKey, cluster := loadedKey, nthreads := 1, serial := 1
                    stamp := stamp, ended := false }

/-- Its thread, at the PC 0x8000 with every register zero (R40). -/
def loadedThread : Thread :=
  { Thread.blank with uid := loadedKey, blk := loadedKey, pc := 0x8000, regs := List.replicate 256 0, sp := 0x20000000, slim := 0x20000000 }

/-- Its wave, in wave slot 0 of core 0. -/
def loadedWave : Wave :=
  { core := 0, wslot := 0, quad := 0, base := 0, launch := loadedKey, nregs := 256
    slots := Slot.live loadedThread :: List.replicate 31 Slot.empty, rejoin := List.replicate 16 .none, fflags := 0, skips := 0
    marker := false, halt := ⟨0, 0, 0⟩, saving := none }

/-- The machine with a program of one thread loaded whose first instruction has these bytes; the agenda then issues it. -/
def State.loadWord (s : State) (bs : List Byte) : State :=
  { s with
    agenda := [.issue 0 0]
    mem := (loadedTables s.mem).writeRun 0x8000 bs
    ctxs := [loadedContext]
    launches := [loadedLaunch s.free]
    blocks := [loadedBlock s.free]
    waves := [loadedWave]
    results := [] }

/-- The physical addresses of the bytes that the next step fetches, when it is an issue whose fetch is translated. -/
def State.fetchAddrs (s : State) : Option (List Nat) :=
  let act := match s.agenda with
    | a :: _ => some a
    | [] => none
  match act with
  | some (.issue core quad) =>
    match (({ s with free := s.free + 1, cur := none } : State).choose core quad).view? with
    | some v =>
      match v.fetchPieces with
      | .ok ps => some (ps.flatMap fun p => (List.range p.len).map (p.pa + ·))
      | .error _ => none
    | none => none
  | _ => none

/-- The machine with the bytes of one instruction placed for the next step. -/
def State.placeWord (s : State) (bs : List Byte) : State :=
  match s.fetchAddrs with
  | some pas => { s with mem := placeBytes s.mem pas bs, past := s.past.filter fun p => !pas.contains p.pa }
  | none => s.loadWord bs

end Sys2Proof.Machine
end

