-- ==== Sys2Proof/Machine/Step.lean ====
section
/-! DEFINITION. One step of the D96: the next act of the agenda, or of the model's own scheduler where the agenda is empty; an
issue fetches, decodes and executes one instruction for one issue set. -/
namespace Sys2Proof.Machine

/-- What a step has brought about settles. -/
def settled : Host.Outcome State Fault Refusal → Host.Outcome State Fault Refusal
  | .next s => .next s.settle
  | .fault f => .fault f
  | .refused r => .refused r

/-- The issue in progress fetches its instruction and executes it. -/
def State.runIssue (s : State) : Host.Outcome State Fault Refusal :=
  match s.view? with
  | none => .next s.settle
  | some v =>
    match v.fetch with
    | .error s => .next s.settle
    | .ok (s, i) => settled (exec i s)

/-- One act. -/
def State.runAct (s : State) (a : Act) : Host.Outcome State Fault Refusal :=
  let s : State := { s with free := s.free + 1, cur := none }
  match a with
  | .event i => settled (exec i s)
  | .issue core quad => (s.choose core quad).runIssue
  | .pass n => .next (s.pass n).settle
  | .advance n elems => .next (s.advanceCmd n elems).settle
  | .tile p tok steps => .next (s.advanceTask p tok steps).settle
  | .upset u => .next (s.upset u).settle
  | .peerMessage ws payload => .next (s.peerMessage ws payload).settle
  | .peerTakes ok => .next (s.peerTakes ok).settle
  | .swapped p => .next (s.endSwap p).settle
  | .setVfs n => .next (s.setVfs n).settle
  | .setBar4 bits => .next (s.setBar4 bits).settle
  | .poisonedWrite fn off bytes => .next (s.poisonedWrite fn off bytes).settle
  | .offsetsDone => .next s.endRewrite.settle

/-- A step that the model's own scheduler tries. -/
def State.runTry (s : State) : Act ⊕ Try → Host.Outcome State Fault Refusal
  | .inl a => s.runAct a
  | .inr f => settled (f { s with free := s.free + 1, cur := none })

/-- The first of some steps that changes the machine; time passes when none does. -/
def State.runFirst (s : State) : List (Act ⊕ Try) → Host.Outcome State Fault Refusal
  | [] => s.runAct (.pass 1)
  | a :: r =>
    match s.runTry a with
    | .next s' => if { s' with free := s.free } = s then s.runFirst r else .next s'
    | x => x

/-- One step. -/
def step (s : State) : Host.Outcome State Fault Refusal :=
  match s.agenda with
  | a :: r => ({ s with agenda := r } : State).runAct a
  | [] => s.runFirst s.ownActs

/-- A machine in which the next step fetches and runs an instruction: where an issue is due, its bytes are placed at the PC of
that issue, and otherwise a program of one thread is loaded (log entry 33). -/
def State.withFetchWord (s : State) (nbits w : Nat) : State := s.placeWord (tableBytes nbits w)

end Sys2Proof.Machine
end

