-- ==== Sys2Proof/Safety.lean ====
section
/-! DEFINITION. The terms the statements are made in: a step that answers a next state, and what an issue of an instruction
leaves of the wave it issues for. -/
namespace Sys2Proof

/-- A step answers a next state: it neither faults nor is refused. -/
def StepsOn (s : Machine.State) : Prop := ∃ s', Machine.step s = .next s'

/-- `k` steps from a state all answer next states. -/
def RunsOn (s : Machine.State) (k : Nat) : Prop := ∃ s', core.run k s = .next s'

open Machine

/-- Thread `y` is thread `x` but for its PC and for its registers `lo`, `lo + 1`, … which hold `vals`; register 0 and the
registers the thread does not have stay as they are (R50). -/
structure Claims.Wrote (x y : Thread) (pc : W64) (lo : Nat) (vals : List W32) : Prop where
  pc    : y.pc = pc
  frame : { y with pc := x.pc, regs := x.regs } = x
  size  : y.regs.length = x.regs.length
  regs  : ∀ r, y.reg r =
    if lo ≤ r ∧ r < lo + vals.length ∧ r ≠ 0 ∧ r < x.regs.length then vals.getD (r - lo) 0 else x.reg r

/-- What an issue leaves of its wave: the lanes of `m` have changed by `R`, every other slot is as it was, the flags `ff` are
set besides those that were, the rejoin entries follow the lanes' PCs (R25), and SW and YLD take effect (R57, R21). -/
structure Claims.WaveAfter (v : View) (o : Operands) (m : Mask) (ff : FFlags) (R : Nat → Thread → Thread → Prop) (w : Wave) :
    Prop where
  frame  : { w with slots := v.w.slots, rejoin := v.w.rejoin, fflags := v.w.fflags, marker := v.w.marker
                    skips := v.w.skips } = v.w
  moved  : ∀ i x, m.getLsbD i = true → v.w.live? i = some x → ∃ y, w.slot i = .live y ∧ R i x y
  idle   : ∀ i, m.getLsbD i = false → w.slot i = v.w.slot i
  fflags : w.fflags = v.w.fflags ||| ff
  rejoin : w.rejoin = v.w.rejoin.map fun e => e.advance v.w.live? w.live? m
  marker : w.marker = (v.w.marker || o.sw)
  skips  : w.skips = if o.yld then 1 else v.w.skips

/-- What an issue leaves of the waves: the issuing wave as `WaveAfter` says, and every other wave as it was. -/
structure Claims.Moved (v : View) (o : Operands) (m : Mask) (ff : FFlags) (R : Nat → Thread → Thread → Prop) (t : State) :
    Prop where
  others : ∀ c k, (c ≠ v.ic.core ∨ k ≠ v.ic.wslot) → t.wave? c k = v.s.wave? c k
  wave   : ∃ w, t.wave? v.ic.core v.ic.wslot = some w ∧ Claims.WaveAfter v o m ff R w

/-- A result of the issuing wave with the outstanding writes that satisfy `p thread register` marked as written over (R56). -/
def Claims.marked (v : View) (p : Nat → Nat → Bool) (x : Result) : Result :=
  if x.core = v.ic.core ∧ x.wslot = v.ic.wslot then
    { x with lanes := x.lanes.map fun l => { l with dsts := l.dsts.map fun d => { d with clob := d.clob || p l.uid d.reg } } }
  else x

/-- Whether a thread of the lanes of `m` has the serial `uid` and writes register `r`, where lane `i` writes `n i` registers
from `lo`. -/
def Claims.writes (v : View) (m : Mask) (lo : Nat) (n : Nat → Nat) (uid r : Nat) : Bool :=
  (lanesOf m).any fun i => (v.thread i).uid = uid && lo ≤ r && r < lo + n i

/-- A state in which nothing but the waves and the outstanding results differs from `s`: memory, every special, control and
exception register outside the waves, and every unit of the device are as they were. -/
def Claims.OnlyWaves (s t : State) : Prop := { t with waves := s.waves, results := s.results } = s

/-- A class-F instruction has taken effect (R55, R126): in the lanes whose guard passes the destination holds `(f i).1`, the
flags `(f i).2` are set, every lane of the issue set advances, and results still outstanding for a register written are marked. -/
structure Claims.WroteNow (v : View) (o : Operands) (f : Nat → LaneOut) (t : State) : Prop where
  rest    : Claims.OnlyWaves v.s t
  results : t.results = v.s.results.map
    (Claims.marked v (Claims.writes v (v.passing o) o.dst.reg.toNat fun i => (f i).1.length))
  moved   : Claims.Moved v o v.active (orFlags (v.passing o) f)
    (fun i x y => Claims.Wrote x y (v.ic.pc + 12) o.dst.reg.toNat (if (v.passing o).getLsbD i then (f i).1 else [])) t

/-- Whether the lanes of a new result write register `r` of the thread with serial `uid`. -/
def Claims.claimed (lanes : List LaneResult) (uid r : Nat) : Bool := lanes.any fun l => l.uid = uid && l.dsts.any fun d => d.reg = r

/-- The outstanding results after an issue leaves one of its own with the given lanes and flags (R55, R56): those before it,
marked where the new one writes the same registers, and it. -/
def Claims.withResult (v : View) (lanes : List LaneResult) (ff : FFlags) : List Result :=
  v.s.results.map (Claims.marked v (Claims.claimed lanes)) ++ [⟨v.ic.core, v.ic.wslot, lanes, ff, none⟩]

/-- The lanes of a result whose lanes whose guard passes write `(f i).1` from the destination register. -/
def Claims.lanesOut (v : View) (o : Operands) (f : Nat → LaneOut) : List LaneResult :=
  (lanesOf (v.passing o)).map fun i => ⟨i, (v.thread i).uid, regWrites o.dst.reg.toNat (f i).1, []⟩

/-- The lanes of the issue set, or of a mask, have advanced by one instruction and changed in nothing else. -/
def Claims.Advanced (v : View) (o : Operands) (m : Mask) (t : State) : Prop :=
  Claims.Moved v o m 0 (fun _ x y => y = { x with pc := v.ic.pc + 12 }) t

/-- A class-V instruction has been issued (R55, R56): its result is outstanding, with the destination's values in each lane
whose guard passes and the flags `ff`; no register has changed and every lane of the issue set advances. -/
structure Claims.LeftLater (v : View) (o : Operands) (ff : FFlags) (f : Nat → LaneOut) (t : State) : Prop where
  rest    : Claims.OnlyWaves v.s t
  results : t.results = Claims.withResult v (Claims.lanesOut v o f) ff
  moved   : Claims.Advanced v o v.active t

/-- The threads of the lanes of `m` wait, each for `why` its lane, and nothing else has changed since `u`: their PCs stand (R22). -/
structure Claims.Parked (v : View) (u : State) (m : Mask) (why : Nat → Wait) (t : State) : Prop where
  rest   : { t with waves := u.waves } = u
  others : ∀ c k, (c ≠ v.ic.core ∨ k ≠ v.ic.wslot) → t.wave? c k = u.wave? c k
  wave   : ∃ w w', u.wave? v.ic.core v.ic.wslot = some w ∧ t.wave? v.ic.core v.ic.wslot = some w' ∧ { w' with slots := w.slots } = w ∧
    ∀ i, w'.slot i = if m.getLsbD i then (w.slot i).mapLive (fun x => { x with wait := why i }) else w.slot i

/-- The wave waits as at a switch marker, and the instruction issues again afterwards (R57, R58). -/
def Claims.Marked (v : View) (t : State) : Prop :=
  { t with waves := v.s.waves } = v.s ∧ (∀ c k, (c ≠ v.ic.core ∨ k ≠ v.ic.wslot) → t.wave? c k = v.s.wave? c k) ∧
    t.wave? v.ic.core v.ic.wslot = some { v.w with marker := true }

/-- The issue set has advanced, the lanes of `m` to wait each for `why` its lane (R22), and nothing but the waves has changed
since `u`. -/
def Claims.AdvancedWaiting (v : View) (o : Operands) (u : State) (m : Mask) (why : Nat → Wait) (t : State) : Prop :=
  { t with waves := u.waves } = u ∧ Claims.Moved v o v.active 0 (fun i x y =>
    y = { x with pc := v.ic.pc + 12, wait := if m.getLsbD i then why i else x.wait }) t

/-- The issue set has advanced, with the lanes of the wave that waited for it in the same instruction (R42, R258). -/
def Claims.Sent (v : View) (o : Operands) (t : State) : Prop :=
  let peer : Mask := bitsWhere fun i => (v.w.live? i).any fun x => x.peerAt v.ic.pc
  Claims.Moved v o (v.active ||| peer) 0 (fun i x y =>
    y = { x with pc := v.ic.pc + 12, sent := if peer.getLsbD i then false else x.sent
                 wait := if peer.getLsbD i then .ready else x.wait }) t

/-- The lanes of the issue set have moved on, those of `p` to their own next PCs with their own changes `R`, the others by one
instruction (R158); `p` is part of the issue set. -/
def Claims.Branched (v : View) (o : Operands) (p : Mask) (ff : FFlags) (next : Nat → W64) (R : Nat → Thread → Thread → Prop)
    (t : State) : Prop :=
  Claims.Moved v o v.active ff (fun i x y =>
    if p.getLsbD i then y.pc = next i ∧ R i x y else y = { x with pc := v.ic.pc + 12 }) t

/-- A per-lane instruction with what it produces in one lane: the destination's registers, the lowest first, and the flags. -/
structure Claims.LaneRow where
  ins : Operands → Instr
  val : View → Operands → Nat → LaneOut

/-- The address of a byte of a slot of a lane ring of an owner (R413, R414): 256 fatal records or 4,096 replayable ones. -/
def Claims.inRing (base : W64) (low size a : Nat) : Prop :=
  ∃ k, k < size ∧ (base.toNat / 2 ^ low * 2 ^ low + 64 * k) % 2 ^ 48 ≤ a ∧ a < (base.toNat / 2 ^ low * 2 ^ low + 64 * k) % 2 ^ 48 + 64

/-- The address of a byte of a lane ring of some owner. -/
def Claims.inLanes (s : State) (a : Nat) : Prop :=
  ∃ o, Claims.inRing (s.owner o).fbase 14 256 a ∨ Claims.inRing (s.owner o).rbase 18 4096 a

/-- The address of a byte that a write of `s` on its way to its home will reach (R105). -/
def Claims.onItsWay (s : State) (a : Nat) : Prop := ∃ w ∈ s.writes, w.addr ≤ a ∧ a < w.addr + w.data.length

/-- A core but for the steps of its last acquires (R97). -/
def Claims.unmarked (c : CoreSt) : CoreSt := { c with acqWide := 0, acqAny := 0 }

/-- What an access to memory may change on the way besides its own bytes: it differs from `s` only in the caches and paths of
memory (the L1 copies, translations kept, writes on their way, dirty lines and where lines are homed, lines met in error, the steps of
acquires), in the delivery lanes and the link to the paired device, in the waves and in the outstanding results; and no byte of
memory changes outside `A`. -/
structure Claims.Accessed (s t : State) (A : Nat → Prop) : Prop where
  rest  : { t with waves := s.waves, results := s.results, mem := s.mem, past := s.past, dirty := s.dirty, homes := s.homes
                   met := s.met, writes := s.writes, l1 := s.l1, tlb := s.tlb, cores := s.cores, gulnos := s.gulnos
                   owners := s.owners, vectors := s.vectors } = s
  cores : ∀ c, Claims.unmarked (t.core c) = Claims.unmarked (s.core c)
  bases : t.owners.map (fun o => (o.fbase, o.rbase)) = s.owners.map fun o => (o.fbase, o.rbase)
  mem   : ∀ a, ¬ A a → t.mem.read a = s.mem.read a

/-- The bytes that the pieces of an access write. -/
def Claims.storedAt (ps : List Piece) (a : Nat) : Prop := ∃ p ∈ ps, p.tr.isSome = true ∧ p.pa ≤ a ∧ a < p.pa + p.len

/-- What an access may change in memory: the bytes it stores to, those of a write that was on its way, and the delivery lanes. -/
def Claims.reach (s : State) (ps : List Piece) (a : Nat) : Prop := Claims.storedAt ps a ∨ Claims.onItsWay s a ∨ Claims.inLanes s a

/-- Every check of a lane's access to global memory passes (R89, R404, R465, R479): the pieces `ps`, as the access takes them. -/
structure Claims.Ready (v : View) (acc : Acc) (flagged rd stack : Bool) (n : Nat) (l : List (Nat × W64)) (ps : List Piece) : Prop where
  canonical : addressFault n l = none
  walks     : v.s.lanePieces v.ctx acc flagged n l = .ok ps
  lines     : v.s.badLine v.part rd (stackPieces stack ps) = none

/-- A load has been issued (R198): its result is outstanding, with what its lanes read, and memory has changed nowhere but at
writes that were on their way. -/
structure Claims.Loaded (v : View) (lanes : List LaneResult) (t : State) : Prop where
  rest    : Claims.Accessed v.s t (Claims.reach v.s [])
  results : t.results = Claims.withResult v lanes 0

/-- A store has been issued (R198, R105): the pages it writes are noted as in `u` (R457), no result is outstanding besides, and
memory has changed nowhere but at the bytes stored to and at writes that were on their way. -/
structure Claims.Stored (v : View) (u : State) (ps : List Piece) (t : State) : Prop where
  rest    : Claims.Accessed u t (Claims.reach v.s ps)
  results : t.results = v.s.results

/-- `Accessed`, for an access that may change scratchpads, windows and tables of the blocks besides (R208, R216). -/
def Claims.ScrAccessed (s t : State) (A : Nat → Prop) : Prop := Claims.Accessed s { t with blocks := s.blocks, cores := s.cores } A

end Sys2Proof
end

