-- ==== Sys2Proof/Certificates/Slice0/Obligations.lean ====
section
/-! DEFINITION. The statements about the model, made from the numbered rules of the specification. -/
open Sys2Proof Sys2Proof.Machine

/-! ### Per-lane instructions -/

/-- The per-lane instructions of class F that no residue check covers, each with what it writes in one lane and the flags it sets
(R142, R145 to R147, R149 to R156, R171 to R179, R181 to R185, R189), part 1. -/
def Claims.nowRows1 : List Claims.LaneRow :=
  [ ⟨.iadd, fun v o i => out32 (aluIadd o.mod.toNat (v.intA o i) (v.intB o i))⟩,
    ⟨.isub, fun v o i => out32 (aluIsub o.mod.toNat (v.intA o i) (v.intB o i))⟩,
    ⟨.iadd3, fun v o i => out32 (v.intA o i + v.intB o i + v.intC o i)⟩,
    ⟨.imin, fun v o i => out32 (aluImin o.mod.toNat (v.intA o i) (v.intB o i))⟩,
    ⟨.imax, fun v o i => out32 (aluImax o.mod.toNat (v.intA o i) (v.intB o i))⟩,
    ⟨.iabs, fun v o i => out32 (aluIabs o.mod.toNat (v.intA o i))⟩,
    ⟨.ineg, fun v o i => out32 (aluIneg o.mod.toNat (v.intA o i))⟩,
    ⟨.iclamp, fun v o i => out32 (aluIclamp o.mod.toNat (v.intA o i) (v.intB o i) (v.intC o i))⟩,
    ⟨.bfe, fun v o i => out32 (aluBfe o.mod.toNat (v.intA o i) (v.intB o i))⟩,
    ⟨.bfi, fun v o i => out32 (aluBfi (v.intA o i) (v.intB o i) (v.intC o i))⟩,
    ⟨.bperm, fun v o i => out32 (aluBperm (v.intA o i) (v.intB o i) (v.intC o i))⟩,
    ⟨.sad, fun v o i => out32 (aluSad o.mod.toNat (v.intA o i) (v.intB o i) (v.intC o i))⟩,
    ⟨.shf, fun v o i => out32 (aluShf o.mod.toNat (v.intA o i) (v.intB o i) (v.intC o i))⟩,
    ⟨.icmp, fun v o i => out32 (aluIcmp o.mod.toNat (v.intA o i) (v.intB o i) (immNat o.c) (v.oldDst o i))⟩,
    ⟨.icmp64, fun v o i => out32 (aluIcmp64 o.mod.toNat (v.wideA o i) (v.wideB o i) (immNat o.c) (v.oldDst o i))⟩,
    ⟨.setc, fun v o i => out32 (aluSetc o.mod.toNat (v.intA o i))⟩,
    ⟨.pmov, fun v o i => out32 (aluPmov o.mod.toNat (v.intA o i) (immNat o.b) (v.oldDst o i))⟩,
    ⟨.plop, fun v o i => out32 (aluPlop o.mod.toNat (v.intA o i) (v.intB o i) (immNat o.c) (v.oldDst o i))⟩,
    ⟨.lea, fun v o i => out32 (aluLea o.mod.toNat (v.intA o i) (v.intB o i))⟩,
    ⟨.lea64, fun v o i => out64 (aluLea64 o.mod.toNat (v.wideA o i) (v.intB o i))⟩ ]

/-- The per-lane instructions of class F that no residue check covers, each with what it writes in one lane and the flags it sets
(R142, R145 to R147, R149 to R156, R171 to R179, R181 to R185, R189), part 2. -/
def Claims.nowRows2 : List Claims.LaneRow :=
  [ ⟨.iadd64, fun v o i => out64 (v.wideA o i + v.wideB o i)⟩,
    ⟨.isub64, fun v o i => out64 (v.wideA o i - v.wideB o i)⟩,
    ⟨.fmin, fun v o i => outF (fpMin (v.f32A o i) (v.f32B o i))⟩,
    ⟨.fmax, fun v o i => outF (fpMax (v.f32A o i) (v.f32B o i))⟩,
    ⟨.fclamp, fun v o i => outF (fpClamp (v.f32A o i) (v.f32B o i) (v.f32C o i))⟩,
    ⟨.fcmp, fun v o i => ([combineBit (immNat o.c) (v.oldDst o i) (fcmpCond (o.mod.toNat % 8) (v.f32A o i) (v.f32B o i)).1], (fcmpCond (o.mod.toNat % 8) (v.f32A o i) (v.f32B o i)).2)⟩,
    ⟨.fclass, fun v o i => out32 (fpClass (v.f32A o i))⟩,
    ⟨.fround, fun v o i => outF (fpRound (o.mod.toNat % 4) (v.f32A o i))⟩,
    ⟨.ffrac, fun v o i => outF (fpFrac (v.f32A o i))⟩,
    ⟨.fexpo, fun v o i => out32 (fpExpo (v.f32A o i))⟩,
    ⟨.hmin2, fun v o i => outF (fpHmin2 (v.h2A o i) (v.h2B o i))⟩,
    ⟨.hmax2, fun v o i => outF (fpHmax2 (v.h2A o i) (v.h2B o i))⟩,
    ⟨.cvtf, fun v o i => outF (cvtfLane o.mod.toNat (if modBit o.mod.toNat 4 then v.intA o i else v.f32A o i) (immNat o.b) (v.oldDst o i))⟩,
    ⟨.cvtif, fun v o i => outF (cvtifLane o.mod.toNat (if 6 ≤ o.mod.toNat / 4 % 8 then v.wideA o i else (v.intA o i).setWidth 64))⟩,
    ⟨.cvti, fun v o i => outF (cvtiLane o.mod.toNat (v.intA o i))⟩,
    ⟨.qcvt, fun v o i => outF (qcvtLane o.mod.toNat (v.f32A o i) (if modBit o.mod.toNat 4 then v.intB o i else v.f32B o i) (v.intC o i))⟩,
    ⟨.dqcvt, fun v o i => outF (dqcvtLane o.mod.toNat (Config.freeBool v.s.free (readTag i 6 0)) (v.intA o i) (if modBit o.mod.toNat 4 then v.intB o i else v.f32B o i) (v.intC o i))⟩,
    ⟨.qpack, fun v o i => if o.mod.toNat % 16 ≤ 5 then outF (qpackLane o.mod.toNat (v.f32A o i) (v.f32B o i) (immNat o.c) (v.oldDst o i)) else outF (qpackLane o.mod.toNat (v.intA o i) (v.intB o i) (immNat o.c) (v.oldDst o i))⟩,
    ⟨.qunpack, fun v o i => (splitWide (qunpackLane o.mod.toNat (v.intA o i) (immNat o.b)).1, (qunpackLane o.mod.toNat (v.intA o i) (immNat o.b)).2)⟩,
    ⟨.scexp, fun v o i => out32 (scexpLane o.mod.toNat (v.f32A o i))⟩ ]

/-- The per-lane instructions of class F that no residue check covers, each with what it writes in one lane and the flags it sets
(R142, R145 to R147, R149 to R156, R171 to R179, R181 to R185, R189), part 3. -/
def Claims.nowRows3 : List Claims.LaneRow :=
  [ ⟨.amask, fun v o _ => out32 (if modBit o.mod.toNat 0 then v.passing o else v.ic.amask)⟩,
    ⟨.sel, fun v o i =>
      if modBit o.mod.toNat 5 then out64 (if (v.intC o i).getLsbD (o.mod.toNat % 32) then v.wideA o i else v.wideB o i)
      else out32 (if (v.intC o i).getLsbD (o.mod.toNat % 32) then v.intA o i else v.intB o i)⟩,
    ⟨.wfield, fun v o i =>
      let x := if modBit o.mod.toNat 0 then aluWfield (v.wideA o i) (v.intB o i) (immNat o.c)
        else aluWfield (v.thread i).wid v.launch.wlay (immNat o.a)
      if modBit o.mod.toNat 1 then out64 x else out32 (x.setWidth 32)⟩,
    ⟨.cvtfi, fun v o i =>
      let x := cvtfiLane o.mod.toNat (v.f32A o i)
      (if 6 ≤ o.mod.toNat / 4 % 8 then splitWide x.1 else [x.1.setWidth 32], x.2)⟩ ]

/-- The per-lane instructions of class F that no residue check covers, each with what it writes in one lane and the flags it sets
(R142, R145 to R147, R149 to R156, R171 to R179, R181 to R185, R189). -/
def Claims.nowRows : List Claims.LaneRow := Claims.nowRows1 ++ Claims.nowRows2 ++ Claims.nowRows3

/-- The instructions of class F whose exact values the residue check covers (R142, R171, R177, R179, R451), part 1. -/
def Claims.checkedRows1 : List Claims.LaneRow :=
  [ ⟨.imul, fun v o i => out32 (v.intA o i * v.intB o i)⟩,
    ⟨.imulh, fun v o i => out32 (aluImulh o.mod.toNat (v.intA o i) (v.intB o i))⟩,
    ⟨.imad, fun v o i => out32 (v.intA o i * v.intB o i + v.intC o i)⟩,
    ⟨.imadw, fun v o i => out64 (aluImadw o.mod.toNat (v.intA o i) (v.intB o i) (v.wideC o i))⟩,
    ⟨.dp4, fun v o i => out32 (aluDp4 o.mod.toNat (v.intA o i) (v.intB o i) (v.intC o i))⟩,
    ⟨.dp2, fun v o i => out32 (aluDp2 o.mod.toNat (v.intA o i) (v.intB o i) (v.intC o i))⟩,
    ⟨.fadd, fun v o i => outF (fpAdd (o.mod.toNat % 4) (v.f32A o i) (v.f32B o i))⟩,
    ⟨.fsub, fun v o i => outF (fpSub (o.mod.toNat % 4) (v.f32A o i) (v.f32B o i))⟩,
    ⟨.fmul, fun v o i => outF (fpMul (o.mod.toNat % 4) (v.f32A o i) (v.f32B o i))⟩,
    ⟨.fma, fun v o i => outF (fpFma (o.mod.toNat % 4) (v.f32A o i) (v.f32B o i) (v.f32C o i))⟩,
    ⟨.fldexp, fun v o i => outF (fpLdexp (o.mod.toNat % 4) (v.f32A o i) (v.intB o i).toInt)⟩,
    ⟨.hfma2, fun v o i => outF (fpHfma2 (o.mod.toNat % 4) (v.h2A o i) (v.h2B o i) (v.h2C o i))⟩,
    ⟨.hadd2, fun v o i => outF (fpHadd2 (o.mod.toNat % 4) (v.h2A o i) (v.h2B o i))⟩,
    ⟨.hmul2, fun v o i => outF (fpHmul2 (o.mod.toNat % 4) (v.h2A o i) (v.h2B o i))⟩,
    ⟨.fdot2, fun v o i => outF (fpDot2 (o.mod.toNat % 4) (v.h2A o i) (v.h2B o i) (v.f32C o i))⟩,
    ⟨.ftsum, fun v o i =>
      let x := fpTsum (o.mod.toNat % 4) (Config.freeW32 v.s.free (readTag i 6 0)) (v.f32A o i) (v.f32B o i)
      (splitWide x.1, x.2)⟩ ]

/-- The instructions of class F whose exact values the residue check covers (R142, R171, R177, R179, R451). -/
def Claims.checkedRows : List Claims.LaneRow := Claims.checkedRows1

/-- The per-lane instructions of class V (R55) that always issue, each with the value it leaves in one lane and the flags it sets
(R144, R174 to R176, R188, R189, R238, R260), part 1. -/
def Claims.laterRows1 : List Claims.LaneRow :=
  [ ⟨.frsq, fun v o i => outF (fpRsq (v.f32A o i))⟩,
    ⟨.fexp2, fun v o i => outF (fpExp2 (v.f32A o i))⟩,
    ⟨.flog2, fun v o i => outF (fpLog2 (v.f32A o i))⟩,
    ⟨.fsin, fun v o i => outF (fpTrig false (v.f32A o i))⟩,
    ⟨.fcos, fun v o i => outF (fpTrig true (v.f32A o i))⟩,
    ⟨.ftanh, fun v o i => outF (fpTanh (v.f32A o i))⟩,
    ⟨.shfl, fun v o i => v.slotOut o (modBit o.mod.toNat 2) ((shflSlot (o.mod.toNat % 4) i (v.src32 .int 1 o.b i)).getD i)⟩,
    ⟨.bcast, fun v o _ => v.slotOut o (modBit o.mod.toNat 0) (immNat o.b % 32)⟩,
    ⟨.vote, fun v o _ => out32 (voteValue (o.mod.toNat % 4) (v.passing o) (v.ballot o))⟩,
    ⟨.matchB, fun v o i => out32 (bitsWhere fun j => (v.passing o).getLsbD j && v.slotOut o (modBit o.mod.toNat 0) j = v.slotOut o (modBit o.mod.toNat 0) i)⟩,
    ⟨.tstat, fun v o i => out32 (if (v.s.core v.ic.core).owner = some (v.thread i).blk then (((v.s.core v.ic.core).table? (immNat o.a)).map (·.stat)).getD 0 else 0)⟩,
    ⟨.traceq, fun v o i => out32 (BitVec.ofNat 32 (v.s.rayCode v.w.launch (v.src32 .int 0 o.a i)))⟩ ]

/-- The per-lane instructions of class V (R55) that always issue, each with the value it leaves in one lane and the flags it sets
(R144, R174 to R176, R188, R189, R238, R260). -/
def Claims.laterRows : List Claims.LaneRow := Claims.laterRows1

/-- The instructions of class V whose exact values the residue check covers (R174, R175, R451), part 1. -/
def Claims.checkedLaterRows1 : List Claims.LaneRow :=
  [ ⟨.fdiv, fun v o i => outF (fpDiv (o.mod.toNat % 4) (v.f32A o i) (v.f32B o i))⟩,
    ⟨.frcp, fun v o i => outF (fpRcp (o.mod.toNat % 4) (v.f32A o i))⟩,
    ⟨.fsqrt, fun v o i => outF (fpSqrt (o.mod.toNat % 4) (v.f32A o i))⟩ ]

/-- The instructions of class V whose exact values the residue check covers (R174, R175, R451). -/
def Claims.checkedLaterRows : List Claims.LaneRow := Claims.checkedLaterRows1

/-- R140, R55, R126, R75: every per-lane class-F instruction answers a next state in which each lane whose guard passes holds the
instruction's value in its destination (register v0 and registers not allocated stay as they are), the flags are set, every lane
of the issue set has moved on by 12, and nothing else has changed but the marks on results outstanding for a register written. The
instructions of the FMA pipes do so when no residue mismatches in a lane whose guard passes (R451, R472). -/
def Obligations.ClassFWrites : Prop :=
  (∀ row ∈ Claims.nowRows, ∀ (s : State) (v : View) (o : Operands), s.view? = some v →
    ∃ t, exec (row.ins o) s = .next t ∧ Claims.WroteNow v o (row.val v o) t) ∧
  (∀ row ∈ Claims.checkedRows, ∀ (s : State) (v : View) (o : Operands), s.view? = some v →
    v.fmaMismatch (v.passing o) = none →
    ∃ t, exec (row.ins o) s = .next t ∧ Claims.WroteNow v o (row.val v o) t)

/-- R55, R56, R58: every per-lane class-V instruction, while fewer than 32 results of its wave are outstanding, answers a next
state with its result outstanding and every lane of the issue set moved on by 12; no register or flag has changed. fdiv, frcp and
fsqrt do so when no residue mismatches in a lane whose guard passes (R451, R472). -/
def Obligations.ClassVLeavesResult : Prop :=
  (∀ row ∈ Claims.laterRows, ∀ (s : State) (v : View) (o : Operands), s.view? = some v → v.resultsFull = false →
    ∃ t, exec (row.ins o) s = .next t ∧ Claims.LeftLater v o (orFlags (v.passing o) (row.val v o)) (row.val v o) t) ∧
  (∀ row ∈ Claims.checkedLaterRows, ∀ (s : State) (v : View) (o : Operands), s.view? = some v → v.resultsFull = false →
    v.fmaMismatch (v.passing o) = none →
    ∃ t, exec (row.ins o) s = .next t ∧ Claims.LeftLater v o (orFlags (v.passing o) (row.val v o)) (row.val v o) t)

/-- The logic instructions with what R145 says of each: the result `x` from lop3's table `f`, the operands `a` and `b` and the old
value of the destination. -/
def Claims.logicRows : List ((Operands → Instr) × (Nat → W32 → W32 → W32 → W32 → Prop)) :=
  [ (.andB, fun _ a b _ x => x = a &&& b),
    (.orB, fun _ a b _ x => x = a ||| b),
    (.xorB, fun _ a b _ x => x = a ^^^ b),
    (.andn, fun _ a b _ x => x = a &&& ~~~b),
    (.notB, fun _ a _ _ x => x = ~~~a),
    (.lop3, fun f a b old x => ∀ p, p < 32 →
      x.getLsbD p = f.testBit ((a.getLsbD p).toNat + 2 * (b.getLsbD p).toNat + 4 * (old.getLsbD p).toNat)),
    (.popc, fun _ a _ _ x => x.toNat = (lanesOf a).length),
    (.clz, fun _ a _ _ x => x.toNat ≤ 32 ∧ (∀ k, k < x.toNat → a.getLsbD (31 - k) = false) ∧
      (x.toNat < 32 → a.getLsbD (31 - x.toNat) = true)),
    (.ctz, fun _ a _ _ x => x.toNat ≤ 32 ∧ (∀ k, k < x.toNat → a.getLsbD k = false) ∧ (x.toNat < 32 → a.getLsbD x.toNat = true)),
    (.brev, fun _ a _ _ x => ∀ p, p < 32 → x.getLsbD (31 - p) = a.getLsbD p) ]

/-- R145: each logic instruction writes, in every lane whose guard passes, the value the rule's table gives, bit by bit; lop3's
third input is the old value of its destination. -/
def Claims.Logic : Prop :=
  ∀ row ∈ Claims.logicRows, ∀ (s : State) (v : View) (o : Operands), s.view? = some v →
    ∃ (x : Nat → W32) (t : State), exec (row.1 o) s = .next t ∧ Claims.WroteNow v o (fun i => out32 (x i)) t ∧
      ∀ i, row.2 (immNat o.c) (v.intA o i) (v.intB o i) (v.oldDst o i) (x i)

/-- R144: idiv and irem in every lane whose guard passes, with B ≠ 0 and with B = 0, signed and unsigned (MOD[0]); no flag is set
and no trap is taken. -/
def Claims.Division : Prop :=
  ∀ (s : State) (v : View) (o : Operands), s.view? = some v → v.resultsFull = false →
    (∃ t, exec (.idiv o) s = .next t ∧ Claims.LeftLater v o 0 (fun i => out32 (
      if v.intB o i = 0 then 0xFFFFFFFF
      else if o.mod.getLsbD 0 then v.intA o i / v.intB o i
      else if v.intA o i = 0x80000000 ∧ v.intB o i = 0xFFFFFFFF then 0x80000000
      else BitVec.ofInt 32 ((v.intA o i).toInt.tdiv (v.intB o i).toInt))) t) ∧
    (∃ t, exec (.irem o) s = .next t ∧ Claims.LeftLater v o 0 (fun i => out32 (
      if v.intB o i = 0 then v.intA o i
      else if o.mod.getLsbD 0 then v.intA o i % v.intB o i
      else if v.intA o i = 0x80000000 ∧ v.intB o i = 0xFFFFFFFF then 0
      else BitVec.ofInt 32 ((v.intA o i).toInt - (v.intB o i).toInt * (v.intA o i).toInt.tdiv (v.intB o i).toInt))) t)

/-- The shifts with what R149 says of each for a value of `w` bits and the whole of the count. -/
def Claims.shiftRows : List ((Operands → Instr) × ((w : Nat) → BitVec w → Nat → BitVec w)) :=
  [ (.shl, fun w a n => if n < w then a <<< n else 0),
    (.shr, fun w a n => if n < w then a >>> n else 0),
    (.sra, fun w a n => if n < w then a.sshiftRight n else if a.msb then BitVec.allOnes w else 0),
    (.rotl, fun w a n => a.rotateLeft (n % w)) ]

/-- R149: the shifts by the whole of b taken as unsigned, on 32 bits or with W (MOD[0]) on 64; and a right rotation by n is rotl
by w − n. -/
def Claims.Shifts : Prop :=
  (∀ row ∈ Claims.shiftRows, ∀ (s : State) (v : View) (o : Operands), s.view? = some v →
    ∃ t, exec (row.1 o) s = .next t ∧ Claims.WroteNow v o (fun i =>
      if o.mod.getLsbD 0 then out64 (row.2 64 (v.wideA o i) (v.intB o i).toNat)
      else out32 (row.2 32 (v.intA o i) (v.intB o i).toNat)) t) ∧
  (∀ (n : Nat) (a : W32), n < 32 → a.rotateRight n = a.rotateLeft ((32 - n) % 32)) ∧
  (∀ (n : Nat) (a : W64), n < 64 → a.rotateRight n = a.rotateLeft ((64 - n) % 64))

/-- R144 and R149: integer division and remainder, and the shifts. -/
def Obligations.DivisionAndShifts : Prop := Claims.Division ∧ Claims.Shifts

/-- R155 and R153: pack joins two low or high halves, or two clamped values; mov and movl copy their operand. -/
def Claims.PackAndMoves : Prop :=
  ∀ (s : State) (v : View) (o : Operands), s.view? = some v →
    (∃ t, exec (.pack o) s = .next t ∧ Claims.WroteNow v o (fun i =>
      let a := v.intA o i
      let b := v.intB o i
      out32 (
        if o.mod.toNat % 4 = 0 then (b &&& (0xFFFF : W32)) <<< 16 ||| (a &&& (0xFFFF : W32))
        else if o.mod.toNat % 4 = 1 then (b &&& (0xFFFF0000 : W32)) ||| a >>> 16
        else if o.mod.toNat % 4 = 2 then
          BitVec.ofInt 32 (max (-32768) (min 32767 b.toInt)) <<< 16 ||| (BitVec.ofInt 32 (max (-32768) (min 32767 a.toInt)) &&& (0xFFFF : W32))
        else BitVec.ofInt 32 (max 0 (min 65535 b.toInt)) <<< 16 ||| BitVec.ofInt 32 (max 0 (min 65535 a.toInt)))) t) ∧
    (∃ t, exec (.mov o) s = .next t ∧ Claims.WroteNow v o (fun i => out32 (v.intA o i)) t) ∧
    (∃ t, exec (.movl o) s = .next t ∧ Claims.WroteNow v o (fun i => out64 (v.wideA o i)) t)

/-- R145, R153, R155: the logic instructions, pack and the moves. -/
def Obligations.LogicAndMoves : Prop := Claims.Logic ∧ Claims.PackAndMoves

/-! ### Reductions and scans -/

/-- A network of steps over the 32 slots: each step's values and flags, the flags of every slot of every step joined (R75, R86). -/
def Claims.net (step : Nat → (Nat → W32) → Nat → W32 × FFlags) : List Nat → (Nat → W32) → (Nat → W32) × FFlags
  | [], x => (x, 0)
  | d :: ds, x =>
    let r := Claims.net step ds fun i => (step d x i).1
    (r.1, (List.range 32).foldl (fun f i => f ||| (step d x i).2) 0 ||| r.2)

/-- R86's step of a reduction at the XOR distance `d`: the operation on the values of the lower and the higher of a slot and its
partner. -/
def Claims.fly (op : StepOp) (d : Nat) (x : Nat → W32) (i : Nat) : W32 × FFlags := op (x (min i (i ^^^ d))) (x (max i (i ^^^ d)))

/-- R86's step of a scan at distance `d`. -/
def Claims.sweep (op : StepOp) (d : Nat) (x : Nat → W32) (i : Nat) : W32 × FFlags :=
  if d ≤ i then op (x (i - d)) (x i) else (x i, 0)

/-- The value a slot contributes (R86, R187): its register of field a, or the identity outside the lanes whose guard passes. -/
def Claims.contributes (v : View) (o : Operands) (ident : W32) (i : Nat) : W32 :=
  if (v.passing o).getLsbD i then v.slotA o i 0 else ident

/-- The operation and the identity of each form of the reductions (R86, R190), by MOD. -/
def Claims.reduceRows : List ((Operands → Instr) × (Nat → StepOp × W32)) :=
  [ (.redadd, fun m => if m % 2 = 1 then (quiet (· + ·), 0) else (fpAdd 0, 0x80000000)),
    (.redmin, fun m => if m % 4 = 0 then (fpMin, 0x7F800000) else if m % 4 = 1 then (quiet (aluImin 0), 0x7FFFFFFF)
      else (quiet (aluImin 1), 0xFFFFFFFF)),
    (.redmax, fun m => if m % 4 = 0 then (fpMax, 0xFF800000) else if m % 4 = 1 then (quiet (aluImax 0), 0x80000000)
      else (quiet (aluImax 1), 0)),
    (.redabs, fun _ => (fun x y => fpMax (x &&& 0x7FFFFFFF) (y &&& 0x7FFFFFFF), 0)),
    (.redbit, fun m => if m % 4 = 0 then (quiet (· &&& ·), 0xFFFFFFFF) else if m % 4 = 1 then (quiet (· ||| ·), 0)
      else (quiet (· ^^^ ·), 0)) ]

/-- The operation and the identity of each form of scan (R86, R190), by MOD. -/
def Claims.scanRow (m : Nat) : StepOp × W32 :=
  if m % 8 = 0 then (fpAdd 0, 0x80000000) else if m % 8 = 1 then (quiet (· + ·), 0) else if m % 8 = 2 then (fpMin, 0x7F800000)
  else if m % 8 = 3 then (fpMax, 0xFF800000) else if m % 8 = 4 then (quiet (aluImin 0), 0x7FFFFFFF)
  else if m % 8 = 5 then (quiet (aluImax 0), 0x80000000) else if m % 8 = 6 then (quiet (· ||| ·), 0) else (quiet (· ^^^ ·), 0)

/-- R190, R86, R187: the reductions combine the 32 slots by butterfly at the distances 16, 8, 4, 2, 1 and scan by inclusive
prefixes at 1, 2, 4, 8, 16, with the identity outside the lanes whose guard passes; every lane that is written takes its own
slot's value, and the flags are those of all steps of all slots. -/
def Claims.Reductions : Prop :=
  (∀ row ∈ Claims.reduceRows, ∀ (s : State) (v : View) (o : Operands), s.view? = some v → v.resultsFull = false →
    ∃ t, exec (row.1 o) s = .next t ∧
      let r := Claims.net (Claims.fly (row.2 o.mod.toNat).1) [16, 8, 4, 2, 1] (Claims.contributes v o (row.2 o.mod.toNat).2)
      Claims.LeftLater v o r.2 (fun i => out32 (r.1 i)) t) ∧
  (∀ (s : State) (v : View) (o : Operands), s.view? = some v → v.resultsFull = false →
    ∃ t, exec (.scan o) s = .next t ∧
      let r := Claims.net (Claims.sweep (Claims.scanRow o.mod.toNat).1) [1, 2, 4, 8, 16]
        (Claims.contributes v o (Claims.scanRow o.mod.toNat).2)
      Claims.LeftLater v o r.2 (fun i => out32 (r.1 i)) t)

/-- R86: all slots hold the same bits after the fifth step of a butterfly, and with an operation that is associative and
commutative they are what the operation makes of the 32 values in their order. -/
def Claims.ButterflyAgrees : Prop :=
  (∀ (op : StepOp) (x : Nat → W32) (i : Nat), i < 32 →
    (Claims.net (Claims.fly op) [16, 8, 4, 2, 1] x).1 i = (Claims.net (Claims.fly op) [16, 8, 4, 2, 1] x).1 0) ∧
  (∀ (f : W32 → W32 → W32) (x : Nat → W32), (∀ a b, f a b = f b a) → (∀ a b c, f (f a b) c = f a (f b c)) →
    (Claims.net (Claims.fly (quiet f)) [16, 8, 4, 2, 1] x).1 0 = ((List.range 31).map fun k => x (k + 1)).foldl f (x 0))

/-- R190, R86, R187: the reductions and the scan, and what a butterfly leaves in every slot. -/
def Obligations.CrossLaneReductions : Prop := Claims.Reductions ∧ Claims.ButterflyAgrees

/-! ### Special registers -/

/-- R266, R60, R264, R3: srd leaves the special register's value at issue outstanding, unless the privileged view is not allowed
(R59); clk the issuing core's die counter, with .ord once the wave has no result outstanding and its lanes no command in flight;
interp, in pixel threads, the interpolated attribute. No flag is set. -/
def Claims.SpecialReads : Prop :=
  ∀ (s : State) (v : View) (o : Operands), s.view? = some v → v.resultsFull = false →
    (v.unprivileged o = false → ∃ t, exec (.srd o) s = .next t ∧ Claims.LeftLater v o 0 (fun i =>
      if o.mod.getLsbD 0 then out64 (v.special i (specNum o.a)) else out32 ((v.special i (specNum o.a)).setWidth 32)) t) ∧
    ((o.mod.getLsbD 0 = true → v.outstanding = false ∧ ∀ i, (v.passing o).getLsbD i = true → ∀ c ∈ s.cmds, c.uid ≠ (v.thread i).uid) →
      ∃ t, exec (.clk o) s = .next t ∧ Claims.LeftLater v o 0 (fun _ => out64 (s.dieTime (coreDie v.ic.core))) t) ∧
    ((∀ i, (v.passing o).getLsbD i = true → (v.thread i).pixel.isSome = true) →
      ∃ t, exec (.interp o) s = .next t ∧ Claims.LeftLater v o 0 (fun i =>
        out32 (((v.thread i).pixel.map fun p => p.interp s.free i (o.mod.toNat % 4) (immNat o.a)).getD 0)) t)

/-- R266, R60, R75: swr writes a read-write special register of each lane whose guard passes and ignores the read-only ones, and
every lane of the issue set moves on; on s.fflags each one bit that a lane writes clears its flag and nothing else changes. -/
def Claims.SpecialWrites : Prop :=
  ∀ (s : State) (v : View) (o : Operands), s.view? = some v → v.unprivileged o = false →
    ∃ t, exec (.swr o) s = .next t ∧ { t with waves := s.waves } = s ∧
      (specNum o.a ≠ 0x18 → Claims.Moved v o v.active 0 (fun i x y =>
        y = { (if (v.passing o).getLsbD i then x.setSpecial (specNum o.a) (v.swrValue o i) else x) with pc := v.ic.pc + 12 }) t) ∧
      (specNum o.a = 0x18 → ∃ w, t.wave? v.ic.core v.ic.wslot = some w ∧
        Claims.WaveAfter v o v.active 0 (fun _ x y => y = { x with pc := v.ic.pc + 12 }) { w with fflags := v.w.fflags } ∧
        (∀ c k, (c ≠ v.ic.core ∨ k ≠ v.ic.wslot) → t.wave? c k = s.wave? c k) ∧
        ∀ b, w.fflags.getLsbD b = (v.w.fflags.getLsbD b &&
          (lanesOf (v.passing o)).all fun i => !(v.swrValue o i).getLsbD b))

/-- R266, R60, R264, R3, R75: reading and writing special registers. -/
def Obligations.SpecialRegisters : Prop := Claims.SpecialReads ∧ Claims.SpecialWrites

/-- A fatal record of the context of the issuing threads (R416, R417): the record is delivered to its partition's host and the
context ends. -/
def Claims.Ended (v : View) (r : Rec) (t : State) : Prop := t = (v.s.postFatal (1 + (v.s.ctxOf v.ctx).part) { r with ctx := some v.ctx, part := (v.s.ctxOf v.ctx).part }).endContext v.ctx

/-- R417, R233: a context that ends is ended from then on and nothing of it runs or waits any more; its queues are stopped, its dirty
lines are written back but for lines in error, and memory changes in nothing but the descriptors of those queues and the delivery lanes,
which take the records of the messages that were on their way to it. -/
def Claims.ContextEnds : Prop :=
  ∀ (s : State) (c : Nat) (x : Context), s.ctx? c = some x → x.ended = false →
    let t := s.endContext c
    (t.ctx? c = some { x with ended := true }) ∧
    (∀ d, d ≠ c → t.ctx? d = s.ctx? d) ∧
    (∀ w ∈ t.waves, w ∈ s.waves ∧ (s.launchOf w.launch).ctx ≠ c) ∧
    (∀ b ∈ t.blocks, b ∈ s.blocks ∧ b.ctx ≠ c) ∧
    (∀ l ∈ t.launches, l ∈ s.launches ∧ l.ctx ≠ c) ∧
    (∀ d ∈ t.cmds, d ∈ s.cmds ∧ d.ctx ≠ c) ∧
    (∀ r ∈ t.rays, r ∈ s.rays ∧ r.ctx ≠ c) ∧
    (∀ d ∈ t.display.draws, d ∈ s.display.draws ∧ d.ctx ≠ c) ∧
    (∀ p ∈ t.parts, ∀ r ∈ p.work, r.ofCtx c = false) ∧
    (∀ d ∈ t.dirty, d.tag = c → d.poison = true ∨ s.storage.badDirty.contains d.line = true) ∧
    (t.queues = s.queues.map fun q =>
      if s.queues.any fun r => s.queueCtx r = c && r.q = q.q then { q with slot := none, wait := none, stop := 2 } else q) ∧
    (∀ a, (∀ q ∈ s.queues, s.queueCtx q = c → ¬ (q.qdesc.toNat + 20 ≤ a ∧ a < q.qdesc.toNat + 24)) → ¬ Claims.inLanes s a →
      t.mem.read a = s.mem.read a)

/-! ### Control flow -/

/-- R158, R159, R160, R162: a transfer whose targets pass the checks of R158 moves each lane whose guard passes to its own next PC
and the others on by 12. bra and call go to PC + 12 × disp, brx and callx to the pair of field a, ret to that pair or to v31 in
its own 4 GiB region; call and callx write PC + 12 to v31 and count the call depth up, ret counts it down; loopd writes a − 1 and
branches while that is not zero. Nothing but the waves, and the marks on results outstanding for a register written, changes. -/
def Obligations.Transfers : Prop :=
  ∀ (s : State) (v : View) (o : Operands), s.view? = some v →
    let p := v.passing o
    let passes (q : Mask) (next : Nat → W64) : Prop := ∀ i, q.getLsbD i = true → v.targetFault i (next i) = none
    let near (x : Src) : W64 := v.ic.pc + BitVec.ofInt 64 (12 * dispOf x)
    let far (i : Nat) : W64 := v.src64 0 o.a i
    let back (i : Nat) : W64 :=
      if o.mod.getLsbD 0 then v.src64 0 o.a i else v.ic.pc.extractLsb' 32 32 ++ v.readSlot i 31 (readTag i 0 0)
    let plain (next : Nat → W64) (t : State) : Prop :=
      { t with waves := s.waves } = s ∧ Claims.Branched v o p 0 next (fun i x y => y = { x with pc := next i }) t
    let linked (next : Nat → W64) (t : State) : Prop :=
      Claims.OnlyWaves s t ∧ t.results = s.results.map (Claims.marked v (Claims.writes v p 31 fun _ => 1)) ∧
        Claims.Branched v o p 0 next (fun i x y =>
          Claims.Wrote { x with depth := x.depth + 1 } y (next i) 31 [(v.ic.pc + 12).setWidth 32]) t
    let x (i : Nat) : W32 := v.src32 .int 0 o.a i - 1
    let round (i : Nat) : W64 := if x i ≠ 0 then near o.b else v.ic.pc + 12
    (passes p (fun _ => near o.a) → ∃ t, exec (.bra o) s = .next t ∧ plain (fun _ => near o.a) t) ∧
    (passes p far → ∃ t, exec (.brx o) s = .next t ∧ plain far t) ∧
    (passes p (fun _ => near o.a) → ∃ t, exec (.call o) s = .next t ∧ linked (fun _ => near o.a) t) ∧
    (passes p far → ∃ t, exec (.callx o) s = .next t ∧ linked far t) ∧
    (passes p back → ∃ t, exec (.ret o) s = .next t ∧ { t with waves := s.waves } = s ∧
      Claims.Branched v o p 0 back (fun i x y => y = { x with pc := back i, depth := x.depth - 1 }) t) ∧
    (v.resultsFull = false → (∀ i, p.getLsbD i = true → x i ≠ 0 → v.targetFault i (near o.b) = none) →
      ∃ t, exec (.loopd o) s = .next t ∧ Claims.OnlyWaves s t ∧
        t.results = s.results.map (Claims.marked v (Claims.writes v p o.dst.reg.toNat fun _ => 1)) ∧
        Claims.Branched v o p 0 round (fun i y z => Claims.Wrote y z (round i) o.dst.reg.toNat [x i]) t)

/-- R161, R20, R25: exit ends the threads of the lanes whose guard passes, which keep their registers, leave every rejoin entry,
and change in nothing else; the other lanes of the issue set advance. Where no thread ends that holds its ordered section nothing
but the waves changes; where one does, a record is delivered (R226). -/
def Claims.ThreadsEnd : Prop :=
  ∀ (s : State) (v : View) (o : Operands), s.view? = some v →
    ∃ t w, exec (.exit o) s = .next t ∧ t.wave? v.ic.core v.ic.wslot = some w ∧
      Claims.Accessed s t (Claims.inLanes s) ∧ t.results = s.results ∧
      ((∀ i, (v.passing o).getLsbD i = true → (v.thread i).holds = false) → { t with waves := s.waves } = s) ∧
      (∀ c k, (c ≠ v.ic.core ∨ k ≠ v.ic.wslot) → t.wave? c k = s.wave? c k) ∧
      { w with slots := v.w.slots, rejoin := v.w.rejoin, marker := v.w.marker, skips := v.w.skips } = v.w ∧
      (∀ i x, v.w.live? i = some x → w.slot i =
        if (v.passing o).getLsbD i then .exited x else if v.active.getLsbD i then .live { x with pc := v.ic.pc + 12 } else .live x) ∧
      (∀ i, v.w.live? i = none → w.slot i = v.w.slot i) ∧
      (∀ e ∈ w.rejoin, e.armed = true → ∀ i, i < 32 → (v.passing o).getLsbD i = true → e.m.getLsbD i = false)

/-- R24: arming an entry changes exactly one: the armed one with that target, which keeps holding those it held of the new mask;
else the lowest-numbered disarmed one; else the oldest, which releases its threads. It is then the newest of the armed entries. -/
def Claims.ArmsOneEntry : Prop :=
  ∀ (es : List Rejoin) (pc : W64) (m : Mask) (a : W64) (d : W16), es ≠ [] →
    ∃ k e n, es[k]? = some e ∧
      armRejoin es pc m a d = es.set k ⟨true, pc, m, a, d, n, if e.armed ∧ e.t = pc then e.held &&& m else 0⟩ ∧
      (∀ x ∈ es, x.armed = true → x.order < n) ∧
      ((∃ x ∈ es, x.armed = true ∧ x.t = pc) → e.armed = true ∧ e.t = pc) ∧
      ((∀ x ∈ es, x.armed = true → x.t ≠ pc) → (∃ x ∈ es, x.armed = false) →
        e.armed = false ∧ ∀ j x, j < k → es[j]? = some x → x.armed = true) ∧
      ((∀ x ∈ es, x.armed = true ∧ x.t ≠ pc) → ∀ x ∈ es, e.order ≤ x.order)

/-- R161, R20, R24, R25: the end of threads, and the entry that an arming takes. -/
def Obligations.ThreadsEndAndRejoin : Prop := Claims.ArmsOneEntry ∧ Claims.ThreadsEnd

/-- R164, R166, R167, R201: rejoin arms one entry for the whole issue set, from the lowest lane whose guard passes, or none when
there is no such lane; yield makes the wave be passed over n + 1 times; nop and pf have no effect; brkp is a nop unless a debugger
with breakpoints enabled is attached to the context, and then the wave halts with its code. In all of them the issue set advances
and nothing but the wave changes. -/
def Claims.QuietControl : Prop :=
  ∀ (s : State) (v : View) (o : Operands), s.view? = some v →
    (v.passing o = 0 → ∃ t, exec (.rejoin o) s = .next t ∧ { t with waves := s.waves } = s ∧ Claims.Advanced v o v.active t) ∧
    (v.passing o ≠ 0 → ∃ t, exec (.rejoin o) s = .next t ∧ { t with waves := s.waves } = s ∧
      let l := lowestLane (v.passing o)
      let w : Wave := { v.w with rejoin := armRejoin v.w.rejoin (v.ic.pc + BitVec.ofInt 64 (12 * dispOf o.b))
                                   (v.src32 .int 0 o.a l &&& v.w.occupied) v.ic.pc (v.thread l).depth }
      Claims.Advanced { v with w := w } o v.active t) ∧
    (∃ t, exec (.nop o) s = .next t ∧ { t with waves := s.waves } = s ∧ Claims.Advanced v o v.active t) ∧
    (∃ t, exec (.pf o) s = .next t ∧ { t with waves := s.waves } = s ∧ Claims.Advanced v o v.active t) ∧
    (∃ t w, exec (.yield o) s = .next t ∧ { t with waves := s.waves } = s ∧ t.wave? v.ic.core v.ic.wslot = some w ∧
      (∀ c k, (c ≠ v.ic.core ∨ k ≠ v.ic.wslot) → t.wave? c k = s.wave? c k) ∧
      Claims.WaveAfter v o v.active 0 (fun _ x y => y = { x with pc := v.ic.pc + 12 })
        { w with skips := if o.yld then 1 else v.w.skips } ∧
      w.skips = if v.passing o = 0 then (if o.yld then 1 else v.w.skips) else immNat o.a + 1) ∧
    ((v.passing o = 0 ∨ v.breakable = false) → ∃ t, exec (.brkp o) s = .next t ∧ { t with waves := s.waves } = s ∧
      Claims.Advanced v o v.active t) ∧
    (v.passing o ≠ 0 → v.breakable = true → ∃ t w, exec (.brkp o) s = .next t ∧ { t with waves := s.waves } = s ∧
      t.wave? v.ic.core v.ic.wslot = some w ∧ (∀ c k, (c ≠ v.ic.core ∨ k ≠ v.ic.wslot) → t.wave? c k = s.wave? c k) ∧
      w.halt = ⟨1, 1, BitVec.ofNat 16 (immNat o.a)⟩ ∧
      Claims.WaveAfter v o v.active 0 (fun _ x y => y = { x with pc := v.ic.pc + 12 }) { w with halt := v.w.halt })

/-- R163: jtbl, where its record and its table are readable, sends each lane whose index lies in the extent to
PC + 12 × its entry, and the others on by 12. -/
def Claims.TableJump : Prop :=
  ∀ (s : State) (v : View) (o : Operands) (ws : List W32) (ps : List Piece), s.view? = some v → v.passing o ≠ 0 →
    v.poolRecord o.b = .ok ws → plainOk ws = true → (recBase ws).toNat % 4 = 0 →
    let reads := v.tableReads o (v.passing o) ws
    let u : View := { v with s := v.touchPieces v.s ps }
    let inTable (i : Nat) : Bool := 4 * (v.src32 .int 0 o.a i).toNat + 4 ≤ recExtent ws
    let next (i : Nat) : W64 :=
      if inTable i then v.ic.pc + 12 * (BitVec.ofNat 32 (bytesNat (u.laneBytes ps i))).signExtend 64 else v.ic.pc + 12
    addressFault 4 reads = none → s.lanePieces v.ctx v.accLoad false 4 reads = .ok ps → s.badLine v.part true ps = none →
    (∀ i, (v.passing o).getLsbD i = true → inTable i = true → v.targetFault i (next i) = none) →
    ∃ t, exec (.jtbl o) s = .next t ∧ t.results = s.results ∧
      Claims.Accessed s t (fun a => Claims.onItsWay s a ∨ Claims.inLanes s a) ∧
      Claims.Branched v o (v.passing o) 0 next (fun i x y => y = { x with pc := next i }) t

/-- R163, R164, R166, R167, R201: the control instructions that do not transfer, and the table jump. -/
def Obligations.ControlAndTableJump : Prop := Claims.QuietControl ∧ Claims.TableJump

/-- Faults whose record ends the context (R416, R417), each taken for the first lane that causes it, with none of the
instruction's effect: srd and swr of the privileged view in a context that is not privileged (R59); brx and callx to a target that is
not a multiple of 4 (R158, R23); bar, bara and barw of a barrier above nb95 (R221); amsg with a reserved header bit set (R229). -/
def Claims.FaultsEndTheContext : Prop :=
  (∀ (s : State) (v : View) (o : Operands), s.view? = some v → (s.ctxOf v.ctx).priv = false → v.passing o ≠ 0 → 0x4000 ≤ specNum o.a →
    (∃ t, exec (.srd o) s = .next t ∧ Claims.Ended v (v.faultRec (lowestLane (v.passing o)) 0x21) t) ∧
    (∃ t, exec (.swr o) s = .next t ∧ Claims.Ended v (v.faultRec (lowestLane (v.passing o)) 0x21) t)) ∧
  (∀ (s : State) (v : View) (o : Operands), s.view? = some v → v.passing o ≠ 0 →
    (v.src64 0 o.a (lowestLane (v.passing o))).toNat % 4 ≠ 0 →
    ∀ c ∈ [Instr.brx, Instr.callx], ∃ t, exec (c o) s = .next t ∧ Claims.Ended v
      { v.faultRec (lowestLane (v.passing o)) 0x24 with va := v.src64 0 o.a (lowestLane (v.passing o)) } t) ∧
  (∀ (s : State) (v : View) (o : Operands) (i : Nat), s.view? = some v → (v.passing o).getLsbD i = true →
    95 < (v.src32 .int 0 o.a i).toNat → v.resultsFull = false →
    ∀ c ∈ [Instr.bar, Instr.bara, Instr.barw], ∃ t j, exec (c o) s = .next t ∧ j ≤ i ∧ Claims.Ended v (v.faultRec j 0x2B) t) ∧
  (∀ (s : State) (v : View) (o : Operands) (i : Nat), s.view? = some v → (v.passing o).getLsbD i = true →
    wordAt (v.srcQuad 0 o.a i) 0 &&& 0xFFFEF000 ≠ 0 →
    ∃ t j, exec (.amsg o) s = .next t ∧ j ≤ i ∧ Claims.Ended v (v.faultRec j 0x29) t)

/-- R416, R417: which faults end the context, and what the end of a context leaves. -/
def Obligations.FaultsEndContexts : Prop := Claims.ContextEnds ∧ Claims.FaultsEndTheContext

/-! ### User traps and system calls -/

/-- What a user trap does to a thread (R268): the saved PC, the cause, the syndrome and the unit, the call depth up by one, the
handler's PC, and the thread in its handler; every other register stays. -/
def Claims.Trapped (cause synd unit : W32) (tpc : W64) (x y : Thread) : Prop :=
  y = { x with tpc := tpc, tcause := cause, synd := synd, unit := unit, depth := x.depth + 1, inHandler := true, pc := x.tvec
               wait := .ready }

/-- R268, R269: trap, with no result of the wave outstanding and every trapping lane able to enter its handler, sends each lane
whose guard passes to s.tvec with cause 1, the code as its syndrome and PC + 12 saved; the other lanes advance. With results
outstanding the lanes wait for them with the trap noted, and the wave as at a switch marker. A thread without a trap vector, or in its handler, ends its context
instead, with "unhandled user trap" or "nested user trap". -/
def Claims.UserTrap : Prop :=
  (∀ (s : State) (v : View) (o : Operands), s.view? = some v →
    let code : W32 := BitVec.ofNat 32 (immNat o.a)
    (v.outstanding = false → (∀ i, (v.passing o).getLsbD i = true → (v.thread i).tvec ≠ 0 ∧ (v.thread i).inHandler = false) →
      ∃ t w, exec (.trap o) s = .next t ∧ { t with waves := s.waves } = s ∧ t.wave? v.ic.core v.ic.wslot = some w ∧
        (∀ c k, (c ≠ v.ic.core ∨ k ≠ v.ic.wslot) → t.wave? c k = s.wave? c k) ∧
        ∀ i x, v.w.live? i = some x → ∃ y, w.slot i = .live y ∧
          if (v.passing o).getLsbD i then Claims.Trapped 1 code 0 (v.ic.pc + 12) x y
          else if v.active.getLsbD i then y = { x with pc := v.ic.pc + 12 } else y = x) ∧
    (v.outstanding = true → ∃ t w, exec (.trap o) s = .next t ∧ { t with waves := s.waves } = s ∧ t.wave? v.ic.core v.ic.wslot = some w ∧
        (v.passing o ≠ 0 → w.marker = true) ∧
        ∀ i x, v.w.live? i = some x → ∃ y, w.slot i = .live y ∧
          if (v.passing o).getLsbD i then y = { x with wait := .trap 1 code 0 (v.ic.pc + 12) }
          else if v.active.getLsbD i then y = { x with pc := v.ic.pc + 12 } else y = x)) ∧
  (∀ (s : State) (core wslot lane : Nat) (w : Wave) (x : Thread) (cause synd unit : W32) (tpc : W64),
    s.wave? core wslot = some w → w.live? lane = some x → s.drained core wslot = true → (x.tvec = 0 ∨ x.inHandler = true) →
    s.takeTrap core wslot lane cause synd unit tpc = s.fatal (s.blockOf x.blk).ctx
      { kind := if x.tvec = 0 then 0x2E else 0x2F, die := coreDie core, pc := x.pc
        loc := locWord core wslot lane (s.blockOf x.blk).bslot })

/-- R268: tret in a handler, with no result of the wave outstanding, restores the saved PC, counts the call depth down and leaves
the handler, in each lane whose guard passes; outside a handler it takes the stage fault, and with results outstanding it waits as
at a switch marker. -/
def Claims.TrapReturn : Prop :=
  ∀ (s : State) (v : View) (o : Operands), s.view? = some v → v.passing o ≠ 0 →
    ((∀ i, (v.passing o).getLsbD i = true → (v.thread i).inHandler = true) →
      (v.outstanding = false → ∃ t, exec (.tret o) s = .next t ∧ { t with waves := s.waves } = s ∧
        Claims.Branched v o (v.passing o) 0 (fun i => (v.thread i).tpc) (fun i x y =>
          y = { x with pc := (v.thread i).tpc, depth := x.depth - 1, inHandler := false }) t) ∧
      (v.outstanding = true → ∃ t, exec (.tret o) s = .next t ∧ Claims.Marked v t)) ∧
    (∀ i, (v.passing o).getLsbD i = true → (v.thread i).inHandler = false → ∃ t j, exec (.tret o) s = .next t ∧
      (v.passing o).getLsbD j = true ∧ (v.thread j).inHandler = false ∧ Claims.Ended v (v.faultRec j 0x2D) t)

/-- R268, R269: entering a user trap handler, and returning from it. -/
def Obligations.UserTraps : Prop := Claims.UserTrap ∧ Claims.TrapReturn

/-- R267, R414: sysc, while the replayable ring of its partition's host has room, delivers a "system call" record with its number
and the lowest lane, and its threads wait for the record's completion at PC + 12; the other lanes advance. With the ring full the
instruction waits in issue. -/
def Obligations.SystemCall : Prop :=
  ∀ (s : State) (v : View) (o : Operands), s.view? = some v → v.passing o ≠ 0 →
    (s.replayFull (1 + v.part) = false → ∃ t w, exec (.sysc o) s = .next t ∧ t.results = s.results ∧
      t.wave? v.ic.core v.ic.wslot = some w ∧ (∀ c k, (c ≠ v.ic.core ∨ k ≠ v.ic.wslot) → t.wave? c k = s.wave? c k) ∧
      (∀ i x, v.w.live? i = some x → ∃ y, w.slot i = .live y ∧
        if (v.passing o).getLsbD i then y = { x with pc := v.ic.pc + 12, wait := .sysc (1 + v.part) (s.owner (1 + v.part)).rseq }
        else if v.active.getLsbD i then y = { x with pc := v.ic.pc + 12 } else y = x) ∧
      { t with waves := s.waves } = (s.postReplay (1 + v.part)
        { v.faultRec (lowestLane (v.passing o)) 0x04 with ctx := some v.ctx, part := v.part, synd := BitVec.ofNat 32 (immNat o.a) }).1 ∧
      Claims.Accessed s t (Claims.inLanes s)) ∧
    (s.replayFull (1 + v.part) = true → ∃ t, exec (.sysc o) s = .next t ∧
      Claims.Parked v s v.active (fun _ => .retry (.replayRing (1 + v.part))) t)

/-! ### Loads and stores -/

/-- R198, R199, R200, R205, R196: a load whose checks pass in every lane leaves its result outstanding, and the issue set
advances. ld and ldf read at the lanes' addresses, ldp in a pool buffer at those in extent (the other lanes read zeros), ldk
through the constant cache. While no lane's guard passes, ldp does nothing but advance. -/
def Obligations.Loads : Prop :=
  ∀ (s : State) (v : View) (o : Operands) (ps : List Piece), s.view? = some v → v.resultsFull = false →
    let p := v.passing o
    let k := o.mod.toNat % 8
    let out (stack : Bool) (f : LoadForm) (reads : List (Nat × W64)) (lane : Nat) : LaneResult :=
      View.loadLane { v with s := v.touchPieces s (stackPieces stack ps) } v o f (stackPieces stack ps) reads lane
    let own (ea : Nat → W64) : List (Nat × W64) := laneAddrs p ea
    (Claims.Ready v v.accLoad (flagOf o.c).isSome true false (widthBytes k) (own (v.globalEa o)) ps →
      ∃ t, exec (.ld o) s = .next t ∧ Claims.Advanced v o v.active t ∧
        Claims.Loaded v ((lanesOf p).map (out false ⟨k, flagOf o.c, ordScope o, false⟩ (own (v.globalEa o)))) t) ∧
    (∀ reads, v.poolBuffer o p (widthBytes k) = .ok reads → p ≠ 0 →
      Claims.Ready v v.accLoad (flagOf o.c).isSome true false (widthBytes k) reads ps →
      ∃ t, exec (.ldp o) s = .next t ∧ Claims.Advanced v o v.active t ∧
        Claims.Loaded v ((lanesOf p).map (out false ⟨k, flagOf o.c, ordScope o, false⟩ reads)) t) ∧
    (p = 0 → ∃ t, exec (.ldp o) s = .next t ∧ { t with waves := s.waves } = s ∧ Claims.Advanced v o v.active t) ∧
    (misaligned (widthBytes k) (own (v.globalEa o)) = none →
      Claims.Ready v v.accLoad false true false (widthBytes k) (own (v.globalEa o)) ps →
      ∃ t, exec (.ldk o) s = .next t ∧ Claims.Advanced v o v.active t ∧
        Claims.Loaded v (Claims.lanesOut v o fun i =>
          (widthExtend k ((ps.filter (·.lane = i)).flatMap v.constBytes), 0)) t) ∧
    (v.launch.stack ≠ 0 → (∀ i, p.getLsbD i = true → (v.thread i).slim.toNat ≤ (v.stackEa o i).toNat) →
      misaligned (widthBytes k) (own (v.stackEa o)) = none →
      Claims.Ready v v.accLoad false true true (widthBytes k) (own (v.stackEa o)) ps →
      ∃ t, exec (.ldf o) s = .next t ∧ Claims.Advanced v o v.active t ∧
        Claims.Loaded v ((lanesOf p).map (out true ⟨k, none, none, true⟩ (own (v.stackEa o)))) t)

/-- R100, R103, R92, R305: where a core's copies are all fresh, none of its own writes is on its way nor any strongly ordered one, every
line read has been written at the slice where the mapping homes it or nowhere, and no byte read on an unordered page has changed since
the launch, the bytes a load reads of its local pieces are memory's. -/
def Obligations.LoadReadsMemory : Prop :=
  ∀ (s : State) (v : View) (ps : List Piece), s.view? = some v →
    (∀ x ∈ s.l1, x.core = v.ic.core → x.data = s.mem.readRun (x.line * 128) 128) →
    (∀ w ∈ s.writes, w.uid ≠ 0 → w.agent.core ≠ some v.ic.core ∧ w.so = false) →
    (∀ p ∈ ps, ∀ t, p.tr = some t → isRemote p.pa = false ∧ p.pa + p.len ≤ s.usable ∧
      (∀ a, p.pa ≤ a → a < p.pa + p.len → s.aliasedAt (homeSlice (s.domain (some v.part)) t.tgeo a) a = false) ∧
      (t.kind = 2 → ∀ x ∈ s.past, p.pa ≤ x.pa → x.pa < p.pa + p.len → x.at_ < v.since p.lane)) →
    ∀ p ∈ ps, ({ v with s := v.touchPieces s ps } : View).pieceBytes p =
      if p.tr.isSome then s.mem.readRun p.pa p.len else List.replicate p.len 0

/-- The writes that the pieces of a store of `n` bytes send on their way: addresses and bytes, each a unit that is performed at once
(R90): of eight bytes at most where the lane's address is naturally aligned, of one byte where it is not. -/
def Claims.sent (n : Nat) (ps : List Piece) (data : Nat → List Byte) : List (Nat × List Byte) :=
  ps.flatMap fun p =>
    if p.tr.isSome then
      splitUnits (if (p.va - BitVec.ofNat 64 p.off).toNat % min n 16 = 0 then min n 8 else 1) (p.len + 1) p.pa
        (((data p.lane).drop p.off).take p.len)
    else []

/-- A store of `n` bytes without ordering to local pages of the kinds RC and UO leaves memory as it is and sends its bytes on their
way (R90, R105). -/
def Claims.LeavesHome (v : View) (n : Nat) (ps : List Piece) (data : Nat → List Byte) (t : State) : Prop :=
  (∀ p ∈ ps, ∀ x, p.tr = some x → x.kind ≠ 0 ∧ isRemote p.pa = false) →
    t.mem = v.s.mem ∧ t.writes.take v.s.writes.length = v.s.writes ∧
      (t.writes.drop v.s.writes.length).map (fun w => (w.addr, w.data)) = Claims.sent n ps data

/-- R198, R199, R205, R265, R105, R457, R93: a store whose checks pass in every lane and whose pages the core's write-range registers
take advances the issue set and leaves no result; its bytes are the lanes' data, and memory changes nowhere but at the bytes
stored to and at writes that were on their way. A release waits while an earlier write of the core is held at its slice; a store
that no lane performs has none. Where the pages are local and of the kinds RC or UO, as stf and pxout take every page, the bytes go on
their way. -/
def Claims.Stores : Prop :=
  ∀ (s u : State) (v : View) (o : Operands) (ps : List Piece), s.view? = some v →
    let p := v.passing o
    let k := o.mod.toNat % 8
    let done (n : Nat) (ps : List Piece) (data : Nat → List Byte) (i : Instr) : Prop :=
      s.noteWrite v.ic.core v.ctx (pieceVpages ps) = some u →
      ∃ t, exec i s = .next t ∧ Claims.Advanced v o v.active t ∧ Claims.Stored v u ps t ∧
        ((∀ q, i ≠ .st q ∧ i ≠ .stp q) ∨ ordScope o = none → Claims.LeavesHome v n ps data t)
    let targets (i : Nat) : List W32 := (((v.thread i).pixel.bind fun q => s.draw? q.draw).map (·.targets)).getD []
    let covers : List Nat := (lanesOf p).filter fun i =>
      (v.thread i).pixel.any fun q => q.covered && (s.draw? q.draw).isSome
    let drawn : Option Nat := (lanesOf p).find? fun i => (v.thread i).pixel.any fun q => (s.draw? q.draw).isSome
    let fmt : Nat := (drawn.map fun i => targetFmt (targets i) (immNat o.b)).getD 0
    let pixels : List (Nat × W64) := covers.map fun i =>
      (i, ((v.thread i).pixel.map fun q => targetPixel (targets i) (immNat o.b) q.x q.y).getD 0)
    ((p = 0 ∨ v.heldRelease (ordScope o) = false) →
      Claims.Ready v v.accStore false false false (widthBytes k) (laneAddrs p (v.globalEa o)) ps →
      done (widthBytes k) ps (v.storeData k o.c) (.st o)) ∧
    (∀ dests, (dests = [] ∨ v.heldRelease (ordScope o) = false) → v.poolBuffer o p (widthBytes k) = .ok dests → p ≠ 0 →
      Claims.Ready v v.accStore false false false (widthBytes k) dests ps → done (widthBytes k) ps (v.storeData k o.c) (.stp o)) ∧
    (p = 0 → ∃ t, exec (.stp o) s = .next t ∧ { t with waves := s.waves } = s ∧ Claims.Advanced v o v.active t) ∧
    (v.launch.stack ≠ 0 → (∀ i, p.getLsbD i = true → (v.thread i).slim.toNat ≤ (v.stackEa o i).toNat) →
      misaligned (widthBytes k) (laneAddrs p (v.stackEa o)) = none →
      Claims.Ready v v.accStore false false true (widthBytes k) (laneAddrs p (v.stackEa o)) ps →
      done (widthBytes k) (stackPieces true ps) (v.storeData k o.c) (.stf o)) ∧
    ((∀ i, p.getLsbD i = true → (v.thread i).pixel.isSome = true) →
      Claims.Ready v v.accStore false false true (targetBytes fmt) pixels ps →
      done (targetBytes fmt) (stackPieces true ps) (fun i => pixelBytes fmt (v.srcQuad 0 o.a i)) (.pxout o))

/-- R205, R289: a stack access whose lanes' addresses lie below s.slim, or in a thread without a stack, makes no access, and the
lanes whose guard passes take the stack-limit trap with the access's bytes as its syndrome and the PC of the instruction saved. -/
def Claims.StackLimit : Prop :=
  ∀ (s : State) (v : View) (o : Operands), s.view? = some v → v.outstanding = false →
    (v.launch.stack = 0 ∨ ((∀ i, (v.passing o).getLsbD i = true → (v.stackEa o i).toNat < (v.thread i).slim.toNat) ∧
      addressFault (widthBytes (o.mod.toNat % 8)) (laneAddrs (v.passing o) (v.stackEa o)) = none ∧
      misaligned (widthBytes (o.mod.toNat % 8)) (laneAddrs (v.passing o) (v.stackEa o)) = none)) →
    (∀ i, (v.passing o).getLsbD i = true → (v.thread i).tvec ≠ 0 ∧ (v.thread i).inHandler = false) →
    ∃ t w, exec (.stf o) s = .next t ∧ { t with waves := s.waves } = s ∧ t.wave? v.ic.core v.ic.wslot = some w ∧
      ∀ i x, v.w.live? i = some x → ∃ y, w.slot i = .live y ∧
        if (v.passing o).getLsbD i then
          Claims.Trapped 5 (BitVec.ofNat 32 (widthBytes (o.mod.toNat % 8))) (BitVec.ofNat 32 (3 + 65536 * v.ic.core)) v.ic.pc x y
        else if v.active.getLsbD i then y = { x with pc := v.ic.pc + 12 } else y = x

/-- R198, R199, R205, R265, R105, R289: the stores, and the stack limit. -/
def Obligations.StoresAndStackLimit : Prop := Claims.Stores ∧ Claims.StackLimit

/-! ### Scratchpads and stash windows -/

/-- The byte that the lanes of a scratchpad store leave at an offset of a block: that of the highest lane that writes it. -/
def Claims.lastWrite (l : List ScrAccess) (n : Nat) (data : Nat → List Byte) (blk a : Nat) : Option Byte :=
  (l.reverse.find? fun x => x.blk.key = blk && x.off ≤ a && a < x.off + n).map fun x => (data x.lane).getD (a - x.off) 0

/-- R204, R208, R109, R91: lds and sts whose checks pass in every lane and that wait for no command. lds leaves its result
outstanding; sts writes each lane's data at its target, the highest lane's byte remaining. Away from stash windows nothing else
changes but the tables built from bytes written; through a window, memory changes nowhere but at the bytes stored to and at
writes that were on their way. -/
def Claims.ScratchAccess : Prop :=
  ∀ (s : State) (v : View) (o : Operands) (l : List ScrAccess) (parts : List ScrPart) (ws : List (ScrPart × Piece)),
    s.view? = some v →
    let k := o.mod.toNat % 8
    let addrs := (lanesOf (v.passing o)).map fun i => (i, (v.src32 .int 0 o.a i + v.src32 .int 1 o.b i).toNat)
    (v.resultsFull = false → v.scrReady (widthBytes k) false v.accLoad addrs = .ok (l, parts, ws) →
      ∃ t, exec (.lds o) s = .next t ∧ Claims.Advanced v o v.active t ∧ Claims.ScrAccessed s t (Claims.reach s []) ∧
        t.results = Claims.withResult v (Claims.lanesOut v o fun i =>
          (widthExtend k (({ v with s := ws.foldl v.fillWindow s } : View).scrBytes parts ws i), 0)) 0 ∧
        (ws = [] → Claims.OnlyWaves s t)) ∧
    (∀ u, v.scrReady (widthBytes k) true v.accStore addrs = .ok (l, parts, ws) →
      s.noteWrite v.ic.core v.ctx (pieceVpages (ws.map (·.2))) = some u →
      ∃ t, exec (.sts o) s = .next t ∧ Claims.Advanced v o v.active t ∧ t.results = s.results ∧
        Claims.ScrAccessed u t (Claims.reach s (ws.map (·.2))) ∧
        (ws = [] → { t with waves := s.waves, blocks := s.blocks, cores := s.cores } = s ∧
          ∀ b x, s.block? b = some x → ∃ y, t.block? b = some y ∧ { y with scratch := x.scratch, peers := x.peers } = x ∧
            ∀ a, y.scratch.read a = (Claims.lastWrite l (widthBytes k) (v.storeData k o.c) b a).getD (x.scratch.read a)))

/-- R207, R208: smap of the lowest lane whose guard passes unmaps its window and, when the checks pass and no command in flight
touches the range, maps it with no line filled; swb leaves the named windows' lines clean, and sinv unmaps them with every byte
of the scratchpad as it was. Only the block's windows change, and while no lane's guard passes nothing does. -/
def Claims.StashWindows : Prop :=
  ∀ (s : State) (v : View) (o : Operands), s.view? = some v →
    let l := lowestLane (v.passing o)
    let k := (v.thread l).blk
    let w := o.mod.toNat % 16
    let addr := (v.src32 .int 1 o.b l).toNat
    let len := (v.src32 .int 2 o.c l).toNat
    let windows (f : List Stash → List Stash) (t : State) : Prop :=
      t = { s with waves := t.waves, blocks := s.blocks.map fun b => if b.key = k then { b with stash := f b.stash } else b } ∧
        Claims.Advanced v o v.active t
    let same (t : State) : Prop := { t with waves := s.waves } = s ∧ Claims.Advanced v o v.active t
    (v.passing o = 0 → (∃ t, exec (.smap o) s = .next t ∧ same t) ∧ (∃ t, exec (.swb o) s = .next t ∧ same t) ∧
      ∃ t, exec (.sinv o) s = .next t ∧ same t) ∧
    (v.passing o ≠ 0 → addressFault len [(l, v.src64 0 o.a l)] = none →
      v.smapOk ((s.unmap k fun x => x.win = w).blockOf k) (v.src64 0 o.a l) addr len = true →
      s.scoreAny k (addr % 2 ^ 19) len = false →
      ∃ t, exec (.smap o) s = .next t ∧
        windows (fun ws => ws.filter (fun x => !(x.win = w)) ++ [⟨w, v.src64 0 o.a l, addr % 2 ^ 19, len, [], []⟩]) t) ∧
    (v.passing o ≠ 0 → ∃ t, exec (.swb o) s = .next t ∧
      windows (fun ws => ws.map fun x => if namesWindow o x then { x with dirty := [] } else x) t) ∧
    (v.passing o ≠ 0 → ∃ t, exec (.sinv o) s = .next t ∧ windows (fun ws => ws.filter fun x => !namesWindow o x) t)

/-- R204, R207, R208: scratchpad accesses, and stash windows. -/
def Obligations.ScratchAndStash : Prop := Claims.ScratchAccess ∧ Claims.StashWindows

/-! ### Atomics -/

/-- R218, R219, R106: the new value of each operation on `w`-bit values, by its number and its unsigned bit; and a lane's atomic on
a local location inside the installed memory of which no write of its core is on its way returns what the location held and leaves
there the new value, least byte first, with every other byte of memory as it was. -/
def Claims.AtomicSemantics : Prop :=
  (∀ (w : Nat) (a b : BitVec w) (u : Bool), 0 < w →
    let new (op : Nat) : Nat := atomNew (if u then op + 8 else op) w a.toNat b.toNat
    new 0 = (a + b).toNat ∧
    new 1 = (if u then min a.toNat b.toNat else (if b.toInt < a.toInt then b.toNat else a.toNat)) ∧
    new 2 = (if u then max a.toNat b.toNat else (if a.toInt < b.toInt then b.toNat else a.toNat)) ∧
    new 3 = (a &&& b).toNat ∧ new 4 = (a ||| b).toNat ∧ new 5 = (a ^^^ b).toNat ∧ new 6 = b.toNat) ∧
  (∀ (s : State) (v : View) (f : Nat → Nat → Nat) (l : List (Nat × Nat)) (p : Piece),
    isRemote p.pa = false → p.pa + p.len ≤ s.usable →
    (∀ w ∈ s.writes, w.uid ≠ 0 → w.agent.core ≠ some v.ic.core ∧ w.so = false) →
    (∀ a, p.pa ≤ a → a < p.pa + p.len → s.aliasedAt (v.slices ((p.tr.map (·.tgeo)).getD 0) a) a = false) →
    let old := bytesNat (s.mem.readRun p.pa p.len)
    let r := v.atomPiece f (s, l) p
    r.2 = l ++ [(p.lane, old)] ∧ r.1.mem.readRun p.pa p.len = natBytes p.len (f p.lane old) ∧
      (∀ a, a < p.pa ∨ p.pa + p.len ≤ a → r.1.mem.read a = s.mem.read a))

/-- R217, R219, R106, R107: an atomic on global memory whose checks pass in every lane, with no result slot wanting and no held
write before its release, advances the issue set; memory changes nowhere but at its locations and at writes that were on their
way. atom, cas and atomsc leave the old values outstanding, the lanes performed in ascending order; atomr leaves nothing. -/
def Claims.Atomics : Prop :=
  ∀ (s u : State) (v : View) (o : Operands) (ps : List Piece), s.view? = some v →
    v.atomReady (atomBytes o) (laneAddrs (v.passing o) fun i => v.src64 0 o.a i) = .ok ps →
    s.noteWrite v.ic.core v.ctx (pieceVpages ps) = some u →
    let ord := v.atomOrd o
    let both : Option Nat := if v.passing o = 0 then none else some 4
    let before (rel : Option Nat) : State := match rel with
      | some sc => (v.cachePieces u ps).release v.ic.core sc
      | none => v.cachePieces u ps
    let done (rel : Option Nat) (f : Nat → Nat → Nat) (i : Instr) : Prop := v.heldRelease rel = false → v.resultsFull = false →
      ∃ t, exec i s = .next t ∧ Claims.Advanced v o v.active t ∧ Claims.Accessed u t (Claims.reach s ps) ∧
        t.results = Claims.withResult v (v.atomResults o ps (ps.foldl (v.atomPiece f) (before rel, [])).2) 0
    done ord.rel (v.atomOp o) (.atom o) ∧ done ord.rel (v.casOp o) (.cas o) ∧ done both (v.atomOp o) (.atomsc o) ∧
    (v.heldRelease ord.rel = false → ∃ t, exec (.atomr o) s = .next t ∧ Claims.Advanced v o v.active t ∧
      Claims.Stored v u ps t)

/-- R217, R219, R106, R208: an atomic on scratchpad whose checks pass leaves the old values outstanding, the lanes performed in
ascending order; away from stash windows and without a scope beyond its core nothing changes but the scratchpads and what they
say of tables and peers. -/
def Claims.ScratchAtomics : Prop :=
  ∀ (s u : State) (v : View) (o : Operands) (l : List ScrAccess) (parts : List ScrPart) (ws : List (ScrPart × Piece)),
    s.view? = some v → v.resultsFull = false → v.heldRelease (v.atomOrd o).rel = false →
    v.scrReady (atomBytes o) true v.accAtomic ((lanesOf (v.passing o)).map fun i => (i, (v.src32 .int 0 o.a i).toNat)) = .ok (l, parts, ws) →
    badWindow (atomBytes o) ws = none → s.noteWrite v.ic.core v.ctx (pieceVpages (ws.map (·.2))) = some u →
    let start : State := v.notePeer (v.cachePieces u (ws.map (·.2))) l
    let before : State := match (v.atomOrd o).rel with
      | some sc => start.release v.ic.core sc
      | none => start
    let done (f : Nat → Nat → Nat) (i : Instr) : Prop :=
      ∃ t, exec i s = .next t ∧ Claims.Advanced v o v.active t ∧ Claims.ScrAccessed u t (Claims.reach s (ws.map (·.2))) ∧
        t.results = Claims.withResult v (v.atomResults o [] (l.foldl (v.scrAtom (atomBytes o) f parts ws) (before, [])).2) 0 ∧
        (ws = [] → v.atomOrd o = ⟨none, none⟩ → { t with waves := s.waves, results := s.results, blocks := s.blocks, cores := s.cores } = s)
    done (v.atomOp o) (.atoms o) ∧ done (v.casOp o) (.cass o)

/-- R217 to R219, R106: the atomics, on global memory and on scratchpad. -/
def Obligations.AtomicOperations : Prop := Claims.AtomicSemantics ∧ Claims.Atomics ∧ Claims.ScratchAtomics

/-! ### Residency requests and cache maintenance -/

/-- R210, R211, R116, R414: resq, with room for its records in the replayable ring, advances the issue set and changes nothing but
the delivery lanes; cwb and cinv of canonical ranges advance it too: cwb marks the core's writes to the lines, so that they reach
their homes, changes no byte, and with .mem writes the lines back but for lines in error; cinv drops the core's copies of the lines,
and its own writes that lay dirty there may be lost. -/
def Obligations.CacheRequests : Prop :=
  ∀ (s : State) (v : View) (o : Operands), s.view? = some v →
    let l := laneAddrs (v.passing o) (v.globalEa o)
    let asks := l.filterMap fun x => residency (v.resWalk x.2 (walkTag x.1 0))
    let ranges := (lanesOf (v.passing o)).map fun i => (i, v.src64 0 o.a i, (v.src32 .int 1 o.b i).toNat)
    (addressFault 1 l = none →
      ((s.owner (1 + v.part)).rprod - (s.owner (1 + v.part)).rcons).toNat + asks.length ≤ 4096 →
      ∃ t, exec (.resq o) s = .next t ∧ Claims.Advanced v o v.active t ∧ t.results = s.results ∧
        Claims.Accessed s t (Claims.inLanes s) ∧ (asks = [] → { t with waves := s.waves } = s)) ∧
    ((∀ x ∈ ranges, addressFault x.2.2 [(x.1, x.2.1)] = none) →
      (∃ t, exec (.cwb o) s = .next t ∧ Claims.Advanced v o v.active t ∧
        { t with waves := s.waves, writes := s.writes, dirty := s.dirty, met := s.met } = s ∧
        t.writes = s.writes.map (fun w =>
          if w.agent.core = some v.ic.core ∧ w.uid ≠ 0 ∧ onLines (v.rangeRuns ranges) w.addr w.data.length = true then
            { w with cwb := max w.cwb (if o.mod.getLsbD 0 then 2 else 1) }
          else w) ∧
        (o.mod.getLsbD 0 = false → t.dirty = s.dirty ∧ t.met = s.met) ∧
        (o.mod.getLsbD 0 = true → t.dirty = s.dirty.filter fun d =>
          !onLines (v.rangeRuns ranges) (d.line * 128) 128 || s.lineBad d)) ∧
      (∃ t, exec (.cinv o) s = .next t ∧ Claims.Advanced v o v.active t ∧
        { t with waves := s.waves, writes := s.writes, l1 := s.l1 } = s ∧
        (∀ x, x ∈ t.l1 ↔ x ∈ s.l1 ∧ ¬(x.core = v.ic.core ∧ onLines (v.rangeRuns ranges) (x.line * 128) 128 = true)) ∧
        (∀ w ∈ t.writes, w ∈ s.writes) ∧
        ∀ w ∈ s.writes, ¬(w.agent.core = some v.ic.core ∧ w.uid ≠ 0 ∧ w.cached = true ∧
          onLines (v.rangeRuns ranges) w.addr w.data.length = true) → w ∈ t.writes))

/-! ### Barriers, fences, sections and waits -/

/-- R222: an arrival at a barrier opens a generation with its count where none is open; the generation completes when its
arrivals reach that count, or with count 0 when every thread of the block that has not ended has arrived; it is then the next
generation, closed. A wait of barw ends while the generation is 1 to 32,768 past the one it names, a wait of bar when the generation
it arrived at has completed, and a wait of await when no command in flight of the block carries its token (R227). -/
def Claims.BarrierGenerations : Prop :=
  (∀ (x : Barrier) (c uid : Nat) (live : List Nat),
    let n := x.count.getD c
    let all := x.arrivals ++ [uid]
    let complete : Bool := if n = 0 then live.all all.contains else n ≤ all.length
    (x.arrive c uid).check live =
      if complete then { x with gen := x.gen + 1, count := none, arrivals := [] } else { x with count := some n, arrivals := all }) ∧
  (∀ (s : State) (w : Wave) (t : Thread) (n : Nat) (g : W16) (tok : W32),
    s.waitOver w { t with wait := .barw n g } = (decide (1 ≤ (((s.blockOf t.blk).barrier n).gen - g).toNat ∧
      (((s.blockOf t.blk).barrier n).gen - g).toNat ≤ 32768)) ∧
    s.waitOver w { t with wait := .bar n g } = decide (((s.blockOf t.blk).barrier n).gen ≠ g) ∧
    (s.waitOver w { t with wait := .await tok } = true ↔ ∀ c ∈ s.cmds, c.blk = t.blk → c.token ≠ tok))

/-- R222, R223, R221, R290: at barriers within the limits, bar arrives each lane whose guard passes, in ascending order, after the release
at .blk of the arrivals, and its lanes wait for the generations they arrived at; bara leaves those generations outstanding instead; barw
waits for a generation to be past; barc arrives at the cluster's barrier after its release. Their issue sets advance; nothing but the
barriers changes besides and, by the releases, the bytes of writes that were on their way: for bar and bara none where the core holds no
write of the stack. A release waits while a write of the core is held at its slice. -/
def Claims.Barriers : Prop :=
  ∀ (s : State) (v : View) (o : Operands), s.view? = some v →
    let p := v.passing o
    let n (i : Nat) : Nat := (v.src32 .int 0 o.a i).toNat
    let inLimits (count : Bool) : Prop := ∀ i, p.getLsbD i = true →
      n i ≤ 95 ∧ (count = true → (v.src32 .int 1 o.b i).toNat ≤ (v.block i).nthreads)
    let u := if p = 0 then s else s.release v.ic.core 1
    let r := v.arrive o
    let rest : Prop := { r.1 with blocks := u.blocks } = u ∧ Claims.Accessed s u (Claims.reach s []) ∧ u.results = s.results ∧
      (s.writes.any (·.stack) = false → u = s)
    (inLimits true → v.heldRelease (if p = 0 then none else some 1) = false → rest ∧
      ∃ t, exec (.bar o) s = .next t ∧ Claims.AdvancedWaiting v o r.1 p (fun i => .bar (n i) (genOf r.2 i)) t) ∧
    (inLimits true → v.heldRelease (if p = 0 then none else some 1) = false → v.resultsFull = false → rest ∧
      ∃ t, exec (.bara o) s = .next t ∧
      { t with waves := s.waves, results := s.results } = r.1 ∧ Claims.Advanced v o v.active t ∧
      t.results = Claims.withResult v (Claims.lanesOut v o fun i => out32 ((genOf r.2 i).setWidth 32)) 0) ∧
    (inLimits false → ∃ t, exec (.barw o) s = .next t ∧
      Claims.AdvancedWaiting v o s p (fun i => .barw (n i) ((v.src32 .int 1 o.b i).setWidth 16)) t) ∧
    (v.heldRelease (if p = 0 then none else some 2) = false → ∃ (t : State) (g : Nat → W16), exec (.barc o) s = .next t ∧ t.results = s.results ∧
      Claims.Accessed s { t with clubars := s.clubars } (Claims.reach s []) ∧
      Claims.Moved v o v.active 0 (fun i x y =>
        y = { x with pc := v.ic.pc + 12, wait := if p.getLsbD i then .barc (g i) else x.wait }) t ∧
      (∀ k, (∀ i, p.getLsbD i = true → (v.block i).cluster ≠ k) → t.clubar k = s.clubar k) ∧
      (∀ i, p.getLsbD i = true → (∀ j, j < i → p.getLsbD j = true → (v.block j).cluster ≠ (v.block i).cluster) →
        g i = (s.clubar (v.block i).cluster).gen))

/-- R221 to R223: barriers, and their generations. -/
def Obligations.BarriersAndGenerations : Prop := Claims.BarrierGenerations ∧ Claims.Barriers

/-- R97, R98, R224, R211, R225, R226: a fence whose guard passes somewhere, with no held write before its release, advances the
issue set: after a release beyond the core none of the core's writes is on its way, and after an acquire beyond it the core has no
copy of a line. In fence.full.sys no write that cwb marked is then on its way either. A fence whose guard fails orders nothing.
osb makes the lanes with a pixel identity that hold no section wait for theirs, and ose makes those that hold one release it. -/
def Obligations.FencesAndSections : Prop :=
  ∀ (s : State) (v : View) (o : Operands), s.view? = some v →
    let p := v.passing o
    let kind := o.mod.toNat % 4
    let scope := bitField o.mod.toNat 2 3
    let quiet (t : State) : Prop := t.results = s.results ∧ Claims.Accessed s t (Claims.reach s [])
    (p = 0 → ∃ t, exec (.fence o) s = .next t ∧ { t with waves := s.waves } = s ∧ Claims.Advanced v o v.active t) ∧
    (p ≠ 0 → (kind = 0 ∨ v.heldRelease (some scope) = false) →
      ∃ t, exec (.fence o) s = .next t ∧ quiet t ∧ Claims.Advanced v o v.active t ∧
        (kind ≠ 0 → 2 ≤ scope → ∀ w ∈ t.writes, w.agent.core ≠ some v.ic.core ∨ w.uid = 0) ∧
        (kind ≠ 1 → 2 ≤ scope → ∀ x ∈ t.l1, x.core ≠ v.ic.core) ∧
        (kind = 2 → scope = 5 → t.cwbPending v.ic.core = false)) ∧
    (∃ t, exec (.osb o) s = .next t ∧ quiet t ∧ Claims.Moved v o v.active 0 (fun i x y =>
      y = { x with pc := v.ic.pc + 12
                   wait := if p.getLsbD i && (x.pixel.isSome && !x.holds) then .ordered else x.wait }) t) ∧
    (v.heldRelease (if p = 0 then none else some 3) = false → ∃ t, exec (.ose o) s = .next t ∧ quiet t ∧ Claims.Moved v o v.active 0 (fun i x y =>
      y = { x with pc := v.ic.pc + 12, holds := x.holds && !p.getLsbD i
                   sectionDone := x.sectionDone || (x.holds && p.getLsbD i) }) t)

/-- R227, R109: sbwait makes each lane whose guard passes wait while a command in flight touches its range, which R202 admits;
sbq leaves 1 outstanding where one does and 0 elsewhere; await waits for a token. Nothing else changes. -/
def Claims.CommandWaits : Prop :=
  ∀ (s : State) (v : View) (o : Operands), s.view? = some v →
    let ok : Prop := ∀ i, (v.passing o).getLsbD i = true → (v.scoreRange o i).isSome = true
    (ok → ∃ t, exec (.sbwait o) s = .next t ∧ Claims.AdvancedWaiting v o s (v.passing o) (fun i =>
      .scoreboard (v.scoreOf o i).1 (v.scoreOf o i).2.1 (v.scoreOf o i).2.2) t) ∧
    (ok → v.resultsFull = false → ∃ t, exec (.sbq o) s = .next t ∧ Claims.LeftLater v o 0 (fun i =>
      out32 (if s.cmds.any fun c => c.ranges.any fun r => r.blk = (v.scoreOf o i).1 &&
        overlaps r.lo r.len (v.scoreOf o i).2.1 (v.scoreOf o i).2.2 then 1 else 0)) t) ∧
    (∃ t, exec (.await o) s = .next t ∧ Claims.AdvancedWaiting v o s (v.passing o) (fun i => .await (v.src32 .int 0 o.a i)) t)

/-! ### Engine commands -/

/-- The instructions that issue asynchronous commands (R212 to R215, R255), each with the command that a lane makes. -/
def Claims.commandRows : List ((Operands → Instr) × (View → Operands → Nat → Stage NewCmd)) :=
  [ (.cpy, View.cpyCmd), (.cpy2d, View.cpy2dCmd), (.cpyg, View.cpygCmd), (.coll, View.collCmd),
    (.ldt, fun v o => v.tileCmd o false), (.stt, fun v o => v.tileCmd o true),
    (.win, fun v o => v.eleCmd o false), (.wpool, fun v o => v.eleCmd o true), (.crsz, View.cruCmd) ]

/-- What the issue of commands leaves (R212, R111): the commands in flight are those before and the new ones in lane order, each
lane's token is outstanding, the issue set advances, and memory changes nowhere but at writes that were on their way. -/
def Claims.Issued (v : View) (o : Operands) (u : State) (cs : List NewCmd) (t : State) : Prop :=
  let start := if o.mod.getLsbD 2 && v.passing o ≠ 0 then u.flushCore v.ic.core else u
  Claims.Advanced v o v.active t ∧ Claims.ScrAccessed u { t with cmds := u.cmds } (Claims.reach v.s []) ∧
    t.cmds.take v.s.cmds.length = v.s.cmds ∧
    (t.cmds.drop v.s.cmds.length).map (fun c => (c.op, c.uid, c.ranges)) =
      (cs.filter (!·.idle)).map (fun c => (c.op, (v.thread c.lane).uid, c.ranges)) ∧
    t.results = Claims.withResult v ((cs.foldl (v.startCmd o) (start, [])).2.map fun x =>
      ⟨x.1, (v.thread x.1).uid, regWrites o.dst.reg.toNat [x.2], []⟩) 0

/-- R212, R213, R215, R255: an asynchronous command whose checks pass in every lane, with room for it among the block's 64 and no
held write before its acquire's release, is in flight after the issue. -/
def Claims.CommandsIssue : Prop :=
  ∀ (s u : State) (v : View) (o : Operands) (cs : List NewCmd), s.view? = some v → v.resultsFull = false →
    v.commandsFull (lanesOf (v.passing o)) = none → v.heldRelease (if o.mod.getLsbD 2 && v.passing o ≠ 0 then some 2 else none) = false →
    s.noteWrite v.ic.core v.ctx (cs.flatMap (·.pages)) = some u →
    ∀ row ∈ Claims.commandRows, (lanesOf (v.passing o)).mapM (row.2 v o) = .ok cs →
      ∃ t, exec (row.1 o) s = .next t ∧ Claims.Issued v o u cs t

/-- R212, R213, R215, R227, R255: asynchronous commands, and waiting for them. -/
def Obligations.CommandsIssueAndWait : Prop := Claims.CommandsIssue ∧ Claims.CommandWaits

/-! ### Continuations, joins and messages -/

/-- The partition's hardware queue of a kind takes `n` more records (R42): none waits in a ring, and there is room. -/
def Claims.roomFor (s : State) (p kind n : Nat) : Prop :=
  (∀ x ∈ s.waiting p kind, x.1 = false) ∧ (s.waiting p kind).length + n ≤ Config.queueDepth kind + 1

/-- The records `recs` have joined a partition's queue, and count as `n` more blocks of a launch's (R44, R45); memory has changed
nowhere but at writes that were on their way. -/
def Claims.Queued (v : View) (o : Operands) (recs : List WorkRec) (n : Nat) (t : State) : Prop :=
  Claims.Sent v o t ∧ t.results = v.s.results ∧
    Claims.Accessed v.s { t with parts := v.s.parts, launches := v.s.launches } (Claims.reach v.s []) ∧
    t.parts = updateAt v.s.parts v.part (fun x => { x with work := x.work ++ recs }) ∧
    t.launches = updateWhere (·.key = v.launch.key) (fun l => { l with pending := l.pending + n }) v.s.launches

/-- R231, R44, R229, R230, R42: spawn, crec and amsg with room in the partition's hardware queue push one record for each lane
whose guard passes, in ascending order: a continuation of the operands, the 32-byte record read, or the message with its 48 bytes
of payload for a context of the partition that can receive it. The issue set advances, with the lanes that waited for it. While no
lane's guard passes they do nothing but advance. -/
def Claims.RecordsPushed : Prop :=
  (∀ (s : State) (v : View) (o : Operands), s.view? = some v → v.passing o = 0 → ∀ c ∈ [Instr.spawn, Instr.crec, Instr.amsg],
    ∃ t, exec (c o) s = .next t ∧ { t with waves := s.waves } = s ∧ Claims.Advanced v o v.active t) ∧
  ∀ (s : State) (v : View) (o : Operands) (ps : List Piece), s.view? = some v → v.passing o ≠ 0 →
    let lanes := lanesOf (v.passing o)
    let u : View := { v with s := v.touchPieces s ps }
    let conts (ws : Nat → List W32) : List WorkRec := lanes.map fun i => .cont v.launch.key v.ctx (ws i) v.launch.handler s.now false
    let msg (i : Nat) : List W32 := messageRec (v.srcQuad 0 o.a i) v.ctx
    let at32 := laneAddrs (v.passing o) fun i => v.src64 0 o.a i
    let n := if v.launch.handler then 0 else lanes.length
    (v.heldRelease (some 3) = false → Claims.roomFor s v.part 0 lanes.length →
      ∃ t, exec (.spawn o) s = .next t ∧ Claims.Queued v o (conts fun i =>
        splitWide (v.src64 0 o.a i) ++ splitWide (v.src64 1 o.b i) ++ splitWide (v.src64 2 o.c i) ++
          [BitVec.ofNat 32 (o.mod.toNat % 32 + 1), 0]) n t) ∧
    (v.heldRelease (some 3) = false → Claims.roomFor s v.part 0 lanes.length → misaligned 32 at32 = none →
      v.recordPieces 32 at32 = .ok ps →
      ∃ t, exec (.crec o) s = .next t ∧ Claims.Queued v o (conts (u.recordWords ps)) n t) ∧
    (v.heldRelease (some 5) = false → Claims.roomFor s v.part 1 lanes.length → v.badHeader o = none →
      v.recordPieces 48 (laneAddrs (v.passing o) fun i => v.src64 1 o.b i) = .ok ps →
      (∀ i ∈ lanes, bitsAt (msg i) 76 1 = 0 ∧ ∃ x, s.ctx? (bitsAt (msg i) 64 12) = some x ∧ x.part = v.part ∧ x.ended = false ∧
        x.msg.isSome = true) →
      ∃ t, exec (.amsg o) s = .next t ∧
        Claims.Queued v o (lanes.map fun i => .msg (bitsAt (msg i) 64 12) (msg i) (u.recordWords ps i) s.now false) 0 t)

/-- R232, R106, R219: join, where its blocks are aligned, accessible and sound and no record it pushes wants a place, decrements each
lane's count in ascending order and leaves the old counts outstanding; a count of one pushes the block's continuation. One lane's join
of a local block inside the memory that holds data, with no write on its way to it, returns the count and leaves one less there. While
no lane's guard passes join does nothing but advance. -/
def Claims.Joins : Prop :=
  (∀ (s : State) (v : View) (o : Operands), s.view? = some v → v.passing o = 0 → v.resultsFull = false →
    ∃ t, exec (.join o) s = .next t ∧ { t with waves := s.waves } = s ∧ Claims.Advanced v o v.active t) ∧
  (∀ (s : State) (v : View) (ps : List Piece) (lane : Nat) (p : Piece), ps.find? (·.lane = lane) = some p → p.len = 4 →
    isRemote p.pa = false → p.pa + 4 ≤ s.usable →
    (∀ w ∈ s.writes, w.uid ≠ 0 → w.agent.core ≠ some v.ic.core ∧ w.so = false) →
    (∀ a, p.pa ≤ a → a < p.pa + 4 → s.aliasedAt (v.slices ((p.tr.map (·.tgeo)).getD 0) a) a = false) →
    let old := bytesNat (s.mem.readRun p.pa 4)
    (v.joinLane ps s lane).2 = BitVec.ofNat 32 old ∧
      (old ≠ 1 → ∃ t, (v.joinLane ps s lane).1 = .done t ∧ t.mem.readRun p.pa 4 = natBytes 4 ((old + 0xFFFFFFFF) % 2 ^ 32) ∧
        ∀ a, a < p.pa ∨ p.pa + 4 ≤ a → t.mem.read a = s.mem.read a)) ∧
  ∀ (s u w : State) (v : View) (o : Operands) (ps : List Piece) (out : List (Nat × W32)), s.view? = some v →
    v.resultsFull = false → v.passing o ≠ 0 → v.heldRelease (some 3) = false →
    misaligned 64 (laneAddrs (v.passing o) fun i => v.src64 0 o.a i) = none →
    v.atomReady 4 (laneAddrs (v.passing o) fun i => v.src64 0 o.a i) = .ok ps →
    s.noteWrite v.ic.core v.ctx (pieceVpages ps) = some u → v.badJoin ps = none →
    pushLanes (v.joinLane ps) (lanesOf (v.passing o)) ((v.cachePieces u ps).release v.ic.core 3) [] = (.done w, out, []) →
    out.map (·.1) = lanesOf (v.passing o) ∧
    ∃ t, exec (.join o) s = .next t ∧ Claims.Sent v o t ∧ { t with waves := w.waves, results := w.results } = w ∧
      t.results = Claims.withResult v (out.map fun x => ⟨x.1, (v.thread x.1).uid, regWrites o.dst.reg.toNat [x.2], []⟩) 0 ∧
      ((∀ x ∈ out, x.2 ≠ 1) → Claims.Accessed u t (Claims.reach s ps) ∧ t.parts = s.parts)

/-- R229 to R232, R42 to R45: pushing work, and joining it. -/
def Obligations.RecordsAndJoins : Prop := Claims.RecordsPushed ∧ Claims.Joins

/-! ### Rays and hits -/

/-- R258, R259, R260, R421, R331, R332: trace, where its scene record is sound and a record is free for every lane, sends the rays
of its lanes with the launch's next numbers, which are left outstanding; hitrep answers the waiting rays that its lanes name and
leaves every other alone; rqpop gives its lanes, in order, the oldest hit records of the launch on the core, 1 for a lane that
takes one and 0 for a lane that does not. -/
def Obligations.Rays : Prop :=
  ∀ (s : State) (v : View) (o : Operands), s.view? = some v →
    let lanes := lanesOf (v.passing o)
    let acq := o.mod.getLsbD 2
    (∀ (x : View) (ws : List W32) (c : Nat), v.resultsFull = false → v.passing o ≠ 0 → v.launch.rayst ≠ 0 →
      v.poolRecord o.c = .ok ws → sceneOk ws = true → v.rayCount (lowestLane (v.passing o)) = .ok (x, c) → 1 ≤ c → c ≤ 1048576 →
      x.heldRelease (if acq then some 2 else none) = false →
      (x.sendRays o ws c lanes (if acq then x.s.flushCore v.ic.core else x.s) []).2.2 = [] →
      ∃ t, exec (.trace o) s = .next t ∧ Claims.Sent v o t ∧
        let serial := v.launch.raySerial
        t.results = Claims.withResult v (lanes.mapIdx fun k i =>
          ⟨i, (v.thread i).uid, regWrites o.dst.reg.toNat [serial + BitVec.ofNat 32 k], []⟩) 0 ∧
        Claims.Accessed s { t with rays := s.rays, launches := s.launches } (Claims.reach s []) ∧
        (∀ r ∈ t.rays, r ∈ s.rays ∨ ∃ k i, lanes[k]? = some i ∧ r = x.newRay o ws i c (serial + BitVec.ofNat 32 k)) ∧
        (∀ k i, lanes[k]? = some i → x.newRay o ws i c (serial + BitVec.ofNat 32 k) ∈ t.rays) ∧
        (∀ r ∈ s.rays, r.isOver = false → r ∈ t.rays)) ∧
    (∃ t, exec (.hitrep o) s = .next t ∧ Claims.Advanced v o v.active t ∧ { t with waves := s.waves, rays := s.rays } = s ∧
      t.rays = s.rays.map fun r =>
        if r.launch = v.w.launch ∧ r.state = .waiting ∧ (∃ i ∈ lanes, v.src32 .int 0 o.a i = r.id) then r.answer (immNat o.b) else r) ∧
    (∀ (u : State) (l : List ScrAccess) (parts : List ScrPart) (ws : List (ScrPart × Piece)), v.resultsFull = false →
      v.scrReady 32 true v.accStore (lanes.map fun i => (i, (v.src32 .int 0 o.a i).toNat)) = .ok (l, parts, ws) →
      s.noteWrite v.ic.core v.ctx (pieceVpages (ws.map (·.2))) = some u →
      ∃ t, exec (.rqpop o) s = .next t ∧ Claims.Advanced v o v.active t ∧
        Claims.ScrAccessed u t (Claims.reach s (ws.map (·.2))) ∧
        let mine := (s.core v.ic.core).hits.filter fun h => h.launch = v.w.launch
        t.results = Claims.withResult v (l.mapIdx fun k a =>
          ⟨a.lane, (v.thread a.lane).uid, regWrites o.dst.reg.toNat [if k < mine.length then 1 else 0], []⟩) 0 ∧
        (t.core v.ic.core).hits.filter (fun h => h.launch = v.w.launch) = mine.drop l.length ∧
        (t.core v.ic.core).hits.filter (fun h => h.launch ≠ v.w.launch) = (s.core v.ic.core).hits.filter fun h => h.launch ≠ v.w.launch)

/-! ### Vertices and textures -/

/-- The outstanding results after a tsamp leaves one of its own, which stands for the texel records of its context (R423). -/
def Claims.withTexels (v : View) (lanes : List LaneResult) : List Result :=
  v.s.results.map (Claims.marked v (Claims.claimed lanes)) ++ [⟨v.ic.core, v.ic.wslot, lanes, 0, some v.ctx⟩]

/-- R262, R263, R265, R282, R420 to R423: vfetch and tsamp of a sound record leave outstanding what their lanes read, converted; prim, in
threads that shade vertices and with room for their records, sends each lane's vertex with its attributes to its draw, in ascending
order. tsamp of a sample without a point leaves free values (log entry 29). Under a context's own sampler microcode, where no access of
its items stops, each lane takes the words that its item gives (log entry 50). -/
def Obligations.Graphics : Prop :=
  ∀ (s : State) (v : View) (o : Operands) (ps : List Piece), s.view? = some v →
    let p := v.passing o
    let u : View := { v with s := v.touchPieces s ps }
    (p = 0 → v.resultsFull = false → ∀ c ∈ [Instr.vfetch, Instr.tsamp], ∃ t, exec (c o) s = .next t ∧
      { t with waves := s.waves } = s ∧ Claims.Advanced v o v.active t) ∧
    (∀ ws reads, v.resultsFull = false → p ≠ 0 → v.poolRecord o.a = .ok ws → vertexOk ws = true →
      let n := bitField o.mod.toNat 4 2 + 1
      let size := n * elemBytes (o.mod.toNat % 16)
      v.poolAddrs p ws size (fun i => (v.src32 .int 1 o.b i).toNat * (wordAt ws 4).toNat + (wordAt ws 5).toNat) = .ok reads →
      v.recordPieces size reads = .ok ps →
      ∃ t, exec (.vfetch o) s = .next t ∧ Claims.Advanced v o v.active t ∧ Claims.Loaded v (Claims.lanesOut v o fun i =>
        (vertexWords (o.mod.toNat % 16) n (if reads.any (·.1 = i) then u.laneBytes ps i else List.replicate size 0), 0)) t) ∧
    (∀ ws, v.resultsFull = false → p ≠ 0 → v.poolRecord o.a = .ok ws → textureOk ws = true →
      let x := texture ws
      let at_ (i : Nat) : Option Sample := x.sample (v.srcQuad 1 o.b i)
      (s.ownMicrocode v.ctx 3 = none →
        (x.robust = true ∨ ∀ i, p.getLsbD i = true → ∀ q, at_ i = some q → (x.inside q).length = 4) →
        v.recordPieces (x.chn * elemBytes x.fmt) ((lanesOf p).flatMap fun i =>
          match at_ i with
          | some q => (x.inside q).map fun k => (i, x.base + BitVec.ofNat 64 (q.offs.getD k 0))
          | none => []) = .ok ps →
        ∃ t lanes, exec (.tsamp o) s = .next t ∧ Claims.Advanced v o v.active t ∧ Claims.Accessed s t (Claims.reach s []) ∧
          t.results = Claims.withTexels v lanes ∧
          lanes.map (fun l => (l.lane, l.uid)) = (lanesOf p).map (fun i => (i, (v.thread i).uid)) ∧
          ∀ l ∈ lanes, ∀ q, at_ l.lane = some q →
            l.dsts = regWrites o.dst.reg.toNat (x.blend q (x.texels q (u.laneBytes ps l.lane)))) ∧
      (∀ image w l, s.ownMicrocode v.ctx 3 = some image → v.ownSamples image (lanesOf p) s = .ok (w, l) →
        l.map (·.1) = lanesOf p ∧ (∀ x ∈ l, x.2.length = 4) ∧
        ∃ t, exec (.tsamp o) s = .next t ∧ { t with waves := w.waves, results := w.results } = w ∧ Claims.Advanced v o v.active t ∧
          Claims.Accessed s t (Claims.reach s []) ∧
          t.results = Claims.withTexels v (Claims.lanesOut v o fun i => ((l.lookup i).getD [], 0)))) ∧
    (∀ l : List (Nat × List W32), (∀ i, p.getLsbD i = true → (v.thread i).vertex.isSome = true) →
      (lanesOf p).mapM (fun i => (v.attributes o (immNat o.c % 32) i).map fun a => (i, a)) = .ok l → (v.sendVerts o l s).2 = [] →
      ∃ t, exec (.prim o) s = .next t ∧ Claims.Sent v o t ∧
        { t with waves := s.waves, display := { t.display with draws := s.display.draws } } = s ∧
        t.display.draws = s.display.draws.map fun d => { d with verts := d.verts ++
          (l.filter fun x => (v.thread x.1).vertex.getD 0 = d.key).map fun x =>
            (v.w.stream, ⟨v.srcQuad 0 o.a x.1, x.2, (immNat o.c).testBit 5⟩) })

/-! ### The lookup matrix engine -/

/-- A performed block-wide instruction (R234, R235, R247): its block owns the engine state and has no stopped multiply, and s.kprog
is 0; memory has changed nowhere but at `ps` and at writes that were on their way, and nothing else but the scratchpads, windows
and tables has changed. -/
structure Claims.BlockWide (v : View) (o : Operands) (u : State) (ps : List Piece) (t : State) : Prop where
  moved   : Claims.Advanced v o v.active t
  results : t.results = v.s.results
  rest    : Claims.ScrAccessed u t (Claims.reach v.s ps)
  owner   : (t.core v.ic.core).owner = some (v.thread (lowestLane (v.passing o))).blk
  stop    : ∀ b, t.block? (v.thread (lowestLane (v.passing o))).blk = some b → b.mlkStop = none ∧ b.kprog = 0

/-- R234: a block-wide instruction whose guard passes in no lane does nothing but advance, and one of a block that must wait for
the engine state waits in issue. -/
def Claims.BlockWideWaits : Prop :=
  ∀ (s : State) (v : View) (o : Operands), s.view? = some v →
    ∀ c ∈ [Instr.tbld, Instr.tinv, Instr.tspill, Instr.tfill, Instr.azero, Instr.aload, Instr.adrain, Instr.mlk],
      (v.passing o = 0 → ∃ t, exec (c o) s = .next t ∧ { t with waves := s.waves } = s ∧ Claims.Advanced v o v.active t) ∧
      (v.passing o ≠ 0 → s.claim v.ic.core (v.thread (lowestLane (v.passing o))).blk = none →
        ∃ t, exec (c o) s = .next t ∧ Claims.Parked v s v.active (fun _ => .retry (.engine v.ic.core)) t)

/-- R238 to R241, R249, R250: the block-wide instructions but mlk, on an engine state that their block has or takes, for the
lowest lane whose guard passes. tbld, with no error of the lookup adders, builds its set of table registers from the scratchpad, and a
place that no group fills keeps what it held; tinv empties registers; tspill and
tfill move a register to and from its image; azero clears tiles, aload reads one from the scratchpad and adrain writes one there. -/
def Claims.LookupEngine : Prop :=
  ∀ (s u : State) (v x y : View) (o : Operands) (bytes : Array Byte) (ps : List Piece), s.view? = some v → v.passing o ≠ 0 →
    let lane := lowestLane (v.passing o)
    let core := v.ic.core
    s.claim core (v.thread lane).blk = some u →
    let w : View := { v with s := u }
    let m := w.src32 .int 0 o.a lane
    let fmt := o.mod.toNat % 16
    let pitch := (w.src32 .int 1 o.b lane).toNat
    let va := w.src64 0 o.a lane
    let k := immNat o.b
    (∃ t, exec (.tinv o) s = .next t ∧ Claims.BlockWide v o s [] t ∧ t.mem = s.mem ∧
      ∀ r, (t.core core).table? r = if m.getLsbD r then none else (s.core core).table? r) ∧
    (∃ t, exec (.azero o) s = .next t ∧ Claims.BlockWide v o s [] t ∧ t.mem = s.mem ∧
      ∀ r, t.tile core r = if m.getLsbD r then List.replicate 1024 0 else s.tile core r) ∧
    (∀ (cbase : W64) (nent : Nat) (book : Nat → Nat → W32),
      w.tbldBook o lane (bitField o.mod.toNat 4 2) = .ok (cbase, nent) →
      let b0 : Build := ⟨fmt, bitField o.mod.toNat 4 2, bitField pitch 5 7 + 1, tableEntries nent, 0⟩
      let b : Build := { b0 with pitch := if pitch / 65536 = 0 then round4 b0.kb else pitch / 65536 }
      let t0 := pitch % 32
      m.toNat % 4 = 0 → b.pitch % 4 = 0 → b.kb ≤ b.pitch → b.kb ≤ 384 → b.regs ≤ 6 → t0 + b.regs ≤ 24 → bitField pitch 12 4 = 0 →
      w.readRange lane m.toNat (15 * b.pitch + b.kb) = .ok (x, bytes) → x.readBook lane b cbase = .ok (y, book) →
      w.addsWrong b.mode = false →
      ∃ t, exec (.tbld o) s = .next t ∧ Claims.BlockWide v o s [] t ∧ ∀ r, r < b.regs →
        (t.core core).table? (t0 + r) =
          some ⟨statWord b nent t0 r, m, b.pitch, b.kb, cbase,
            b.register (fun k => bytes.getD k 0) book ((y.s.core core).entryOf s.free (t0 + r)) r⟩) ∧
    (∀ (a : State) (tb : Table), va.toNat % 64 = 0 → w.spillTable lane k = .ok (x, tb) →
      Claims.Ready x x.accStore false false false 16448 [(lane, va)] ps → x.s.noteWrite core x.ctx (pieceVpages ps) = some a →
      ∃ t, exec (.tspill o) s = .next t ∧ Claims.BlockWide v o a ps t) ∧
    (va.toNat % 64 = 0 → w.readGlobal lane va 16448 = .ok (x, bytes) → bitsAt (bytesWords bytes.toList) 160 320 = 0 →
      bitsAt (bytesWords bytes.toList) 25 7 = 0 → crc32c (bytes.toList.take 60 ++ bytes.toList.drop 64) = wordAt (bytesWords bytes.toList) 15 →
      ∃ t, exec (.tfill o) s = .next t ∧ Claims.BlockWide v o s [] t ∧
        (t.core core).table? k = (some (fillTable bytes.toList)).filter (·.state ≠ 0)) ∧
    (m.toNat % 4 = 0 → pitch % 4 = 0 → 64 * (fmtBits fmt / 8) ≤ pitch →
      w.readRange lane m.toNat (15 * pitch + 64 * (fmtBits fmt / 8)) = .ok (x, bytes) →
      ∃ t, exec (.aload o) s = .next t ∧ Claims.BlockWide v o s [] t ∧
        t.tile core (immNat o.c) = (List.range 1024).map fun i => elemF32 fmt (Build.element.bytesNatAt (fun k => bytes.getD k 0)
          (i / 64 * pitch + i % 64 * (fmtBits fmt / 8)) (fmtBits fmt / 8))) ∧
    (∀ (a : State) (rows : List ScrRange), m.toNat % 4 = 0 → pitch % 4 = 0 → 64 * fmtBits fmt / 8 ≤ pitch →
      (u.scrTarget (w.block lane) m.toNat (15 * pitch + 64 * fmtBits fmt / 8)).isSome = true →
      w.drainRows lane m.toNat pitch (64 * fmtBits fmt / 8) = .ok rows →
      u.noteWrite core w.ctx (pieceVpages (rows.flatMap fun r => r.wins.map (·.2))) = some a →
      ∃ t, exec (.adrain o) s = .next t ∧ Claims.BlockWide v o a (rows.flatMap fun r => r.wins.map (·.2)) t ∧
        t.tile core (immNat o.c) = if o.mod.getLsbD 4 then List.replicate 1024 0 else u.tile core (immNat o.c))

/-- R234, R235, R238 to R241, R249, R250: the block-wide instructions but mlk. -/
def Obligations.LookupInstructions : Prop := Claims.BlockWideWaits ∧ Claims.LookupEngine

/-- R242, R243, R246, R247: mlk, on an engine state that its block has or takes, with operands, tables and B range that pass its
checks, no table to rebuild, no fault of the engine and no bad code, adds all its k-steps to its tile: afterwards the block has no
stopped multiply and s.kprog holds the steps done, counted on from a multiply stopped at this instruction. -/
def Obligations.Multiply : Prop :=
  ∀ (s u : State) (v x : View) (o : Operands) (bytes : Array Byte) (ws : List W32) (top : Table) (acc : List W32) (k : Nat),
    s.view? = some v → v.passing o ≠ 0 →
    let lane := lowestLane (v.passing o)
    let core := v.ic.core
    let blk := (v.thread lane).blk
    s.claim core blk = some u →
    let w : View := { v with s := u }
    let a := (w.src32 .int 0 o.a lane).toNat
    let c := (w.src32 .int 2 o.c lane).toNat
    let b := top.build
    let r := bRec ws
    let gs := groupSize b.mode
    let t0 := c % 32
    let tile := bitField c 5 5
    a % 4 = 0 → c < 1024 → w.poolRecord o.b = .ok ws → bRecOk ws = true → (u.core core).table? t0 = some top →
    mlkShapeOk b r = true → (u.core core).badRegister t0 top (o.mod.getLsbD 0) = none →
    (u.core core).needsRebuild t0 top = false → (u.core core).lookupFault = none →
    w.readRange lane a (r.bytes b.ngrp gs (r.pitch b.ngrp gs)) = .ok (x, bytes) →
    let mul : Mul := ⟨b, r, r.pitch b.ngrp gs, fun k => bytes.getD k 0⟩
    let start := if (x.s.blockOf blk).mlkStop = some v.ic.pc then (x.s.blockOf blk).kprog.toNat else 0
    mul.run ((x.s.core core).setEntries t0 b) none (mul.steps - start) start (x.s.tile core tile) = (acc, k, .done) →
    ∃ t, exec (.mlk o) s = .next t ∧ Claims.Advanced v o v.active t ∧ t.results = s.results ∧
      Claims.ScrAccessed s t (Claims.reach s []) ∧ (t.core core).owner = some blk ∧
      t.tile core tile = (if k = start then x.s.tile core tile else acc) ∧
      ∀ y, t.block? blk = some y → y.mlkStop = none ∧ y.kprog = BitVec.ofNat 32 k

/-! ### Tile tasks -/

/-- R252, R254, R42: tenq of sound records, with room in the partition's hardware queue, takes a token of the partition's serial
for each lane's task, in ascending order, and leaves it outstanding; tprog leaves the state word of each lane's token, and with .res, of
distinct tokens and with room in the queue, queues the stopped tasks of them again; twait gives each lane whose task has ended its state,
and the others wait, while no lane's task is stopped or failed. -/
def Claims.TileTasks : Prop :=
  ∀ (s : State) (v : View) (o : Operands) (ps : List Piece), s.view? = some v → v.resultsFull = false →
    let p := v.passing o
    let lanes := lanesOf p
    let reads := laneAddrs p fun i => v.src64 0 o.a i
    let u : View := { v with s := v.touchPieces s ps }
    let tok (i : Nat) : W32 := v.src32 .int 0 o.a i
    let code (i : Nat) : Nat := s.tokenState v.part (tok i)
    let words := u.recordWords ps
    (misaligned 64 reads = none → v.recordPieces 64 reads = .ok ps → v.tasksChecked (fun i => v.src64 0 o.a i) words lanes = .ok () →
      ((lanes.any fun i => taskAcq (words i)) = true → v.heldRelease (some 2) = false) → Claims.roomFor s v.part 2 lanes.length →
      v.part < s.parts.length → (s.part v.part).taskSer ≠ 0 → (s.part v.part).taskSer.toNat + lanes.length ≤ 2 ^ 32 →
      ∃ t, exec (.tenq o) s = .next t ∧ Claims.Sent v o t ∧
        Claims.Accessed s { t with parts := s.parts, tasks := s.tasks } (Claims.reach s []) ∧
        (t.results = if lanes = [] then s.results else Claims.withResult v (lanes.mapIdx fun k i => ⟨i, (v.thread i).uid,
          regWrites o.dst.reg.toNat [(s.part v.part).taskSer + BitVec.ofNat 32 k], []⟩) 0) ∧
        ∀ k i, lanes[k]? = some i → ∃ x ∈ t.tasks, x.tok = (s.part v.part).taskSer + BitVec.ofNat 32 k ∧ x.words = words i ∧
          x.state = .queued ∧ x.ctx = v.ctx ∧ x.part = v.part ∧ x.ksteps = 0) ∧
    ((o.mod.getLsbD 0 = false ∨ ∀ i ∈ lanes, code i ≠ 2) →
      ∃ t, exec (.tprog o) s = .next t ∧ Claims.Sent v o t ∧ { t with waves := s.waves, results := s.results } = s ∧
        t.results = if lanes = [] then s.results else Claims.withResult v (lanes.map fun i => ⟨i, (v.thread i).uid,
          regWrites o.dst.reg.toNat [s.tokenWord v.part (tok i)], []⟩) 0) ∧
    (o.mod.getLsbD 0 = true → Claims.roomFor s v.part 2 lanes.length → (lanes.map tok).Nodup →
      ∃ t, exec (.tprog o) s = .next t ∧ Claims.Sent v o t ∧ { t with waves := s.waves, results := s.results, tasks := s.tasks } = s ∧
        (t.results = if lanes = [] then s.results else Claims.withResult v (lanes.map fun i => ⟨i, (v.thread i).uid,
          regWrites o.dst.reg.toNat [s.tokenWord v.part (tok i)], []⟩) 0) ∧
        ∀ i x, i ∈ lanes → s.keptTask v.part (tok i) = some x → x.state = .stopped →
          { x with state := .queued, core := none, ring := false } ∈ t.tasks) ∧
    ((∀ i ∈ lanes, code i ≠ 2 ∧ code i ≠ 4) → ∃ t w, exec (.twait o) s = .next t ∧
      { t with waves := s.waves, results := s.results, l1 := s.l1, cores := s.cores } = s ∧
      (∀ c, Claims.unmarked (t.core c) = Claims.unmarked (s.core c)) ∧ t.wave? v.ic.core v.ic.wslot = some w ∧
      t.results = Claims.withResult v ((lanes.filter fun i => 2 ≤ code i).map fun i => ⟨i, (v.thread i).uid,
        regWrites o.dst.reg.toNat [BitVec.ofNat 32 (code i)], []⟩) 0 ∧
      ∀ i x, v.w.live? i = some x → w.slot i =
        if p.getLsbD i && code i < 2 then .live { x with wait := .retry (.task (tok i)) }
        else if v.active.getLsbD i then .live { x with pc := v.ic.pc + 12 } else .live x)

/-! ### Results, rejoin entries and reform bins -/

/-- R55, R56, R58, R75: with 32 results of its wave outstanding a class-V instruction waits in issue; RESULT_RETURN of the `n`th
outstanding result writes it to the threads that issued it, where they are still in their slots, and sets its flags. (A register
written over since then holds either value: R56.) -/
def Claims.ResultsReturn : Prop :=
  (∀ (s : State) (v : View) (o : Operands), s.view? = some v → v.resultsFull = true →
    ∀ c ∈ (Claims.laterRows ++ Claims.checkedLaterRows).map (·.ins) ++ [.idiv, .irem],
      ∃ t, exec (c o) s = .next t ∧ Claims.Parked v s v.active (fun _ => .retry .classV) t) ∧
  (∀ (s : State) (n : Nat) (x : Result) (w : Wave), s.results[n]? = some x → s.wave? x.core x.wslot = some w →
    (x.lanes.map (·.lane)).Nodup → (∀ l ∈ x.lanes, l.lane < 32) →
    ∃ t w', exec (.resultReturn n) s = .next t ∧ { t with waves := s.waves, results := s.results, gulnos := s.gulnos } = s ∧
      t.results = s.results.eraseIdx n ∧ ((∀ l ∈ x.lanes, l.late = []) → t.gulnos = s.gulnos) ∧ (∀ c k, (c ≠ x.core ∨ k ≠ x.wslot) → t.wave? c k = s.wave? c k) ∧
      t.wave? x.core x.wslot = some w' ∧ { w' with slots := w.slots, fflags := w.fflags } = w ∧ w'.fflags = w.fflags ||| x.fflags ∧
      (∀ i, (∀ l ∈ x.lanes, l.lane = i → ∀ y, w.live? i = some y → y.uid ≠ l.uid) → w'.slot i = w.slot i) ∧
      ∀ l ∈ x.lanes, ∀ y, w.live? l.lane = some y → y.uid = l.uid →
        ∃ z, w'.slot l.lane = .live z ∧ { z with regs := y.regs } = y ∧ (∀ r, (∀ d ∈ l.dsts, d.reg ≠ r) → z.reg r = y.reg r) ∧
          ((l.dsts.map (·.reg)).Nodup → ∀ d ∈ l.dsts, d.reg ≠ 0 → d.reg < y.regs.length →
            z.reg d.reg = mergeBits (y.reg d.reg) d.mask d.val ∨ (d.clob = true ∧ z.reg d.reg = y.reg d.reg)))

/-- R452, R451, R472, R269, R270: an instruction of the FMA pipes whose residues mismatch in some lanes takes the core's fault away and
sends each of them, where it has a trap vector and is in no handler, to it with cause 2, the two residues and the lane as its syndrome,
and the instruction's PC; the other lanes of the issue set complete. An injected mismatch computes one more than the residue expected.
With no result of its wave outstanding a class-F instruction traps at once. -/
def Claims.ResidueMismatch : Prop :=
  ∀ row ∈ Claims.checkedRows, ∀ (s : State) (v : View) (o : Operands) (k : Nat) (m : Mask) (injected : Bool), s.view? = some v →
    v.fmaMismatch (v.passing o) = some (k, m, injected) → v.outstanding = false →
    (∀ i, m.getLsbD i = true → ∃ x, v.w.live? i = some x ∧ x.tvec ≠ 0 ∧ x.inHandler = false) →
    ∃ t w, exec (row.ins o) s = .next t ∧ t.wave? v.ic.core v.ic.wslot = some w ∧ t.results = s.results ∧
      (t.core v.ic.core).inject = (s.core v.ic.core).inject.eraseIdx k ∧ m ≠ 0 ∧
      (∀ i, m.getLsbD i = true → (v.passing o).getLsbD i = true ∧ ∃ x y e c, v.w.live? i = some x ∧ w.slot i = .live y ∧
        e < 3 ∧ c < 3 ∧ c ≠ e ∧ (injected = true → c = (e + 1) % 3) ∧
        Claims.Trapped 2 (BitVec.ofNat 32 (c + 8 * e + 256 * i)) (BitVec.ofNat 32 (1 + 256 * v.w.quad + 65536 * v.ic.core))
          v.ic.pc x y) ∧
      ∀ i z, m.getLsbD i = false → v.w.live? i = some z → ∃ z', w.slot i = .live z' ∧
        if v.active.getLsbD i then Claims.Wrote z z' (v.ic.pc + 12) o.dst.reg.toNat (if (v.passing o).getLsbD i then (row.val v o i).1 else [])
        else z' = z

/-- R55 to R58, R451: results return, and a mismatch traps. -/
def Obligations.ResultsAndResidue : Prop := Claims.ResultsReturn ∧ Claims.ResidueMismatch

/-- R27 to R30, R165: reform, with no result of its wave outstanding, files each lane whose guard passes, in ascending order and
while a bin takes it, into a bin of its launch at PC + 12; a filed lane's slot is empty afterwards and every other lane of the
issue set advances. With results outstanding it waits as at a switch marker. -/
def Claims.Reform : Prop :=
  ∀ (s : State) (v : View) (o : Operands) (mask : Option (List W32)), s.view? = some v →
    (v.outstanding = true → ∃ t, exec (.reform o) s = .next t ∧ Claims.Marked v t) ∧
    (v.outstanding = false → v.passing o = 0 ∨ s.liveMask v.launch v.ic.core v.ic.pc = .ok mask →
      ∃ t w filed, exec (.reform o) s = .next t ∧ { t with waves := s.waves, cores := s.cores } = s ∧
        t.wave? v.ic.core v.ic.wslot = some w ∧ (∀ c k, (c ≠ v.ic.core ∨ k ≠ v.ic.wslot) → t.wave? c k = s.wave? c k) ∧
        (∀ c, c ≠ v.ic.core → t.core c = s.core c) ∧
        { t.core v.ic.core with bins := (s.core v.ic.core).bins } = s.core v.ic.core ∧
        (∀ i, filed.getLsbD i = true → (v.passing o).getLsbD i = true) ∧
        (∀ i, w.slot i = if filed.getLsbD i then .empty
          else if v.active.getLsbD i then (v.w.slot i).mapLive (fun x => { x with pc := v.ic.pc + 12 }) else v.w.slot i) ∧
        (∀ i, filed.getLsbD i = true → ∃ b ∈ (t.core v.ic.core).bins, b.launch = v.w.launch ∧ b.pc = v.ic.pc + 12 ∧
          ∃ x, (x, v.w.fflags) ∈ b.slots ∧
            { x with regs := (v.thread i).regs } = { v.thread i with pc := v.ic.pc + 12, starve := 0, wait := .ready } ∧
            (∀ r, r = 0 ∨ mask = none ∨ (∃ ws, mask = some ws ∧ bitsAt ws r 1 = 1) → x.reg r = (v.thread i).reg r)) ∧
        ((∀ n, n < 64 → ∃ b ∈ (t.core v.ic.core).bins, b.n = n) ∨ filed = v.passing o))

/-- R28, R29, R26: BIN_DRAW of a bin that is full, past its age limit or without another eligible wave of its launch on the core
puts its threads, in filing order, into a new wave of a free wave slot in the quadrant with the most register space, with every
rejoin entry disarmed and the flags the threads carried joined; any other bin stays. REJOIN_DISARM disarms the lowest armed entry
that holds threads of a wave that R26 finds stuck, and leaves every other wave alone. -/
def Claims.BinsAndEntries : Prop :=
  (∀ (s : State) (core n : Nat) (b : Bin), (s.core core).bins.find? (fun b => b.n = n) = some b →
    (s.binDue core b = true → s.launchHalted b.launch = false → s.freeSlots core ≠ [] →
      b.nregs ≤ s.quadFree core (s.bestQuad core) →
      ∃ t w, exec (.binDraw core n) s = .next t ∧ { t with waves := s.waves, cores := s.cores } = s ∧ t.waves = s.waves ++ [w] ∧
        (t.core core).bins = (s.core core).bins.filter (fun x => x.n ≠ n) ∧ w.core = core ∧ w.wslot ∈ s.freeSlots core ∧
        w.quad < 4 ∧ (∀ q, q < 4 → s.quadFree core q ≤ s.quadFree core w.quad) ∧ w.launch = b.launch ∧ w.nregs = b.nregs ∧
        (∀ i, i < 32 → w.slot i = ((b.slots[i]?).map fun x => Slot.live x.1).getD .empty) ∧ (∀ e ∈ w.rejoin, e.armed = false) ∧
        w.fflags = b.slots.foldl (fun a x => a ||| x.2) 0) ∧
    (s.binDue core b = false → exec (.binDraw core n) s = .next s)) ∧
  (∀ (s : State) (core wslot k : Nat) (w : Wave), s.wave? core wslot = some w →
    (w.deadlocked = true → (∀ i, i < k → ((w.rejoin.getD i .none).armed && (w.rejoin.getD i .none).held ≠ 0) = false) →
      k < w.rejoin.length → (w.rejoin.getD k .none).armed = true → (w.rejoin.getD k .none).held ≠ 0 →
      ∃ t, exec (.rejoinDisarm core wslot) s = .next t ∧ { t with waves := s.waves } = s ∧
        (∀ c j, (c ≠ core ∨ j ≠ wslot) → t.wave? c j = s.wave? c j) ∧
        t.wave? core wslot = some { w with rejoin := w.rejoin.set k { w.rejoin.getD k .none with armed := false, held := 0 } }) ∧
    (w.deadlocked = false → exec (.rejoinDisarm core wslot) s = .next s))

/-- R27 to R32: reforming waves. -/
def Obligations.ReformAndBins : Prop := Claims.Reform ∧ Claims.BinsAndEntries

/-! ### Home slices, engine commands and tile tasks -/

/-- R105, R106, R305, R306, R445, R477: SLICE_ACCESS of a write that reaches its home slice, with no earlier write of its agent to the
same bytes outstanding and its lines in service, performs it: its bytes read as written, no other byte changes, and its line is
dirty with the writer's tag where it was dirty or a way of the slice can take it. A slice that is not the line's home any more
answers "misdirected", and MISDIRECTED_REISSUE then sends the write to the home there is now. A slice that a domain split is moving
holds the write. -/
def Obligations.HomeSlices : Prop :=
  ∀ (s : State) (n : Nat) (w : PendWrite), s.writes[n]? = some w →
    (s.writeReady n = true → s.sliceHolds w.slice = false → w.slice = s.writeSlice w → isRemote w.addr = false →
      w.addr + w.data.length ≤ s.usable → (∀ l ∈ linesOf w.addr w.data.length, s.lineState false 0 (l * 128) = .ok) →
      ∃ t, exec (.sliceAccess n) s = .next t ∧
        { t with mem := s.mem, dirty := s.dirty, past := s.past, homes := s.homes, met := s.met, writes := s.writes } = s ∧
        t.writes = s.writes.eraseIdx n ∧ (∀ k, k < w.data.length → t.mem.read (w.addr + k) = w.data.getD k 0) ∧
        (∀ a, ¬ (w.addr ≤ a ∧ a < w.addr + w.data.length) → t.mem.read a = s.mem.read a) ∧
        (w.cwb ≠ 2 → w.data.length ≤ 128 - w.addr % 128 → 0 < w.data.length → (s.dirtyAt w.addr).isSome = true ∨
          (∃ way ∈ s.liveWays w.slice, ∀ e ∈ s.stuckLines w.slice (lineSet w.addr), e.way ≠ way) →
          ∃ d, t.dirtyAt w.addr = some d ∧ d.tag = w.agent.ctx.getD 0xFFF)) ∧
    (s.writeReady n = true → s.sliceHolds w.slice = false → w.slice ≠ s.writeSlice w →
      ∃ t, exec (.sliceAccess n) s = .next t ∧ { t with writes := s.writes } = s ∧ t.writes = s.writes.set n { w with misdirected := true }) ∧
    (s.writeReady n = false ∨ s.sliceHolds w.slice = true ∧ isRemote w.addr = false → exec (.sliceAccess n) s = .next s) ∧
    (w.misdirected = true → ∃ t, exec (.misdirectedReissue n) s = .next t ∧ { t with writes := s.writes } = s ∧
      t.writes = s.writes.set n { w with misdirected := false, slice := s.writeSlice w }) ∧
    (w.misdirected = false → exec (.misdirectedReissue n) s = .next s)

/-- R212, R213, R227: ENGINE_COMMAND_RETIRE performs what is left of a command that waits for nothing, and takes it out of flight,
signalling its release if it has one; a copy between scratchpads that do not overlap leaves at its destination what its source
held. A command that waits for a record stays as it is. -/
def Obligations.CommandsRetire : Prop :=
  ∀ (s : State) (n : Nat) (c : Cmd), s.cmds[n]? = some c →
    (∀ (u : State) (k : Nat), s.readyCmd n = some c → s.runElems c.eng c ((s.cmdElems c).drop c.step) c.step = (u, k, none) →
      ∃ t, exec (.engineCommandRetire n) s = .next t ∧ { t with cmds := u.cmds, blocks := u.blocks } = u ∧
        t.cmds = u.cmds.filter (fun x => !(x.blk = c.blk && x.token = c.token)) ∧
        t.blocks = updateWhere (·.key = c.blk) (fun b => { b with retired := if c.rel then b.retired ++ [⟨c.token, c.ranges⟩] else b.retired })
          u.blocks) ∧
    (∀ (dst src : W64) (len b off b' off' : Nat), s.readyCmd n = some c → c.op = .cpy true true dst src len → c.step = 0 →
      (s.block? b).isSome = true → s.cmdScr c (dst.toNat % 2 ^ 32) len = some (.scr b off) →
      s.cmdScr c (src.toNat % 2 ^ 32) len = some (.scr b' off') → (b ≠ b' ∨ off + len ≤ off' ∨ off' + len ≤ off) →
      ∃ t, exec (.engineCommandRetire n) s = .next t ∧ { t with cmds := s.cmds, blocks := s.blocks } = s ∧
        ∀ x a, (t.blockOf x).scratch.read a =
          if x = b ∧ off ≤ a ∧ a < off + len then (s.blockOf b').scratch.read (off' + (a - off)) else (s.blockOf x).scratch.read a) ∧
    (s.readyCmd n = none → exec (.engineCommandRetire n) s = .next s)

/-- R252, R253, R112: TILE_TASK_DISPATCH puts the oldest task of a running partition whose waits are met on a free engine with its
accumulators at zero, and TILE_TASK_RESUME puts one that stopped at a k-step boundary there again with what it had;
TILE_TASK_COMPLETE makes the k-steps that are left, writes C, and leaves the task done and the engine free. -/
def Claims.TileTaskRuns : Prop :=
  ∀ (s u : State) (p c : Nat) (x : Task) (m : Mul) (ents : Nat → Nat → Nat → W32), s.task? p x.tok = some x → x.part = p →
    let x' : Task := { x with stamp := s.taskStamp x }
    (s.taskPlan (x'.eng c) x' = .ok (u, m, ents) → s.starts p = true → s.tasks.find? (fun t => t.part = p && s.taskReady t) = some x → s.pickEngine x = some c → x.acc = [] →
      bitsAt x.words 18 1 = 0 →
      ∃ t, exec (.tileTaskDispatch p x.tok) s = .next t ∧ (t.core c).task = some x.tok ∧
        t.task? p x.tok = some { x' with state := .running, core := some c, acc := List.replicate 1024 0, ring := false } ∧
        Claims.Accessed s { t with tasks := s.tasks, cores := s.cores, ctxs := s.ctxs } (Claims.reach s [])) ∧
    (s.taskPlan (x'.eng c) x' = .ok (u, m, ents) → s.starts p = true → x.state = .running → x.core = none → x.wait = none → s.pickEngine x = some c → x.acc ≠ [] →
      ∃ t, exec (.tileTaskResume p x.tok) s = .next t ∧ (t.core c).task = some x.tok ∧
        t.task? p x.tok = some { x' with core := some c, ring := false } ∧
        Claims.Accessed s { t with tasks := s.tasks, cores := s.cores, ctxs := s.ctxs } (Claims.reach s [])) ∧
    (∀ (acc : List W32) (k : Nat) (w z : State), s.taskPlan (x.eng c) x = .ok (u, m, ents) → x.core = some c → x.state = .running →
      (s.core c).hung = none → (u.core c).lookupFault = none → m.run ents none (min 65536 (m.steps - x.ksteps)) x.ksteps x.acc = (acc, k, .done) → m.steps ≤ k →
      let row (i : Nat) := x.rowBytes acc i
      let y := u.mapTask p x.tok fun _ => { x with acc := acc, ksteps := k }
      (∃ trs, (List.range 16).mapM (fun i => (accessParts (x.rowAddr i) (row 0).length).mapM fun q => y.engTrans (x.eng c) true q.1 q.2.2) =
        .ok trs) →
      y.noteWrite c x.ctx ((List.range 16).flatMap fun i => pagesOf (x.rowAddr i) (row 0).length) = some w →
      (List.range 16).foldlM (fun a i => a.engWrite (x.eng c) (x.rowAddr i) (row i)) w = .ok z →
      ∃ t, exec (.tileTaskComplete p x.tok) s = .next t ∧ { t with tasks := z.tasks, cores := z.cores } = z ∧
        t.task? p x.tok = some { x with ksteps := k, state := .done, acc := [] } ∧
        ((s.core c).task = some x.tok → (t.core c).task = none ∧ (t.core c).owner = none))

/-- R252 to R254: tile tasks, issued and run. -/
def Obligations.TileTasksRun : Prop := Claims.TileTasks ∧ Claims.TileTaskRuns

/-! ### User queues and launches -/

/-- R343, R374 to R377, R39, R97: USER_QUEUE_NOTIFY writes a queue's write index, and PEND where it holds no slot;
QUEUE_OWNER_WRITE unmaps a queue whose owner or descriptor it changes; QUEUE_SCHEDULER_DECISION, when it is due, gives a waiting
queue a free slot, or that of the mapped queue that must give way; LAUNCH_READ starts the next launch of a mapped queue and moves
its read index on, or stops the queue at a record that breaks R39; LAUNCH_COMPLETE completes a launch whose blocks and
continuations have, with the writes of its context's threads performed. -/
def Obligations.QueuesAndLaunches : Prop :=
  (∀ (s : State) (fn : Fn) (q : Nat) (idx : W32) (x : Queue), s.queue? q = some x →
    (x.part < 8 → (s.part x.part).layout.valid = true → (fn = .pf ∨ fn = .vf x.part) → x.qdesc.toNat + 64 ≤ s.usable →
      (x.slot = none ∨ (idx - queueRidx (s.queueWords x)).toNat ≤ 2 ^ queueLogn (s.queueWords x)) →
      ∃ t, exec (.userQueueNotify ⟨fn, q⟩ idx) s = .next t ∧ queueWidx (t.queueWords x) = idx ∧
        (x.slot = none → queuePend (t.queueWords x) = true) ∧
        t.queue? q = some { x with asked := x.slot.isNone
                                   emptyAt := if idx ≠ queueRidx (s.queueWords x) then none else some (x.emptyAt.getD s.now) } ∧
        { t with queues := s.queues, mem := s.mem, dirty := s.dirty, past := s.past, homes := s.homes, met := s.met } = s ∧
        ∀ a, ¬ (x.qdesc.toNat ≤ a ∧ a < x.qdesc.toNat + 64) → t.mem.read a = s.mem.read a) ∧
    (fn ≠ .pf → fn ≠ .vf x.part → exec (.userQueueNotify ⟨fn, q⟩ idx) s = .next s)) ∧
  (∀ (s : State) (q : Nat) (value : W64),
    let part := (value.extractLsb' 0 4).toNat
    let qdesc : W64 := value &&& 0x0000FFFFFFFFFFC0
    let fresh : Queue := ⟨q, part, qdesc, none, none, false, none, none, 0⟩
    (4096 ≤ q → exec (.queueOwnerWrite q value) s = .next s) ∧
    (q < 4096 → s.queue? q = none → ∃ t, exec (.queueOwnerWrite q value) s = .next t ∧ { t with queues := s.queues } = s ∧
      t.queues = s.queues ++ [fresh]) ∧
    (∀ x, q < 4096 → s.queue? q = some x →
      (x.part = part → x.qdesc = qdesc → exec (.queueOwnerWrite q value) s = .next s) ∧
      ((x.part ≠ part ∨ x.qdesc ≠ qdesc) → ∃ t, exec (.queueOwnerWrite q value) s = .next t ∧ t.queue? q = some fresh ∧
        (∀ k, k ≠ q → t.queue? k = s.queue? k) ∧ (x.slot = none → { t with queues := s.queues } = s)))) ∧
  (∀ s : State, (s.decisionDue = false → exec .queueSchedulerDecision s = .next s) ∧
    (s.decisionDue = true → (∀ q ∈ s.queues, s.idleQueue q = false) →
      (s.waitingQueues = [] →
        exec .queueSchedulerDecision s = .next { s with schedAt := s.now, queues := s.queues.map fun q => { q with asked := false } }) ∧
      (∀ x, s.waitingQueues = [x] → s.queue? x.q = some x → s.queueBad x = false →
        (∀ k r, s.freeQueueSlots = k :: r → ∃ t, exec .queueSchedulerDecision s = .next t ∧ t.schedAt = s.now ∧
          t.queue? x.q = some { x with slot := some k, stop := 0, emptyAt := none, asked := false } ∧
          (∀ j, j ≠ x.q → t.queue? j = (s.queue? j).map fun y => { y with asked := false })) ∧
        (∀ v, s.freeQueueSlots = [] → s.slotVictim (s.queueRank x) = some v → s.queue? v.q = some v → v.q ≠ x.q →
          ∃ t, exec .queueSchedulerDecision s = .next t ∧ t.schedAt = s.now ∧ s.queueRank x < s.queueRank v ∧
            t.queue? v.q = some { v with slot := none, asked := false } ∧
            t.queue? x.q = some { x with slot := some (v.slot.getD 0), stop := 0, emptyAt := none, asked := false })))) ∧
  (∀ (s u : State) (q : Nat) (x : Queue) (bs : List Byte), s.queue? q = some x → x.slot.isSome = true → x.wait = none →
    s.queueWork x = true → s.orderMet x = true → s.engRead (s.queueEng x) (s.nextRecord x) 64 = .ok (u, bs) →
    (launchBad (bytesWords bs) = false → ∃ t l y, exec (.launchRead q) s = .next t ∧ t.launches = s.launches ++ [l] ∧
      t.serial = s.serial + 1 ∧ l.key = s.serial + 1 ∧ l.part = x.part ∧ l.ctx = u.queueCtx x ∧ l.queue = some q ∧
      l.index = queueRidx (u.queueWords x) ∧ l.words = bytesWords bs ∧ l.prio = bitsAt (bytesWords bs) 220 4 ∧
      l.cls = max (bitsAt (bytesWords bs) 218 2) (s.part x.part).layout.cls ∧ l.nextClu = 0 ∧ l.pending = 0 ∧ l.complete = false ∧
      t.queue? q = some y ∧ { y with last := x.last, emptyAt := x.emptyAt } = x ∧ y.last = some l.key ∧
      (x.qdesc.toNat + 64 ≤ s.usable → queueRidx (t.queueWords x) = queueRidx (u.queueWords x) + 1)) ∧
    (launchBad (bytesWords bs) = true → ∃ t, exec (.launchRead q) s = .next t ∧ t.launches = s.launches ∧
      t.queue? q = some { x with slot := none, stop := 1 })) ∧
  (∀ (s : State) (k : Nat) (l : Launch), s.launches.find? (fun x => x.key = k) = some l → s.launchDone l = true →
    s.ctxBlocked l.ctx = false → ∃ t, exec (.launchComplete k) s = .next t ∧
      t.launches = updateWhere (·.key = k) (fun x => { x with complete := true }) s.launches ∧
      (∀ w ∈ t.writes, w.agent.ctx ≠ some l.ctx ∨ w.uid = 0) ∧
      Claims.Accessed s { t with launches := s.launches } (Claims.reach s []))

/-! ### Blocks that start -/

/-- A block has started on a core (R31 to R34, R40, R45, R289): it has a free block slot, its threads fill new waves of free wave
slots, quadrants in turn from the one with the most register space, each thread with its work identifier, its stack, its first
PC and its registers; the core lists the block (R458). -/
structure Claims.Started (s : State) (b : NewBlock) (core : Nat) (t : State) : Prop where
  rest   : { t with blocks := s.blocks, waves := s.waves, serial := s.serial, cores := s.cores, launches := s.launches, l1 := s.l1 } = s
  block  : ∃ x ws, t.blocks = s.blocks ++ [x] ∧ t.waves = s.waves ++ ws ∧ x.key = s.serial + 1 ∧ x.core = core ∧
    x.bslot ∈ s.freeBlockSlots core ∧ x.launch = b.launch.key ∧ x.ctx = b.launch.ctx ∧ x.part = b.launch.part ∧
    x.cluster = b.cluster ∧ x.nthreads = b.n ∧ x.scratch = [] ∧ x.barriers = [] ∧ x.serial = 1 ∧ x.kprog = 0 ∧ x.ended = false ∧
    ws.length = (b.n + 31) / 32 ∧ (ws.map (·.wslot)).Nodup ∧ (∀ w ∈ ws, w.wslot ∈ s.freeSlots core) ∧
    ∀ k w, ws[k]? = some w → w.core = core ∧ w.quad = (s.bestQuad core + k) % 4 ∧ w.launch = b.launch.key ∧
      w.nregs = b.launch.nregs ∧ w.fflags = 0 ∧ (∀ e ∈ w.rejoin, e.armed = false) ∧
      ∀ i, i < 32 → (b.n ≤ 32 * k + i → w.slot i = .empty) ∧
        (32 * k + i < b.n → ∃ y, w.slot i = .live y ∧ y.blk = x.key ∧ y.pc = b.pc ∧ y.depth = 0 ∧ y.tvec = 0 ∧ y.inHandler = false ∧
          y.wait = .ready ∧ y.regs.length = b.launch.nregs ∧
          y.wid = b.wid ||| b.launch.widOf i (if b.f1 then k else 0) 0 0 0 0 ∧
          y.slim = (s.ctxOf b.launch.ctx).stackBase +
            BitVec.ofNat 64 (((core * 64 + x.bslot) * 1024 + (32 * k + i)) * (b.launch.stack * 16)) ∧
          y.sp = y.slim + BitVec.ofNat 64 (b.launch.stack * 16) ∧
          (b.inits = [] → (∀ r, (∀ p ∈ b.regs, p.1 ≠ r) → y.reg r = 0) ∧
            ((b.regs.map (·.1)).Nodup → ∀ p ∈ b.regs, 1 ≤ p.1 → p.1 < b.launch.nregs → y.reg p.1 = p.2)))
  listed : ∃ l, addBlock (s.core core).blocks (b.entry (s.serial + 1)) = some l ∧ (t.core core).blocks = l

/-- R31 to R34, R40, R42, R45, R230, R379 to R381: a block that fits on a core starts there as `Started` says. BLOCK_PLACE starts
the next cluster of the launch of the best rank that can be placed, CONTINUATION_START the block of the first continuation and
MESSAGE_HANDLER_START the handler of the first message, where no record of another kind that can start has a better rank; the
record leaves its queue. A malformed continuation ends its context, and a message for a context that receives none is discarded.
SENSOR_SCORE_REFRESH takes new scores of the cores. -/
def Obligations.BlockStarts : Prop :=
  (∀ (s t : State) (b : NewBlock) (core : Nat), s.tryBlock b core = some t → Claims.Started s b core t) ∧
  (∀ (s u : State) (p : Nat) (l : Launch), s.starts p = true → s.pickLaunch p = some (l, u) → s.noneBetter p 3 (rankOf l) = true →
    ∃ t, exec (.blockPlace p) s = .next t ∧ l ∈ s.openLaunches p ∧
      (∀ x ∈ s.openLaunches p, (s.placeCluster p (s.nextCluster x)).isSome = true →
        rankOf l < rankOf x ∨ rankOf l = rankOf x ∧ l.lastBlk ≤ x.lastBlk) ∧
      s.placeCluster p (s.nextCluster l) = some u ∧ { t with launches := u.launches, parts := u.parts } = u ∧
      (∀ q, { t.part q with turn := (u.part q).turn } = u.part q) ∧
      t.launches = updateWhere (·.key = l.key) (fun x => { x with nextClu := x.nextClu + 1 }) u.launches ∧
      ∀ b, s.nextCluster l = [b] → ∃ c z, c ∈ s.serving p ∧ s.tryBlock b c = some z ∧ { u with parts := z.parts } = z) ∧
  (∀ (s u : State) (p k lk c since : Nat) (ws : List W32) (h ring : Bool), s.starts p = true →
    s.headRecord p 0 = some (k, .cont lk c ws h since ring) →
    (contBad ws = false → ∀ rank, s.contReady p = some (rank, u) → s.noneBetter p 0 rank = true →
      ∃ t core z, exec (.continuationStart p) s = .next t ∧ core ∈ s.serving p ∧
        s.tryBlock (s.contBlock (s.launchOf lk) ws) core = some z ∧ t.blocks = z.blocks ∧ t.waves = z.waves ∧
        ((∀ r ∈ (s.part p).work, r.inRing = false) → p < s.parts.length → (t.part p).work = (s.part p).work.eraseIdx k)) ∧
    (contBad ws = true → (s.ctx? c).isSome = true →
      ∃ t x, exec (.continuationStart p) s = .next t ∧ t.ctx? c = some x ∧ x.ended = true)) ∧
  (∀ (s u : State) (p k c since : Nat) (ws pl : List W32) (ring : Bool), s.starts p = true →
    s.headRecord p 1 = some (k, .msg c ws pl since ring) →
    (∀ m rank, (s.ctxOf c).msg = some m → (s.ctxOf c).ended = false → s.msgReady p = some (rank, u) → s.noneBetter p 1 rank = true →
      ∃ t core z, exec (.messageHandlerStart p) s = .next t ∧ core ∈ s.serving p ∧
        (s.handlerLaunch (s.ctxOf c) m).1.tryBlock
          ((s.handlerLaunch (s.ctxOf c) m).1.handlerBlock (s.handlerLaunch (s.ctxOf c) m).2 ws pl) core = some z ∧
        t.blocks = z.blocks ∧ t.waves = z.waves ∧
        ((∀ r ∈ (s.part p).work, r.inRing = false) → p < s.parts.length → (t.part p).work = (s.part p).work.eraseIdx k)) ∧
    ((s.ctxOf c).msg = none ∨ (s.ctxOf c).ended = true → (∀ r ∈ (s.part p).work, r.inRing = false) → p < s.parts.length →
      ∃ t, exec (.messageHandlerStart p) s = .next t ∧ (t.part p).work = (s.part p).work.eraseIdx k ∧ t.blocks = s.blocks ∧
        t.waves = s.waves)) ∧
  (∀ (s : State) (scores : List Nat), ∃ t, exec (.sensorScoreRefresh scores) s = .next t ∧ { t with scores := s.scores } = s ∧
    t.scores.length = 96 ∧ ∀ c, c < 96 → c < scores.length → t.scores.getD c 0 = min 255 (scores.getD c 0))

/-! ### Limits, windows and eviction -/

/-- The threads of a block have ended wherever they were in waves, and no other thread has. -/
def Claims.BlockGone (s : State) (b : Nat) (t : State) : Prop :=
  ∀ c k w, s.wave? c k = some w → ∃ w', t.wave? c k = some w' ∧ ∀ i, i < 32 → w'.live? i = (w.live? i).filter (fun y => y.blk ≠ b)

/-- A kill is entered in the partition's damage list, while that has room, as a killed block with a cause (R460, R461), and
counted. -/
def Claims.KillNoted (s : State) (p cause : Nat) (t : State) : Prop :=
  p < s.parts.length → (t.part p).kills = satInc (s.part p).kills ∧
    ((s.part p).damage.length < 4096 → ∃ e, (t.part p).damage = (s.part p).damage ++ [e] ∧ bitsAt e 0 8 = 2 ∧ bitsAt e 8 4 = cause)

/-- R382, R226, R460, R368, R373, R384, R387, R397: BLOCK_TIME_EXCEEDED kills a block that has run longer than MBT, and
SECTION_HOLD_EXCEEDED the block of a thread, in a wave or filed in a bin, that has held its section beyond the limit. WINDOW_START in
a partition's window, once no other occupies its cores, runs it where it waits and begins its swap in where it is OUT; others that
wait or are held on its cores begin their swap out first. WINDOW_END drains a running partition, or holds it where a debugger halts
one of its waves; DRAIN_ESCALATION begins the swap out of a partition whose drain exceeds MBT, and is counted. -/
def Obligations.LimitsAndWindows : Prop :=
  (∀ (s : State) (b : Nat) (x : Block), s.block? b = some x → x.ended = false →
    ((x.out = false → (s.part x.part).layout.mbt * 100 < s.now - x.start →
      ∃ t, exec (.blockTimeExceeded b) s = .next t ∧ Claims.BlockGone s b t ∧ Claims.KillNoted s x.part 2 t) ∧
    (s.now - x.start ≤ (s.part x.part).layout.mbt * 100 → exec (.blockTimeExceeded b) s = .next s) ∧
    (∀ y ∈ s.holders, (∀ z ∈ s.holders, z.uid = y.uid → z = y) → y.blk = b →
      (s.part x.part).layout.sechold * 100 < s.now - y.holdStart →
      ∃ t, exec (.sectionHoldExceeded x.core x.bslot y.uid) s = .next t ∧ Claims.BlockGone s b t ∧ Claims.KillNoted s x.part 3 t))) ∧
  (∀ (s : State) (p : Nat), s.parts.length = 8 → p < 8 → (s.part p).layout.valid = true →
    (((s.part p).state = .waiting ∨ (s.part p).state = .out) → s.inWindow p = true → s.commitHolds p = false →
      (∀ q, q < 8 → s.shareCores p q = true → (s.part q).state.occupies = false) →
      let first (q : Nat) : Prop := q < 8 ∧ s.shareCores p q = true ∧ ((s.part q).state = .waiting ∨ (s.part q).state = .held)
      ∃ t, exec (.windowStart p) s = .next t ∧
        (∀ q, first q → (t.part q).state = .swapping ∧ (t.part q).swaps = satInc (s.part q).swaps ∧
          ∀ w ∈ t.waves, w.core < 96 → t.wavePart w ≠ q) ∧
        ((∃ q, first q) → (t.part p).state = (s.part p).state) ∧
        ((∀ q, ¬ first q) → { t with parts := s.parts } = s ∧ (∀ q, q ≠ p → t.part q = s.part q) ∧
          t.part p = { s.part p with state := if (s.part p).state = .out then .swappingIn else .running })) ∧
    (∀ q, q < 8 → s.shareCores p q = true → (s.part q).state.occupies = true → exec (.windowStart p) s = .next s) ∧
    ((s.part p).state = .running → s.inWindow p = false →
      (s.partHalted p = true → ∃ t, exec (.windowEnd p) s = .next t ∧ { t with parts := s.parts } = s ∧
        t.part p = { s.part p with state := .held }) ∧
      (s.partHalted p = false → s.partIdle p = false → ∃ t, exec (.windowEnd p) s = .next t ∧ { t with parts := s.parts } = s ∧
        t.part p = { s.part p with state := .draining, drainAt := s.now }) ∧
      (s.partHalted p = false → s.partIdle p = true → ∃ t, exec (.windowEnd p) s = .next t ∧ (t.part p).state = .waiting)) ∧
    ((s.part p).state = .draining → (s.part p).layout.mbt * 100 < s.now - (s.part p).drainAt →
      ∃ t, exec (.drainEscalation p) s = .next t ∧ (t.part p).state = .swapping ∧ (t.part p).swaps = satInc (s.part p).swaps ∧
        t.telem.escalations = satInc s.telem.escalations ∧ ∀ w ∈ t.waves, w.core < 96 → t.wavePart w ≠ p) ∧
    ((s.part p).state ≠ .draining → exec (.drainEscalation p) s = .next s))

/-- R385, R386, R393, R398: PARTIAL_EVICTION selects, for the first record that has waited too long and cannot be placed, waves of
the record's partition with a greater class number; EVICTION_WAVE_TIMEOUT releases a selected wave that is not ready after 10 µs;
WAVE_RESTORE brings an evicted wave back to its core; SAVE_AREA_RETRY writes an image that waits for its save area; and
SAVE_AREA_TIMEOUT ends the context of one that has waited longer than SAVETO. -/
def Obligations.Evictions : Prop :=
  (∀ (s : State) (p : Nat) (x : Waiter), s.starts p = true →
    let due (y : Waiter) : Bool := (s.part p).layout.evdelay * 100 < s.now - y.since && !s.canStart p y &&
      s.waves.any fun w => s.wavePart w = p && y.cls < (s.launchOf w.launch).cls
    ((s.waiters p).filter due = [] → exec (.partialEviction p) s = .next s) ∧
    (lowestScore (·.cls) ((s.waiters p).filter due) = some x → (∀ c ∈ s.cores, c.bins = []) →
      ∃ t, exec (.partialEviction p) s = .next t ∧ { t with waves := s.waves } = s ∧
        (∀ w ∈ s.selectWaves p x, s.wavePart w = p ∧ x.cls < (s.launchOf w.launch).cls ∧ w.saving = none ∧ w.halt.state = 0 ∧
          ∃ y, t.wave? w.core w.wslot = some y ∧ y.saving = some (s.now, x.cls)) ∧
        ∀ c k, (∀ w ∈ s.selectWaves p x, w.core ≠ c ∨ w.wslot ≠ k) → t.wave? c k = s.wave? c k)) ∧
  (∀ (s : State) (core wslot since cls : Nat) (w : Wave), s.wave? core wslot = some w → w.saving = some (since, cls) →
    (1000 < s.now - since → (∀ x ∈ s.waves, x.core = core → x.wslot = wslot → x = w) →
      ∃ t y, exec (.evictionWaveTimeout core wslot) s = .next t ∧ { t with waves := s.waves } = s ∧ t.wave? core wslot = some y ∧
        { y with slots := w.slots, saving := w.saving } = w ∧ y.saving = none ∧
        ∀ i, y.slot i = (w.slot i).mapLive fun x => if x.wait = .save then { x with wait := .ready } else x) ∧
    (s.now - since ≤ 1000 → exec (.evictionWaveTimeout core wslot) s = .next s)) ∧
  (∀ (s : State) (n : Nat) (i : Image) (w : Wave), s.images[n]? = some i → i.evict = true → i.waves = [w] →
    ((s.part i.part).state = .running ∨ (s.part i.part).state = .draining) → (s.health.getD i.core .reset).state = 0 →
    s.freeSlots i.core ≠ [] → w.nregs ≤ s.quadFree i.core (s.bestQuad i.core) →
    s.betterWaits i.part (s.launchOf w.launch).cls i.core = false →
    ∃ t k b, exec (.waveRestore n) s = .next t ∧ { t with waves := s.waves, images := s.images } = s ∧
      t.images = s.images.eraseIdx n ∧ k ∈ s.freeSlots i.core ∧
      t.waves = s.waves ++ [{ w with core := i.core, wslot := k, quad := s.bestQuad i.core, base := b }]) ∧
  (∀ (s u : State) (p n : Nat) (i : Image), s.images[n]? = some i → i.part = p →
    i.spill.any (fun x => x.2.2.isNone || decide (10000 ≤ s.now - x.2.1)) = true →
    (∀ k j, k ≠ n → s.images[k]? = some j → j.part = p → j.spill = none) →
    s.saveParts p (s.savePlace i) (s.imageParts i) = .ok u →
    ∃ t, exec (.saveAreaRetry p) s = .next t ∧ { t with images := u.images } = u ∧
      t.images = s.images.set n { i with shadow := false, spill := none }) ∧
  (∀ (s : State) (p c : Nat) (i : Image) (x : Context),
    s.images.find? (fun i => i.part = p && i.spill.any fun x => (s.part p).layout.saveto * 100 < s.now - x.1) = some i →
    (s.imageCtxs i).head? = some c → s.ctx? c = some x → x.ended = false →
    ∃ t, exec (.saveAreaTimeout p) s = .next t ∧ t.ctx? c = some { x with ended := true } ∧ t.mp.spillLost = true)

/-! ### Answers of the host, and the debugger -/

/-- R414, R267, R407, R395 to R397, R58: RDONE_SEQ completes an open record: what waits for it goes on, or its context ends where
the host's disposition says so. TLB_INVAL_COMPLETE drops the translations that an owner's oldest invalidation covers and reports
its token. DEBUG_HALT begins to halt every wave of the attached context, HALT_COMPLETE stops a halting wave whose class-V results
have returned, DEBUG_RESUME lets every wave of the context go on, and DEBUG_DATA_WRITE writes the selected register of a stopped
wave and is refused with BUSY for one that is not stopped. -/
def Obligations.HostAnswersAndDebugger : Prop :=
  (∀ (s : State) (o : Nat) (sq : W32),
    ((∀ r ∈ (s.owner o).open_, r.sq ≠ sq) → exec (.rdoneSeq o sq) s = .next s) ∧
    (∀ r, (s.owner o).open_.find? (fun r => r.sq = sq) = some r → o < s.owners.length →
      ((s.owner o).rdoneDisp = false ∨ r.kind = 0x03 → ∃ t, exec (.rdoneSeq o sq) s = .next t ∧
        (t.owner o).open_ = (s.owner o).open_.filter (fun x => x.sq ≠ sq) ∧ t.mem = s.mem ∧
        (∀ c k w, s.wave? c k = some w → ∃ w', t.wave? c k = some w' ∧ { w' with slots := w.slots } = w ∧
          ∀ i, w'.slot i = (w.slot i).mapLive fun x =>
            if x.wait = .replay o sq ∨ x.wait = .sysc o sq then { x with wait := .ready } else x) ∧
        (∀ c ∈ t.cmds, c.wait ≠ some (o, sq)) ∧ (∀ x ∈ t.tasks, x.wait ≠ some (o, sq)) ∧ (∀ x ∈ t.rays, x.wait ≠ some (o, sq)) ∧
        ∀ x ∈ t.queues, x.wait ≠ some (o, sq)) ∧
      (∀ x, (s.owner o).rdoneDisp = true → r.kind ≠ 0x03 → s.ctx? r.ctx = some x → x.ended = false →
        ∃ t, exec (.rdoneSeq o sq) s = .next t ∧ t.ctx? r.ctx = some { x with ended := true }))) ∧
  (∀ (s : State) (o : Nat) (x : TlbInval), s.invals.find? (fun x => x.owner = o) = some x → o < s.owners.length →
    (s.invalHeld x = false → ∃ t, exec (.tlbInvalComplete o) s = .next t ∧ (t.owner o).tlbiDone = x.token ∧
      (∀ e ∈ t.tlb, (s.invalCovers x e.ctx && x.meets e.tr.va (2 ^ e.tr.bits)) = false) ∧
      (∀ y ∈ t.invals, y ∈ s.invals ∧ (y.owner ≠ o ∨ y.token ≠ x.token)) ∧
      ((∀ r ∈ s.rays, s.invalCovers x r.ctx = true → r.state ≠ .flight) →
        (∀ e ∈ t.tlb, e ∈ s.tlb) ∧
        ∀ a, ¬ Claims.onItsWay s a → ¬ Claims.inLanes s a → t.mem.read a = s.mem.read a)) ∧
    (s.invalHeld x = true → exec (.tlbInvalComplete o) s = .next s)) ∧
  (∀ (s : State) (p : Nat) (value : W32), p < s.parts.length →
    let d := (s.part p).dbg
    let mine (w : Wave) : Prop := (s.launchOf w.launch).ctx = d.ctx
    (d.attach = false → exec (.debugHalt p) s = .next s ∧ exec (.debugResume p) s = .next s ∧
      exec (.debugDataWrite p value) s = .next s) ∧
    (d.attach = true →
      (∃ t, exec (.debugHalt p) s = .next t ∧ (t.part p).dbg = { d with state := 1 } ∧
        ((∀ r ∈ s.rays, r.ctx ≠ d.ctx ∨ r.state ≠ .flight) →
          ∀ c k w, s.wave? c k = some w → ∃ w', t.wave? c k = some w' ∧ { w' with halt := w.halt } = w ∧
            (mine w → w.halt.state = 0 → w'.halt.state = 1) ∧ (¬ mine w ∨ w.halt.state ≠ 0 → w' = w))) ∧
      (∃ t, exec (.debugResume p) s = .next t ∧ (t.part p).dbg = { d with state := 0 } ∧
        ((s.part p).state = .held → (t.part p).state = if s.inWindow p then .running else .held) ∧
        ∀ c k w, s.wave? c k = some w → ∃ w', t.wave? c k = some w' ∧ { w' with halt := w.halt } = w ∧
          (mine w → w'.halt = ⟨0, 0, 0⟩) ∧ (¬ mine w → w' = w)) ∧
      (∀ w, s.debugWave p = some w →
        (w.halt.state ≠ 2 → ∃ t, exec (.debugDataWrite p value) s = .next t ∧ { t with parts := s.parts } = s ∧
          t.part p = { s.part p with dbg := { d with busy := true } }) ∧
        (∀ y, w.halt.state = 2 → s.wave? d.core d.wave = some w → w.thread? d.lane = some y → 1 ≤ d.reg → d.reg < y.regs.length →
          ∃ t w' y', exec (.debugDataWrite p value) s = .next t ∧ { t with waves := s.waves, images := s.images } = s ∧
            t.wave? d.core d.wave = some w' ∧ w'.thread? d.lane = some y' ∧ y'.reg d.reg = value ∧
            (∀ r, r ≠ d.reg → y'.reg r = y.reg r) ∧ ∀ i, i ≠ d.lane → w'.slot i = w.slot i)))) ∧
  (∀ (s : State) (core wslot : Nat) (w : Wave), s.wave? core wslot = some w →
    (w.halt.state = 1 → s.drained core wslot = true → ∃ t, exec (.haltComplete core wslot) s = .next t ∧ { t with waves := s.waves } = s ∧
      t.wave? core wslot = some { w with halt := { w.halt with state := 2 } } ∧
      ∀ c k, (c ≠ core ∨ k ≠ wslot) → t.wave? c k = s.wave? c k) ∧
    ((w.halt.state ≠ 1 ∨ s.drained core wslot = false) → exec (.haltComplete core wslot) s = .next s))

/-! ### Rays and draws on the sequencers -/

/-- The hit record that a ray sends to its core (R260, R331): `t` is `s` with the record added and the ray become `y`. -/
def Claims.HitSent (s : State) (r y : Ray) (kind sq : Nat) (t : State) : Prop :=
  { t with cores := s.cores, rays := s.rays } = s ∧ (t.core r.core).hits = (s.core r.core).hits ++ [⟨r.launch, r.hitWords kind sq⟩] ∧
    wordAt (r.hitWords kind sq) 0 = r.rayid ∧ wordAt (r.hitWords kind sq) 1 = BitVec.ofNat 32 (kind + 256 * sq) ∧
    t.rays = updateWhere (fun x => x.launch = r.launch && x.id = r.id) (fun _ => y) s.rays

/-- R258 to R260, R331, R333, R421, R422, R431, R492: TRAVERSAL_STEP, on a sequencer of its die, runs a ray that is under way or the
first of its queue, while its core's hit queue has room: a ray that a hitrep has ended, one that misses at once, and one whose run
by the standard microcode ends send a hit record of KIND 1 for an accepted hit and 0 for a miss, and are complete; a candidate's
record is saved, and it waits with a hit record of KIND 2; an emission costs the standard microcode 8 micro-ops. A context's own
microcode sends the records that it emits, and its ray is saved at a yield and complete at its end. RAY_RESUME of a ray whose saved
record is unchanged goes on with the ray as it was saved, at a cost of 24. MICROOP_LIMIT_KILL kills a ray that has spent 2^20
micro-ops of its context's own microcode, or more of the standard one, with a hit record of KIND 3. -/
def Obligations.Traversal : Prop :=
  ∀ (s : State) (n sq : Nat) (r : Ray), s.rays[n]? = some r → s.mayRun r sq = true →
    (r.state = .flight → r.wait = none → s.rayRuns r = true → s.hitRoom r = true →
      (r.queued = false ∨ sq / 32 = r.die ∧ s.rayFirst n r = true) →
      (r.ending = true → ∀ cost, cost = (if (s.ownMicrocode r.ctx 2).isSome then 0 else 8) → r.steps + cost ≤ 1048576 ∨ cost = 0 →
        ∃ t, exec (.traversalStep n sq) s = .next t ∧
          Claims.HitSent s r { r with state := .complete, steps := r.steps + cost } (if r.accepted then 1 else 0) sq t) ∧
      (r.ending = false → r.saved = none → s.ownMicrocode r.ctx 2 = none →
        (r.started = false → r.missAtOnce = true → r.accepted = false → r.steps + 8 ≤ 1048576 →
          ∃ t y, exec (.traversalStep n sq) s = .next t ∧ y.state = .complete ∧ Claims.HitSent s r y 0 sq t ∧
            r.hitWords 0 sq = [r.rayid, BitVec.ofNat 32 (256 * sq), r.tmax, 0xFFFFFFFF, 0xFFFFFFFF, 0, 0, 0]) ∧
        (∀ u x, r.run s 1048576 = (u, x, .ended) → x.steps + 8 ≤ 1048576 → ∃ t, exec (.traversalStep n sq) s = .next t ∧
          Claims.HitSent u x { x with state := .complete, steps := x.steps + 8 } (if x.accepted then 1 else 0) sq t) ∧
        (∀ u w x y, r.run s 1048576 = (u, x, .candidate) → x.steps + 8 ≤ 1048576 →
          u.saveRay { x with steps := x.steps + 8 } sq = (w, some y) → ∃ t, exec (.traversalStep n sq) s = .next t ∧
            Claims.HitSent w y { y with state := .waiting } 2 sq t)) ∧
      (∀ image u x w y e, r.ending = false → r.saved = none → s.ownMicrocode r.ctx 2 = some image →
        r.microBegin s = .ok (u, x, false) → x.runMicro u image 1048577 = (w, y, e) →
        (∀ k, k < 8 → e = .next (.emit k) → ∃ t, exec (.traversalStep n sq) s = .next t ∧
          Claims.HitSent w y { y with cand := y.cand || decide (k = 2) } k sq t) ∧
        (∀ v z, e = .next .yield → w.saveRay { y with steps := 0 } sq = (v, some z) → ∃ t, exec (.traversalStep n sq) s = .next t ∧
          { t with rays := v.rays } = v ∧ t.rays = updateWhere (fun x => x.launch = z.launch && x.id = z.id)
            (fun _ => { z with state := if z.cand then .waiting else .flight }) v.rays) ∧
        (e = .next .halt → ∃ t, exec (.traversalStep n sq) s = .next t ∧ { t with rays := w.rays } = w ∧
          t.rays = updateWhere (fun x => x.launch = y.launch && x.id = y.id) (fun _ => { y with state := .complete }) w.rays))) ∧
    (r.state ≠ .flight → exec (.traversalStep n sq) s = .next s) ∧
    (∀ (u : State) (bs : List Byte), r.saved = some (bytesWords bs) → r.wait = none → r.ending = false →
      (r.state = .flight ∨ r.state = .faulted) → s.rayRuns r = true → s.ownMicrocode r.ctx 2 = none → r.level = 0 →
      s.rayRead r r.addr 128 = .ok (u, bs) → ∃ t y, exec (.rayResume n sq) s = .next t ∧ { t with rays := u.rays } = u ∧
        t.rays = updateWhere (fun x => x.launch = r.launch && x.id = r.id) (fun _ => y) u.rays ∧
        y.state = (if r.cand then .waiting else .flight) ∧ y.saved = none ∧ y.steps = r.steps + 24 ∧
        { y with state := r.state, saved := r.saved, steps := r.steps, wregs := r.wregs, flagF := r.flagF, nb := r.nb } = r) ∧
    (r.state = .flight → r.wait = none → (if (s.ownMicrocode r.ctx 2).isSome then 1048576 ≤ r.steps else 1048576 < r.steps) → ∃ t k, exec (.microopLimitKill n) s = .next t ∧ k < 64 ∧
      Claims.HitSent s r { r with state := .killed } 3 k t) ∧
    (r.steps < 1048576 → exec (.microopLimitKill n) s = .next s)

/-- Nothing has changed from one state to another but a partition's turn, which is a kind's (R42). -/
def Claims.TurnTaken (p kind : Nat) (s t : State) : Prop :=
  { t with parts := s.parts } = s ∧ (∀ q, { t.part q with turn := (s.part q).turn } = s.part q) ∧
    (p < s.parts.length → (t.part p).turn = kind) ∧ ∀ q, q ≠ p → t.part q = s.part q

/-- R428, R429, R435: DRAW_RING_ENABLE reads the read index of a ring whose conditions have come to hold, and DRAW_RING_POLL the
write index of a ring whose sequencer is idle. DRAW_TAKE reads the next draw of a ring with its launches and targets; starts the
next vertex threads of the draw taken; and, when everything of the draw is done, advances the ring's read index past it.
RENDERING_B_START lets a draw of rendering B go on once its offset has passed. -/
def Claims.DrawRings : Prop :=
  ∀ (s u : State) (p : Nat) (bs : List Byte), p < s.parts.length →
    let b := (s.part p).render
    (s.ringOn p = true → b.wait = none → s.taken p = none →
      (b.ridx = none → s.engRead (s.ringEng b.dctx) (b.dring + 4) 4 = .ok (u, bs) →
        ∃ t, exec (.drawRingEnable p) s = .next t ∧ { t with parts := u.parts } = u ∧
          (t.part p).render = { b with ridx := some (BitVec.ofNat 32 (bytesNat bs)), widx := BitVec.ofNat 32 (bytesNat bs) }) ∧
      (b.ridx.isSome = true → s.engRead (s.ringEng b.dctx) b.dring 4 = .ok (u, bs) →
        ∃ t, exec (.drawRingPoll p) s = .next t ∧ { t with parts := u.parts } = u ∧
          (t.part p).render = { b with widx := BitVec.ofNat 32 (bytesNat bs) })) ∧
    (∀ (n : W32) (w : State) (vws pws tws : List W32), s.starts p = true → b.wait = none → s.taken p = none → b.ridx = some n →
      s.ringOn p = true → b.widx ≠ n →
      s.engRead (s.ringEng b.dctx) (b.dring + BitVec.ofNat 64 (64 + 64 * (n.toNat % 2 ^ b.dlog))) 64 = .ok (u, bs) →
      drawRecordOk (bytesWords bs) = true → u.passesOver (u.newDraw p n (bytesWords bs) []) = false →
      u.readDraw (s.ringEng b.dctx) (bytesWords bs) = .ok (w, vws, pws, tws) → targetsOk tws = true → drawLaunchBad vws = false →
      drawLaunchBad pws = false →
      ∃ t x v z, exec (.drawTake p) s = .next t ∧ t.display.draws = s.display.draws ++ [x] ∧ t.launches = s.launches ++ [v, z] ∧
        x.part = p ∧ x.ctx = b.dctx ∧ x.index = n ∧ x.words = bytesWords bs ∧ x.targets = tws ∧ x.vnext = 0 ∧ x.verts = [] ∧
        x.raster = [] ∧ x.quads = [] ∧ x.extra = [] ∧ x.skipped = false ∧ v.key = x.vlaunch ∧ v.words = vws ∧ v.draw = some x.key ∧ z.key = x.plaunch ∧
        z.words = pws ∧ z.draw = some x.key) ∧
    (∀ d, s.starts p = true → b.wait = none → s.taken p = some d → s.draw? d.key = some d →
      (∀ rank, s.vertexReady d = some (rank, u) → s.noneBetter p 4 rank = true →
        ∃ t x core z, exec (.drawTake p) s = .next t ∧ Claims.TurnTaken p 4 u t ∧
          s.vertexBlock d = some x ∧ core ∈ s.serving d.part ∧ (s.drawCores d).getLsbD core = true ∧
          s.tryBlock x core = some z ∧ u.blocks = z.blocks ∧ u.waves = z.waves ∧ u.draw? d.key = some
            (if d.vnext < d.vcount then { d with vnext := d.vnext + x.n } else { d with extra := d.extra.drop x.n })) ∧
      (∀ w, d.part = p → s.vertexReady d = none → s.drawDone d = true → (s.flushWhere fun w => w.agent.ctx = some d.ctx && w.uid ≠ 0) = u →
        u.engWrite (u.ringEng d.ctx) (d.ring + 4) (natBytes 4 (d.index + 1).toNat) = .ok w → b.ridx.isSome = true →
        ∃ t, exec (.drawTake p) s = .next t ∧ (t.part p).render.ridx = some (d.index + 1) ∧ t.draw? d.key = none ∧
          (∀ x ∈ t.launches, x.draw ≠ some d.key) ∧ t.blocks = s.blocks ∧ t.waves = s.waves)) ∧
    (∀ d, s.taken p = some d → s.draw? d.key = some d → d.started = false → s.offsetPassed d = true →
      ∃ t, exec (.renderingBStart p) s = .next t ∧ { t with display := s.display } = s ∧ t.draw? d.key = some { d with started := true })

/-- The first `k` of some quads of a draw have entered the queue of its GT-die: all, while it has room for them. -/
def Claims.QuadsSent (s : State) (qs : List Quad) (k : Nat) (d : Draw) : Prop :=
  k ≤ qs.length ∧
    (((s.display.draws.filter fun x => s.drawDie x = s.drawDie d).map fun x => x.quads.length).sum + qs.length ≤ 1024 → k = qs.length)

/-- R263, R264, R420, R422, R429, R430, R431: PRIMITIVE_ASSEMBLY and SEQUENCER_ITEM, under the standard microcode, take a draw's next vertex
into its strip, where with the two before it it makes a triangle, in the order that keeps the strip's facing, which joins the draw
with the next serial of its ring unless it is culled; RASTERISE and SEQUENCER_ITEM turn the next triangle into quads of two by two
pixels that it covers, in the draw's order, each with the triangle's plane set, whose C of an attribute is one vertex's value; they
enter the queue of the draw's GT-die as far as it has room, and later steps send those that are left. PIXEL_QUAD_START starts the pixel threads of the next quads, and MICROOP_LIMIT_KILL
drops an item that has spent 2^20 micro-ops. -/
def Claims.DrawItems : Prop :=
  ∀ (s : State) (n : Nat) (d : Draw), s.display.draws[n]? = some d → s.draw? d.key = some d →
    (s.drawRuns d = true → d.part < s.parts.length →
      (s.ownMicrocode d.ctx 0 = none → ∀ k v rest c vs, d.verts = (k, v) :: rest → d.strip k = (c, vs) →
        ∀ i ∈ [Instr.primitiveAssembly n, .sequencerItem n],
          (∀ x y, vs = [x, y] →
            let tri := d.triangle s.free (s.part d.part).render.prims (if c % 2 = 0 then [x, y, v] else [y, x, v])
            ∃ t e, exec i s = .next t ∧ { t with display := s.display, parts := s.parts } = s ∧ t.draw? d.key = some e ∧
              e.verts = rest ∧ e.tris = d.tris ++ tri.toList ∧ (v.last = false → e.strip k = (c + 1, [y, v])) ∧
              (v.last = true → e.strip k = (0, [])) ∧ { e with verts := d.verts, tris := d.tris, strips := d.strips } = d ∧
              (t.part d.part).render.prims = (s.part d.part).render.prims + tri.toList.length) ∧
          (vs.length < 2 → ∃ t e, exec i s = .next t ∧ { t with display := s.display } = s ∧ t.draw? d.key = some e ∧
            e.verts = rest ∧ (v.last = false → e.strip k = (c, vs ++ [v])) ∧ (v.last = true → e.strip k = (0, [])) ∧
            { e with verts := d.verts, strips := d.strips } = d)) ∧
      (d.raster ≠ [] → ∀ i ∈ [Instr.rasterise n, .sequencerItem n], (i = .sequencerItem n → d.verts = []) →
        ∃ t k, exec i s = .next t ∧ { t with display := s.display } = s ∧ Claims.QuadsSent s d.raster k d ∧
          t.draw? d.key = some { d with raster := d.raster.drop k, quads := d.quads ++ d.raster.take k }) ∧
      (s.ownMicrocode d.ctx 1 = none → d.raster = [] → ∀ x rest, d.tris = x :: rest →
        ∀ i ∈ [Instr.rasterise n, .sequencerItem n], (i = .sequencerItem n → d.verts = []) →
          ∃ t qs k, exec i s = .next t ∧
            { t with display := s.display, parts := s.parts, mem := s.mem, dirty := s.dirty, past := s.past, homes := s.homes
                     met := s.met } = s ∧
            Claims.QuadsSent s qs k d ∧
            t.draw? d.key = some { d with tris := rest, raster := qs.drop k, quads := d.quads ++ qs.take k } ∧
            (∃ j, j < 3 ∧ ∀ q ∈ qs, ∀ i a, i < 16 → (x.attrs.getD j [])[i]? = some a → wordAt q.planes (3 * i + 2) = a) ∧
            qs.Pairwise (fun a b => d.quadKey a ≤ d.quadKey b) ∧
            ∀ q ∈ qs, q.x % 2 = 0 ∧ q.y % 2 = 0 ∧ q.order = x.order ∧ q.cover ≠ 0 ∧ ∀ j, j < 4 → q.cover.getLsbD j = true →
              x.covers s.free (q.x + j % 2) (q.y + j / 2) = true ∧
              d.view.1 ≤ q.x + j % 2 ∧ q.x + j % 2 < d.view.1 + d.view.2.2.1 ∧
              d.view.2.1 ≤ q.y + j / 2 ∧ q.y + j / 2 < d.view.2.1 + d.view.2.2.2)) ∧
    (∀ u rank, s.starts d.part = true → s.pixelReady d = some (rank, u) → s.noneBetter d.part 4 rank = true →
      ∃ t x core z, exec (.pixelQuadStart n) s = .next t ∧ Claims.TurnTaken d.part 4 u t ∧ s.pixelBlock d = some x ∧ core ∈ s.serving d.part ∧
        (s.drawCores d).getLsbD core = true ∧ s.tryBlock x core = some z ∧ u.blocks = z.blocks ∧ u.waves = z.waves ∧
        u.draw? d.key = some { d with quads := d.quads.drop x.launch.quads }) ∧
    (d.overrun = true → ∃ t, exec (.microopLimitKill (s.rays.length + n)) s = .next t ∧ t.draw? d.key = some
      (if d.verts = [] then { d with overrun := false, tris := d.tris.tail } else { d with overrun := false, verts := d.verts.tail }))

/-- The draw rings, and the draws of a rendering. -/
def Obligations.DrawRingsAndItems : Prop := Claims.DrawRings ∧ Claims.DrawItems

/-! ### The display path -/

/-- A record of the device has been written to the privileged fatal lane, with a KIND and a SYND (R413, R415, R471): it enters the
ring and raises its vector, or waits on die where the ring is full or another record waits. -/
structure Claims.Reported (s t : State) (kind : Nat) (synd : W32) : Prop where
  enters : (s.owner 0).slots = [] → ((s.owner 0).fprod - (s.owner 0).fcons).toNat < 256 →
    ∃ first rest, t.vectors = s.vectors ++ first ++ (.pf, 9) :: rest
  waits  : (s.owner 0).slots ≠ [] ∨ 256 ≤ ((s.owner 0).fprod - (s.owner 0).fcons).toNat → (s.owner 0).slots.length < 256 →
    ∃ ws rest, (t.owner 0).slots = (s.owner 0).slots ++ ws :: rest ∧ bitsAt ws 0 8 = kind ∧ wordAt ws 8 = synd

/-- Nothing has changed since `s` but the delivery lanes and what their writes touch in memory. -/
def Claims.Told (s t : State) : Prop := Claims.Accessed s t (Claims.inLanes s)

/-- Only the pipe `k` of the display path has changed. -/
def Claims.OnlyPipe (s : State) (k : Nat) (t : State) : Prop :=
  { t with display := { t.display with pipes := s.display.pipes } } = s ∧ ∀ j, j ≠ k → t.pipe j = s.pipe j

/-- R435, R437, R486, R469, R442: SIGNATURE_COMPUTE signs the plane of a rendering whose END draw has completed and writes its array.
COMPARE_POINT, FLATCH before a frame, lets waiting descriptors take effect from that frame on and compares the arrays of a safety layer: where they
agree the layer may return from Foxglove, and where they differ, or a rendering is not complete, Foxglove takes it, its MISMATCH
bit is set, a record is written, and both its groups are quarantined; a layer that Foxglove holds for a quarantined group is left
alone. SCANOUT_SIGNATURE_CHECK signs a LEVEL 3 layer's plane again. -/
def Obligations.Signatures : Prop :=
  ∀ (s : State) (k : Nat) (p : Pipe) (l : Layer), k < s.display.pipes.length → s.pipe k = p →
    (∀ rend r, p.layer? l.n = some l → l.safety = true → l.rends.find? (fun r => r.rend = rend && r.ended && !r.signed) = some r →
      l.rend r.frame rend = r → s.displayServed true (l.plane rend) (l.h * l.pitch) = true →
      let arr := s.planeSignatures l (l.plane rend)
      let at_ := l.sig rend % 281474976710656
      s.displayServed false (l.sig rend) (8 * arr.length) = true → at_ + 8 * arr.length ≤ s.usable →
      ∃ t y, exec (.signatureCompute k l.n rend) s = .next t ∧
        { t with display := s.display, mem := s.mem, dirty := s.dirty, past := s.past, homes := s.homes, met := s.met } = s ∧
        (t.pipe k).layer? l.n = some y ∧ { y with rends := l.rends } = l ∧ y.rend r.frame rend = { r with signed := true } ∧
        (∀ i x, arr[i]? = some x → ∀ b, b < 8 → t.mem.read (at_ + 8 * i + b) = x.extractLsb' (8 * b) 8) ∧
        ∀ a, ¬ (at_ ≤ a ∧ a < at_ + 8 * arr.length) → t.mem.read a = s.mem.read a) ∧
    (∀ (m : List W32) (u : State), p.mode = some m →
      let n : W32 := p.fcount + 1
      (p.compared = some n ∨ s.now + flatch m * 100 < p.frameAt + framePeriod m → exec (.comparePoint k) s = .next s) ∧
      (p.compared ≠ some n → p.frameAt + framePeriod m ≤ s.now + flatch m * 100 →
        ((s.mapPipe k fun p => { p.applyNext s.now with compared := some n }).criticalFox k).passWaiting k = u →
        let q := u.pipe k
        let held (x : Layer) : Prop := q.onFoxglove x.n = true ∧
          (u.ringlet.gstate.getD (x.group 0) 0 = 1 ∨ u.ringlet.gstate.getD (x.group 1) 0 = 1)
        (s.thermal.critical = false → q.foxg = p.foxg ∧ q.mismatch = p.mismatch ∧ ∀ x y, p.layer? l.n = some x → q.layer? l.n = some y →
          y.inFrame.words = x.inFrame.words ∧ (x.next = none → y.words = x.words) ∧ ∀ ws, x.next = some ws → y.words = ws) ∧
        ((∀ x ∈ q.layers, x.safety = true → held x) →
          ∃ t, exec (.comparePoint k) s = .next t ∧ Claims.OnlyPipe u k t ∧ (t.pipe k).foxg = q.foxg ∧ (t.pipe k).mismatch = q.mismatch ∧
            (t.pipe k).compared = some n) ∧
        (q.layer? l.n = some l → l.safety = true → l.n < 8 → (∀ x ∈ q.layers, x.safety = true → x = l) → ¬ held l →
          let a := u.signatureArray l 0
          let b := u.signatureArray l 1
          let both := (l.rend n 0).complete && (l.rend n 1).complete
          (both = true → a = b → ∃ t y, exec (.comparePoint k) s = .next t ∧ Claims.OnlyPipe u k t ∧ (t.pipe k).foxg = q.foxg ∧
            (t.pipe k).mismatch = q.mismatch ∧ (t.pipe k).layer? l.n = some y ∧ y.agreed = some n ∧ y.words = l.words ∧
            y.back = (l.back || (q.onFoxglove l.n && !l.scanBad))) ∧
          ((both = false ∨ a ≠ b) → 0 < u.owners.length → ∃ t tile, exec (.comparePoint k) s = .next t ∧
            (t.pipe k).foxg = q.foxg ||| layerBit l.n ∧ (t.pipe k).mismatch = q.mismatch ||| layerBit l.n ∧ (t.pipe k).fox = q.fox ∧
            Claims.Reported u t 0x44 (layerSynd k l.n (!both) false tile) ∧ (both = true → firstDiff a b = some tile) ∧
            ∀ g, g = l.group 0 ∨ g = l.group 1 → (∀ d ∈ u.ringlet.duty, d.1 ≠ g) → ∀ c, c / 8 = g → c < u.health.length →
              (u.healthOf c).state = 0 → (t.healthOf c).state = 1 ∧ (t.healthOf c).qby = 1)))) ∧
    (p.layer? l.n = some l → l.inFrame.safety = true → l.inFrame.level = 3 → l.agreed = some p.fcount → l.scanned ≠ some p.fcount →
      let a := s.signatureArray l.inFrame 0
      let b := s.planeSignatures l.inFrame (l.inFrame.plane 0)
      (a = b → ∃ t, exec (.scanoutSignatureCheck k l.n) s = .next t ∧ Claims.OnlyPipe s k t ∧ (t.pipe k).foxg = p.foxg ∧
        (t.pipe k).mismatch = p.mismatch ∧
        (t.pipe k).layer? l.n = some { l with scanned := some p.fcount, scanBad := false, back := l.back || l.scanBad }) ∧
      (∀ tile, firstDiff a b = some tile → l.scanBad = false → 0 < s.owners.length →
        ∃ t, exec (.scanoutSignatureCheck k l.n) s = .next t ∧ Claims.Told s { t with display := s.display } ∧
          Claims.Reported s t 0x44 (layerSynd k l.n false true tile) ∧ (t.pipe k).foxg = p.foxg ||| layerBit l.n ∧
          (t.pipe k).mismatch = p.mismatch ||| layerBit l.n ∧ (t.pipe k).fox = p.fox ∧
          (t.pipe k).layer? l.n = some { l with scanned := some p.fcount, scanBad := true, back := false }))

/-- R433, R437 to R442, R473, R486: FRAME_START counts a frame and clears FOXG for the layers that return, none of LEVEL 2 or 3 after
the critical temperature; from then on Foxglove draws the layers in FOXG and the descriptors before the new ones are gone. BAND_LATCH,
400 µs before a band, latches for that band the buffer that LSEL selects (a word of a record latched while it was written is the old or the new one), and
LSEL_WRITE selects the buffer of the next latch. CAMERA_FRAME writes a port's frame to the next of the three places of the layer
that shows it, and CAMERA_FRAME_STALE gives a LEVEL 2 camera layer without a frame for FRESH ms to Foxglove, with a record. -/
def Obligations.FramesAndBands : Prop :=
  ∀ (s : State) (k : Nat) (p : Pipe), k < s.display.pipes.length → s.pipe k = p →
    (∀ m, p.mode = some m →
      (p.compared ≠ some (p.fcount + 1) ∨ s.now < p.frameAt + framePeriod m → exec (.frameStart k) s = .next s) ∧
      (p.compared = some (p.fcount + 1) → p.frameAt + framePeriod m ≤ s.now →
        ∃ t, exec (.frameStart k) s = .next t ∧ { t with display := s.display } = s ∧ (∀ j, j ≠ k → t.pipe j = s.pipe j) ∧
          (let q := t.pipe k
           { q with fcount := p.fcount, frameAt := p.frameAt, foxg := p.foxg, fox := p.fox, layers := p.layers, recs := p.recs
                    recsNext := p.recsNext } = p ∧ q.fcount = p.fcount + 1 ∧
           q.frameAt = p.frameAt + framePeriod m ∧ q.fox = q.foxg ∧ q.recs = p.recsNext ∧ q.recsNext = [] ∧
           q.layers = p.layers.map (fun l => { l with back := false, shown := none }) ∧
           ∀ j, j < 8 → q.foxg.getLsbD j =
             (p.foxg.getLsbD j && !(p.layers.any fun l => l.n = j && l.back && !(s.thermal.critical && l.en && decide (2 ≤ l.level))))) ∧
          (∀ x ∈ s.display.tellNext, x.pipe = k → x ∈ t.display.tell) ∧ (∀ x ∈ t.display.tellNext, x.pipe ≠ k) ∧
          (warps m = true → s.display.meshNext.isSome = true → t.display.mesh = s.display.meshNext)) ∧
      (warps m = true → p.bandAt + lineTime m (64 * p.band) ≤ s.now + 40000 →
        ∃ t, exec (.bandLatch k) s = .next t ∧ Claims.OnlyPipe s k t ∧
          (let q := t.pipe k
           { q with latched := p.latched, lgen := p.lgen, lband := p.lband, band := p.band, bandAt := p.bandAt, recs := p.recs
                    recsNext := p.recsNext } = p ∧
           (if p.bandAt ≤ p.frameAt then q.recs = (p.band, q.latched) :: p.recs ∧ q.recsNext = p.recsNext
            else q.recs = p.recs ∧ q.recsNext = (p.band, q.latched) :: p.recsNext) ∧
           q.lgen = wordAt q.latched 13 ∧ q.lband = BitVec.ofNat 16 p.band ∧
           (let new := if p.lsel then p.latch1 else p.latch0
            ((∀ old, p.past ≠ some (s.now, old)) → q.latched = new) ∧
            ∀ old i, p.past = some (s.now, old) → i < new.length → wordAt q.latched i = wordAt new i ∨ wordAt q.latched i = wordAt old i) ∧
           q.band = (if 64 * (p.band + 1) < bitsAt m 16 16 then p.band + 1 else 0) ∧
           q.bandAt = if 64 * (p.band + 1) < bitsAt m 16 16 then p.bandAt else p.bandAt + framePeriod m)) ∧
      ((warps m = false ∨ s.now + 40000 < p.bandAt + lineTime m (64 * p.band)) → exec (.bandLatch k) s = .next s)) ∧
    (∀ value : W32, ∃ t, exec (.lselWrite k value) s = .next t ∧ Claims.OnlyPipe s k t ∧ (t.pipe k).lsel = value.getLsbD 0 ∧
      { t.pipe k with lsel := p.lsel, past := p.past } = p) ∧
    (∀ (l : Layer) (port slot : Nat) (pixels : List W32), k < 6 → p.layer? l.n = some l →
      (∀ j, j < 6 → ((s.pipe j).layers.filter fun l => l.en && l.camera && l.port = port) = if j = k then [l] else []) →
      slot = (match l.frame with
        | some n => (n + 1) % 3
        | none => 0) → 4 * l.w ≤ l.pitch → l.frameBase slot + l.h * l.pitch ≤ s.usable →
      l.frameBase slot + l.h * l.pitch ≤ 281474976710656 →
      ∃ t, exec (.cameraFrame port pixels) s = .next t ∧
        { t with display := s.display, mem := s.mem, dirty := s.dirty, past := s.past, homes := s.homes, met := s.met } = s ∧
        (t.pipe k).layer? l.n = some { l with frame := some slot, frameAt := s.now, stale := false, back := l.back || l.stale } ∧
        (∀ i j b, i < l.h → j < l.w → b < 4 →
          t.mem.read (l.frameBase slot + i * l.pitch + 4 * j + b) = (l.cameraPixel s.free pixels i j).extractLsb' (8 * b) 8) ∧
        ∀ a, ¬ (l.frameBase slot ≤ a ∧ a < l.frameBase slot + l.h * l.pitch) → t.mem.read a = s.mem.read a) ∧
    (∀ port pixels, (∀ q ∈ s.display.pipes, ∀ l ∈ q.layers, (l.en && l.camera && l.port = port) = false) →
      exec (.cameraFrame port pixels) s = .next s) ∧
    (∀ l, p.layer? l.n = some l →
      let late := l.en && l.camera && l.level = 2 && !l.stale && l.frameAt + l.fresh * 100000 ≤ s.now
      (late = false → exec (.cameraFrameStale k l.n) s = .next s) ∧
      (late = true → 0 < s.owners.length → ∃ t, exec (.cameraFrameStale k l.n) s = .next t ∧
        Claims.Told s { t with display := s.display } ∧ Claims.Reported s t 0x50 (layerSynd k l.n false false 0) ∧
        (t.pipe k).foxg = p.foxg ||| layerBit l.n ∧ (t.pipe k).fox = p.fox ||| layerBit l.n ∧ (t.pipe k).mismatch = p.mismatch ∧
        (t.pipe k).layer? l.n = some { l with stale := true, back := false }))

/-! ### Reliability -/

/-- Every partition's damage list has room for `n` entries more (R462). -/
def Claims.damageRoom (s : State) (n : Nat) : Prop := ∀ x ∈ s.parts, x.damage.length + n ≤ 4096

/-- R454, R455, R459, R460, R468, R469, R471: RINGLET_TAKE_OUT takes out the in-service core that is next, one moved to the front
before the others, with its waves saved. RINGLET_SCAN_COMPLETE of a core that passes clears its write ranges, counts the pass and
gives its waves back, and of one that fails kills what was on it, enters its write ranges as damage and quarantines it.
QUARANTINE_SCAN_COMPLETE counts a quarantined core's passes, readmits it at the third in a row, and counts a failure without
damage; the last core of a group quarantined for a safety layer readmits the group. -/
def Obligations.Scans : Prop :=
  ∀ (s : State) (c : Nat), c < 96 → c < s.health.length →
    let h := s.healthOf c
    let r := s.ringlet
    let ready := r.en = true ∧ r.cur = none ∧ r.readyAt ≤ s.now ∧ s.mp.restartAt = none ∧ s.thermal.critical = false
    let free (d : Nat) : Prop := (s.healthOf d).state = 0 ∧ (s.healthOf d).draining = false
    (¬ ready → exec .ringletTakeOut s = .next s) ∧
    (ready → free c → ((∃ l, r.fronts = c :: l) ∨
        (r.fronts = [] ∧ r.lastCore < 96 ∧ ∀ d, d < 96 → free d → (c + 95 - r.lastCore) % 96 ≤ (d + 95 - r.lastCore) % 96)) →
      ∃ t, exec .ringletTakeOut s = .next t ∧ (t.healthOf c).state = 3 ∧ (∀ d, d ≠ c → t.healthOf d = s.healthOf d) ∧
        t.ringlet.cur = some c ∧ t.ringlet.lastCore = c ∧ (∀ w ∈ t.waves, w.core = c → 8 ≤ s.wavePart w) ∧
        (∀ x ∈ t.tasks, x.state = .running → x.core ≠ some c) ∧ ∀ d j, d ≠ c → t.wave? d j = s.wave? d j) ∧
    (r.cur = none → ∀ pass, exec (.ringletScanComplete pass) s = .next s) ∧
    (r.cur = some c →
      ((s.core c).scanFails = false → ∃ t, exec (.ringletScanComplete true) s = .next t ∧ t.ringlet.cur = none ∧
        t.ringlet.readyAt = s.now + r.gap * 100 ∧ (t.core c).ranges = [] ∧ t.telem.passes = satInc s.telem.passes ∧
        t.healthOf c = (if s.onDuty c then { h with state := 1, qby := 1, passrun := 1, pseq := h.pseq + 1, lastpass := s.dieTime (coreDie c) }
          else { h with state := 0, pseq := h.pseq + 1, lastpass := s.dieTime (coreDie c) }) ∧
        (r.left = [c] → t.ringlet.rotgen = satInc r.rotgen) ∧
        (s.onDuty c = false → ∀ i ∈ s.images, i.ringlet = true → i.core = c → ∀ w ∈ i.waves, ∃ w' ∈ t.waves,
          w'.core = c ∧ { w' with core := w.core, slots := w.slots } = w)) ∧
      (∀ pass, pass = false ∨ (s.core c).scanFails = true →
        Claims.damageRoom s ((s.core c).ranges.length + (s.core c).blocks.length + s.blocks.length) → 0 < s.owners.length →
        ∃ t n, exec (.ringletScanComplete pass) s = .next t ∧ t.ringlet.cur = none ∧ (t.core c).ranges = [] ∧ (t.core c).blocks = [] ∧
          (t.healthOf c).state = 1 ∧ (t.healthOf c).qby = 0 ∧ (t.healthOf c).passrun = 0 ∧ (t.healthOf c).fails = min 255 (h.fails + 1) ∧
          ((∀ l ∈ s.launches, l.dmgmap = 0) → Claims.Reported s t 0x42 n) ∧ (∀ i ∈ t.images, ¬ (i.ringlet = true ∧ i.core = c)) ∧
          (∀ b ∈ s.blocks, s.block? b.key = some b → b.core = c → b.ended = false →
            ∀ w ∈ t.waves, ∀ i y, i < 32 → w.live? i = some y → y.blk ≠ b.key) ∧
          ∀ x ∈ (s.core c).ranges, x.part < s.parts.length → ∃ e ∈ (t.part x.part).damage,
            bitsAt e 0 8 = 1 ∧ bitsAt e 8 4 = 0 ∧ wideAt e 6 = BitVec.ofNat 64 (x.page * 4096) ∧ wordAt e 8 = BitVec.ofNat 32 x.count)) ∧
    (∀ pass, h.state ≠ 1 ∨ h.qby = 2 → exec (.quarantineScanComplete c pass) s = .next s) ∧
    (h.state = 1 → h.qby ≠ 2 → 0 < s.owners.length →
      let g := c / 8
      let last := s.ringlet.duty.find? (fun d => d.1 = g) = some (g, [c]) ∧ g < s.ringlet.gstate.length
      ((s.core c).scanFails = false → ∃ t, exec (.quarantineScanComplete c true) s = .next t ∧
        (t.healthOf c).passrun = min 3 (h.passrun + 1) ∧ (t.healthOf c).pseq = h.pseq + 1 ∧
        (h.passrun < 2 → (t.healthOf c).state = 1 ∧ t.owners = s.owners) ∧
        (2 ≤ h.passrun → (t.healthOf c).state = 0 ∧ Claims.Reported s t 0x43 0 ∧ (last → t.ringlet.gstate.getD g 1 = 0))) ∧
      (∀ pass, pass = false ∨ (s.core c).scanFails = true → ∃ t, exec (.quarantineScanComplete c pass) s = .next t ∧
        (t.healthOf c).state = 1 ∧ (t.healthOf c).passrun = 0 ∧ (t.healthOf c).fails = min 255 (h.fails + 1) ∧
        Claims.Reported s t 0x42 0 ∧ t.parts = s.parts ∧ (last → t.ringlet.gstate.getD g 1 = 0)))

/-- R271, R465, R466, R467, R477, R478: LOOKUP_ENGINE_RESET clears an engine that has made no progress for 2 ms, kills what it held
and writes a record. UNCORRECTABLE_DIRTY_LINE holds the page of a line that is lost, ends the context that owned it, and leaves the
retirement of its page and its way to Larkspur, which DEVICE_PAGE_RETIREMENT and DEVICE_WAY_QUARANTINE do, each with a record.
MEMORY_SCRUB finds a line whose read from memory is uncorrectable. -/
def Obligations.FailingStorage : Prop :=
  (∀ (s : State) (core : Nat),
    let k := s.core core
    (∀ at_, k.hung = some at_ → 200000 ≤ s.now - at_ → Claims.damageRoom s 3 → 0 < s.owners.length →
      ∃ t, exec (.lookupEngineReset core) s = .next t ∧ (t.core core).hung = none ∧ (t.core core).owner = none ∧ (t.core core).task = none ∧
        (t.core core).accs = ((List.range 32).map fun k => (k, List.replicate 1024 0)) ∧ (t.core core).tables = [] ∧ ((∀ l ∈ s.launches, l.dmgmap = 0) → Claims.Reported s t 0x4E 0) ∧
        (∀ x, k.task = some x.tok → s.tasks.find? (fun y => y.tok = x.tok && y.core = some core) = some x → s.task? x.part x.tok = some x →
          t.task? x.part x.tok = some { x with state := .killed, core := none, acc := [] }) ∧
        (∀ b x, k.owner = some b → k.task = none → s.block? b = some x → x.ended = false →
          Claims.BlockGone s b t ∧ Claims.KillNoted s x.part 4 t)) ∧
    ((∀ at_, k.hung = some at_ → s.now - at_ < 200000) → exec (.lookupEngineReset core) s = .next s)) ∧
  (∀ (s : State) (line ctx : Nat) (wb : Bool),
    (∀ d x, s.dirty.find? (fun d => d.line = line && !d.poison) = some d → 0 < s.owners.length →
      ∃ t, exec (.uncorrectableDirtyLine line ctx wb) s = .next t ∧
        Claims.Reported s t 0x46 (BitVec.ofNat 32 (d.slice % 64 + 64 * (d.way % 16) + 1024 * d.set)) ∧
        (pageOf (line * 128), (s.metBy line ctx wb).ctx) ∈ t.storage.held ∧ t.mp.own = s.mp.own ++ [.retirePage (line * 128), .quarantineWay d.slice d.way] ∧
        t.telem.cacheDirty = satInc s.telem.cacheDirty ∧ (d.tag = noTag → t.ctxs = s.ctxs) ∧
        (d.tag ≠ noTag → s.ctx? d.tag = some x → t.ctx? d.tag = some { x with ended := true })) ∧
    (s.dirty.find? (fun d => d.line = line && !d.poison) = none →
      exec (.uncorrectableDirtyLine line ctx wb) s = .next { s with met := s.met.filter fun x => x.line ≠ line || x.clean })) ∧
  (∀ s : State, 0 < s.owners.length → s.mp.inExec = none → s.mp.restartAt = none → s.boot.state ≠ 0 →
    (∀ pa rest, s.mp.own = .retirePage pa :: rest → s.storage.retired.contains (pageOf pa) = false →
      ∃ t, exec .devicePageRetirement s = .next t ∧ t.mp = { s.mp with own := rest } ∧ (∀ rd tag, t.lineState rd tag pa = .retired) ∧
        (∀ x ∈ t.storage.held, x.1 ≠ pageOf pa) ∧ t.telem.pages = satInc s.telem.pages ∧ Claims.Reported s t 0x49 0) ∧
    (∀ slice way rest, s.mp.own = .quarantineWay slice way :: rest → s.storage.ways.contains (slice, way) = false →
      ∃ t, exec .deviceWayQuarantine s = .next t ∧ t.mp = { s.mp with own := rest } ∧ way ∉ t.liveWays slice ∧
        t.telem.ways = satInc s.telem.ways ∧ Claims.Reported s t 0x4A (BitVec.ofNat 32 (slice % 64 + 64 * (way % 16))))) ∧
  (∀ s : State, s.mp.own = [] → exec .devicePageRetirement s = .next s ∧ exec .deviceWayQuarantine s = .next s) ∧
  (∀ (s : State) (line : Nat), 0 < s.owners.length →
    let bad := line ∈ s.storage.badMem ∧ s.storage.retired.contains (pageOf (line * 128)) = false
    (bad → ∃ t, exec (.memoryScrub line) s = .next t ∧ 
        t.storage = { s.storage with badMem := s.storage.badMem.filter (· ≠ line), wild := s.storage.wild.filter (· ≠ line) } ∧
      t.telem = { s.telem with memUncorr := satInc s.telem.memUncorr } ∧ t.mp = { s.mp with own := s.mp.own ++ [.retirePage (line * 128)] } ∧
      Claims.Told s { t with storage := s.storage, telem := s.telem, mp := s.mp } ∧ Claims.Reported s t 0x48 0) ∧
    (¬ bad → exec (.memoryScrub line) s = .next s))

/-- R473: THERMAL_THRESHOLD takes new readings, and a die that exceeds a limit enters throttling; THROTTLE_CLOCK_STEP lowers the
arithmetic clock of a throttled die by 200 MHz every 100 µs to 1.5 GHz while a limit is exceeded, and raises it by 200 MHz every 1 ms
once the die is 2 °C below the threshold and the power within its limits, to 3.1 GHz, where throttling ends; THERMAL_CRITICAL at
125 °C holds every core and sequencer, and gives every enabled layer of LEVEL 2 or 3 to Foxglove. Each entry and exit writes a
record. -/
def Obligations.ThermalLimits : Prop :=
  ∀ (s : State) (die : Nat), s.thermal.temps.length = 11 → s.thermal.clocks.length = 11 → s.thermal.stepAt.length = 11 →
    0 < s.owners.length →
    let t0 := s.thermal
    let exceeds (temp : Int) (mw peak : Nat) : Prop := (t0.threshold : Int) < temp ∨ t0.limit * 1000 < mw ∨ 450000 < peak
    (∀ (temp : Int) (mw peak : Nat), (11 ≤ die → exec (.thermalThreshold die temp mw peak) s = .next s) ∧
      (die < 11 → ∃ t, exec (.thermalThreshold die temp mw peak) s = .next t ∧ t.thermal.temps = t0.temps.set die temp ∧
        t.thermal.power = mw ∧ t.thermal.peak = peak ∧ t.thermal.clocks = t0.clocks ∧ Claims.Told s { t with thermal := t0 } ∧
        (exceeds temp mw peak → die ∉ t0.throttled → die ∈ t.thermal.throttled ∧ Claims.Reported s t 0x52 (BitVec.ofNat 32 die)) ∧
        (¬ exceeds temp mw peak ∨ die ∈ t0.throttled → t.thermal.throttled = t0.throttled ∧ { t with thermal := t0 } = s))) ∧
    (let hot := exceeds (t0.temps.getD die 0) t0.power t0.peak
     let clock := t0.clocks.getD die 0
     let since := s.now - t0.stepAt.getD die 0
     (die ∉ t0.throttled → exec (.throttleClockStep die) s = .next s) ∧
     (die < 11 → die ∈ t0.throttled →
       (hot → 10000 ≤ since → 1500 < clock → ∃ t, exec (.throttleClockStep die) s = .next t ∧
         t = { s with thermal := { t0 with clocks := t0.clocks.set die (max 1500 (clock - 200)), stepAt := t0.stepAt.set die s.now } }) ∧
       (hot → since < 10000 ∨ clock ≤ 1500 → exec (.throttleClockStep die) s = .next s) ∧
       (¬ hot → since < 100000 ∨ (t0.threshold : Int) < t0.temps.getD die 0 + 4 → exec (.throttleClockStep die) s = .next s) ∧
       (¬ hot → 100000 ≤ since → t0.temps.getD die 0 + 4 ≤ (t0.threshold : Int) →
         (clock + 200 < 3100 → ∃ t, exec (.throttleClockStep die) s = .next t ∧
           t = { s with thermal := { t0 with clocks := t0.clocks.set die (clock + 200), stepAt := t0.stepAt.set die s.now } }) ∧
         (3100 ≤ clock + 200 → ∃ t, exec (.throttleClockStep die) s = .next t ∧ t.thermal.clocks = t0.clocks.set die 3100 ∧
           die ∉ t.thermal.throttled ∧ Claims.Told s { t with thermal := t0 } ∧ Claims.Reported s t 0x52 (BitVec.ofNat 32 die))))) ∧
    ((t0.critical = true ∨ t0.temps.getD die 0 < 250 → exec (.thermalCritical die) s = .next s) ∧
     (t0.critical = false → 250 ≤ t0.temps.getD die 0 → ∃ t, exec (.thermalCritical die) s = .next t ∧ t.thermal = { t0 with critical := true } ∧
       (∀ p, t.starts p = false) ∧ Claims.Reported s t 0x53 (BitVec.ofNat 32 die) ∧
       Claims.Told s { t with thermal := t0, display := s.display } ∧
       ∀ k, k < s.display.pipes.length → (t.pipe k).mismatch = (s.pipe k).mismatch ∧ ∀ j, j < 8 →
         let lost := (s.pipe k).layers.any fun l => l.n = j && l.en && 2 ≤ l.level
         (t.pipe k).foxg.getLsbD j = ((s.pipe k).foxg.getLsbD j || lost) ∧
         (t.pipe k).fox.getLsbD j = ((s.pipe k).fox.getLsbD j || (s.pipe k).foxg.getLsbD j || lost)))

/-- A PREPARED set was sealed with its own checksum, so that a restart flips it (R352, R354). -/
def Claims.goodSet (x : Prepared) : Prop := x.sealed = true ∧ x.sealedBy = x.checksum

/-- R353, R354, R356, R367, R448: MP_WATCHDOG_FIRE, once the management processor has not serviced its watchdog for the period, makes
it restart; a split whose domains have not changed is left. MP_RESTART discards a PREPARED set that is not sealed, or whose seal is not
its checksum, with EVABORT, or flips a sealed one; a split whose domains have changed is done; it answers the block in execution with
MP_RESTART, and sets EVRESTART; then Larkspur goes on with the pages. (That a block may have been taken and a set sealed as the watchdog
fires is log entry 44; that the flip waits for the partitions that drain is log entry 45.) -/
def Obligations.Watchdog : Prop :=
  ∀ s : State, s.pages.length = 9 →
    (s.boot.state = 0 ∨ s.mp.restartAt.isSome = true ∨ s.now - s.mp.serviced < s.mp.wdMs * 100000 → exec .mpWatchdogFire s = .next s) ∧
    (s.boot.state ≠ 0 → s.mp.restartAt = none → s.mp.wdMs * 100000 ≤ s.now - s.mp.serviced →
      ∃ t, exec .mpWatchdogFire s = .next t ∧ t.mp.restartAt = some s.now ∧ t.pages = s.pages ∧
        (s.mp.inExec.isSome = true ∨ s.mp.prepared = none ∨ (∀ x, s.mp.prepared = some x → x.sealed = true) →
          t.mp.prepared = s.mp.prepared ∧ { t with mp := s.mp, parts := s.parts } = s) ∧
        (s.heldSplit = none → s.mp.inExec.isSome = true → t.parts = s.parts) ∧
        (∀ k, s.mp.inExec = some k → t.mp.inExec = some k) ∧
        (s.mp.inExec = none → t.mp.inExec = none ∨ ∃ k, s.nextPage = some k ∧ t.mp.inExec = some (k, (s.page k).cons)) ∧
        (∀ x, s.mp.prepared = some x → ∃ b sum, t.mp.prepared = some { x with sealed := b, sealedBy := sum }) ∧
        (∀ x, s.heldSplit = some x → 3 ≤ x.stage → t.mp.split = some x) ∧
        ∀ x, s.heldSplit = some x → x.stage < 3 → t.mp.split = none ∧ ∀ n ∈ x.names, (t.part n.1).sstate = 0) ∧
    (s.mp.restartAt = none → exec .mpRestart s = .next s) ∧
    (s.mp.restartAt.isSome = true →
      (∀ x, s.mp.prepared = some x → Claims.goodSet x → s.allDrained x = false → exec .mpRestart s = .next s) ∧
      ((∀ x, s.mp.prepared = some x → Claims.goodSet x → s.allDrained x = true) →
        ∃ (u t : State), exec .mpRestart s = .next t ∧ t = u.rejectUnknown 540 ∧ u.mp.restartAt = none ∧ u.mp.inExec = none ∧ u.mp.serviced = s.now ∧
          (u.page 0).evRestart = true ∧ u.mp.prepared = none ∧
          (∀ x, s.mp.prepared = some x → ¬ Claims.goodSet x → (u.page 0).evAbort = true) ∧
          ((∀ x, s.mp.prepared = some x → Claims.goodSet x) → (u.page 0).evAbort = (s.page 0).evAbort) ∧
          (∀ x p, s.mp.prepared = some x → Claims.goodSet x → p < s.parts.length → (u.part p).layout = x.entries.getD p .none) ∧
          ((∀ x, s.mp.prepared = some x → ¬ Claims.goodSet x) → s.heldSplit = none → u.parts = s.parts) ∧
          (s.heldSplit.isSome = true → u.mp.split = none) ∧
          (∀ k idx, s.mp.inExec = some (k, idx) → k < 9 → (u.page k).cons = (s.page k).cons + 1 ∧
            ∃ w : W32, bytesWords ((u.page k).slots.readRun (64 * (s.page k).slot) 4) = [w] ∧ w.getLsbD 8 = true ∧ w.toNat / 65536 % 256 = 10) ∧
          (s.mp.inExec = none → ∀ k, (u.page k).cons = (s.page k).cons ∧ (u.page k).slots = (s.page k).slots)))

/-! ### Bring-up and the host link -/

/-- The device has been reset (R341): every unit is as `State.reset` has it, but for the model's own agenda, its counter of free
values, the time and the serial of keys, the interrupts raised, what the board and the silicon fix, and the sensors' readings. -/
structure Claims.DeviceReset (s t : State) : Prop where
  units   : { t with agenda := [], free := 0, now := 0, serial := 0, boot := State.reset.boot, mp := State.reset.mp
                     thermal := State.reset.thermal, schedAt := 0, vectors := [] } = State.reset
  mp      : { t.mp with serviced := 0 } = State.reset.mp
  boot    : t.boot.state = 0 ∧ t.boot.err = 0 ∧ t.boot.winBase = 0 ∧ t.boot.winPart = 0xF ∧ t.boot.offgen = 0 ∧ t.boot.flips = 0
  thermal : t.thermal.clocks = List.replicate 11 3100 ∧ t.thermal.throttled = [] ∧ t.thermal.critical = false ∧
    t.thermal.threshold = State.reset.thermal.threshold ∧ t.thermal.limit = State.reset.thermal.limit
  now     : t.now = s.now

/-- R18, R338, R341, R344, R357, R359, R362: PF_FUNCTION_LEVEL_RESET, a DEV_RESET write of 1, POWER_LOSS and POWER_GOOD leave every
unit at its reset value. BOOT_STATE_ADVANCE goes to the next state of bring-up and raises vector 11: state 1 lights the pipes of a
good boot image and begins to publish the die offsets, state 2 gives the memory whose channels trained, state 3 quarantines the cores that
fail their first scan. HOST_LINK_TRAINING takes the highest rate and width that both ends have. -/
def Obligations.BringUp : Prop :=
  ∀ s : State,
    (∃ t, exec .pfFunctionLevelReset s = .next t ∧ Claims.DeviceReset s t ∧ t.boot.power = s.boot.power) ∧
    (∀ v : W32, (v.getLsbD 0 = true → ∃ t, exec (.devReset v) s = .next t ∧ Claims.DeviceReset s t ∧ t.boot.power = s.boot.power) ∧
      (v.getLsbD 0 = false → exec (.devReset v) s = .next s)) ∧
    (∃ t, exec .powerLoss s = .next t ∧ Claims.DeviceReset s t ∧ t.boot.power = false) ∧
    (s.boot.power = false → ∃ t, exec .powerGood s = .next t ∧ Claims.DeviceReset s t ∧ t.boot.power = true) ∧
    (s.boot.power = true → exec .powerGood s = .next s) ∧
    (∀ f : BootFinding, (s.boot.power = false ∨ 4 ≤ s.boot.state → exec (.bootStateAdvance f) s = .next s) ∧
      (s.boot.power = true → s.boot.state < 4 → ∃ t first, exec (.bootStateAdvance f) s = .next t ∧ t.boot.state = s.boot.state + 1 ∧
        t.vectors = first ++ [(.pf, 11)] ∧
        (s.boot.state = 0 → t.boot.err.testBit 0 = (s.boot.err.testBit 0 || !bootImageOk f.flash) ∧
          t.boot.offgen = s.boot.offgen + (if s.boot.offgen.getLsbD 0 then 2 else 1) ∧ t.boot.offgen.getLsbD 0 = true ∧
          (∀ d, d < 11 → ∃ e : Nat, e < 3 ∧ (d = 0 → e = 1) ∧
            s.dieTime d + t.boot.offs.getD d 0 + 1 = s.dieTime 0 + BitVec.ofNat 64 e) ∧
          (bootImageOk f.flash = false → t.display = s.display) ∧
          ∀ i, bootImageOk f.flash = true → i < (wordAt (bootHeader f.flash) 3).toNat →
            let e (i : Nat) := bytesWords (flashBytes f.flash (64 + 64 * i) 64)
            let k := (wordAt (e i) 0).toNat
            let mode := bytesWords (flashBytes f.flash (wordAt (e i) 2).toNat 64)
            k < 6 → k < s.display.pipes.length → modeOk mode = true →
            (∀ j, i < j → j < (wordAt (bootHeader f.flash) 3).toNat → (wordAt (e j) 0).toNat ≠ k) →
            (t.pipe k).mode = some mode ∧ (t.pipe k).output = true) ∧
        (s.boot.state = 1 → t.boot.gib = f.gib ∧ t.boot.err.testBit 1 = (s.boot.err.testBit 1 || !f.channelsOk)) ∧
        (s.boot.state = 2 → t.boot.err.testBit 2 = (s.boot.err.testBit 2 || f.failedCores.any (· < 96)) ∧
          ∀ c, c < 96 → c < s.health.length → (f.failedCores.contains c = true → (t.healthOf c).state = 1) ∧
            (f.failedCores.contains c = false → (t.healthOf c).state = (s.healthOf c).state ∧
              (t.healthOf c).pseq = (s.healthOf c).pseq + 1)) ∧
        (s.boot.state = 3 → { t with boot := s.boot, vectors := s.vectors } = s))) ∧
    (∀ rate width, 5 ≤ rate → 1 ≤ width → ∃ t, exec (.hostLinkTraining rate width) s = .next t ∧ { t with boot := s.boot } = s ∧
      { t.boot with rate := s.boot.rate, width := s.boot.width } = s.boot ∧
      t.boot.rate ∈ [256, 128, 64, 32, 16, 10, 5] ∧ t.boot.rate ≤ rate ∧
      (∀ r ∈ [256, 128, 64, 32, 16, 10, 5], r ≤ rate → r ≤ t.boot.rate) ∧ t.boot.width ∈ [8, 4, 2, 1] ∧ t.boot.width ≤ width ∧
      ∀ w ∈ [8, 4, 2, 1], w ≤ width → w ≤ t.boot.width)

/-- R113, R305, R340, R341, R342, R363, R445, R479: BAR4_READ inside the window answers what memory holds at the window's address, with all ones and a record where the
access fails, and with all ones and a poisoned completion where a line is uncorrectable; BAR4_WRITE stores its bytes, is discarded
with a record where it fails, and waits at a held page. PF BAR 4 reaches WIN_BASE + offset. VF_FUNCTION_LEVEL_RESET resets the
partition and discards the blocks of its command page. (What is read of a line written at two slices is R305's, and free. Whether
a line that is bad in memory is read from there, or clean in its slice, is free too: log entry 5.) -/
def Obligations.HostWindows : Prop :=
  (∀ (s : State) (fn : Fn) (off n : Nat) (wr : Bool), s.boot.power = true → Fn.valid fn = true → s.owners.length = 9 →
    (fn = .pf → 0 < n → s.fnPieces fn wr off n = if s.boot.winBase.toNat + off + n ≤ s.installed then some [(s.boot.winBase.toNat + off, n)] else none) ∧
    (2 ^ s.boot.bar4 < off + n → exec (.bar4Read fn off n) s = .next s) ∧
    (off + n ≤ 2 ^ s.boot.bar4 → s.fnPieces fn false off n = none → ∃ t, exec (.bar4Read fn off n) s = .next t ∧ t.answer = List.replicate n 0xFF ∧
      t.poisoned = false ∧ Claims.Told s { t with answer := s.answer, poisoned := s.poisoned } ∧ (fn = .pf → Claims.Reported s t 0x39 0)) ∧
    (∀ ps, off + n ≤ 2 ^ s.boot.bar4 → s.fnPieces fn false off n = some ps →
      let dom := s.domain (s.fnHome fn)
      let st (l : Nat) := s.requestState dom 0 true (576460752303423488 + l) l
      ((∀ l ∈ piecesLines ps, st l = .ok) → ∃ t, exec (.bar4Read fn off n) s = .next t ∧
        { t with answer := s.answer, poisoned := s.poisoned, tlb := s.tlb } = s ∧ (fn = .pf → t.tlb = s.tlb) ∧ t.poisoned = false ∧
        ((∀ p ∈ ps, p.1 + p.2 ≤ s.usable ∧ ∀ a, p.1 ≤ a → a < p.1 + p.2 → s.aliasedAt (homeSlice dom 0 a) a = false) →
          t.answer = ps.flatMap fun p => s.mem.readRun p.1 p.2)) ∧
      ((∃ l ∈ piecesLines ps, st l = .retired) → ∃ t, exec (.bar4Read fn off n) s = .next t ∧ t.answer = List.replicate n 0xFF ∧
        t.poisoned = false ∧ (fn = .pf → Claims.Reported s t 0x39 0)) ∧
      (∀ l, (∀ x ∈ piecesLines ps, st x = .ok ∨ x = l) → l ∈ piecesLines ps → l ∈ s.storage.badMem → s.dirtyAt (l * 128) = none →
        s.storage.retired.contains (pageOf (l * 128)) = false → (∀ h ∈ s.storage.held, h.1 ≠ pageOf (l * 128)) → s.mp.split = none →
        ∃ t, exec (.bar4Read fn off n) s = .next t ∧ (st l = .ok → t.poisoned = false) ∧
          (st l ≠ .ok → t.answer = List.replicate n 0xFF ∧ t.poisoned = true ∧ t.mp.own = s.mp.own ++ [.retirePage (l * 128)] ∧
            Claims.Reported s t 0x47 0)) ∧
      (∀ l, (∀ x ∈ piecesLines ps, st x = .ok ∨ x = l) → l ∈ piecesLines ps →
        (st l = .moving ∨ st l = .held ∧ s.lineLost l = false → exec (.bar4Read fn off n) s = .next s) ∧
        (st l = .held → s.lineLost l = true → ∃ t, exec (.bar4Read fn off n) s = .next t ∧ t.answer = List.replicate n 0xFF ∧
          t.poisoned = true)))) ∧
  (∀ (s : State) (fn : Fn) (off : Nat) (bytes : List Byte), s.boot.power = true → Fn.valid fn = true → s.owners.length = 9 →
    (2 ^ s.boot.bar4 < off + bytes.length → exec (.bar4Write fn off bytes) s = .next s) ∧
    (off + bytes.length ≤ 2 ^ s.boot.bar4 → s.fnPieces fn true off bytes.length = none → ∃ t, exec (.bar4Write fn off bytes) s = .next t ∧ Claims.Told s t ∧
      (fn = .pf → Claims.Reported s t 0x39 0)) ∧
    (∀ ps, off + bytes.length ≤ 2 ^ s.boot.bar4 → s.fnPieces fn true off bytes.length = some ps →
      let st (l : Nat) := s.requestState (s.domain (s.fnHome fn)) 0 false 0 l
      ((∀ l ∈ piecesLines ps, st l = .ok) → ∃ t, exec (.bar4Write fn off bytes) s = .next t ∧
        { t with mem := s.mem, dirty := s.dirty, past := s.past, homes := s.homes, met := s.met, tlb := s.tlb } = s ∧
        (fn = .pf → t.tlb = s.tlb) ∧ (∀ a, (∀ p ∈ ps, ¬ (p.1 ≤ a ∧ a < p.1 + p.2)) → t.mem.read a = s.mem.read a) ∧
        ∀ a, ps = [(a, bytes.length)] → a + bytes.length ≤ s.usable → ∀ i, i < bytes.length → t.mem.read (a + i) = bytes.getD i 0) ∧
      ((∃ l ∈ piecesLines ps, st l = .retired) → ∃ t, exec (.bar4Write fn off bytes) s = .next t ∧ Claims.Told s t) ∧
      ((∃ l ∈ piecesLines ps, st l = .held ∨ st l = .moving) → (∀ l ∈ piecesLines ps, st l ≠ .retired) → exec (.bar4Write fn off bytes) s = .next s))) ∧
  (∀ (s : State) (k : Nat), k < 8 → s.pages.length = 9 → s.parts.length = 8 →
    (s.vfOn k = false → exec (.vfFunctionLevelReset k) s = .next s) ∧
    (s.vfOn k = true → ∃ t, exec (.vfFunctionLevelReset k) s = .next t ∧ (t.page (1 + k)).cons = (s.page (1 + k)).prod ∧
      (t.page (1 + k)).prod = (s.page (1 + k)).prod ∧ (t.page (1 + k)).examine = false ∧
      (∀ j, j ≠ 1 + k → t.page j = s.page j) ∧ t.mp.inExec = (if (s.mp.inExec.map (·.1)) = some (1 + k) then none else s.mp.inExec) ∧
      ((s.part k).layout.valid = true → (s.part k).state ≠ .resetting → (t.part k).state = .idle ∧ (t.part k).work = [] ∧
        (∀ x ∈ t.ctxs, x.part ≠ k) ∧ (∀ x ∈ t.tasks, x.part ≠ k) ∧ (∀ x ∈ t.images, x.part ≠ k) ∧
        (∀ w ∈ t.waves, ∀ x ∈ s.ctxs, x.part = k → (s.launchOf w.launch).ctx ≠ x.id) ∧
        ∀ x ∈ t.ctxs, ∃ y ∈ s.ctxs, x.id = y.id ∧ x.part = y.part)))

/-- The registers of BAR 0 that read back what was written to them, with the bits that they keep (R341, R345, R360, R395, R412,
R428, R440): for every owner `o`, partition `p`, pipe `k` and word `i` of its latch buffers. -/
def Claims.plainRegs (o p k i : Nat) : List (Nat × W32) :=
  let lane := 0x0100A000 + 0x40 * o
  let block := 0x0100C000 + 0x100 * p
  [(0x010, 0xF0000000), (0x014, 0x0000FFFF), (0x020, 0xF), (0x10008, 0xFFFFFFFF), (0x1000C, 0xFFFFFFFF), (0x10010, 0xFFFFFFFF),
   (0x10014, 0xFFFFFFFF), (0x1004 + 0x1000 * o, 0xFFFFFFFF), (lane, 0xFFFFFFFF), (lane + 0x04, 0xFFFFFFFF), (lane + 0x10, 0xFFFFFFFF),
   (lane + 0x14, 0xFFFFFFFF), (0x0100A030, 0xFFFFF000), (0x0100A034, 0xFFFF), (0x0100A070 + 0x40 * (o % 8), 0xFFFFF001), (0x0100A074 + 0x40 * (o % 8), 0xFFFF), (block, 0xFFFFFFFF),
   (block + 0x04, 0xFFFFFFFF), (block + 0x08, 0x000F0FFF), (block + 0x10, 0xFFFFFFFF), (block + 0x14, 0xFFFFFFFF), (block + 0x18, 0xFFFF),
   (0x01010000 + 0x1000 * k + 0x100 + 4 * i, 0xFFFFFFFF), (0x01010000 + 0x1000 * k + 0x140 + 4 * i, 0xFFFFFFFF)]

/-- The registers of BAR 0 whose bits a write of ones clears (R345, R360, R412, R433). -/
def Claims.clearRegs (o k : Nat) : List (Nat × W32) :=
  [(0x10018, 0xFFFFFFFF), (0x0100A020 + 0x40 * o, 0xFFFFFFFF), (0x100C + 0x1000 * o, 0x3), (0x01010008 + 0x1000 * k, 0xFF)]

/-- Registers of BAR 0 that a write does not change (R341, R345, R360, R412, R433, R447, R463, R464). -/
def Claims.readOnlyRegs (o p k c : Nat) : List Nat :=
  [0x000, 0x004, 0x008, 0x10004, 0x1008 + 0x1000 * o, 0x1040 + 0x1000 * o, 0x0100A008 + 0x40 * o, 0x0100A018 + 0x40 * o, 0x0100A024 + 0x40 * o,
   0x0100E000 + 8 * p, 0x01010000 + 0x1000 * k, 0x01010004 + 0x1000 * k, 0x01018000, 0x01018004, 0x01018100 + 16 * c]

/-- R11, R12, R13, R340, R341, R345, R360, R412, R428, R433: REGISTER_WRITE, while the device has power, takes naturally aligned
accesses of 32 and 64 bits and discards others; the registers that hold what is written read it back in the bits they have, those
that are cleared by ones are, those that are read only stay, and nothing outside the register's own unit changes. A VF reaches its
command page and the completions of its lanes alone. -/
def Obligations.Registers : Prop :=
  ∀ s : State, s.boot.power = true → s.pages.length = 9 → s.owners.length = 9 → s.parts.length = 8 → s.display.pipes.length = 6 →
    (∀ p ∈ s.display.pipes, p.latch0.length = 16 ∧ p.latch1.length = 16) →
    ∀ (o p k i c : Nat), o < 9 → p < 8 → k < 6 → i < 16 → c < 96 →
      (∀ x ∈ Claims.plainRegs o p k i, ∀ v : W64, ∃ t, exec (.registerWrite .pf x.1 4 v) s = .next t ∧
        t.registerRead .pf x.1 4 = (v.setWidth 32 &&& x.2).setWidth 64 ∧
        { t with boot := s.boot, gulnos := s.gulnos, pages := s.pages, owners := s.owners, parts := s.parts, display := s.display } = s) ∧
      (∀ x ∈ Claims.clearRegs o k, ∀ v : W64, ∃ t, exec (.registerWrite .pf x.1 4 v) s = .next t ∧
        t.barWord .pf x.1 = s.barWord .pf x.1 &&& ~~~(v.setWidth 32 &&& x.2)) ∧
      (∀ a ∈ Claims.readOnlyRegs o p k c, ∀ v, exec (.registerWrite .pf a 4 v) s = .next s) ∧
      (∀ v : W64, ∃ t, exec (.registerWrite .pf (0x0100A000 + 0x40 * o) 8 v) s = .next t ∧ (t.owner o).fbase = v) ∧
      (∀ fn a n v, accessOk a n = false → exec (.registerWrite fn a n v) s = .next s ∧ s.registerRead fn a n = 0xFFFFFFFFFFFFFFFF) ∧
      (∀ a v, 0x2000 ≤ a → a ≠ 0x2028 → a ≠ 0x202C → a % 4 = 0 → exec (.registerWrite (.vf p) a 4 v) s = .next s) ∧
      ∀ v : W64, ∃ t, exec (.registerWrite (.vf p) 0x004 4 v) s = .next t ∧ (t.page (1 + p)).prod = v.setWidth 32 ∧ { t with pages := s.pages } = s

/-- R114, R360, R361, R362: GULNOS_LINK_UP trains a link and, with pairing enabled, completes the handshake; GULNOS_LINK_DOWN loses
a link, and pairing with the last. REMOTE_ACCESS by the paired device inside [RBASE, RLIMIT) reads or writes memory; outside it is
discarded and counted, and a read gives all ones. REMOTE_ACCESS_TIMEOUT discards a request that has not been answered within 1 ms,
with a record, and gives its read what it is to give. -/
def Obligations.GulnosLinks : Prop :=
  (∀ (s : State) (link : Nat) (step : Byte) (offset : W64), link < 2 → s.boot.power = true →
    (∃ t, exec (.gulnosLinkUp link step offset) s = .next t ∧ t.gulnos.lup = s.gulnos.lup ||| BitVec.ofNat 2 (2 ^ link) ∧
      { t with gulnos := s.gulnos, boot := s.boot } = s ∧
      (s.gulnos.en = true → s.gulnos.paired = false → t.gulnos.paired = true ∧ t.gulnos.peerId = 0x5BE00D00 + step.setWidth 32 ∧
        t.gulnos.peerOff = offset ∧ t.boot.offs = s.boot.offs ∧
        t.boot.offgen = s.boot.offgen + (if s.boot.offgen.getLsbD 0 then 2 else 1)) ∧
      (s.gulnos.en = false ∨ s.gulnos.paired = true → { t.gulnos with lup := s.gulnos.lup } = s.gulnos ∧ t.boot = s.boot)) ∧
    (∃ t, exec (.gulnosLinkDown link) s = .next t ∧ t.gulnos.lup = s.gulnos.lup &&& ~~~BitVec.ofNat 2 (2 ^ link) ∧
      { t with gulnos := s.gulnos, boot := s.boot } = s ∧
      (t.gulnos.lup = 0 → s.gulnos.paired = true → t.gulnos.paired = false ∧ t.gulnos.peerId = 0 ∧ t.gulnos.peerOff = 0 ∧
        t.boot.offgen = s.boot.offgen + (if s.boot.offgen.getLsbD 0 then 2 else 1)) ∧
      (t.gulnos.lup ≠ 0 → { t.gulnos with lup := s.gulnos.lup } = s.gulnos))) ∧
  (∀ (s : State) (addr len : Nat) (data : Option (List Byte)),
    let n := (data.map (·.length)).getD len
    let inside : Prop := s.gulnos.rbase.toNat ≤ addr ∧ addr + n ≤ s.gulnos.rlimit.toNat
    (s.linkUp = false → exec (.remoteAccess addr data len) s = .next s) ∧
    (s.linkUp = true → ¬ inside → ∃ t, exec (.remoteAccess addr data len) s = .next t ∧
      t.gulnos = { s.gulnos with rxDenied := s.gulnos.rxDenied + 1 } ∧
      { t with gulnos := s.gulnos, answer := s.answer, poisoned := s.poisoned } = s ∧ (data = none → t.answer = List.replicate n 0xFF)) ∧
    let st (l : Nat) := s.requestState (s.domain none) 0 data.isNone (576460752303423488 + l) l
    (s.linkUp = true → inside → addr + n ≤ s.usable → (∀ l ∈ linesOf addr n, st l = .ok) →
      ∃ t, exec (.remoteAccess addr data len) s = .next t ∧
        (data = none → { t with answer := s.answer } = { s with poisoned := false } ∧
          ((∀ a, addr ≤ a → a < addr + n → s.aliasedAt (homeSlice (s.domain none) 0 a) a = false) → t.answer = s.mem.readRun addr n)) ∧
        ∀ bs, data = some bs → { t with mem := s.mem, dirty := s.dirty, past := s.past, homes := s.homes, met := s.met } = s ∧
          (∀ i, i < n → t.mem.read (addr + i) = bs.getD i 0) ∧ ∀ a, ¬ (addr ≤ a ∧ a < addr + n) → t.mem.read a = s.mem.read a) ∧
    (s.linkUp = true → inside → ∀ l, (∀ x ∈ linesOf addr n, st x = .ok ∨ x = l) → l ∈ linesOf addr n →
      (st l = .held ∨ st l = .moving → exec (.remoteAccess addr data len) s = .next s) ∧
      (st l = .retired → 0 < s.owners.length → ∃ t, exec (.remoteAccess addr data len) s = .next t ∧ Claims.Reported s t 0x4B 0 ∧ t.mem = s.mem))) ∧
  (∀ (s : State) (n pa at_ : Nat) (a : Agent) (e : Nat), s.gulnos.pending.find? (fun p => p.1 = n) = some (n, pa, at_, a, e) →
    (s.now - at_ < 100000 → exec (.remoteAccessTimeout n) s = .next s) ∧
    (100000 ≤ s.now - at_ → 0 < s.owners.length → ∃ t, exec (.remoteAccessTimeout n) s = .next t ∧
      t.gulnos = { s.gulnos with pending := s.gulnos.pending.filter fun p => p.1 ≠ n } ∧ Claims.Reported s t 0x51 0 ∧
      Claims.Told s { t with gulnos := s.gulnos, results := s.results } ∧ t.results.length = s.results.length ∧
      ∀ r ∈ t.results, ∀ l ∈ r.lanes, ∀ x ∈ l.late, x.1 ≠ n))

/-! ### Commands of Larkspur -/

/-- The next block that Larkspur takes lies on a page, is a command's, and passes the checks that every block meets (R347, R348). -/
structure Claims.Taken (s : State) (code page : Nat) (ws : List W32) : Prop where
  turn   : s.nextPage = some page
  block  : (s.page page).block s.free = ws
  serves : s.mpServes code = true
  named  : blockCode ws = code
  fits   : s.blockStatus page ws = .ok

/-- A command has completed: it has left `u`, and is answered with a status and results (R346, R347); Larkspur goes on to blocks
that no command takes. -/
def Claims.Done (i : Instr) (s : State) (page : Nat) (ws : List W32) (st : Status) (results : List (Nat × W32)) (u : State) : Prop :=
  exec i s = .next ((u.respond page ws st results).rejectUnknown 540)

/-- The 32 commands with their codes (R350). -/
def Claims.command (code : Nat) (i : Nat → Instr) : Prop := (code, i) ∈ (
  [(0x01, .devInfo), (0x02, .partPrepare), (0x03, .partCommit), (0x04, .partAbort), (0x05, .partReset), (0x06, .ctxCreate),
   (0x07, .ctxDestroy), (0x08, .ctxSwap), (0x09, .mcodeLoad), (0x0A, .domainSplit), (0x0B, .rangeWb), (0x0C, .pageRetire),
   (0x0D, .wayQuarantine), (0x0E, .coreQuarantine), (0x0F, .coreTest), (0x10, .coreAdmit), (0x11, .groupQuarantine),
   (0x12, .groupAdmit), (0x13, .ringletCfg), (0x14, .damageRead), (0x15, .errDrain), (0x16, .displayCfg), (0x17, .layerCfg),
   (0x18, .telltaleLoad), (0x19, .warpCfg), (0x1A, .tlbInval), (0x1B, .migrate), (0x1C, .shadowCfg), (0x1D, .thermalCfg),
   (0x1E, .telemetry), (0x1F, .errInject), (0x20, .watchdogCfg)] : List (Nat × (Nat → Instr)))

/-- R12, R344 to R348, R350: a response writes STATUS, the results and DONE to the block, keeps its other words, advances CONS and
raises the page's vector. Each command is turned away with MALFORMED, DENIED or BAD_STATE where its block does not pass the checks
that every block meets, and does nothing where its block is not the next one. COMMAND_PAGE_NOTIFY asks Larkspur to examine a page.
(The order of the checks is log entry 41.) -/
def Obligations.CommandBlocks : Prop :=
  (∀ (u : State) (page : Nat) (ws : List W32) (st : Status) (results : List (Nat × W32)), page < u.pages.length → ws.length = 16 →
    (∀ x ∈ results, 2 ≤ x.1 ∧ x.1 < 16) → (results.map (·.1)).Nodup →
    let t := u.respond page ws st results
    let out := bytesWords ((t.page page).slots.readRun (64 * ((u.page page).cons.toNat % 60)) 64)
    (t.page page).cons = (u.page page).cons + 1 ∧ (t.page page).prod = (u.page page).prod ∧ (∀ k, k ≠ page → t.page k = u.page k) ∧
      bitsAt out 0 8 = blockCode ws ∧ bitsAt out 8 1 = 1 ∧ bitsAt out 16 8 = st.code ∧ wordAt out 1 = wordAt ws 1 ∧
      (∀ x ∈ results, wordAt out x.1 = x.2) ∧ (∀ k, 2 ≤ k → k < 16 → (∀ x ∈ results, x.1 ≠ k) → wordAt out k = wordAt ws k) ∧
      (∃ rest, t.vectors = u.vectors ++ (.pf, page) :: rest) ∧ t.mp.inExec = none ∧
      { t with pages := u.pages, mp := u.mp, vectors := u.vectors } = u) ∧
  (∀ (s : State), ∀ (code : Nat) (i : Nat → Instr), Claims.command code i → ∀ (page : Nat),
    let ws := (s.page page).block s.free
    let next := s.nextPage = some page ∧ blockCode ws = code ∧ s.mpServes code = true
    (¬ next → exec (i page) s = .next s) ∧
    (next → s.blockStatus page ws ≠ .ok → Claims.Done (i page) s page ws (s.blockStatus page ws) [] s) ∧
    (wordAt ws 0 &&& 0xFF00FE00 ≠ 0 → s.blockStatus page ws = .malformed) ∧
    (next → page ≠ 0 → code ≠ 1 → (s.part (page - 1)).layout.valid = false → s.blockStatus page ws ≠ .ok) ∧
    (next → page ≠ 0 → code ≠ 1 → (s.page page).viaVf = true → s.vfOn (page - 1) = false → s.blockStatus page ws ≠ .ok) ∧
    (next → page ≠ 0 → code ∉ [0x01, 0x06, 0x07, 0x09, 0x0B, 0x14, 0x15, 0x1A, 0x1B, 0x1E] → s.blockStatus page ws ≠ .ok)) ∧
  (∀ (s : State) (page : Nat), page < s.pages.length → ∃ (u t : State), exec (.commandPageNotify page) s = .next t ∧ t = u.rejectUnknown 540 ∧
    { u with pages := s.pages } = s ∧ (∀ k, k ≠ page → u.page k = s.page k) ∧
    u.page page = { s.page page with examine := (s.page page).prod ≠ (s.page page).cons })

/-- R350, R353, R454, R466 to R469, R472 to R474: the commands that identify the device, retire storage, quarantine, scan and admit
cores and groups, and set Ringlet, the thermal limits and the watchdog's period; TELEMETRY writes its record and ERR_INJECT leaves
an injection to be met. (A scan's outcome is free.) -/
def Obligations.ServiceCommands : Prop :=
  ∀ (s : State) (page : Nat) (ws : List W32),
    let a (k : Nat) : Nat := (wordAt ws k).toNat
    let turned (i : Instr) (st : Status) : Prop := Claims.Done i s page ws st [] s
    (Claims.Taken s 0x01 page ws → ∃ res, Claims.Done (.devInfo page) s page ws .ok res s ∧ (2, 0x5BE00D96) ∈ res ∧ (3, 1) ∈ res ∧
      (5, 0x00010000) ∈ res ∧ (6, BitVec.ofNat 32 s.boot.state) ∈ res ∧ (10, s.boot.serial.setWidth 32) ∈ res ∧
      (11, s.boot.serial.extractLsb' 32 32) ∈ res ∧
      ∀ k, k < 3 → ∃ w : W32, (7 + k, w) ∈ res ∧ ∀ i, i < 32 → w.getLsbD i = decide ((s.healthOf (32 * k + i)).state = 0)) ∧
    (Claims.Taken s 0x0C page ws →
      let pa := (wideAt ws 2).toNat
      (pa % 65536 ≠ 0 ∨ s.installed ≤ pa → turned (.pageRetire page) .badArg) ∧
      (pa % 65536 = 0 → pa < s.installed →
        (s.storage.retired.contains (pageOf pa) = true → Claims.Done (.pageRetire page) s page ws .ok [(4, 1)] s) ∧
        (s.storage.retired.contains (pageOf pa) = false → 0 < s.owners.length → ∃ u, Claims.Done (.pageRetire page) s page ws .ok [(4, 0)] u ∧
          (∀ rd tag, u.lineState rd tag pa = .retired) ∧ u.telem.pages = satInc s.telem.pages ∧ Claims.Reported s u 0x49 0))) ∧
    (Claims.Taken s 0x0D page ws →
      (63 < a 2 ∨ 11 < a 3 → turned (.wayQuarantine page) .badArg) ∧
      (a 2 ≤ 63 → a 3 ≤ 11 → ∃ u, Claims.Done (.wayQuarantine page) s page ws .ok [] u ∧ a 3 ∉ u.liveWays (a 2))) ∧
    (Claims.Taken s 0x0E page ws → a 2 < 96 → a 3 < 2 → a 2 < s.health.length →
      let h := s.healthOf (a 2)
      (h.state = 2 → Claims.Done (.coreQuarantine page) s page ws .ok [(4, 2)] s) ∧
      (h.state = 1 → ∃ u, Claims.Done (.coreQuarantine page) s page ws .ok [(4, 1)] u ∧
        (u.healthOf (a 2)).state = (if a 3 = 1 then 2 else 1) ∧ (u.healthOf (a 2)).qby = 2) ∧
      (h.state = 0 → (s.coreDrained (a 2) = true → ∃ u, Claims.Done (.coreQuarantine page) s page ws .ok [(4, 0)] u ∧
          (u.healthOf (a 2)).state = (if a 3 = 1 then 2 else 1) ∧ (u.healthOf (a 2)).qby = 2) ∧
        (s.coreDrained (a 2) = false → h.draining = false → s.mp.inExec = none → ∃ t, exec (.coreQuarantine page) s = .next t ∧
          t.healthOf (a 2) = { h with draining := true } ∧ t.mp.inExec = some (page, (s.page page).cons) ∧ t.waves = s.waves) ∧
        (s.coreDrained (a 2) = false → h.draining = true →
          (s.drainLate [a 2] = false → exec (.coreQuarantine page) s = .next (s.holdBlock page)) ∧
          (s.drainLate [a 2] = true → Claims.Done (.coreQuarantine page) s page ws .timeout []
            { s with mp := { s.mp with late := s.mp.late ++ [.quarantine [a 2] (a 3 = 1)] } })))) ∧
    (Claims.Taken s 0x0F page ws → a 2 < 96 → a 2 < s.health.length →
      ((s.healthOf (a 2)).state ≠ 1 → turned (.coreTest page) .badState) ∧
      ((s.healthOf (a 2)).state = 1 → ∃ (u : State) (st : Status) (pass : Bool),
        Claims.Done (.coreTest page) s page ws st [(3, BitVec.ofNat 32 pass.toNat), (4, (u.healthOf (a 2)).pseq)] u ∧
        (st = .ok ∨ st = .timeout ∧ pass = false) ∧ (pass = true → (u.healthOf (a 2)).passrun = min 3 ((s.healthOf (a 2)).passrun + 1)) ∧
        (pass = false → (u.healthOf (a 2)).passrun = 0 ∧ (u.healthOf (a 2)).state = 1))) ∧
    (Claims.Taken s 0x10 page ws → a 2 < 96 → a 2 < s.health.length →
      ((s.healthOf (a 2)).state ≠ 1 ∨ (s.healthOf (a 2)).passrun < 3 → turned (.coreAdmit page) .badState) ∧
      ((s.healthOf (a 2)).state = 1 → 3 ≤ (s.healthOf (a 2)).passrun → 0 < s.owners.length → ∃ u,
        Claims.Done (.coreAdmit page) s page ws .ok [] u ∧ u.healthOf (a 2) = { s.healthOf (a 2) with state := 0 } ∧
        Claims.Reported s u 0x43 0)) ∧
    (Claims.Taken s 0x11 page ws → a 2 < 12 → s.health.length = 96 → s.ringlet.gstate.length = 12 →
      (∀ c, c / 8 = a 2 → (s.healthOf c).state = 0 ∧ s.coreDrained c = true) → ∃ u, Claims.Done (.groupQuarantine page) s page ws .ok [] u ∧
        u.ringlet.gstate.getD (a 2) 0 = 1 ∧ ∀ c, c / 8 = a 2 → (u.healthOf c).state = 1 ∧ (u.healthOf c).qby = 2) ∧
    (Claims.Taken s 0x12 page ws → a 2 < 12 → s.health.length = 96 → s.ringlet.gstate.length = 12 →
      (s.ringlet.gstate.getD (a 2) 0 = 0 → turned (.groupAdmit page) .badState) ∧
      (s.ringlet.gstate.getD (a 2) 0 ≠ 0 → (∀ c, c / 8 = a 2 → (s.healthOf c).state = 1 → 3 ≤ (s.healthOf c).passrun) → ∃ u,
        Claims.Done (.groupAdmit page) s page ws .ok [] u ∧ u.ringlet.gstate.getD (a 2) 1 = 0 ∧
        ∀ c, c / 8 = a 2 → (u.healthOf c).state = if (s.healthOf c).state = 1 then 0 else (s.healthOf c).state)) ∧
    (Claims.Taken s 0x13 page ws → a 2 < 2 →
      (10000 < a 3 → turned (.ringletCfg page) .badArg) ∧
      (a 3 ≤ 10000 → Claims.Done (.ringletCfg page) s page ws .ok []
        { s with ringlet := { s.ringlet with en := decide (a 2 = 1), gap := a 3 } })) ∧
    (Claims.Taken s 0x1D page ws →
      (a 2 < 120 ∨ 230 < a 2 ∨ a 3 < 100 ∨ 380 < a 3 → turned (.thermalCfg page) .badArg) ∧
      (120 ≤ a 2 → a 2 ≤ 230 → 100 ≤ a 3 → a 3 ≤ 380 → Claims.Done (.thermalCfg page) s page ws .ok []
        { s with thermal := { s.thermal with threshold := a 2, limit := a 3 } })) ∧
    (Claims.Taken s 0x20 page ws →
      (a 2 < 10 ∨ 1000 < a 2 → turned (.watchdogCfg page) .badArg) ∧
      (10 ≤ a 2 → a 2 ≤ 1000 → Claims.Done (.watchdogCfg page) s page ws .ok [] { s with mp := { s.mp with wdMs := a 2 } })) ∧
    (let rec_ := bytesWords (s.telemetryBytes page)
     rec_.length = 448 ∧ wordAt rec_ 0 = 1792 ∧ wideAt rec_ 2 = s.boot.serial ∧ wideAt rec_ 4 = s.dieTime 0 ∧ wordAt rec_ 15 = s.telem.escalations ∧
       wordAt rec_ 16 = s.ringlet.rotgen ∧ wordAt rec_ 17 = s.telem.passes ∧ wordAt rec_ 18 = s.telem.fails ∧ wordAt rec_ 27 = s.telem.pages ∧
       (∀ p, p < 8 → wordAt rec_ (32 + 4 * p) = (if page = 0 ∨ page = p + 1 then (s.part p).kills else 0) ∧
         wordAt rec_ (33 + 4 * p) = if page = 0 ∨ page = p + 1 then (s.part p).dmgCount else 0) ∧
       ∀ c, c < 96 → wordAt rec_ (65 + 4 * c) =
         if page = 0 ∨ (s.part (page - 1)).layout.cores.getLsbD c = true then (s.healthOf c).pseq else 0) ∧
    (Claims.Taken s 0x1E page ws →
      let n := min 1792 (a 4 / 64 * 64)
      ∀ u, s.mpWrite page (s.pageHome page) (wideAt ws 2).toNat ((s.telemetryBytes page).take n) = some u →
        Claims.Done (.telemetry page) s page ws .ok [(5, BitVec.ofNat 32 n)] u) ∧
    (Claims.Taken s 0x1F page ws → a 3 < 96 →
      let x := wideAt ws 4
      (a 2 = 0 ∨ 7 < a 2 → turned (.errInject page) .badArg) ∧
      ((a 2 = 1 ∧ x.toNat < 4) ∨ ((a 2 = 2 ∨ a 2 = 3 ∨ a 2 = 7) ∧ x = 0) ∨ (a 2 = 6 ∧ x.toNat < 2 ^ 23) → ∃ u,
        Claims.Done (.errInject page) s page ws .ok [] u ∧ (u.core (a 3)).inject = (s.core (a 3)).inject ++ [⟨a 2, x⟩] ∧
        { u with cores := s.cores } = s) ∧
      (a 2 = 4 → x.toNat < s.installed → (s.dirtyAt x.toNat).isSome = true → ∃ u, Claims.Done (.errInject page) s page ws .ok [] u ∧
        x.toNat / 128 ∈ u.storage.badDirty ∧ { u with storage := s.storage } = s) ∧
      (a 2 = 4 → x.toNat < s.installed → s.dirtyAt x.toNat = none → turned (.errInject page) .badState ∨ ∃ u,
        Claims.Done (.errInject page) s page ws .ok [] u ∧ x.toNat / 128 ∈ u.storage.badClean ∧ { u with storage := s.storage } = s) ∧
      (a 2 = 5 → x.toNat < s.installed → ∃ u, Claims.Done (.errInject page) s page ws .ok [] u ∧
        x.toNat / 128 ∈ u.storage.badMem ∧ { u with storage := s.storage } = s))

/-- R350, R352, R365 to R368, R383, R392, R394, R412, R413, R417, R423, R462: the commands that act on partitions and contexts:
PART_PREPARE, PART_COMMIT, PART_ABORT, PART_RESET, CTX_CREATE, CTX_DESTROY, CTX_SWAP, MCODE_LOAD, SHADOW_CFG, DAMAGE_READ and
ERR_DRAIN. -/
def Obligations.PartitionCommands : Prop :=
  ∀ (s : State) (page : Nat) (ws : List W32), s.parts.length = 8 → s.owners.length = 9 → s.pages.length = 9 →
    let a (k : Nat) : Nat := (wordAt ws k).toNat
    let own (k : Nat) : Nat := if page = 0 then a k else page - 1
    let turned (i : Instr) (st : Status) : Prop := Claims.Done i s page ws st [] s
    (Claims.Taken s 0x02 page ws → a 4 = 576 → ∀ bs, s.mpRead 0 (s.pageHome 0) (wideAt ws 2).toNat 576 = some bs →
      let tbl := bytesWords bs
      let entry (p : Nat) : List W32 := (tbl.drop (16 + 16 * p)).take 16
      (crc32c bs ≠ wordAt ws 5 → turned (.partPrepare page) .crc) ∧
      (crc32c bs = wordAt ws 5 → bitsAt tbl 16 496 = 0 → (∀ p, p < 8 → entryReserved (entry p) = true) →
        s.setOk (bitsAt tbl 0 16) ((List.range 8).map fun p => layoutOf (entry p)) = true →
        ∃ u x, Claims.Done (.partPrepare page) s page ws .ok [(6, x.checksum)] u ∧ u.mp.prepared = some x ∧ x.sealed = false ∧
          x.period = bitsAt tbl 0 16 ∧ (∀ p, p < 8 → x.entries.getD p .none = layoutOf (entry p)) ∧ { u with mp := s.mp } = s)) ∧
    (Claims.Taken s 0x03 page ws →
      (s.mp.prepared = none → s.mp.discarded = false → ∃ u, Claims.Done (.partCommit page) s page ws .badState [] u ∧ { u with mp := s.mp } = s) ∧
      (s.mp.prepared = none → s.mp.discarded = true → ∃ u, Claims.Done (.partCommit page) s page ws .aborted [] u ∧ { u with mp := s.mp } = s) ∧
      (∀ x, s.mp.prepared = some x →
        (wordAt ws 2 ≠ x.checksum → turned (.partCommit page) .crc) ∧
        (wordAt ws 2 = x.checksum → s.allDrained x = true →
          Claims.Done (.partCommit page) s page ws .timeout [] { s with mp := { s.mp with prepared := none } } ∨ ∃ u,
          Claims.Done (.partCommit page) s page ws .ok [] u ∧ u.mp.prepared = none ∧ u.boot.flips = s.boot.flips + 1 ∧
          u.boot.period = x.period ∧ ∀ p, p < 8 → (u.part p).layout = x.entries.getD p .none ∧
            ((x.entries.getD p .none).valid = false → (u.part p).state = .absent) ∧
            ((x.entries.getD p .none).valid = true → (s.part p).state = .absent → (u.part p).state = .idle)))) ∧
    (Claims.Taken s 0x04 page ws → Claims.Done (.partAbort page) s page ws .ok [] { s with mp := { s.mp with prepared := none } }) ∧
    (Claims.Taken s 0x05 page ws → a 3 < 2 →
      (7 < a 2 → turned (.partReset page) .badArg) ∧
      (a 2 < 8 → (s.part (a 2)).state ≠ .resetting →
        ((s.part (a 2)).layout.valid = false → turned (.partReset page) .badState) ∧
        ((s.part (a 2)).layout.valid = true → ∃ u st, Claims.Done (.partReset page) s page ws st [] u ∧
          (st = .ok ∧ (u.part (a 2)).state = .idle ∧ (∀ x ∈ u.ctxs, x.part ≠ a 2) ∨
            st = .timeout ∧ (u.part (a 2)).state = .resetting ∧ ∀ x ∈ u.ctxs, x.part = a 2 → x.ended = true) ∧
          (u.part (a 2)).work = [] ∧ (∀ x ∈ u.tasks, x.part ≠ a 2) ∧ (∀ x ∈ u.images, x.part ≠ a 2) ∧
          ∀ w ∈ u.waves, ∀ x ∈ s.ctxs, x.part = a 2 → (s.launchOf w.launch).ctx ≠ x.id))) ∧
    (Claims.Taken s 0x06 page ws → a 5 < 4 → own 2 < 8 → (s.part (own 2)).layout.valid = true → (s.part (own 2)).state.inTransition = false →
      (wideAt ws 3).toNat % 128 = 0 → (wideAt ws 3).toNat < 2 ^ 48 → wideAt ws 10 = 0 →
      ∀ m id, s.readSettings page ws = .ok m → s.ctx? id = none → 0 < id → id < 0xFFF → (∀ k, 0 < k → k < id → (s.ctx? k).isSome = true) →
        ∃ u x, Claims.Done (.ctxCreate page) s page ws .ok [(13, BitVec.ofNat 32 id)] u ∧ u.ctxs = s.ctxs ++ [x] ∧ x.id = id ∧
          x.part = own 2 ∧ x.root = wideAt ws 3 ∧ x.priv = decide (a 5 % 2 = 1) ∧ x.dbg = decide (a 5 / 2 = 1) ∧ x.stackBase = wideAt ws 6 ∧
          x.msg = m ∧ x.ended = false ∧ x.mcode = [] ∧ { u with ctxs := s.ctxs, parts := s.parts } = s ∧
          ((s.part (own 2)).state = .idle → (u.part (own 2)).state = .running ∨ (u.part (own 2)).state = .waiting)) ∧
    (Claims.Taken s 0x07 page ws →
      (s.ctx? (a 2) = none → turned (.ctxDestroy page) .badState) ∧
      (∀ x, s.ctx? (a 2) = some x → page ≠ 0 → x.part ≠ page - 1 → turned (.ctxDestroy page) .denied) ∧
      (∀ x, s.ctx? (a 2) = some x → (page = 0 ∨ x.part = page - 1) → (s.part x.part).state.inTransition = false → ∃ u,
        Claims.Done (.ctxDestroy page) s page ws .ok [] u ∧ u.ctx? (a 2) = none ∧
        (x.ended = false → (∀ b ∈ u.blocks, b.ctx ≠ a 2) ∧ (∀ l ∈ u.launches, l.ctx ≠ a 2)) ∧
        (x.part < 8 → (∀ y ∈ s.ctxs, y.part = x.part → y.id = a 2) → (u.part x.part).state = .idle))) ∧
    (Claims.Taken s 0x08 page ws → a 2 < 8 →
      let others := (List.range 8).filter fun q => s.shareCores (a 2) q
      (a 3 = 0 → (s.part (a 2)).state = .running → ∃ u st res, Claims.Done (.ctxSwap page) s page ws st res u ∧ st = .ok ∧
          (u.part (a 2)).state = .out ∧ (∀ w ∈ u.waves, w.core < 96 → u.wavePart w ≠ a 2) ∨
        exec (.ctxSwap page) s = .next (u.holdBlock page) ∧ (u.part (a 2)).state = .swapping) ∧
      (a 3 = 0 → (s.part (a 2)).state = .idle → turned (.ctxSwap page) .badState) ∧
      (a 3 = 1 → (s.part (a 2)).state = .out → (others.any fun q => (s.part q).state.occupies) = false → ∃ u st res,
        Claims.Done (.ctxSwap page) s page ws st res u ∧ (st = .ok ∧ (u.part (a 2)).state = .running ∨ st = .timeout ∧ u = s))) ∧
    (Claims.Taken s 0x09 page ws → ∀ c bs, s.ctx? (a 2) = some c → (page = 0 ∨ c.part = page - 1) → (s.part c.part).state.inTransition = false →
      a 3 < 4 → 0 < a 6 → a 6 ≤ 4096 → s.mpRead page (some c.part) (wideAt ws 4).toNat (8 * a 6) = some bs →
      (crc32c bs ≠ wordAt ws 7 → turned (.mcodeLoad page) .crc) ∧
      (crc32c bs = wordAt ws 7 → ((bytesWide bs).all (microWordOk (a 3) (a 6))) = true →
        (s.microBusy c.id (a 3) = true → turned (.mcodeLoad page) .badState) ∧
        (s.microBusy c.id (a 3) = false → s.microRoom c (a 3) = true → ∃ u x, Claims.Done (.mcodeLoad page) s page ws .ok [] u ∧
          u.ctx? (a 2) = some x ∧ (x.mcode.find? fun m => m.1 = a 3) = some (a 3, bytesWide bs) ∧ { x with mcode := c.mcode } = c))) ∧
    (Claims.Taken s 0x1C page ws → a 2 < 8 → a 3 ≤ 64 → (s.part (a 2)).layout.valid = true → (s.part (a 2)).state.inTransition = false →
      let rest := (((List.range 8).filter fun q => q ≠ a 2 && (s.part q).layout.valid).map fun q => (s.part q).layout.shadow).sum
      (rest + a 3 ≤ 64 → ∃ u, Claims.Done (.shadowCfg page) s page ws .ok [] u ∧
        u.part (a 2) = { s.part (a 2) with layout := { (s.part (a 2)).layout with shadow := a 3 } } ∧ { u with parts := s.parts } = s)) ∧
    (Claims.Taken s 0x14 page ws → a 2 < 8 →
      (page ≠ 0 → a 2 ≠ page - 1 → turned (.damageRead page) .denied) ∧
      (page = 0 ∨ a 2 = page - 1 → (s.part (a 2)).state = .resetting → turned (.damageRead page) .busy) ∧
      (page = 0 ∨ a 2 = page - 1 → (s.part (a 2)).state ≠ .resetting →
        let n := min (s.part (a 2)).damage.length (a 5 / 64)
        ∀ w, s.mpWrite page (some (a 2)) (wideAt ws 3).toNat (((s.part (a 2)).damage.take n).flatMap wordsBytes) = some w →
          ∃ u, Claims.Done (.damageRead page) s page ws .ok [(6, BitVec.ofNat 32 (64 * n))] u ∧ { u with parts := w.parts } = w ∧
            u.part (a 2) = { s.part (a 2) with damage := (s.part (a 2)).damage.drop n })) ∧
    (Claims.Taken s 0x15 page ws → page < 9 →
      (a 2 = 0 → ∃ u, Claims.Done (.errDrain page) s page ws .ok [] u ∧ (u.owner page).fcons = wordAt ws 3 ∧ Claims.Told s u ∧
        ((u.owner page).slots = [] ∨ 256 ≤ ((u.owner page).fprod - (u.owner page).fcons).toNat) ∧
        ∃ moved, (s.owner page).slots = moved ++ (u.owner page).slots ∧ (u.owner page).fprod = (s.owner page).fprod + BitVec.ofNat 32 moved.length) ∧
      (a 2 = 1 → ∃ u, Claims.Done (.errDrain page) s page ws .ok [] u ∧ u.owner page = { s.owner page with rcons := wordAt ws 3 } ∧
        { u with owners := s.owners } = s) ∧
      (1 < a 2 → turned (.errDrain page) .badArg))

/-- R349, R407, R409, R410, R432, R434, R438, R439, R442 to R448: the commands that act on address translation, on interleave domains
and on the display path: DOMAIN_SPLIT, RANGE_WB, TLB_INVAL, MIGRATE, DISPLAY_CFG, LAYER_CFG, TELLTALE_LOAD and WARP_CFG; and
LATE_STEP_COMPLETE, with which the late step of a command ends. (Whether a step is late is free: log entry 43.) -/
def Obligations.DomainAndDisplayCommands : Prop :=
  ∀ (s : State) (page : Nat) (ws : List W32), s.parts.length = 8 → s.owners.length = 9 → s.display.pipes.length = 6 →
    let a (k : Nat) : Nat := (wordAt ws k).toNat
    let turned (i : Instr) (st : Status) : Prop := Claims.Done i s page ws st [] s
    let reach (x : Context) : Prop := page = 0 ∨ x.part = page - 1
    (Claims.Taken s 0x0A page ws → s.mp.late.contains .split = false →
      let names := (a 2, splitDomain (a 3)) :: (if a 4 = 0xFF then [] else [(a 4, splitDomain (a 5))])
      (s.mp.split = none → s.splitStatus ws names ≠ .ok → turned (.domainSplit page) (s.splitStatus ws names)) ∧
      (s.mp.split = none → s.splitStatus ws names = .ok → ∃ u : State, exec (.domainSplit page) s = .next (u.holdBlock page) ∧
        u.mp.split = some ⟨names, names.flatMap fun x => movingSlices (s.domain (some x.1)) x.2, 1⟩ ∧
        (∀ x ∈ names, x.1 < 8 → (u.part x.1).sstate = 1) ∧ { u with mp := s.mp, parts := s.parts } = s) ∧
      ∀ x, s.mp.split = some x →
        let timedOut := Claims.Done (.domainSplit page) s page ws .timeout [] { s with mp := { s.mp with late := s.mp.late ++ [.split] } }
        let gone (u : State) : Prop := ∀ d ∈ u.dirty, d ∈ s.dirty ∧ (d.slice ∉ x.moving ∨ s.lineBad d = true)
        (x.stage = 1 → timedOut ∨ ∃ u : State, exec (.domainSplit page) s = .next (u.holdBlock page) ∧ u.mp.split = some { x with stage := 2 } ∧
          (∀ n ∈ x.names, n.1 < 8 → (u.part n.1).sstate = 2) ∧ u.mem = s.mem ∧ gone u) ∧
        (x.stage = 2 → (x.names.map (·.1)).Nodup → timedOut ∨ ∃ u : State, exec (.domainSplit page) s = .next (u.holdBlock page) ∧
          u.mp.split = some { x with stage := 3 } ∧ u.mem = s.mem ∧ gone u ∧
          (∀ n ∈ x.names, n.1 < 8 → (u.part n.1).sstate = 3 ∧ (u.part n.1).layout.dbase = n.2.1 ∧ (u.part n.1).layout.dm = n.2.2 ∧
            (s.domain (some n.1) ≠ n.2 → (s.part n.1).layout.valid = true → (u.part n.1).sgen = (s.part n.1).sgen + 1)) ∧
          (∀ p, (∀ n ∈ x.names, n.1 ≠ p) → u.part p = s.part p) ∧
          ∀ w ∈ u.writes, x.moving.contains w.slice = true → isRemote w.addr = false → w.misdirected = true) ∧
        (3 ≤ x.stage → ∃ u, Claims.Done (.domainSplit page) s page ws .ok [] u ∧ u.mp.split = none ∧
          (∀ n ∈ x.names, n.1 < 8 → (u.part n.1).sstate = 0) ∧ { u with mp := s.mp, parts := s.parts } = s)) ∧
    (Claims.Taken s 0x0B page ws → ∀ x, s.ctx? (a 2) = some x → reach x → x.id = a 2 → s.mp.late = [] →
      canonicalRange (wideAt ws 3).toNat (wideAt ws 5).toNat = true → ∃ u st, Claims.Done (.rangeWb page) s page ws st [] u ∧
        (st = .ok ∧ u = s.writeBackRange (a 2) (wideAt ws 3) (wideAt ws 5).toNat s.free ∨
          st = .timeout ∧ wideAt ws 5 ≠ 0 ∧ u = { s with mp := { s.mp with late := [.rangeWb (a 2) (wideAt ws 3) (wideAt ws 5) s.free] } })) ∧
    (∀ (c : Nat) (va : W64) (n start : Nat) (tr : Trans),
      s.translate c ⟨0, false, false, true⟩ va (36028797018963968 + 8 * (va.toNat / 4096)) = .ok tr → s.writes = [] →
      ∀ d ∈ (s.writeBackPage c va n start).dirty, d ∈ s.dirty ∧
        (d.line ∉ linesOf (tr.paOf va.toNat) n ∨ s.lineBad d = true ∨ s.writtenSince start d.line = true)) ∧
    (Claims.Taken s 0x1A page ws → page < 9 →
      (∀ x, s.ctx? (a 2) = some x → reach x → x.id = a 2 → a 2 ≠ 0xFFF → ∃ u st y, Claims.Done (.tlbInval page) s page ws st [(6, (s.owner page).tlbSer)] u ∧
        (st = .ok ∨ st = .timeout) ∧ u.invals = s.invals ++ [y] ∧ y.owner = page ∧ y.token = (s.owner page).tlbSer ∧ y.ctx = some (a 2) ∧
        y.va = wideAt ws 3 ∧ y.pages = a 5 ∧ { u with invals := s.invals, owners := s.owners } = s ∧
        u.owner page = { s.owner page with tlbSer := if (s.owner page).tlbSer = 0xFFFFFFFF then 1 else (s.owner page).tlbSer + 1 }) ∧
      (a 2 = 0xFFF → ∃ u st y, Claims.Done (.tlbInval page) s page ws st [(6, (s.owner page).tlbSer)] u ∧ u.invals = s.invals ++ [y] ∧
        ∀ c, u.invalCovers y c = true ↔ page = 0 ∨ s.entryPart c = some (page - 1)) ∧
      (s.ctx? (a 2) = none → a 2 < 0xFFF → turned (.tlbInval page) .badState)) ∧
    (Claims.Taken s 0x1B page ws → ∀ x, s.ctx? (a 2) = some x → reach x →
      (s.mp.late = [] → (s.part x.part).state.inTransition = false → s.leavesOf x (wideAt ws 3).toNat (4096 * a 7) (a 7 + 1) = none →
        turned (.migrate page) .badArg) ∧
      ((s.part x.part).state.inTransition = true → turned (.migrate page) .busy) ∧
      (∀ l, page = 0 → s.mp.late = [] → (s.part x.part).state.inTransition = false →
        s.leavesOf x (wideAt ws 3).toNat (4096 * a 7) (a 7 + 1) = some l → canonicalRange (wideAt ws 3).toNat (4096 * a 7) = true →
        (wideAt ws 3).toNat % 4096 = 0 → (wideAt ws 5).toNat + 4096 * a 7 ≤ s.installed →
        leavesFit (wideAt ws 3).toNat (wideAt ws 5).toNat l = true →
        ((l.any fun y => y.2.e.getLsbD 3) = true → turned (.migrate page) .badState) ∧
        ((l.any fun y => y.2.e.getLsbD 3) = false → ∃ u st, Claims.Done (.migrate page) s page ws st [] u ∧
          let v := (s.unmapLeaves x l).takeToken page (some x.id) none (BitVec.ofNat 64 (wideAt ws 3).toNat) (a 7)
          (st = .ok ∧ v.1.migrateOn 0 x (wideAt ws 3).toNat (wideAt ws 5).toNat (a 7) v.2 l = some u ∨
            st = .timeout ∧ u.mp.late = [.migrate 0 x.id (BitVec.ofNat 64 (wideAt ws 3).toNat) (wideAt ws 5).toNat (a 7) v.2] ∧
              { u with mp := s.mp } = v.1)))) ∧
    (Claims.Taken s 0x16 page ws → a 2 < 6 → ∀ bs, s.mpRead 0 (s.pageHome 0) (wideAt ws 3).toNat 64 = some bs →
      let m := bytesWords bs
      bitsAt m 184 328 = 0 → modeOk m = true → (∀ j, j < 6 → j ≠ a 2 → ∀ x, (s.pipe j).mode = some x → warps x = false) → ∃ u st,
        Claims.Done (.displayCfg page) s page ws st [] u ∧ Claims.OnlyPipe s (a 2) u ∧
        (st = .ok ∧ (u.pipe (a 2)).mode = some m ∧ (u.pipe (a 2)).output = true ∧ (u.pipe (a 2)).layers = (s.pipe (a 2)).layers ∨
          st = .timeout ∧ (u.pipe (a 2)).mode = none ∧ (u.pipe (a 2)).output = false ∧ (u.pipe (a 2)).foxg = 0)) ∧
    (Claims.Taken s 0x17 page ws → a 2 < 6 → a 3 < 8 → ∀ bs, s.mpRead 0 (s.pageHome 0) (wideAt ws 4).toNat 64 = some bs →
      let x := bytesWords bs
      let p := s.pipe (a 2)
      bitsAt x 23 9 = 0 → bitsAt x 480 32 = 0 →
      (s.layerOk { Layer.blank 0 with words := x } = false → turned (.layerCfg page) .badArg) ∧
      (s.layerOk { Layer.blank 0 with words := x } = true → ∃ u l, Claims.Done (.layerCfg page) s page ws .ok [] u ∧
        Claims.OnlyPipe s (a 2) u ∧ (u.pipe (a 2)).layer? (a 3) = some l ∧
        (p.mode.isSome = true → l.next = some x ∧ ∀ l', p.layer? (a 3) = some l' → { l with next := l'.next } = l') ∧
        (p.mode = none → l.words = x ∧ l.next = none))) ∧
    (Claims.Taken s 0x18 page ws → a 2 < 6 → a 3 < 8 → a 6 ≤ 4194304 → ∀ bs, s.mpRead 0 (s.pageHome 0) (wideAt ws 4).toNat (a 6) = some bs →
      let x := bytesWords bs
      (crc32c bs ≠ wordAt ws 7 → turned (.telltaleLoad page) .crc) ∧
      (crc32c bs = wordAt ws 7 → bitsAt x 64 64 ≠ 0 → turned (.telltaleLoad page) .malformed) ∧
      (crc32c bs = wordAt ws 7 → bitsAt x 64 64 = 0 → bitsAt x 0 16 ≠ 0 → bitsAt x 16 16 ≠ 0 → a 6 = 16 + 4 * bitsAt x 0 16 * bitsAt x 16 16 →
        (16777216 < s.display.tellUsed (a 2) (a 3) + a 6 → turned (.telltaleLoad page) .noResource) ∧
        (s.display.tellUsed (a 2) (a 3) + a 6 ≤ 16777216 → ∃ u, Claims.Done (.telltaleLoad page) s page ws .ok [] u ∧
          { u with display := s.display } = s ∧ u.display.pipes = s.display.pipes ∧
          ⟨a 2, a 3, x, a 6⟩ ∈ (if (s.pipe (a 2)).mode.isSome then u.display.tellNext else u.display.tell)))) ∧
    (Claims.Taken s 0x19 page ws → ∀ hd bs, s.mpRead 0 (s.pageHome 0) (wideAt ws 2).toNat 16 = some hd →
      let n := (wordAt (bytesWords hd) 0).toNat
      1 ≤ n → n ≤ 4 → s.mpRead 0 (s.pageHome 0) (wideAt ws 2).toNat (meshBytes n) = some bs → bitsAt (bytesWords bs) 32 96 = 0 →
      (crc32c bs ≠ wordAt ws 4 → turned (.warpCfg page) .crc) ∧
      (crc32c bs = wordAt ws 4 → ∃ u, Claims.Done (.warpCfg page) s page ws .ok [] u ∧ { u with display := s.display } = s ∧
        if (s.display.pipes.any fun p => p.mode.any warps) then u.display.meshNext = some (bytesWords bs) ∧ u.display.mesh = s.display.mesh
        else u.display.mesh = some (bytesWords bs))) ∧
    (∀ n, s.mp.late[n]? = none → exec (.lateStepComplete n) s = .next s) ∧
    (∀ n x, s.mp.late[n]? = some x → ∃ t, exec (.lateStepComplete n) s = .next t ∧
      (t.mp.late = s.mp.late.eraseIdx n ∨ (x = .split ∨ ∃ p c va pa k y, x = .migrate p c va pa k y) ∧ t.mp.late = s.mp.late.eraseIdx n ++ [x]) ∧
      (∀ p keep, x = .reset p keep → p < 8 → (t.part p).state = (if (s.part p).layout.valid then .idle else .absent) ∧ ∀ c ∈ t.ctxs, c.part ≠ p) ∧
      (∀ y, x = .split → s.mp.split = some y → (y.stage = 1 → t.mp.split = some { y with stage := 2 } ∧ x ∈ t.mp.late) ∧
        (y.stage = 2 → t.mp.split = some { y with stage := 3 } ∧ x ∈ t.mp.late) ∧
        (3 ≤ y.stage → t.mp.split = none ∧ ∀ n ∈ y.names, n.1 < 8 → (t.part n.1).sstate = 0)) ∧
      (∀ c perm, x = .quarantine [c] perm → c < s.health.length → (t.healthOf c).state = (if perm then 2 else 1) ∧ (t.healthOf c).qby = 2) ∧
      ∀ c va len start, x = .rangeWb c va len start → s.writes = [] → { t with mp := s.mp, dirty := s.dirty, met := s.met } = s)

/-! ### Decoding, issue and steps -/

/-- R117 to R132: in a kernel of any number of registers, the word of a well-formed instruction decodes to that instruction, with
every operand at every value that its encoding admits. -/
def Obligations.DecodeEncode : Prop :=
  ∀ (n : Nat) (i : Instr) (w : W96), WellFormed n i = true → encode i = some w → decode n w = .ok i

/-- R17, R117 to R132: a word that decodes is the word of the instruction it decodes to, which is well-formed, and so no two words
are one instruction; a word that does not decode has a code of R130. -/
def Obligations.EncodeDecode : Prop :=
  ∀ (n : Nat) (w : W96),
    (∀ i, decode n w = .ok i → WellFormed n i = true ∧ encode i = some w) ∧
    (∀ c, decode n w = .error c → 1 ≤ c ∧ c ≤ 10) ∧
    (Machine.rowOf (wordOpc w) = none ↔ decode n w = .error 1)

/-- R131, R156, R190, R219, R243, R117: the words that the manual's examples give decode to the instructions that they stand for. -/
def Obligations.DecodeSamples : Prop :=
  let plain : Guard := ⟨0, 0, false⟩
  decode 16 0x1801200007FFE80810180000 =
    .ok (.iadd ⟨0, ⟨false, 12⟩, .reg 4 .right false false, .imm 0x7FFD, .unused, ⟨9, 0, false⟩, true, 1, false⟩) ∧
  decode 256 0x0000080234032000100C2845 =
    .ok (.icmp ⟨0x0A, ⟨false, 6⟩, .reg 4 .own false false, .imm 100, .imm 0x23, plain, false, 0, false⟩) ∧
  decode 256 0x0800000004008000100E0D40 =
    .ok (.shfl ⟨3, ⟨false, 7⟩, .reg 4 .own false false, .imm 16, .unused, plain, true, 0, false⟩) ∧
  decode 256 0x0000000000003800120800C4 =
    .ok (.ftsum ⟨0, ⟨true, 4⟩, .reg 4 .own false false, .reg 7 .own false false, .unused, plain, false, 0, false⟩) ∧
  decode 256 0x080008206400800010113180 =
    .ok (.ld ⟨0x4C, ⟨false, 8⟩, .reg 4 .own false false, .imm 16, .imm 0x206, plain, true, 0, false⟩) ∧
  decode 256 0x0000080094032000301215C0 =
    .ok (.atom ⟨0x05, ⟨false, 9⟩, .reg 12 .own false false, .imm 100, .imm 9, plain, false, 0, false⟩) ∧
  decode 256 0x000008041800180028000685 =
    .ok (.mlk ⟨1, ⟨false, 0⟩, .reg 10 .own false false, .pool 3, .imm 0x41, plain, false, 0, false⟩) ∧
  decode 256 0x0000000000000000000003FF = .error 1

/-- R20, R21, R22: a choice of a quadrant takes a wave of it that has eligible threads, and of that wave an issue set: the
eligible lanes at one PC, which at least one of them has; no eligible group of the wave is larger unless some thread's starvation
count is 64 or more, and then a thread of the issue set has such a count. A lane outside the issue set that was eligible has
starved once more, every other lane's count is zero, and no other wave's threads and nothing in memory have changed. -/
def Obligations.IssueChoice : Prop :=
  ∀ (s : State) (core quad : Nat) (ic : IssueCtx), (s.choose core quad).cur = some ic →
    ∃ w, w ∈ s.waves ∧ w.core = core ∧ w.quad = quad ∧ ic.core = core ∧ ic.wslot = w.wslot ∧ w.stopped = false ∧ ic.amask = w.group ic.pc ∧
      ic.amask ≠ 0 ∧ (∀ i, i < 32 → (ic.amask.getLsbD i = true ↔
        ∃ x, w.live? i = some x ∧ x.wait = .ready ∧ w.isHeld i = false ∧ x.pc = ic.pc)) ∧
      ((∀ i x, w.live? i = some x → w.eligible.getLsbD i = true → x.starve < 64) →
        ∀ pc, (lanesOf (w.group pc)).length ≤ (lanesOf ic.amask).length) ∧
      ((∃ i x, w.live? i = some x ∧ w.eligible.getLsbD i = true ∧ 64 ≤ x.starve) →
        ∃ i x, w.live? i = some x ∧ ic.amask.getLsbD i = true ∧ 64 ≤ x.starve) ∧
      (s.wave? core w.wslot = some w → ∃ w', (s.choose core quad).wave? core w.wslot = some w' ∧ ∀ i x, i < 32 → w.live? i = some x →
        w'.live? i = some { x with starve := if w.eligible.getLsbD i && !ic.amask.getLsbD i then x.starve + 1 else 0 }) ∧
      (∀ c j, c ≠ core ∨ j ≠ w.wslot → ((s.choose core quad).wave? c j).map (·.slots) = (s.wave? c j).map (·.slots)) ∧
      (s.choose core quad).mem = s.mem

/-- R21, R23, R404, R115, R130: a step whose act is an issue takes the choice of its quadrant, fetches the twelve bytes at the issue
set's PC, and, where they decode, executes that instruction for the issue set, after which waits that are over end; a PC that is not
a multiple of 4 and a word that is no instruction end the context. (Bytes that have changed may be fetched as they were before.) A step whose act is a device step executes that. (The agenda that
names a step's act is the model's own: log entry 32.) -/
def Obligations.StepRunsDecoded : Prop :=
  (∀ (s : State) (core quad : Nat) (rest : List Act), s.agenda = .issue core quad :: rest →
    let u := ({ s with agenda := rest, free := s.free + 1, cur := none } : State).choose core quad
    (u.view? = none → step s = .next u.settle) ∧
    ∀ (v : View) (ps : List Piece) (i : Instr), u.view? = some v → v.ic.pc.toNat % 4 = 0 → v.fetchPieces = .ok ps →
      (u.past = [] → (∀ p ∈ ps, p.pa + p.len ≤ u.usable) → v.fetchBytes ps = ps.flatMap fun p => u.mem.readRun p.pa p.len) ∧
      (decode v.w.nregs (bytesWord (v.fetchBytes ps)) = .ok i → step s = settled (exec i (v.cachePieces u ps))) ∧
      ∀ c x, decode v.w.nregs (bytesWord (v.fetchBytes ps)) = .error c → u.ctx? v.ctx = some x → x.ended = false →
        ∃ (z : State), step s = .next z.settle ∧ z.ctx? v.ctx = some { x with ended := true }) ∧
  (∀ (s : State) (core quad : Nat) (rest : List Act) (v : View) (x : Context), s.agenda = .issue core quad :: rest →
    let u := ({ s with agenda := rest, free := s.free + 1, cur := none } : State).choose core quad
    u.view? = some v → v.ic.pc.toNat % 4 ≠ 0 → u.ctx? v.ctx = some x → x.ended = false →
      ∃ (z : State), step s = .next z.settle ∧ z.ctx? v.ctx = some { x with ended := true }) ∧
  (∀ (s : State) (i : Instr) (rest : List Act), s.agenda = .event i :: rest →
    step s = settled (exec i { s with agenda := rest, free := s.free + 1, cur := none }))

/-- R11, R38, R341, R345, R360, R412, R428, R433, R447, R463, R464, R474: what the registers of BAR 0 read right after reset. -/
def Obligations.ResetRegisters : Prop :=
  let r (off : Nat) : W32 := State.reset.barWord .pf off
  r 0x000 = 0x5BE00D96 ∧ r 0x004 = 1 ∧ (∀ off ∈ [0x008, 0x010, 0x014], r off = 0) ∧ r 0x020 = 0xF ∧
  (∀ k, k < 7 → r (0x10000 + 4 * k) = 0) ∧
  (∀ o, o < 9 → (∀ k, k < 14 → r (0x0100A000 + 0x40 * o + 4 * k) = 0) ∧ r (0x1004 + 0x1000 * o) = 0 ∧ r (0x1008 + 0x1000 * o) = 0 ∧
    r (0x100C + 0x1000 * o) = 0) ∧
  (∀ p, p < 8 → (∀ k, k < 7 → r (0x0100C000 + 0x100 * p + 4 * k) = 0) ∧ r (0x0100E000 + 8 * p) = 0 ∧ r (0x0100E004 + 8 * p) = 0 ∧
    ∀ k, k < 4 → r (0x01008000 + 0x100 * p + 4 * k) = 0) ∧
  (∀ k, k < 6 → ∀ j, j < 7 → r (0x01010000 + 0x1000 * k + 4 * j) = 0) ∧
  r 0x01018000 = BitVec.ofNat 32 (1 + 65536 * 45) ∧ r 0x01018004 = 0x7F ∧ r 0x01018008 = 0 ∧
  (∀ q, q < 4096 → r (0x01000000 + 8 * q) = 0xF) ∧ (∀ c, c < 96 → ∀ j, j < 4 → r (0x01018100 + 16 * c + 4 * j) = 0) ∧
  (∀ p, (State.reset.part p).layout.valid = false) ∧ State.reset.ctxs = [] ∧ Memory.wf State.reset.mem = true

/-- R9, R90: every step keeps the memory in its canonical form, so that memories that read alike are equal data. (The form is the
model's own; its invariant is stated for every state.) -/
def Obligations.MemoryStaysCanonical : Prop :=
  ∀ s t : State, Memory.wf s.mem = true → step s = .next t → Memory.wf t.mem = true

/-! ### Storage errors and messages from outside -/

/-- R230, R338, R340, R361, R362, R368, R465, R471: a step whose act is a storage error does what the error does: one that is corrected, or met in a clean line of
the shared cache, is counted and changes nothing else; an uncorrectable word of a core's storage kills the blocks whose state holds
it, moves the core to the front of the rotation and is counted; an entry of a table register leaves that register empty; and a word
of an image ends the context whose state it is; a line of memory that has gone bad is bad until it is read; and the host's choice of
how many virtual functions there are, of the size of BAR 4, its poisoned writes, the end of a rewrite of the offset table, of a swap, and
what the paired device takes, are acts too. (That all these are acts of the agenda is the model's own: log entries 32, 127 and 128.)
A step whose act is a message from the paired device queues it with SREM set, where its context accepts such messages and the hardware
queue has room, and discards it where it does not accept them. -/
def Obligations.OutsideInputs : Prop :=
  (∀ (s : State) (u : Upset) (rest : List Act), s.agenda = .upset u :: rest →
    step s = .next (({ s with agenda := rest, free := s.free + 1, cur := none } : State).upset u).settle) ∧
  (∀ (s : State) (words payload : List W32) (rest : List Act), s.agenda = .peerMessage words payload :: rest →
    step s = .next (({ s with agenda := rest, free := s.free + 1, cur := none } : State).peerMessage words payload).settle) ∧
  (∀ (s : State), s.upset (.corrected 0) = { s with telem := { s.telem with cacheCorr := satInc s.telem.cacheCorr } } ∧
    s.upset (.corrected 1) = { s with telem := { s.telem with memCorr := satInc s.telem.memCorr } } ∧
    s.upset (.corrected 2) = { s with telem := { s.telem with coreCorr := satInc s.telem.coreCorr } } ∧
    s.upset .cleanLine = { s with telem := { s.telem with cacheClean := satInc s.telem.cacheClean } }) ∧
  (∀ (s : State) (line : Nat), line ∉ s.storage.badMem →
    s.upset (.memoryLine line) = { s with storage := { s.storage with badMem := line :: s.storage.badMem, wild := line :: s.storage.wild } }) ∧
  (∀ (s : State) (a : Act) (rest : List Act), s.agenda = a :: rest →
    let u : State := { s with agenda := rest, free := s.free + 1, cur := none }
    (∀ n, a = .setVfs n → step s = .next (State.settle (if n ≤ 8 then { u with boot := { u.boot with numVfs := n } } else u))) ∧
    (∀ b, a = .setBar4 b → step s = .next (State.settle (if 28 ≤ b ∧ b ≤ 38 then { u with boot := { u.boot with bar4 := b } } else u))) ∧
    (∀ fn off bs, a = .poisonedWrite fn off bs → step s = .next u.settle) ∧
    (a = .offsetsDone → step s = .next (State.settle (if u.boot.offgen.getLsbD 0
      then { u with boot := { u.boot with offgen := u.boot.offgen + 1, offOld := [] } } else u))) ∧
    (∀ p, a = .swapped p → step s = .next (u.endSwap p).settle ∧
      (p < s.parts.length → (s.part p).state = .swapping → s.spilled p = true → ((u.endSwap p).part p).state = .out) ∧
      (p < s.parts.length → (s.part p).state = .swappingIn → ((u.endSwap p).part p).state = .running)) ∧
    ∀ ok, a = .peerTakes ok → ∃ t : State, step s = .next t.settle ∧ t.gulnos = { s.gulnos with out := s.gulnos.out.tail } ∧
      ((ok = true ∨ ∀ l w, s.gulnos.out.head? ≠ some (.message l w)) → { t with gulnos := u.gulnos } = u)) ∧
  (∀ (s : State) (core place b : Nat) (x : Block), core < 96 → place < 5 → s.block? b = some x → x.core = core → x.ended = false →
    let t := s.upset (.coreWord core place [b])
    Claims.BlockGone s b t ∧ core ∈ t.ringlet.fronts ∧ t.telem.coreUncorr = satInc s.telem.coreUncorr) ∧
  (∀ (s : State) (core reg : Nat), ∀ e ∈ ((s.upset (.tableEntry core reg)).core core).tables, e.1 ≠ reg) ∧
  (∀ (s : State) (n c : Nat) (i : Image) (x : Context), s.images[n]? = some i → i.shadow = true → s.imageOf i c = true →
    s.ctx? c = some x → x.ended = false → (s.upset (.imageWord n c)).ctx? c = some { x with ended := true }) ∧
  (∀ (s : State) (words payload : List W32) (x : Context), s.ctx? (bitsAt words 64 12) = some x →
    (x.ended = false → s.gulnos.paired = true → s.gulnos.lup ≠ 0 → x.msg.any (·.remote) = true → Claims.roomFor s x.part 1 1 →
      s.peerMessage words payload = { s with parts := updateAt s.parts x.part fun p =>
        { p with work := p.work ++ [.msg (bitsAt words 64 12) (words.set 3 (wordAt words 3 ||| 0x10)) payload s.now false] } }) ∧
    (x.msg.any (·.remote) = false → s.peerMessage words payload = s))
end

