-- ==== Sys2Proof/Laws/Memory.lean ====
section
/-! SUPPORT. The byte store and the accesses at a line's home: read after write, what a write leaves alone, and that the
canonical form is kept. -/
namespace Sys2Proof.Machine

/-! ### One byte -/

/-- The canonical form of a memory that lists a byte. -/
theorem Cells.wfFrom_cons {lo k : Nat} {u : Byte} {r : Cells} :
    Cells.wfFrom lo ((k, u) :: r) = true ↔ lo ≤ k ∧ u ≠ Memory.blank ∧ Cells.wfFrom (k + 1) r = true := by
  simp [Cells.wfFrom, and_assoc]

theorem Cells.wfFrom_mono {lo lo' : Nat} (h : lo' ≤ lo) : ∀ {m : Cells}, Cells.wfFrom lo m = true → Cells.wfFrom lo' m = true
  | [], _ => rfl
  | (_, _) :: _, hm =>
    have ⟨hk, rest⟩ := Cells.wfFrom_cons.1 hm
    Cells.wfFrom_cons.2 ⟨Nat.le_trans h hk, rest⟩

theorem Cells.wfFrom_clear (a : Nat) : ∀ {m : Cells} {lo : Nat}, Cells.wfFrom lo m = true → Cells.wfFrom lo (m.clear a) = true
  | [], _, hm => hm
  | (k, u) :: r, lo, hm => by
    have ⟨hk, hu, hr⟩ := Cells.wfFrom_cons.1 hm
    have kept : Cells.wfFrom (k + 1) (Cells.clear r a) = true := Cells.wfFrom_clear a hr
    rw [Cells.clear]
    split
    · exact Cells.wfFrom_mono (Nat.le_succ_of_le hk) kept
    · exact Cells.wfFrom_cons.2 ⟨hk, hu, kept⟩

/-- With every address at least `lo`, the address `lo` cleared leaves addresses above it. -/
theorem Cells.wfFrom_clear_least {a : Nat} : ∀ {m : Cells} {lo : Nat}, Cells.wfFrom lo m = true → a ≤ lo →
    Cells.wfFrom (a + 1) (m.clear a) = true
  | [], _, _, _ => rfl
  | (k, u) :: r, lo, hm, ha => by
    have ⟨hk, hu, hr⟩ := Cells.wfFrom_cons.1 hm
    rw [Cells.clear]
    split
    · exact Cells.wfFrom_clear_least hr (by omega)
    · exact Cells.wfFrom_cons.2 ⟨by omega, hu, Cells.wfFrom_clear a hr⟩

/-- An entry of a byte, before a memory above it. -/
theorem Cells.wfFrom_entry {lo a : Nat} {m : Cells} (v : Byte) (ha : lo ≤ a) (hlo : Cells.wfFrom lo m = true)
    (hm : Cells.wfFrom (a + 1) m = true) : Cells.wfFrom lo (Cells.entry a v ++ m) = true := by
  unfold Cells.entry
  split
  · exact hlo
  · exact Cells.wfFrom_cons.2 ⟨ha, ‹_›, hm⟩

theorem Cells.wfFrom_write (a : Nat) (v : Byte) : ∀ {m : Cells} {lo : Nat}, Cells.wfFrom lo m = true → lo ≤ a →
    Cells.wfFrom lo (m.write a v) = true
  | [], _, _, ha => by
    rw [Cells.write, ← List.append_nil (Cells.entry a v)]
    exact Cells.wfFrom_entry v ha rfl rfl
  | (k, u) :: r, lo, hm, ha => by
    have ⟨hk, hu, hr⟩ := Cells.wfFrom_cons.1 hm
    rw [Cells.write]
    split
    · exact Cells.wfFrom_cons.2 ⟨hk, hu, Cells.wfFrom_write a v hr (by omega)⟩
    · exact Cells.wfFrom_entry v ha (Cells.wfFrom_clear a hm)
        (Cells.wfFrom_clear_least (Cells.wfFrom_cons.2 ⟨by omega, hu, hr⟩) (Nat.le_refl a))

/-- A write keeps the canonical form. -/
theorem Memory.wf_write {m : Cells} (h : Memory.wf m = true) (a : Nat) (v : Byte) : Memory.wf (m.write a v) = true :=
  Cells.wfFrom_write a v h (Nat.zero_le _)

theorem Cells.read_clear (a b : Nat) : ∀ m : Cells, (m.clear a).read b = if b = a then Memory.blank else m.read b
  | [] => (ite_self _).symm
  | (k, u) :: r => by
    have rest := Cells.read_clear a b r
    rw [Cells.clear]
    split
    · subst k
      rw [rest, Cells.read]
      split <;> rfl
    · rw [Cells.read, Cells.read, rest]
      split
      · rw [if_neg (by omega)]
      · rfl

/-- Reading past the entry of a byte. -/
theorem Cells.read_entry (a b : Nat) (v : Byte) (m : Cells) :
    (Cells.entry a v ++ m).read b = if b = a ∧ v ≠ Memory.blank then v else m.read b := by
  unfold Cells.entry
  split
  · simp [*]
  · simp [*, Cells.read]

/-- Read after write. -/
theorem Cells.read_write (a b : Nat) (v : Byte) : ∀ m : Cells, (m.write a v).read b = if b = a then v else m.read b
  | [] => by
    rw [Cells.write, ← List.append_nil (Cells.entry a v), Cells.read_entry]
    by_cases hv : v = Memory.blank <;> simp [hv, Cells.read]
  | (k, u) :: r => by
    rw [Cells.write]
    split
    · rw [Cells.read, Cells.read_write a b v r, Cells.read]
      split
      · rw [if_neg (by omega)]
      · rfl
    · rw [Cells.read_entry, Cells.read_clear]
      by_cases hb : b = a <;> by_cases hv : v = Memory.blank <;> simp [hb, hv]

/-! ### Runs of bytes -/

theorem Memory.wf_writeRun : ∀ (bs : List Byte) {m : Cells} (a : Nat), Memory.wf m = true → Memory.wf (m.writeRun a bs) = true
  | [], _, _, h => h
  | b :: bs, _, a, h => Memory.wf_writeRun bs (a + 1) (Memory.wf_write h a b)

/-- Reading after a run is written: the run's bytes, and every other byte as it was. -/
theorem Cells.read_writeRun : ∀ (bs : List Byte) (m : Cells) (a b : Nat),
    (m.writeRun a bs).read b = if a ≤ b ∧ b < a + bs.length then bs.getD (b - a) 0 else m.read b
  | [], m, a, b => (if_neg fun h => absurd h.2 (Nat.not_lt.2 h.1)).symm
  | x :: xs, m, a, b => by
    rw [Cells.writeRun, Cells.read_writeRun xs, Cells.read_write, List.length_cons]
    by_cases first : b = a
    · subst first
      rw [if_neg (by omega), if_pos rfl, if_pos (by omega), Nat.sub_self, List.getD_cons_zero]
    · rw [if_neg first]
      by_cases later : a + 1 ≤ b ∧ b < a + 1 + xs.length
      · rw [if_pos later, if_pos (by omega), show b - a = b - (a + 1) + 1 by omega, List.getD_cons_succ]
      · rw [if_neg later, if_neg (by omega)]

theorem Cells.length_readRun (m : Cells) : ∀ (n a : Nat), (m.readRun a n).length = n
  | 0, _ => rfl
  | n + 1, a => congrArg Nat.succ (Cells.length_readRun m n (a + 1))

theorem Cells.getD_readRun (m : Cells) (d : Byte) : ∀ (n a k : Nat), k < n → (m.readRun a n).getD k d = m.read (a + k)
  | _ + 1, _, 0, _ => rfl
  | n + 1, a, k + 1, h => by
    rw [Cells.readRun, List.getD_cons_succ, Cells.getD_readRun m d n (a + 1) k (by omega), show a + 1 + k = a + (k + 1) by omega]

theorem Cells.readRun_congr {m m' : Cells} : ∀ (n a : Nat), (∀ b, a ≤ b → b < a + n → m.read b = m'.read b) →
    m.readRun a n = m'.readRun a n
  | 0, _, _ => rfl
  | n + 1, a, h => by
    rw [Cells.readRun, h a (Nat.le_refl a) (by omega), Cells.readRun_congr n (a + 1) fun b h1 h2 => h b (by omega) (by omega)]
    rfl

end Sys2Proof.Machine
end

