-- ==== Sys2Proof/Laws/Home.lean ====
section
/-! SUPPORT. Which bytes of memory the operations at a line's home, the delivery lanes and the paths of a core's writes can
change, and that they keep memory's canonical form. -/
namespace Sys2Proof.Machine
open Claims

/-! ### Along a list -/

/-- A relation of states that holds of nothing done, and of two steps one after the other, holds along a list. -/
theorem along {α : Type} {R : State → State → Prop} (none : ∀ s, R s s) (both : ∀ s t u, R s t → R t u → R s u) {f : State → α → State} :
    ∀ (l : List α) (s : State), (∀ x ∈ l, ∀ s, R s (f s x)) → R s (l.foldl f s)
  | [], s, _ => none s
  | x :: l, s, h => both s (f s x) _ (h x (.head l) s) (along none both l (f s x) fun y hy => h y (.tail x hy))

/-! ### Accesses in general -/

/-- `Accessed`, with the canonical form kept. -/
structure Reached (s t : State) (A : Nat → Prop) : Prop extends Accessed s t A where
  wf : Memory.wf s.mem = true → Memory.wf t.mem = true

/-- The fields that an access to memory may change, as those of another state. -/
def State.asIn (s t : State) : State :=
  { t with waves := s.waves, results := s.results, mem := s.mem, past := s.past, dirty := s.dirty, homes := s.homes
           met := s.met, writes := s.writes, l1 := s.l1, tlb := s.tlb, cores := s.cores, gulnos := s.gulnos
           owners := s.owners, vectors := s.vectors }

theorem Reached.refl (s : State) (A : Nat → Prop) : Reached s s A := ⟨⟨rfl, fun _ => rfl, rfl, fun _ _ => rfl⟩, id⟩

theorem Reached.trans {s t u : State} {A : Nat → Prop} (h1 : Reached s t A) (h2 : Reached t u A) : Reached s u A where
  rest := (congrArg s.asIn h2.rest).trans h1.rest
  cores := fun c => (h2.cores c).trans (h1.cores c)
  bases := h2.bases.trans h1.bases
  mem := fun a ha => (h2.mem a ha).trans (h1.mem a ha)
  wf := fun h => h2.wf (h1.wf h)

theorem Reached.mono {s t : State} {A B : Nat → Prop} (h : Reached s t A) (hAB : ∀ a, A a → B a) : Reached s t B :=
  { h with mem := fun a ha => h.mem a fun hA => ha (hAB a hA) }

/-- A change of the fields that say nothing of memory's bytes, of the cores, nor of where the lanes lie. -/
theorem Reached.of {s t : State} (A : Nat → Prop) (rest : s.asIn t = s) (cores : t.cores = s.cores) (owners : t.owners = s.owners)
    (mem : t.mem = s.mem) : Reached s t A :=
  ⟨⟨rest, fun c => by unfold State.core; rw [cores], by rw [owners], fun a _ => by rw [mem]⟩, fun h => by rw [mem]; exact h⟩

/-- A list of such steps. -/
theorem Reached.along {α : Type} {A : Nat → Prop} {f : State → α → State} (l : List α) (s : State)
    (h : ∀ x ∈ l, ∀ s, Reached s (f s x) A) : Reached s (l.foldl f s) A :=
  Machine.along (R := fun s t => Reached s t A) (Reached.refl · A) (fun _ _ _ => Reached.trans) l s h

theorem Reached.parts {s t : State} {A : Nat → Prop} (h : Reached s t A) : t.parts = s.parts := by
  have e := congrArg State.parts h.rest
  exact e

theorem Reached.boot {s t : State} {A : Nat → Prop} (h : Reached s t A) : t.boot = s.boot := by
  have e := congrArg State.boot h.rest
  exact e

theorem Reached.ctxs {s t : State} {A : Nat → Prop} (h : Reached s t A) : t.ctxs = s.ctxs := by
  have e := congrArg State.ctxs h.rest
  exact e

/-! ### Writes at home -/

/-- The bytes `pa` to `pa + n`. -/
def run (pa n : Nat) (a : Nat) : Prop := pa ≤ a ∧ a < pa + n

theorem State.noteMet_reached (s : State) (m : MetLine) (A : Nat → Prop) : Reached s (s.noteMet m) A := by
  unfold State.noteMet
  split
  · exact Reached.refl s A
  · exact Reached.of A rfl rfl rfl rfl

theorem State.meetClean_reached (s : State) (lines : List Nat) (A : Nat → Prop) : Reached s (s.meetClean lines) A :=
  Reached.along _ s fun _ _ s => s.noteMet_reached _ A

theorem State.meetAt_reached (s : State) (slice pa : Nat) (A : Nat → Prop) : Reached s (s.meetAt slice pa) A := by
  unfold State.meetAt
  dsimp only
  split
  · exact (s.meetClean_reached _ A).trans (Reached.along _ _ fun _ _ s => s.noteMet_reached _ A)
  · exact s.meetClean_reached _ A

theorem State.touchLine_reached (s : State) (tag slice pa : Nat) (old : List Byte) (A : Nat → Prop) :
    Reached s (s.touchLine tag slice pa old) A := by
  unfold State.touchLine
  split
  · exact Reached.of A rfl rfl rfl rfl
  · dsimp only
    split
    · exact s.meetAt_reached slice pa A
    · exact (s.meetAt_reached slice pa A).trans (Reached.of A rfl rfl rfl rfl)

theorem State.writeAt_reached (s : State) (tag slice pa : Nat) (bs : List Byte) : Reached s (s.writeAt tag slice pa bs) (run pa bs.length) := by
  unfold State.writeAt
  split
  · exact Reached.refl s _
  · refine Reached.trans (t := { s with mem := s.mem.writeRun pa bs, past := addPast s.free s.past pa (s.mem.readRun pa bs.length) bs
                                        homes := noteHome s.homes (pa / 128) slice }) ?_ (State.touchLine_reached _ _ _ _ _ _)
    refine ⟨⟨rfl, fun _ => rfl, rfl, fun a ha => ?_⟩, Memory.wf_writeRun bs pa⟩
    exact (Cells.read_writeRun bs s.mem pa a).trans (if_neg ha)

/-- The pieces of a run cut at lines lie within it. -/
theorem splitLines_within : ∀ (fuel pa : Nat) (bs : List Byte) (x : Nat × List Byte), x ∈ splitLines fuel pa bs →
    pa ≤ x.1 ∧ x.1 + x.2.length ≤ pa + bs.length
  | _, _, [], _, hx => by simp [splitLines] at hx
  | 0, _, _ :: _, _, hx => by simp [splitLines] at hx
  | n + 1, pa, b :: bs, x, hx => by
    rcases List.mem_cons.1 hx with e | hx
    · subst e; exact ⟨Nat.le_refl pa, Nat.add_le_add_left (List.length_take_le' ..) pa⟩
    · have hlen := List.length_drop (i := 128 - pa % 128) (l := b :: bs)
      have hin := splitLines_within n _ _ _ hx
      by_cases h : 128 - pa % 128 ≤ (b :: bs).length
      · exact ⟨by omega, by omega⟩
      · rw [List.drop_eq_nil_of_le (by omega)] at hx
        cases n <;> simp [splitLines] at hx

theorem State.homeWrite_reached (s : State) (tag : Nat) (dom : Nat × Nat) (tgeo : BitVec 7) (pa : Nat) (bs : List Byte) :
    Reached s (s.homeWrite tag dom tgeo pa bs) (run pa bs.length) :=
  Reached.along _ s fun x hx s => (s.writeAt_reached tag _ x.1 x.2).mono fun a ha => by
    have := splitLines_within _ _ _ _ hx
    exact ⟨by have := ha.1; omega, by have := ha.2; omega⟩

theorem State.writeBack_reached (s : State) (p : DirtyLine → Bool) (A : Nat → Prop) : Reached s (s.writeBack p) A :=
  Reached.trans (t := { s with dirty := s.dirty.filter fun d => !p d || s.lineBad d }) (Reached.of A rfl rfl rfl rfl)
    (Reached.along _ _ fun _ _ s => s.noteMet_reached _ A)

/-! ### The delivery lanes -/

theorem natBytes_length : ∀ n x : Nat, (natBytes n x).length = n
  | 0, _ => rfl
  | n + 1, x => congrArg (· + 1) (natBytes_length n (x / 256))

theorem wordsBytes_length : ∀ ws : List W32, (wordsBytes ws).length = 4 * ws.length
  | [] => rfl
  | w :: ws => by
    show (natBytes 4 w.toNat ++ wordsBytes ws).length = 4 * (ws.length + 1)
    rw [List.length_append, natBytes_length, wordsBytes_length ws]
    omega

theorem State.ringWrite_reached (s : State) (o : Nat) (base : W64) (low size : Nat) (n : W32) (ws : LaneRec) (hs : 0 < size)
    (hw : ws.length ≤ 16) : Reached s (s.ringWrite o base low size n ws) (inRing base low size) :=
  (s.homeWrite_reached _ _ _ _ _).mono fun a ha => by
    have h2 := ha.2
    rw [wordsBytes_length] at h2
    exact ⟨n.toNat % size, Nat.mod_lt _ hs, ha.1, Nat.lt_of_lt_of_le h2 (by omega)⟩

/-- The bases of the owners' lanes do not depend on a change of one owner that keeps its own. -/
theorem bases_modify {f : Owner → Owner} (hf : ∀ w, (f w).fbase = w.fbase ∧ (f w).rbase = w.rbase) : ∀ (l : List Owner) (k : Nat),
    (l.modify k f).map (fun o => (o.fbase, o.rbase)) = l.map fun o => (o.fbase, o.rbase)
  | [], k => by cases k <;> rfl
  | w :: l, 0 => by rw [List.modify_zero_cons, List.map_cons, (hf w).1, (hf w).2]; rfl
  | w :: l, k + 1 => by rw [List.modify_succ_cons, List.map_cons, bases_modify hf l k]; rfl

theorem State.setOwner_reached (s : State) (o : Nat) (f : Owner → Owner) (A : Nat → Prop)
    (hf : ∀ w, (f w).fbase = w.fbase ∧ (f w).rbase = w.rbase) : Reached s (s.setOwner o f) A :=
  ⟨⟨rfl, fun _ => rfl, bases_modify hf _ _, fun _ _ => rfl⟩, id⟩

theorem State.raiseLane_reached (s : State) (o : Nat) (fatal named : Bool) (A : Nat → Prop) : Reached s (s.raiseLane o fatal named) A := by
  unfold State.raiseLane
  split <;> exact Reached.of A rfl rfl rfl rfl

/-- An owner that takes a record changes, and its vector is raised. -/
theorem Reached.raised {s t : State} {o : Nat} {fatal named : Bool} {f : Owner → Owner} {A : Nat → Prop} (h : Reached s t A)
    (hf : ∀ w, (f w).fbase = w.fbase ∧ (f w).rbase = w.rbase) : Reached s ((t.setOwner o f).raiseLane o fatal named) A :=
  (h.trans (t.setOwner_reached o f A hf)).trans (State.raiseLane_reached _ o fatal named A)

/-- What owners with the same bases have at a place. -/
theorem bases_at {l l' : List Owner} (h : l'.map (fun o => (o.fbase, o.rbase)) = l.map fun o => (o.fbase, o.rbase)) (k : Nat) :
    ((l'.getD k .reset).fbase, (l'.getD k .reset).rbase) = ((l.getD k .reset).fbase, (l.getD k .reset).rbase) := by
  have e (l : List Owner) : ((l.getD k .reset).fbase, (l.getD k .reset).rbase) =
      (l.map fun o => (o.fbase, o.rbase)).getD k (Owner.reset.fbase, Owner.reset.rbase) := by
    rw [List.getD_eq_getElem?_getD, List.getD_eq_getElem?_getD, List.getElem?_map]
    cases l[k]? <;> rfl
  rw [e, e, h]

theorem Reached.lanes {s t : State} {A : Nat → Prop} (h : Reached s t A) (a : Nat) : inLanes t a ↔ inLanes s a :=
  exists_congr fun o => by
    have e : ((t.owner o).fbase, (t.owner o).rbase) = ((s.owner o).fbase, (s.owner o).rbase) := bases_at h.bases o
    rw [(Prod.mk.inj e).1, (Prod.mk.inj e).2]

/-- A step that changes memory within `B` and the delivery lanes, wherever those lie. -/
def Lands (B : Nat → Prop) (s t : State) : Prop := Reached s t fun a => B a ∨ inLanes s a

theorem Lands.refl (B : Nat → Prop) (s : State) : Lands B s s := Reached.refl s _

theorem Lands.trans {B : Nat → Prop} {s t u : State} (h1 : Lands B s t) (h2 : Lands B t u) : Lands B s u :=
  Reached.trans h1 (Reached.mono h2 fun a => Or.imp_right (h1.lanes a).1)

theorem Lands.of {B : Nat → Prop} {s t : State} (h : Reached s t B) : Lands B s t := h.mono fun _ => .inl

theorem Lands.toLanes {s t : State} (h : Lands (fun _ => False) s t) : Reached s t (inLanes s) := h.mono fun _ => Or.rec False.elim id

theorem Reached.toLands {B : Nat → Prop} {s t : State} (h : Reached s t (inLanes s)) : Lands B s t := h.mono fun _ => .inr

theorem Rec.words_length (r : Rec) (b : Bool) (q : W32) (x : W64) : (r.words b q x).length = 16 := rfl

theorem State.fatalSlot_reached (s : State) (o : Nat) (n : W32) (ws : LaneRec) (hw : ws.length ≤ 16) :
    Reached s (s.ringWrite o (s.owner o).fbase 14 256 n ws) (inLanes s) :=
  (State.ringWrite_reached s o _ 14 256 n ws (by decide) hw).mono fun _ ha => ⟨o, .inl ha⟩

theorem State.replaySlot_reached (s : State) (o : Nat) (n : W32) (ws : LaneRec) (hw : ws.length ≤ 16) :
    Reached s (s.ringWrite o (s.owner o).rbase 18 4096 n ws) (inLanes s) :=
  (State.ringWrite_reached s o _ 18 4096 n ws (by decide) hw).mono fun _ ha => ⟨o, .inr ha⟩

theorem State.postFatal_reached (s : State) (o : Nat) (r : Rec) : Reached s (s.postFatal o r) (inLanes s) := by
  unfold State.postFatal
  dsimp only
  have h1 := s.fatalSlot_reached o (s.owner o).fprod (r.words true (s.owner o).fseq (s.dieTime r.die)) (Nat.le_of_eq (r.words_length ..))
  generalize s.ringWrite o (s.owner o).fbase 14 256 (s.owner o).fprod (r.words true (s.owner o).fseq (s.dieTime r.die)) = t at h1 ⊢
  split
  · exact h1.raised fun _ => ⟨rfl, rfl⟩
  · split <;> exact s.setOwner_reached o _ _ fun _ => ⟨rfl, rfl⟩

theorem State.postHardware_reached (s : State) (r : Rec) : Reached s (s.postHardware r) (inLanes s) := by
  have two (p : Nat) (r : Rec) : Reached s ((s.postFatal 0 r).postFatal p r) (inLanes s) :=
    Lands.toLanes ((s.postFatal_reached 0 r).toLands.trans ((s.postFatal 0 r).postFatal_reached p r).toLands)
  unfold State.postHardware
  split
  · exact two _ _
  · exact s.postFatal_reached 0 r

theorem State.postReplay_reached (s : State) (o : Nat) (r : Rec) (q : Option Nat) : Reached s (s.postReplay o r q).1 (inLanes s) := by
  unfold State.postReplay
  dsimp only
  have h1 := s.replaySlot_reached o (s.owner o).rprod (r.words false (s.owner o).rseq (s.dieTime r.die)) (Nat.le_of_eq (r.words_length ..))
  generalize s.ringWrite o (s.owner o).rbase 18 4096 (s.owner o).rprod (r.words false (s.owner o).rseq (s.dieTime r.die)) = t at h1 ⊢
  exact h1.raised fun _ => ⟨rfl, rfl⟩

/-! ### Writes on their way -/

/-- The bytes of one write. -/
def PendWrite.bytes (w : PendWrite) : Nat → Prop := run w.addr w.data.length

theorem State.performWrite_lands (s : State) (w : PendWrite) : Lands w.bytes s (s.performWrite w) := by
  unfold State.performWrite
  split
  · split
    · exact Reached.of _ rfl rfl rfl rfl
    · exact (s.postHardware_reached _).toLands
  · dsimp only
    have h := (s.homeWrite_reached (w.agent.ctx.getD noTag) (s.domain (s.agentPart w.agent)) w.tgeo w.addr w.data).trans
      (u := { (s.homeWrite (w.agent.ctx.getD noTag) (s.domain (s.agentPart w.agent)) w.tgeo w.addr w.data) with
        past := w.pasts s.free (s.mem.readRun w.addr w.data.length) ++
          (s.homeWrite (w.agent.ctx.getD noTag) (s.domain (s.agentPart w.agent)) w.tgeo w.addr w.data).past }) (Reached.of _ rfl rfl rfl rfl)
    split
    · exact Lands.of (h.trans (State.writeBack_reached _ _ _))
    · exact Lands.of h

theorem State.flushWhere_reached (s : State) (p : PendWrite → Bool) :
    Reached s (s.flushWhere p) fun a => onItsWay s a ∨ inLanes s a := by
  refine Lands.trans (t := { s with writes := s.writes.filter fun w => !(p w) || s.writeBlocked w }) (Reached.of _ rfl rfl rfl rfl)
    (along (R := Lands (onItsWay s)) (Lands.refl _) (fun _ _ _ => Lands.trans) _ _ fun w hw s' => ?_)
  exact (s'.performWrite_lands w).mono fun a => Or.imp_left fun ha => ⟨w, (List.mem_filter.1 hw).1, ha⟩

end Sys2Proof.Machine
end

