-- ==== Sys2Proof/Laws/Bits.lean ====
section
/-! SUPPORT. Masks bit by bit: what `bitsWhere` and `lanesOf` hold. -/
namespace Sys2Proof.Machine

/-- The sum behind `bitsWhere`. -/
def bitSum (p : Nat → Bool) (n : Nat) : Nat := (List.range n).foldl (fun s k => s + if p k then 2 ^ k else 0) 0

theorem bitSum_succ (p : Nat → Bool) (n : Nat) : bitSum p (n + 1) = 2 ^ n * (p n).toNat + bitSum p n := by
  simp only [bitSum, List.range_succ, List.foldl_append, List.foldl]
  cases p n <;> simp [Nat.add_comm]

theorem bitSum_lt (p : Nat → Bool) : ∀ n, bitSum p n < 2 ^ n
  | 0 => Nat.one_pos
  | n + 1 => by
    have below := bitSum_lt p n
    rw [bitSum_succ, Nat.pow_succ]
    cases p n <;> simp only [Bool.toNat_true, Bool.toNat_false] <;> omega

/-- The sum bit by bit. -/
theorem bitSum_testBit (p : Nat → Bool) : ∀ n i, (bitSum p n).testBit i = (decide (i < n) && p i)
  | 0, i => by simp [bitSum]
  | n + 1, i => by
    rw [bitSum_succ, Nat.testBit_two_pow_mul_add _ (bitSum_lt p n), bitSum_testBit p n i]
    by_cases below : i < n
    · simp [below, Nat.lt_succ_of_lt below]
    · rw [if_neg below, Nat.testBit_bool_toNat]
      by_cases last : i = n
      · subst last; simp
      · rw [decide_eq_false (show ¬ i - n = 0 by omega), decide_eq_false (show ¬ i < n + 1 by omega), Bool.false_and, Bool.false_and]

/-- A bit of `bitsWhere`. -/
@[simp] theorem bitsWhere_getLsbD (p : Nat → Bool) (i : Nat) : (bitsWhere p).getLsbD i = (decide (i < 32) && p i) := by
  unfold bitsWhere
  rw [BitVec.getLsbD_ofNat, ← bitSum, bitSum_testBit]
  by_cases h : i < 32 <;> simp [h]

/-- The lanes of a mask are its bits. -/
@[simp] theorem mem_lanesOf {m : Mask} {i : Nat} : i ∈ lanesOf m ↔ m.getLsbD i = true := by
  simp only [lanesOf, List.mem_filter, List.mem_range]
  exact ⟨fun h => h.2, fun h => ⟨BitVec.lt_of_getLsbD h, h⟩⟩

/-- `lanesOf` of no lanes. -/
@[simp] theorem lanesOf_zero : lanesOf 0 = [] := by decide

end Sys2Proof.Machine
end

