-- ==== Sys2Proof/Laws/Waves.lean ====
section
/-! SUPPORT. What changing the waves, and retiring an issue, leave: the laws of `mapWave`, `mapLanes`, `transfer` and `retire`. -/
namespace Sys2Proof.Machine

/-! ### Finding a wave after a change -/

/-- A change of a wave that keeps its place. -/
def Wave.Keeps (f : Wave → Wave) : Prop := ∀ w, (f w).core = w.core ∧ (f w).wslot = w.wslot

/-- Looking a key up in a list after the members of one key are changed, and keep it. -/
theorem find?_updateWhere {α κ : Type} [DecidableEq κ] (key : α → κ) {f : α → α} (hf : ∀ x, key (f x) = key x) (a b : κ)
    (l : List α) : (updateWhere (key · = a) f l).find? (key · = b) = (l.find? (key · = b)).map fun x => if b = a then f x else x := by
  have same : ((fun x => decide (key x = b)) ∘ fun x => if decide (key x = a) = true then f x else x) =
      fun x => decide (key x = b) := funext fun x => by
    dsimp only [Function.comp]
    split
    · rw [hf]
    · rfl
  rw [updateWhere, List.find?_map, same]
  cases e : l.find? fun x => decide (key x = b) with
  | none => rfl
  | some x => simp [of_decide_eq_true (List.find?_some (p := fun x => decide (key x = b)) e)]

/-- Where a wave stands. -/
def Wave.place (w : Wave) : Nat × Nat := (w.core, w.wslot)

theorem Wave.place_eq (c k : Nat) : (fun w : Wave => decide (w.core = c) && decide (w.wslot = k)) = fun w => decide (w.place = (c, k)) :=
  funext fun w => by simp [Wave.place]

/-- The wave at a place after the wave of a place is changed. -/
theorem State.wave?_mapWave {s : State} {f : Wave → Wave} (hf : Wave.Keeps f) (c k c' k' : Nat) :
    (s.mapWave c k f).wave? c' k' = (s.wave? c' k').map fun w => if (c', k') = (c, k) then f w else w := by
  unfold State.mapWave State.wave?
  rw [Wave.place_eq, Wave.place_eq]
  exact find?_updateWhere Wave.place (fun w => Prod.ext (hf w).1 (hf w).2) (c, k) (c', k') s.waves

theorem State.wave?_mapWave_same {s : State} {c k : Nat} {f : Wave → Wave} {w : Wave} (hf : Wave.Keeps f)
    (h : s.wave? c k = some w) : (s.mapWave c k f).wave? c k = some (f w) := by
  rw [State.wave?_mapWave hf, h, Option.map_some, if_pos rfl]

theorem State.wave?_mapWave_other {s : State} {c k c' k' : Nat} {f : Wave → Wave} (hf : Wave.Keeps f)
    (hne : c' ≠ c ∨ k' ≠ k) : (s.mapWave c k f).wave? c' k' = s.wave? c' k' := by
  have apart : ¬ (c', k') = (c, k) := fun e => by
    obtain ⟨rfl, rfl⟩ := Prod.mk.inj e
    exact hne.elim (· rfl) (· rfl)
  rw [State.wave?_mapWave hf]
  simp only [if_neg apart, Option.map_id']

/-- A wave found stands where it was looked for. -/
theorem State.wave?_place {s : State} {c k : Nat} {w : Wave} (h : s.wave? c k = some w) : w.core = c ∧ w.wslot = k := by
  have := List.find?_some h
  simpa using this

/-- The view of an issue: the state, the issue in progress and its wave. -/
theorem State.view?_spec {s : State} {v : View} (h : s.view? = some v) :
    v.s = s ∧ s.cur = some v.ic ∧ s.wave? v.ic.core v.ic.wslot = some v.w := by
  unfold State.view? at h
  split at h
  · cases h
  · rename_i ic hic
    split at h
    · cases h
    · rename_i w hw; cases h; exact ⟨rfl, hic, hw⟩

/-- A meaning under `withIssue` answers a next state when an issue is in progress. -/
theorem withIssue_next {s : State} {v : View} (h : s.view? = some v) (f : View → State) : withIssue s f = .next (f v) := by
  simp [withIssue, h]

/-! ### Slots -/

theorem Slot.live?_eq_some {x : Slot} {t : Thread} : x.live? = some t ↔ x = .live t := by
  cases x <;> simp [Slot.live?]

theorem Wave.live?_eq_some {w : Wave} {i : Nat} {t : Thread} : w.live? i = some t ↔ w.slot i = .live t := Slot.live?_eq_some

@[simp] theorem Wave.slot_mapLanes (w : Wave) (m : Mask) (f : Nat → Thread → Thread) (i : Nat) :
    (w.mapLanes m f).slot i = if m.getLsbD i then (w.slot i).mapLive (f i) else w.slot i := by
  simp only [Wave.slot, Wave.mapLanes, List.getD_eq_getElem?_getD, List.getElem?_mapIdx]
  cases h : w.slots[i]? with
  | none => simp [Slot.mapLive]
  | some x => simp

@[simp] theorem Wave.slot_rejoinFrom (w old : Wave) (m : Mask) (i : Nat) : (w.rejoinFrom old m).slot i = w.slot i := rfl

@[simp] theorem Slot.live?_mapLive (x : Slot) (f : Thread → Thread) : (x.mapLive f).live? = x.live?.map f := by
  cases x <;> rfl

@[simp] theorem Slot.mapLive_comp (x : Slot) (f g : Thread → Thread) : (x.mapLive f).mapLive g = x.mapLive (g ∘ f) := by
  cases x <;> rfl

theorem Rejoin.advance_congr (e : Rejoin) (b b' a : Nat → Option Thread) (m : Mask)
    (hb : ∀ i, m.getLsbD i = true → (b i).any e.inScope = (b' i).any e.inScope) : e.advance b a m = e.advance b' a m := by
  have : ∀ i, e.keeps (b i) (a i) (m.getLsbD i) = e.keeps (b' i) (a i) (m.getLsbD i) := by
    intro i
    unfold Rejoin.keeps
    cases a i with
    | none => rfl
    | some t =>
      cases hm : m.getLsbD i with
      | false => simp
      | true => simp [hb i hm]
  simp only [Rejoin.advance, this]

/-! ### Retiring an issue -/

/-- Retiring an issue after a change of the waves' threads that moves no PC: everything that follows about its wave. -/
theorem View.retire_moved {v : View} {o : Operands} {m : Mask} {s : State} {g : Nat → Thread → Thread} {ff : FFlags}
    {w1 : Wave}
    (hothers : ∀ c k, (c ≠ v.ic.core ∨ k ≠ v.ic.wslot) → s.wave? c k = v.s.wave? c k)
    (hw1 : s.wave? v.ic.core v.ic.wslot = some w1)
    (h1 : w1 = { v.w with slots := w1.slots, fflags := v.w.fflags ||| ff })
    (hslot : ∀ i, w1.slot i = if m.getLsbD i then (v.w.slot i).mapLive (g i) else v.w.slot i)
    (hpc : ∀ i t, (g i t).pc = t.pc ∧ (g i t).depth = t.depth) :
    Claims.Moved v o m ff (fun i x y => y = { g i x with pc := v.ic.pc + 12 }) (v.retire o m s) := by
  have keeps : Wave.Keeps (fun w =>
      let w := w.advance m v.ic.pc
      { w with marker := w.marker || o.sw, skips := if o.yld then 1 else w.skips }) := fun w => ⟨rfl, rfl⟩
  have hslot' : ∀ i, (w1.advance m v.ic.pc).slot i =
      if m.getLsbD i then (v.w.slot i).mapLive (fun t => { g i t with pc := v.ic.pc + 12 }) else v.w.slot i := by
    intro i
    simp only [Wave.advance, Wave.transfer, Wave.slot_rejoinFrom, Wave.slot_mapLanes, hslot]
    split
    · simp only [Slot.mapLive_comp]; rfl
    · rfl
  refine ⟨fun c k h => ?_, _, State.wave?_mapWave_same keeps hw1, ?_⟩
  · rw [View.retire, View.onWave, State.wave?_mapWave_other keeps h, hothers c k h]
  · refine ⟨?_, ?_, ?_, ?_, ?_, ?_, ?_⟩
    · rw [h1]; rfl
    · intro i x hm hx
      refine ⟨_, ?_, rfl⟩
      have := hslot' i
      rw [hm, if_pos rfl, Wave.live?_eq_some.1 hx] at this
      exact this
    · intro i hm
      have := hslot' i
      rw [hm, if_neg (by decide)] at this
      exact this
    · rw [h1]; rfl
    · have hr : w1.rejoin = v.w.rejoin := by rw [h1]
      show (w1.advance m v.ic.pc).rejoin = _
      simp only [Wave.advance, Wave.transfer, Wave.rejoinFrom]
      show List.map _ w1.rejoin = _
      rw [hr]
      refine List.map_congr_left fun e _ => ?_
      refine Rejoin.advance_congr e _ _ _ _ fun i hm => ?_
      have : w1.live? i = (v.w.live? i).map (g i) := by
        simp only [Wave.live?, hslot, hm, if_true, Slot.live?_mapLive]
      rw [this]
      cases v.w.live? i with
      | none => rfl
      | some t => simp [Rejoin.inScope, hpc]
    · rw [h1]; rfl
    · rw [h1]; rfl

/-! ### Branching and waiting -/

/-- The issue set moves on after a change of the waves' threads that moves no PC: everything that follows about its wave. -/
theorem View.branch_moved {v : View} {o : Operands} {p : Mask} {s : State} {next : Nat → W64} {f : Nat → Thread → Thread}
    {g : Nat → Thread → Thread} {ff : FFlags} {w1 : Wave}
    (hothers : ∀ c k, (c ≠ v.ic.core ∨ k ≠ v.ic.wslot) → s.wave? c k = v.s.wave? c k)
    (hw1 : s.wave? v.ic.core v.ic.wslot = some w1)
    (h1 : w1 = { v.w with slots := w1.slots, fflags := v.w.fflags ||| ff })
    (hslot : ∀ i, w1.slot i = if v.active.getLsbD i then (v.w.slot i).mapLive (g i) else v.w.slot i)
    (hpc : ∀ i t, (g i t).pc = t.pc ∧ (g i t).depth = t.depth) :
    Claims.Moved v o v.active ff (fun i x y =>
      if p.getLsbD i then y = { f i (g i x) with pc := next i } else y = { g i x with pc := v.ic.pc + 12 }) (v.branch o s p next f) := by
  let h : Nat → Thread → Thread := fun i t => if p.getLsbD i then { f i t with pc := next i } else { t with pc := nextPc v.ic.pc }
  have keeps : Wave.Keeps (fun w =>
      let w := w.transfer v.active h
      { w with marker := w.marker || o.sw, skips := if o.yld then 1 else w.skips }) := fun w => ⟨rfl, rfl⟩
  have hslot' : ∀ i, (w1.transfer v.active h).slot i =
      if v.active.getLsbD i then (v.w.slot i).mapLive (fun t => h i (g i t)) else v.w.slot i := by
    intro i
    simp only [Wave.transfer, Wave.slot_rejoinFrom, Wave.slot_mapLanes, hslot]
    split
    · simp only [Slot.mapLive_comp]; rfl
    · rfl
  refine ⟨fun c k h => ?_, _, State.wave?_mapWave_same keeps hw1, ?_⟩
  · rw [View.branch, View.onWave, State.wave?_mapWave_other keeps h, hothers c k h]
  · refine ⟨?_, ?_, ?_, ?_, ?_, ?_, ?_⟩
    · rw [h1]; rfl
    · intro i x hm hx
      refine ⟨h i (g i x), ?_, ?_⟩
      · have := hslot' i
        rw [hm, if_pos rfl, Wave.live?_eq_some.1 hx] at this
        exact this
      · show if p.getLsbD i then h i (g i x) = _ else h i (g i x) = _
        simp only [h]
        split <;> rfl
    · intro i hm
      have := hslot' i
      rw [hm, if_neg (by decide)] at this
      exact this
    · rw [h1]; rfl
    · have hr : w1.rejoin = v.w.rejoin := by rw [h1]
      show (w1.transfer v.active h).rejoin = _
      simp only [Wave.transfer, Wave.rejoinFrom]
      show List.map _ w1.rejoin = _
      rw [hr]
      refine List.map_congr_left fun e _ => ?_
      refine Rejoin.advance_congr e _ _ _ _ fun i hm => ?_
      have : w1.live? i = (v.w.live? i).map (g i) := by
        simp only [Wave.live?, hslot, hm, if_true, Slot.live?_mapLive]
      rw [this]
      cases v.w.live? i with
      | none => rfl
      | some t => simp [Rejoin.inScope, hpc]
    · rw [h1]; rfl
    · rw [h1]; rfl

/-- Threads that wait. -/
theorem View.waitEach_parked {v : View} {s : State} {m : Mask} {f : Nat → Wait} {w : Wave}
    (hw : s.wave? v.ic.core v.ic.wslot = some w) : Claims.Parked v s m f (v.waitEach s m f) where
  rest := rfl
  others := fun c k h => State.wave?_mapWave_other (fun _ => ⟨rfl, rfl⟩) h
  wave := ⟨w, _, hw, State.wave?_mapWave_same (fun _ => ⟨rfl, rfl⟩) hw, rfl, fun i => Wave.slot_mapLanes _ _ _ _⟩

theorem View.park_parked {v : View} {s : State} {m : Mask} {why : Wait} {w : Wave}
    (hw : s.wave? v.ic.core v.ic.wslot = some w) : Claims.Parked v s m (fun _ => why) (v.park s m why) :=
  View.waitEach_parked hw

end Sys2Proof.Machine
end

