-- ==== Sys2Proof/Laws/LaneOps.lean ====
section
/-! SUPPORT. Everything the two shapes of a per-lane instruction can do: `View.classF` and `View.classV`, with the variants
that the residue check watches. -/
namespace Sys2Proof.Machine
open Claims

/-! ### Registers of a thread -/

theorem Thread.reg_setReg (t : Thread) (r q : Nat) (x : W32) :
    (t.setReg r x).reg q = if q = r ∧ q ≠ 0 ∧ q < t.regs.length then x else t.reg q := by
  unfold Thread.setReg Thread.reg
  by_cases hr : r = 0
  · subst hr; simp only [if_true]; split <;> simp_all
  · simp only [hr, if_false]
    by_cases hq : q = 0
    · simp [hq]
    · simp only [hq, if_false, List.getD_eq_getElem?_getD, List.getElem?_set]
      by_cases h : r = q
      · subst h; by_cases h2 : r < t.regs.length <;> simp [h2, hr]
      · have : ¬ q = r := fun e => h e.symm
        simp [h, this]

theorem Thread.setReg_frame (t : Thread) (r : Nat) (x : W32) :
    { t.setReg r x with regs := t.regs } = t ∧ (t.setReg r x).regs.length = t.regs.length := by
  unfold Thread.setReg; split <;> simp

theorem Thread.setRegs_frame : ∀ (vals : List W32) (t : Thread) (r : Nat),
    { t.setRegs r vals with regs := t.regs } = t ∧ (t.setRegs r vals).regs.length = t.regs.length
  | [], _, _ => ⟨rfl, rfl⟩
  | x :: xs, t, r =>
    have later := Thread.setRegs_frame xs (t.setReg r x) (r + 1)
    have now := Thread.setReg_frame t r x
    ⟨(congrArg (fun u : Thread => { u with regs := t.regs }) later.1).trans now.1, later.2.trans now.2⟩

theorem Thread.reg_setRegs : ∀ (vals : List W32) (t : Thread) (r q : Nat),
    (t.setRegs r vals).reg q =
      if r ≤ q ∧ q < r + vals.length ∧ q ≠ 0 ∧ q < t.regs.length then vals.getD (q - r) 0 else t.reg q
  | [], _, _, _ => (if_neg fun h => absurd h.2.1 (Nat.not_lt.2 h.1)).symm
  | x :: xs, t, r, q => by
    rw [Thread.setRegs, Thread.reg_setRegs xs, (Thread.setReg_frame t r x).2, Thread.reg_setReg, List.length_cons]
    by_cases first : q = r
    · subst first
      rw [if_neg (by omega), Nat.sub_self, List.getD_cons_zero]
      by_cases there : q ≠ 0 ∧ q < t.regs.length
      · rw [if_pos ⟨rfl, there⟩, if_pos (by omega)]
      · rw [if_neg (by omega), if_neg (by omega)]
    · rw [if_neg (c := q = r ∧ _) fun h => first h.1]
      by_cases later : r + 1 ≤ q ∧ q < r + 1 + xs.length ∧ q ≠ 0 ∧ q < t.regs.length
      · rw [if_pos later, if_pos (by omega), show q - r = q - (r + 1) + 1 by omega, List.getD_cons_succ]
      · rw [if_neg later, if_neg (by omega)]

/-- Writing some registers and moving the PC. -/
theorem Thread.setRegs_wrote (t : Thread) (pc : W64) (lo : Nat) (vals : List W32) :
    Wrote t { t.setRegs lo vals with pc := pc } pc lo vals where
  pc := rfl
  frame := congrArg (fun u : Thread => { u with pc := t.pc }) (Thread.setRegs_frame vals t lo).1
  size := (Thread.setRegs_frame vals t lo).2
  regs := Thread.reg_setRegs vals t lo

/-- Moving the PC writes no register. -/
theorem Thread.step_wrote (t : Thread) (pc : W64) (lo : Nat) : Wrote t { t with pc := pc } pc lo [] where
  pc := rfl
  frame := rfl
  size := rfl
  regs := fun r => by
    have : ¬ (lo ≤ r ∧ r < lo + 0 ∧ r ≠ 0 ∧ r < t.regs.length) := by omega
    simp only [List.length_nil, this, if_false]; rfl

theorem Thread.setRegs_pc (vals : List W32) (t : Thread) (r : Nat) :
    (t.setRegs r vals).pc = t.pc ∧ (t.setRegs r vals).depth = t.depth := by
  have h := (Thread.setRegs_frame vals t r).1
  have h1 := congrArg Thread.pc h
  have h2 := congrArg Thread.depth h
  exact ⟨h1, h2⟩

/-! ### Outstanding results that are written over -/

/-- A result with the writes that satisfy `p` marked. -/
def Result.markBy (p : Nat → Nat → Bool) (x : Result) : Result :=
  { x with lanes := x.lanes.map fun l => { l with dsts := l.dsts.map fun d => { d with clob := d.clob || p l.uid d.reg } } }

theorem Result.markBy_comp (p q : Nat → Nat → Bool) (x : Result) :
    (x.markBy q).markBy p = x.markBy fun u r => q u r || p u r := by
  simp [Result.markBy, List.map_map, Function.comp_def, Bool.or_assoc]

theorem Result.markBy_none (x : Result) : (x.markBy fun _ _ => false) = x := by
  simp [Result.markBy]

theorem Result.clobber_eq (x : Result) (u lo n : Nat) :
    x.clobber u lo n = x.markBy fun u' r => u' = u && lo ≤ r && r < lo + n := by
  unfold Result.clobber Result.markBy
  congr 1
  refine List.map_congr_left fun l _ => ?_
  by_cases h : l.uid = u
  · simp only [h, if_true, decide_true, Bool.true_and]
    congr 1
    refine List.map_congr_left fun d _ => ?_
    by_cases h2 : (lo ≤ d.reg && d.reg < lo + n) = true
    · simp only [h2, if_true, Bool.or_true]
    · simp only [h2, Bool.false_eq_true, if_false, Bool.or_false]
  · simp [h]

theorem Result.foldl_clobber (lo n : Nat) : ∀ (uids : List Nat) (x : Result),
    uids.foldl (fun x u => x.clobber u lo n) x = x.markBy fun u' r => uids.any fun u => u' = u && lo ≤ r && r < lo + n
  | [], x => (Result.markBy_none x).symm
  | u :: us, x => (Result.foldl_clobber lo n us (x.clobber u lo n)).trans (by
      rw [Result.clobber_eq, Result.markBy_comp]; rfl)

theorem marked_eq (v : View) (p : Nat → Nat → Bool) (x : Result) :
    marked v p x = if x.core = v.ic.core ∧ x.wslot = v.ic.wslot then x.markBy p else x := rfl

theorem marked_congr {v : View} {p q : Nat → Nat → Bool} (h : ∀ u r, p u r = q u r) (x : Result) :
    marked v p x = marked v q x := by
  have : p = q := by funext u r; exact h u r
  rw [this]

/-- Writing over some registers in some lanes. -/
theorem View.clobber_results (v : View) (s : State) (m : Mask) (lo n : Nat) :
    (v.clobber s m lo n).results = s.results.map (marked v (writes v m lo fun _ => n)) := by
  unfold View.clobber
  refine List.map_congr_left fun x _ => ?_
  show (if _ then _ else _) = _
  rw [marked_eq]
  split
  · rw [Result.foldl_clobber]
    congr 1
    funext u r
    simp only [writes, List.any_map, Function.comp_def]
    congr 1
    funext i
    simp [eq_comm]
  · rfl

/-- With no result of the wave outstanding there is nothing to mark. -/
theorem marked_drained {v : View} (h : v.outstanding = false) (p : Nat → Nat → Bool) :
    v.s.results.map (marked v p) = v.s.results := by
  have he : v.s.resultsOf v.ic.core v.ic.wslot = [] := by
    simpa [View.outstanding, State.drained] using h
  have : ∀ x ∈ v.s.results, ¬ (x.core = v.ic.core ∧ x.wslot = v.ic.wslot) := by
    intro x hx hc
    have : x ∈ v.s.resultsOf v.ic.core v.ic.wslot := List.mem_filter.2 ⟨hx, by simp [hc.1, hc.2]⟩
    rw [he] at this; cases this
  have h2 : v.s.results.map (marked v p) = v.s.results.map id :=
    List.map_congr_left fun x hx => by rw [marked_eq, if_neg (this x hx)]; rfl
  rw [h2, List.map_id]

/-! ### The two shapes -/

/-- Writing at issue: the state after `writeNow`, field by field. -/
theorem View.writeNow_rest (v : View) (s : State) (m : Mask) (lo n : Nat) (f : Nat → LaneOut) :
    OnlyWaves s (v.writeNow s m lo n f) := by
  unfold View.writeNow OnlyWaves
  split <;> rfl

theorem View.retire_rest {v : View} {o : Operands} {m : Mask} {s t : State} (h : OnlyWaves s t) :
    OnlyWaves s (v.retire o m t) := h

theorem View.writeNow_results {v : View} {m : Mask} {lo n : Nat} {f : Nat → LaneOut} :
    (v.writeNow v.s m lo n f).results = v.s.results.map (marked v (writes v m lo fun _ => n)) := by
  unfold View.writeNow
  cases h : v.outstanding with
  | true => exact View.clobber_results v v.s m lo n
  | false => exact (marked_drained h _).symm

/-- The waves after `writeNow`. -/
theorem View.writeNow_waves {v : View} {m : Mask} {lo n : Nat} {f : Nat → LaneOut} (s : State) :
    (v.writeNow s m lo n f).waves = (s.mapWave v.ic.core v.ic.wslot fun w =>
      let w := w.mapLanes m fun i t => t.setRegs lo (f i).1
      { w with fflags := w.fflags ||| orFlags m f }).waves := by
  unfold View.writeNow
  cases v.outstanding <;> rfl

theorem State.wave?_congr {s t : State} (h : s.waves = t.waves) (c k : Nat) : s.wave? c k = t.wave? c k := by
  unfold State.wave?; rw [h]

theorem View.passing_active {v : View} {o : Operands} {i : Nat} (h : (v.passing o).getLsbD i = true) :
    v.active.getLsbD i = true := by
  simp [View.passing] at h; exact h.2.1

/-- The lanes of `a` retire and those of `m`, part of it, have their registers written at issue. -/
theorem View.writeNow_moved {v : View} {o : Operands} {a m : Mask} {lo n : Nat} {f : Nat → LaneOut}
    (hv : v.s.wave? v.ic.core v.ic.wslot = some v.w) (hm : ∀ i, m.getLsbD i = true → a.getLsbD i = true) :
    Moved v o a (orFlags m f)
      (fun i x y => Wrote x y (v.ic.pc + 12) lo (if m.getLsbD i then (f i).1 else []))
      (v.retire o a (v.writeNow v.s m lo n f)) := by
  let F : Wave → Wave := fun w =>
      let w := w.mapLanes m fun i t => t.setRegs lo (f i).1
      { w with fflags := w.fflags ||| orFlags m f }
  have keeps : Wave.Keeps F := fun w => ⟨rfl, rfl⟩
  have hw := View.writeNow_waves (v := v) (m := m) (lo := lo) (n := n) (f := f) v.s
  have key := View.retire_moved (v := v) (o := o) (m := a) (s := v.writeNow v.s m lo n f)
    (g := fun i t => if m.getLsbD i then t.setRegs lo (f i).1 else t) (ff := orFlags m f) (w1 := F v.w)
    (fun c k h => by rw [State.wave?_congr hw, State.wave?_mapWave_other keeps h])
    (by rw [State.wave?_congr hw, State.wave?_mapWave_same keeps hv]) rfl
    (fun i => by
      show (v.w.mapLanes m _).slot i = _
      rw [Wave.slot_mapLanes]
      cases h : m.getLsbD i with
      | true => simp [hm i h]
      | false => cases a.getLsbD i <;> simp [Slot.mapLive] <;> cases v.w.slot i <;> rfl)
    (fun i t => by
      split
      · exact Thread.setRegs_pc _ _ _
      · exact ⟨rfl, rfl⟩)
  refine ⟨key.others, ?_⟩
  obtain ⟨w, h1, h2⟩ := key.wave
  refine ⟨w, h1, { h2 with moved := fun i x hi hx => ?_ }⟩
  obtain ⟨y, hy, he⟩ := h2.moved i x hi hx
  refine ⟨y, hy, ?_⟩
  subst he
  cases m.getLsbD i with
  | true => exact Thread.setRegs_wrote _ _ _ _
  | false => exact Thread.step_wrote _ _ _

/-- Everything a class-F instruction does. -/
theorem View.classF_wrote {v : View} {o : Operands} {n : Nat} {f : Nat → LaneOut}
    (hv : v.s.wave? v.ic.core v.ic.wslot = some v.w) (hn : ∀ i, (f i).1.length = n) : WroteNow v o f (v.classF o n f) where
  rest := View.retire_rest (View.writeNow_rest _ _ _ _ _ _)
  results := by
    simp only [hn]
    exact View.writeNow_results (f := f)
  moved := View.writeNow_moved hv fun _ h => View.passing_active h

/-! ### Class V -/

theorem marked_comp (v : View) (p q : Nat → Nat → Bool) (x : Result) :
    marked v p (marked v q x) = marked v (fun u r => q u r || p u r) x := by
  simp only [marked_eq]
  by_cases h : x.core = v.ic.core ∧ x.wslot = v.ic.wslot
  · have h' : (x.markBy q).core = v.ic.core ∧ (x.markBy q).wslot = v.ic.wslot := h
    simp only [if_pos h, if_pos h', Result.markBy_comp]
  · simp only [if_neg h]

theorem marked_none (v : View) (x : Result) : marked v (fun _ _ => false) x = x := by
  rw [marked_eq, Result.markBy_none]; split <;> rfl

/-- A state that differs from another in its outstanding results alone. -/
def OnlyResults (s t : State) : Prop := { t with results := s.results } = s

theorem OnlyResults.trans {s t u : State} (h1 : OnlyResults s t) (h2 : OnlyResults t u) : OnlyResults s u := by
  unfold OnlyResults at *
  have := congrArg (fun x : State => { x with results := s.results }) h2
  exact this.trans h1

theorem OnlyResults.waves {s t : State} (h : OnlyResults s t) : t.waves = s.waves := by
  have := congrArg State.waves h
  exact this

/-- A step that marks results and does nothing else. -/
def View.Marks (v : View) (p : Nat → Nat → Bool) (s t : State) : Prop :=
  OnlyResults s t ∧ t.results = s.results.map (marked v p)

/-- A list of such steps. -/
theorem View.Marks.each {α : Type} {v : View} {f : State → α → State} {p : α → Nat → Nat → Bool}
    (h : ∀ s x, v.Marks (p x) s (f s x)) : ∀ (l : List α) (s : State), v.Marks (fun u r => l.any fun x => p x u r) s (l.foldl f s)
  | [], s => ⟨rfl, ((congrArg s.results.map (funext (marked_none v))).trans s.results.map_id).symm⟩
  | x :: l, s => by
    obtain ⟨frame, marks⟩ := View.Marks.each h l (f s x)
    refine ⟨(h s x).1.trans frame, ?_⟩
    rw [List.foldl, marks, (h s x).2, List.map_map]
    exact congrArg s.results.map (funext fun y => marked_comp v _ _ y)

theorem View.clobber_marks (v : View) (s : State) (m : Mask) (lo n : Nat) :
    v.Marks (writes v m lo fun _ => n) s (v.clobber s m lo n) := ⟨rfl, v.clobber_results s m lo n⟩

/-- Writing over, in a lane, the registers of a list. -/
theorem View.clobberLane (v : View) (s : State) (l : LaneResult) :
    v.Marks (fun u r => l.dsts.any fun d => writes v (bitsWhere (· = l.lane)) d.reg (fun _ => 1) u r) s
      (l.dsts.foldl (fun s d => v.clobber s (bitsWhere (· = l.lane)) d.reg 1) s) :=
  View.Marks.each (p := fun (d : RegWrite) => writes v (bitsWhere (· = l.lane)) d.reg fun _ => 1)
    (fun s d => v.clobber_marks s _ d.reg 1) l.dsts s

/-- Writing over, in each lane of a list, the registers of a list. -/
theorem View.clobberAll (v : View) (lanes : List LaneResult) (s : State) :
    v.Marks (fun u r => lanes.any fun l => l.dsts.any fun d => writes v (bitsWhere (· = l.lane)) d.reg (fun _ => 1) u r) s
      (lanes.foldl (fun s l => l.dsts.foldl (fun s d => v.clobber s (bitsWhere (· = l.lane)) d.reg 1) s) s) :=
  View.Marks.each (p := fun (l : LaneResult) u r => l.dsts.any fun d => writes v (bitsWhere (· = l.lane)) d.reg (fun _ => 1) u r)
    (fun s l => v.clobberLane s l) lanes s

/-- The lanes of a result name lanes of the wave and the threads in them. -/
def View.Own (v : View) (lanes : List LaneResult) : Prop := ∀ l ∈ lanes, l.lane < 32 ∧ l.uid = (v.thread l.lane).uid

theorem writes_lanes {v : View} {lanes : List LaneResult} (h : v.Own lanes) (u r : Nat) :
    (lanes.any fun l => l.dsts.any fun d => writes v (bitsWhere (· = l.lane)) d.reg (fun _ => 1) u r) = claimed lanes u r := by
  unfold claimed writes
  rw [Bool.eq_iff_iff, List.any_eq_true, List.any_eq_true]
  refine exists_congr fun l => and_congr_right fun hl => ?_
  obtain ⟨h32, huid⟩ := h l hl
  have key : ∀ d : RegWrite, ((lanesOf (bitsWhere (· = l.lane))).any fun j =>
      decide ((v.thread j).uid = u) && decide (d.reg ≤ r) && decide (r < d.reg + 1)) =
      (decide (l.uid = u) && decide (d.reg = r)) := by
    intro d
    rw [Bool.eq_iff_iff, huid]
    simp only [List.any_eq_true, mem_lanesOf, bitsWhere_getLsbD, Bool.and_eq_true, decide_eq_true_eq]
    constructor
    · rintro ⟨j, ⟨_, rfl⟩, h⟩; exact ⟨h.1.1, by omega⟩
    · intro h; exact ⟨l.lane, ⟨h32, rfl⟩, ⟨h.1, by omega⟩, by omega⟩
  simp only [key]
  generalize decide (l.uid = u) = b
  cases b <;> simp

/-- Leaving a result outstanding. -/
theorem View.leaveLanes_spec {v : View} {s : State} {ff : FFlags} {lanes : List LaneResult} (h : v.Own lanes)
    (hs : s.results = v.s.results) :
    OnlyResults s (v.leaveLanes s ff lanes) ∧ (v.leaveLanes s ff lanes).results = withResult v lanes ff := by
  have e : (fun u r => lanes.any fun l => l.dsts.any fun d => writes v (bitsWhere (· = l.lane)) d.reg (fun _ => 1) u r) = claimed lanes :=
    funext fun u => funext fun r => writes_lanes h u r
  unfold View.leaveLanes withResult
  dsimp only
  cases hout : v.outstanding with
  | true =>
    obtain ⟨h1, h2⟩ := v.clobberAll lanes s
    refine ⟨h1.trans rfl, ?_⟩
    rw [← e, ← hs]
    exact congrArg (· ++ _) h2
  | false =>
    refine ⟨rfl, ?_⟩
    rw [marked_drained hout]
    show s.results ++ _ = _
    rw [hs]

theorem lanesOut_own (v : View) (m : Mask) (f : Nat → List RegWrite) :
    v.Own ((lanesOf m).map fun i => ⟨i, (v.thread i).uid, f i, []⟩) := by
  intro l hl
  obtain ⟨i, hi, rfl⟩ := List.mem_map.1 hl
  exact ⟨BitVec.lt_of_getLsbD (mem_lanesOf.1 hi), rfl⟩

/-- Retiring an issue that changes no thread besides. -/
theorem View.retire_plain {v : View} {o : Operands} {m : Mask} {s : State}
    (hv : v.s.wave? v.ic.core v.ic.wslot = some v.w) (hs : s.waves = v.s.waves) :
    Moved v o m 0 (fun _ x y => y = { x with pc := v.ic.pc + 12 }) (v.retire o m s) :=
  View.retire_moved (g := fun _ t => t) (w1 := v.w) (fun _ _ _ => State.wave?_congr hs _ _)
    ((State.wave?_congr hs _ _).trans hv)
    (by rw [show v.w.fflags ||| 0 = v.w.fflags from BitVec.or_zero])
    (fun i => by cases m.getLsbD i <;> simp [Slot.mapLive] <;> cases v.w.slot i <;> rfl) fun _ _ => ⟨rfl, rfl⟩

/-- An issue that leaves a result outstanding and retires. -/
theorem View.leaveResult_left {v : View} {o : Operands} {ff : FFlags} {f : Nat → LaneOut}
    (hv : v.s.wave? v.ic.core v.ic.wslot = some v.w) :
    LeftLater v o ff f
      (v.retire o v.active (v.leaveResult v.s (v.passing o) ff fun i => regWrites o.dst.reg.toNat (f i).1)) := by
  obtain ⟨h1, h2⟩ := View.leaveLanes_spec (v := v) (s := v.s) (ff := ff) (lanesOut_own v (v.passing o) fun i => regWrites o.dst.reg.toNat (f i).1) rfl
  refine ⟨?_, h2, View.retire_plain hv h1.waves⟩
  have h3 := congrArg (fun x : State => { x with waves := v.s.waves }) h1
  exact h3

/-- Everything a class-V instruction does when the wave has a free result slot. -/
theorem View.classV_left {v : View} {o : Operands} {f : Nat → LaneOut}
    (hv : v.s.wave? v.ic.core v.ic.wslot = some v.w) (h : v.resultsFull = false) :
    LeftLater v o (orFlags (v.passing o) f) f (v.classV o f) := by
  have e : v.classV o f = v.retire o v.active (v.writeLater v.s (v.passing o) o.dst.reg.toNat f) := by
    simp [View.classV, h]
  rw [e]
  exact View.leaveResult_left hv

end Sys2Proof.Machine
end

