-- ==== Sys2Proof/Laws/Access.lean ====
section
/-! SUPPORT. What an access to memory by threads can change: everything on the path from a core to the home slices leaves the
waves and the results as they are, changes memory only where the access itself, a write on its way or a delivery lane reaches,
and sends no other write on its way. -/
namespace Sys2Proof.Machine
open Claims

/-- A change on the path to memory: `B` are the bytes the access itself writes. -/
structure Path (s t : State) (B : Nat → Prop) : Prop where
  reached : Reached s t fun a => B a ∨ onItsWay s a ∨ inLanes s a
  writes  : ∀ a, onItsWay t a → B a ∨ onItsWay s a
  waves   : t.waves = s.waves
  results : t.results = s.results

theorem Path.refl (s : State) (B : Nat → Prop) : Path s s B := ⟨Reached.refl s _, fun _ => .inr, rfl, rfl⟩

theorem Path.trans {s t u : State} {B : Nat → Prop} (h1 : Path s t B) (h2 : Path t u B) : Path s u B where
  reached := h1.reached.trans <| h2.reached.mono fun a =>
    Or.rec .inl (Or.rec (fun h => (h1.writes a h).imp_right .inl) fun h => .inr (.inr ((h1.reached.lanes a).1 h)))
  writes := fun a ha => (h2.writes a ha).elim .inl (h1.writes a)
  waves := h2.waves.trans h1.waves
  results := h2.results.trans h1.results

theorem Path.mono {s t : State} {B C : Nat → Prop} (h : Path s t B) (hBC : ∀ a, B a → C a) : Path s t C :=
  ⟨h.reached.mono fun a => Or.imp_left (hBC a), fun a ha => (h.writes a ha).imp_left (hBC a), h.waves, h.results⟩

/-- A list of such steps. -/
theorem Path.along {α : Type} {B : Nat → Prop} {f : State → α → State} (l : List α) (s : State) (h : ∀ x ∈ l, ∀ s, Path s (f s x) B) :
    Path s (l.foldl f s) B := Machine.along (R := fun s t => Path s t B) (Path.refl · B) (fun _ _ _ => Path.trans) l s h

/-- The waves, the results and the writes on their way stay. -/
def Quiet (s t : State) : Prop := t.writes = s.writes ∧ t.waves = s.waves ∧ t.results = s.results

theorem Quiet.refl (s : State) : Quiet s s := ⟨rfl, rfl, rfl⟩

theorem Quiet.trans {s t u : State} (h1 : Quiet s t) (h2 : Quiet t u) : Quiet s u :=
  ⟨h2.1.trans h1.1, h2.2.1.trans h1.2.1, h2.2.2.trans h1.2.2⟩

theorem Quiet.along {α : Type} {f : State → α → State} (l : List α) (s : State) (h : ∀ x ∈ l, ∀ s, Quiet s (f s x)) :
    Quiet s (l.foldl f s) := Machine.along Quiet.refl (fun _ _ _ => Quiet.trans) l s h

/-- A quiet change within the bytes of the access, those on their way and the lanes. -/
theorem Quiet.path {s t : State} {B : Nat → Prop} (h : Quiet s t) (hr : Reached s t fun a => B a ∨ onItsWay s a ∨ inLanes s a) :
    Path s t B := ⟨hr, fun _ ⟨w, hw, ha⟩ => .inr ⟨w, h.1 ▸ hw, ha⟩, h.2.1, h.2.2⟩

/-- A quiet change of the fields that say nothing of memory's bytes. -/
theorem Path.of {s t : State} (B : Nat → Prop) (h : Quiet s t) (rest : s.asIn t = s) (cores : t.cores = s.cores)
    (owners : t.owners = s.owners) (mem : t.mem = s.mem) : Path s t B := h.path (Reached.of _ rest cores owners mem)

/-! ### Writes performed -/

theorem State.noteMet_quiet (s : State) (m : MetLine) : Quiet s (s.noteMet m) := by
  unfold State.noteMet
  split <;> exact ⟨rfl, rfl, rfl⟩

theorem State.meetAt_quiet (s : State) (slice pa : Nat) : Quiet s (s.meetAt slice pa) := by
  have h : Quiet s (s.meetClean [pa / 128]) := Quiet.along _ s fun _ _ s => s.noteMet_quiet _
  unfold State.meetAt
  dsimp only
  split
  · exact h.trans (Quiet.along _ _ fun _ _ s => s.noteMet_quiet _)
  · exact h

theorem State.touchLine_quiet (s : State) (tag slice pa : Nat) (old : List Byte) : Quiet s (s.touchLine tag slice pa old) := by
  unfold State.touchLine
  split
  · exact ⟨rfl, rfl, rfl⟩
  · dsimp only
    split
    · exact s.meetAt_quiet slice pa
    · exact (s.meetAt_quiet slice pa).trans ⟨rfl, rfl, rfl⟩

theorem State.writeAt_quiet (s : State) (tag slice pa : Nat) (bs : List Byte) : Quiet s (s.writeAt tag slice pa bs) := by
  unfold State.writeAt
  split
  · exact Quiet.refl s
  · exact Quiet.trans (t := { s with mem := s.mem.writeRun pa bs, past := addPast s.free s.past pa (s.mem.readRun pa bs.length) bs
                                     homes := noteHome s.homes (pa / 128) slice }) ⟨rfl, rfl, rfl⟩ (State.touchLine_quiet _ _ _ _ _)

theorem State.homeWrite_quiet (s : State) (tag : Nat) (dom : Nat × Nat) (tgeo : BitVec 7) (pa : Nat) (bs : List Byte) :
    Quiet s (s.homeWrite tag dom tgeo pa bs) := Quiet.along _ s fun x _ s => s.writeAt_quiet tag _ x.1 x.2

theorem State.writeBack_quiet (s : State) (p : DirtyLine → Bool) : Quiet s (s.writeBack p) :=
  Quiet.trans (t := { s with dirty := s.dirty.filter fun d => !p d || s.lineBad d }) ⟨rfl, rfl, rfl⟩
    (Quiet.along _ _ fun _ _ s => s.noteMet_quiet _)

theorem State.raiseLane_quiet (s : State) (o : Nat) (fatal named : Bool) : Quiet s (s.raiseLane o fatal named) := by
  unfold State.raiseLane; split <;> exact ⟨rfl, rfl, rfl⟩

theorem State.postFatal_quiet (s : State) (o : Nat) (r : Rec) : Quiet s (s.postFatal o r) := by
  unfold State.postFatal
  dsimp only
  have h := s.homeWrite_quiet noTag (s.ringDomain o) 0 (((s.owner o).fbase.toNat / 2 ^ 14 * 2 ^ 14 + 64 * ((s.owner o).fprod.toNat % 256)) % 2 ^ 48)
    (wordsBytes (r.words true (s.owner o).fseq (s.dieTime r.die)))
  split
  · exact h.trans (Quiet.trans (t := State.setOwner _ o _) ⟨rfl, rfl, rfl⟩ (State.raiseLane_quiet _ _ _ _))
  · split <;> exact ⟨rfl, rfl, rfl⟩

theorem State.postHardware_quiet (s : State) (r : Rec) : Quiet s (s.postHardware r) := by
  unfold State.postHardware
  split
  · exact (s.postFatal_quiet 0 _).trans (State.postFatal_quiet _ _ _)
  · exact s.postFatal_quiet 0 r

theorem State.performWrite_quiet (s : State) (w : PendWrite) : Quiet s (s.performWrite w) := by
  unfold State.performWrite
  split
  · split
    · exact ⟨rfl, rfl, rfl⟩
    · exact s.postHardware_quiet _
  · dsimp only
    have h := s.homeWrite_quiet (w.agent.ctx.getD noTag) (s.domain (s.agentPart w.agent)) w.tgeo w.addr w.data
    split
    · exact h.trans (Quiet.trans (t := State.mk ..) ⟨rfl, rfl, rfl⟩ (State.writeBack_quiet _ _))
    · exact h.trans ⟨rfl, rfl, rfl⟩

/-- A write performed at once. -/
theorem State.performWrite_path (s : State) (w : PendWrite) (B : Nat → Prop) (h : ∀ a, w.bytes a → B a) :
    Path s (s.performWrite w) B :=
  (s.performWrite_quiet w).path <| Reached.mono (s.performWrite_lands w) fun a => Or.imp (h a) .inr

theorem State.flushWhere_path (s : State) (p : PendWrite → Bool) (B : Nat → Prop) : Path s (s.flushWhere p) B where
  reached := (s.flushWhere_reached p).mono fun _ => .inr
  writes := fun a ⟨w, hw, ha⟩ => .inr ⟨w, by
    rw [State.flushWhere, (Quiet.along _ _ fun w _ s => s.performWrite_quiet w).1] at hw
    exact (List.mem_filter.1 hw).1, ha⟩
  waves := (Quiet.along _ _ fun w _ s => s.performWrite_quiet w).2.1
  results := (Quiet.along _ _ fun w _ s => s.performWrite_quiet w).2.2

theorem State.flushRun_path (s : State) (core pa n : Nat) (B : Nat → Prop) : Path s (s.flushRun core pa n) B :=
  s.flushWhere_path _ B

theorem State.release_path (s : State) (core scope : Nat) (B : Nat → Prop) : Path s (s.release core scope) B :=
  s.flushWhere_path _ B

/-! ### Caches -/

theorem State.dropLines_path (s : State) (core pa n : Nat) (B : Nat → Prop) : Path s (s.dropLines core pa n) B :=
  Path.of B ⟨rfl, rfl, rfl⟩ rfl rfl rfl rfl

theorem State.refreshLine_path (s : State) (core line : Nat) (B : Nat → Prop) : Path s (s.refreshLine core line) B := by
  unfold State.refreshLine
  dsimp only
  split
  · exact Path.of B ⟨rfl, rfl, rfl⟩ rfl rfl rfl rfl
  · split
    · exact Path.refl s B
    · exact Path.of B ⟨rfl, rfl, rfl⟩ rfl rfl rfl rfl

theorem State.touchL1_path (s : State) (core : Nat) (t : Trans) (pa n : Nat) (B : Nat → Prop) : Path s (s.touchL1 core t pa n) B := by
  unfold State.touchL1
  split
  · exact s.dropLines_path core pa n B
  · split
    · exact Path.along _ s fun l _ s => s.refreshLine_path core l B
    · exact Path.refl s B

theorem State.cache_path (s : State) (ctx : Nat) (t : Trans) (B : Nat → Prop) : Path s (s.cache ctx t) B := by
  unfold State.cache
  split
  · exact Path.refl s B
  · exact Path.of B ⟨rfl, rfl, rfl⟩ rfl rfl rfl rfl

/-- The core that a number names, after a change of one that keeps its number. -/
theorem State.core_mapCore (s : State) (c k : Nat) (f : CoreSt → CoreSt) (hf : ∀ x, (f x).core = x.core) :
    (s.mapCore c f).core k = if k = c then f (s.core c) else s.core k := by
  unfold State.core State.mapCore
  split
  · rename_i known
    dsimp only
    rw [find?_updateWhere CoreSt.core hf]
    split
    · rename_i e
      subst e
      obtain ⟨x, hx, hc⟩ := List.any_eq_true.1 known
      obtain ⟨y, hy⟩ := Option.isSome_iff_exists.1 (List.find?_isSome (p := fun x : CoreSt => decide (x.core = k)).2 ⟨x, hx, hc⟩)
      rw [hy]
      rfl
    · simp only [Option.map_id']
  · rename_i unknown
    dsimp only
    rw [List.find?_cons, hf]
    by_cases h : k = c
    · subst h
      have : s.cores.find? (fun x => decide (x.core = k)) = none := by
        rw [List.find?_eq_none]
        intro x hx e
        exact unknown (List.any_eq_true.2 ⟨x, hx, e⟩)
      rw [this]
      simp [CoreSt.fresh]
    · simp [CoreSt.fresh, h, Ne.symm h]

/-- A change of a core's acquire steps. -/
theorem State.marked_path (s : State) (c : Nat) (f : CoreSt → CoreSt) (B : Nat → Prop) (hf : ∀ x, (f x).core = x.core)
    (hu : ∀ x, unmarked (f x) = unmarked x) : Path s (s.mapCore c f) B := by
  have q : Quiet s (s.mapCore c f) := by unfold State.mapCore; split <;> exact ⟨rfl, rfl, rfl⟩
  refine q.path ⟨⟨?_, fun k => ?_, ?_, ?_⟩, ?_⟩
  · unfold State.mapCore; split <;> rfl
  · rw [s.core_mapCore c k f hf]
    split
    · rename_i e; rw [e, hu]
    · rfl
  · unfold State.mapCore; split <;> rfl
  · intro _ _; unfold State.mapCore; split <;> rfl
  · unfold State.mapCore; split <;> exact id

theorem State.acquire_path (s : State) (core scope : Nat) (B : Nat → Prop) : Path s (s.acquire core scope) B := by
  unfold State.acquire
  split
  · refine Path.trans (t := { s with l1 := s.l1.filter fun x => x.core ≠ core }) (Path.of B ⟨rfl, rfl, rfl⟩ rfl rfl rfl rfl)
      (State.marked_path _ core _ B (fun _ => rfl) fun _ => rfl)
  · exact s.marked_path core _ B (fun _ => rfl) fun _ => rfl

theorem State.sendRemote_path (s : State) (pa : Nat) (a : Agent) (B : Nat → Prop) : Path s (s.sendRemote pa a) B :=
  Path.of B ⟨rfl, rfl, rfl⟩ rfl rfl rfl rfl

theorem State.postHardware_path (s : State) (r : Rec) (B : Nat → Prop) : Path s (s.postHardware r) B :=
  (s.postHardware_quiet r).path ((s.postHardware_reached r).mono fun _ h => .inr (.inr h))

theorem State.meetClean_path (s : State) (lines : List Nat) (B : Nat → Prop) : Path s (s.meetClean lines) B :=
  (Quiet.along _ s fun _ _ s => s.noteMet_quiet _).path (s.meetClean_reached lines _)

theorem State.flushStrong_path (s : State) (uid : Nat) (B : Nat → Prop) : Path s (s.flushStrong uid) B := s.flushWhere_path _ B

theorem View.touchPieces_path (v : View) (s : State) (ps : List Piece) (B : Nat → Prop) : Path s (v.touchPieces s ps) B :=
  Path.along _ s fun p _ s => by
    split
    · split
      · exact Path.refl s B
      · refine (s.meetClean_path (linesOf p.pa p.len) B).trans ?_
        split
        · exact ((State.flushStrong_path _ _ B).trans (State.flushRun_path _ _ _ _ B)).trans (State.dropLines_path _ _ _ _ B)
        · exact State.touchL1_path _ _ _ _ _ B
    · exact Path.refl s B

theorem View.cachePieces_path (v : View) (s : State) (ps : List Piece) (B : Nat → Prop) : Path s (v.cachePieces s ps) B :=
  Path.along _ s fun p _ s => by
    split
    · exact s.cache_path _ _ B
    · exact Path.refl s B

theorem View.remoteReads_path (v : View) (s : State) (ps : List Piece) (B : Nat → Prop) : Path s (v.remoteReads s ps) B :=
  Path.along _ s fun p _ s => by
    split
    · split
      · exact s.sendRemote_path _ _ B
      · exact s.postHardware_path _ B
    · exact Path.refl s B

/-! ### Stores -/

/-- The bytes that some pieces of a store write. -/
def pieceBytesAt (ps : List Piece) (a : Nat) : Prop := ∃ p ∈ ps, p.tr.isSome = true ∧ p.pa ≤ a ∧ a < p.pa + p.len

/-- The units of a run lie within it. -/
theorem splitUnits_within : ∀ (unit fuel pa : Nat) (bs : List Byte) (x : Nat × List Byte), x ∈ splitUnits unit fuel pa bs →
    pa ≤ x.1 ∧ x.1 + x.2.length ≤ pa + bs.length
  | _, _, _, [], _, hx => by cases ‹Nat› <;> simp [splitUnits] at hx
  | _, 0, _, _ :: _, _, hx => by simp [splitUnits] at hx
  | unit, n + 1, pa, b :: bs, x, hx => by
    rcases List.mem_cons.1 hx with e | hx
    · subst e; exact ⟨Nat.le_refl pa, Nat.add_le_add_left (List.length_take_le' ..) pa⟩
    · have hlen := List.length_drop (i := unit) (l := b :: bs)
      have hin := splitUnits_within unit n _ _ _ hx
      by_cases h : unit ≤ (b :: bs).length
      · exact ⟨by omega, by omega⟩
      · rw [List.drop_eq_nil_of_le (by omega)] at hx
        cases n <;> simp [splitUnits] at hx

/-- Some writes of a store on their way besides those that were. -/
theorem State.sent_path (s : State) (ws : List PendWrite) (B : Nat → Prop) (h : ∀ w ∈ ws, ∀ a, w.bytes a → B a) :
    Path s { s with writes := s.writes ++ ws } B :=
  ⟨Reached.of _ rfl rfl rfl rfl, fun a ⟨w, hw, hb⟩ => (List.mem_append.1 hw).elim (fun hw => .inr ⟨w, hw, hb⟩) fun hw => .inl (h w hw a hb), rfl, rfl⟩

theorem View.storePiece_path (v : View) (path : StorePath) (unit : Nat) (s : State) (p : Piece) (data : List Byte)
    (hd : data.length ≤ p.len) : Path s (v.storePiece path unit s p data) (pieceBytesAt [p]) := by
  unfold View.storePiece
  split
  · exact Path.refl s _
  · rename_i t ht
    have here (pa n : Nat) (h1 : p.pa ≤ pa) (h2 : pa + n ≤ p.pa + data.length) (a : Nat) (h : run pa n a) : pieceBytesAt [p] a :=
      ⟨p, .head [], by rw [ht]; rfl, Nat.le_trans h1 h.1, by have := h.2; omega⟩
    have units (w : PendWrite) (hw : w ∈ (splitUnits unit (p.len + 1) p.pa data).map fun q =>
        ({ agent := v.agent, uid := (v.thread p.lane).uid, addr := q.1, va := p.va + BitVec.ofNat 64 (q.1 - p.pa), tgeo := t.tgeo
           data := q.2, slice := homeSlice (s.domain (s.agentPart v.agent)) t.tgeo q.1, so := t.kind = 0, uo := t.kind = 2
           cached := t.cached, stack := path = .stack, issued := s.free, cwb := 0, misdirected := false } : PendWrite)) (a : Nat)
        (h : w.bytes a) : pieceBytesAt [p] a := by
      obtain ⟨q, hq, e⟩ := List.mem_map.1 hw
      subst e
      have := splitUnits_within _ _ _ _ _ hq
      exact here q.1 q.2.length this.1 this.2 a h
    dsimp only
    split
    · exact s.performWrite_path _ _ fun a => here p.pa data.length (Nat.le_refl _) (Nat.le_refl _) a
    · split
      · refine (((s.flushStrong_path (v.thread p.lane).uid _).trans (State.flushRun_path _ v.ic.core p.pa p.len _)).trans
          (State.dropLines_path _ v.ic.core p.pa p.len _)).trans ?_
        split
        · exact State.performWrite_path _ _ _ fun a => here p.pa data.length (Nat.le_refl _) (Nat.le_refl _) a
        · exact State.sent_path _ _ _ units
      · exact (s.sent_path _ _ units).trans (Path.of _ ⟨rfl, rfl, rfl⟩ rfl rfl rfl rfl)

theorem View.storePieces_path (v : View) (path : StorePath) (n : Nat) (s : State) (ps : List Piece) (data : Nat → List Byte) :
    Path s (v.storePieces path n s ps data) (pieceBytesAt ps) :=
  Path.along _ s fun p hp s => (v.storePiece_path path _ s p _ (List.length_take_le ..)).mono fun _ ⟨q, hq, h⟩ =>
    ⟨q, (List.mem_singleton.1 hq) ▸ hp, h⟩

/-! ### Atomics -/

theorem View.atomPiece_path (v : View) (f : Nat → Nat → Nat) (x : State × List (Nat × Nat)) (p : Piece) :
    Path x.1 (v.atomPiece f x p).1 (run p.pa p.len) := by
  unfold View.atomPiece
  have h : Path x.1 ((if p.tr.any (·.kind = 0) then x.1.flushStrong (v.thread p.lane).uid else x.1).flushRun v.ic.core p.pa p.len)
      (run p.pa p.len) := by
    split
    · exact (x.1.flushStrong_path _ _).trans (State.flushRun_path _ _ _ _ _)
    · exact x.1.flushRun_path _ _ _ _
  revert h
  generalize (if p.tr.any (·.kind = 0) then x.1.flushStrong (v.thread p.lane).uid else x.1).flushRun v.ic.core p.pa p.len = t
  intro h
  dsimp only
  split
  · exact h.trans (v.remoteReads_path t [p] _)
  · refine (h.trans (t.performWrite_path _ _ fun a ha => ?_)).trans (State.dropLines_path _ _ _ _ _)
    have h2 := ha.2
    rw [natBytes_length] at h2
    exact ⟨ha.1, h2⟩

/-- The lanes of an atomic, one after the other. -/
theorem View.atomPieces_path (v : View) (f : Nat → Nat → Nat) : ∀ (ps : List Piece) (x : State × List (Nat × Nat)),
    Path x.1 (ps.foldl (v.atomPiece f) x).1 fun a => ∃ p ∈ ps, run p.pa p.len a
  | [], x => Path.refl x.1 _
  | p :: ps, x => ((v.atomPiece_path f x p).mono fun _ h => ⟨p, .head ps, h⟩).trans
      ((v.atomPieces_path f ps (v.atomPiece f x p)).mono fun _ ⟨q, hq, h⟩ => ⟨q, .tail p hq, h⟩)

end Sys2Proof.Machine
end

