-- ==== Sys2Proof/Laws/Keeps.lean ====
section
/-! SUPPORT. The operations that set memory beside a home write (`Reached.wf` says it of those): each keeps the canonical form, and
the reset memory has it. -/
namespace Sys2Proof.Machine

theorem reset_wf : Memory.wf State.reset.mem = true := rfl

theorem loseByte_wf {s : State} (h : Memory.wf s.mem = true) (d : DirtyLine) (off : Nat) : Memory.wf (s.loseByte d off).mem = true :=
  Memory.wf_write h _ _

theorem loseLines_wf {s : State} (h : Memory.wf s.mem = true) (p : DirtyLine → Bool) : Memory.wf (s.loseLines p).mem = true :=
  have keeps {α : Type} {f : State → α → State} (l : List α) (s : State) (hf : ∀ s x, Memory.wf s.mem = true → Memory.wf (f s x).mem = true) :
      Memory.wf s.mem = true → Memory.wf (l.foldl f s).mem = true :=
    along (R := fun s t => Memory.wf s.mem = true → Memory.wf t.mem = true) (fun _ => id) (fun _ _ _ h1 h2 => h2 ∘ h1) l s fun x _ s => hf s x
  keeps _ s (fun s d => keeps _ s fun _ off h => loseByte_wf h d off) h

theorem placeBytes_wf : ∀ (pas : List Nat) (bs : List Byte) {m : Cells}, Memory.wf m = true → Memory.wf (placeBytes m pas bs) = true
  | [], _, _, h => by cases ‹List Byte› <;> exact h
  | _ :: _, [], _, h => h
  | pa :: pas, b :: bs, _, h => placeBytes_wf pas bs (Memory.wf_write h pa b)

theorem loadedTables_wf {m : Cells} (h : Memory.wf m = true) : Memory.wf (loadedTables m) = true :=
  Memory.wf_writeRun _ _ (Memory.wf_writeRun _ _ (Memory.wf_writeRun _ _ h))

theorem loadWord_wf {s : State} (h : Memory.wf s.mem = true) (bs : List Byte) : Memory.wf (s.loadWord bs).mem = true :=
  Memory.wf_writeRun _ _ (loadedTables_wf h)

theorem withFetchWord_wf {s : State} (h : Memory.wf s.mem = true) (n w : Nat) : Memory.wf (s.withFetchWord n w).mem = true := by
  unfold State.withFetchWord State.placeWord
  split
  · exact placeBytes_wf _ _ h
  · exact loadWord_wf h _

end Sys2Proof.Machine
end

