-- ==== Sys2Proof/Laws/State.lean ====
section
/-! SUPPORT. What the fields of State are after each update of one of its lists: those that the update does not name are as
before. -/
namespace Sys2Proof.Machine

@[simp] theorem mapWave_agenda (s : State) (c w : Nat) (f : Wave → Wave) : (s.mapWave c w f).agenda = s.agenda := rfl
@[simp] theorem mapWave_free (s : State) (c w : Nat) (f : Wave → Wave) : (s.mapWave c w f).free = s.free := rfl
@[simp] theorem mapWave_now (s : State) (c w : Nat) (f : Wave → Wave) : (s.mapWave c w f).now = s.now := rfl
@[simp] theorem mapWave_cur (s : State) (c w : Nat) (f : Wave → Wave) : (s.mapWave c w f).cur = s.cur := rfl
@[simp] theorem mapWave_serial (s : State) (c w : Nat) (f : Wave → Wave) : (s.mapWave c w f).serial = s.serial := rfl
@[simp] theorem mapWave_mem (s : State) (c w : Nat) (f : Wave → Wave) : (s.mapWave c w f).mem = s.mem := rfl
@[simp] theorem mapWave_blocks (s : State) (c w : Nat) (f : Wave → Wave) : (s.mapWave c w f).blocks = s.blocks := rfl
@[simp] theorem mapWave_clubars (s : State) (c w : Nat) (f : Wave → Wave) : (s.mapWave c w f).clubars = s.clubars := rfl
@[simp] theorem mapWave_launches (s : State) (c w : Nat) (f : Wave → Wave) : (s.mapWave c w f).launches = s.launches := rfl
@[simp] theorem mapWave_ctxs (s : State) (c w : Nat) (f : Wave → Wave) : (s.mapWave c w f).ctxs = s.ctxs := rfl
@[simp] theorem mapWave_parts (s : State) (c w : Nat) (f : Wave → Wave) : (s.mapWave c w f).parts = s.parts := rfl
@[simp] theorem mapWave_queues (s : State) (c w : Nat) (f : Wave → Wave) : (s.mapWave c w f).queues = s.queues := rfl
@[simp] theorem mapWave_results (s : State) (c w : Nat) (f : Wave → Wave) : (s.mapWave c w f).results = s.results := rfl
@[simp] theorem mapWave_writes (s : State) (c w : Nat) (f : Wave → Wave) : (s.mapWave c w f).writes = s.writes := rfl
@[simp] theorem mapWave_dirty (s : State) (c w : Nat) (f : Wave → Wave) : (s.mapWave c w f).dirty = s.dirty := rfl
@[simp] theorem mapWave_homes (s : State) (c w : Nat) (f : Wave → Wave) : (s.mapWave c w f).homes = s.homes := rfl
@[simp] theorem mapWave_l1 (s : State) (c w : Nat) (f : Wave → Wave) : (s.mapWave c w f).l1 = s.l1 := rfl
@[simp] theorem mapWave_past (s : State) (c w : Nat) (f : Wave → Wave) : (s.mapWave c w f).past = s.past := rfl
@[simp] theorem mapWave_tlb (s : State) (c w : Nat) (f : Wave → Wave) : (s.mapWave c w f).tlb = s.tlb := rfl
@[simp] theorem mapWave_invals (s : State) (c w : Nat) (f : Wave → Wave) : (s.mapWave c w f).invals = s.invals := rfl
@[simp] theorem mapWave_cmds (s : State) (c w : Nat) (f : Wave → Wave) : (s.mapWave c w f).cmds = s.cmds := rfl
@[simp] theorem mapWave_tasks (s : State) (c w : Nat) (f : Wave → Wave) : (s.mapWave c w f).tasks = s.tasks := rfl
@[simp] theorem mapWave_cores (s : State) (c w : Nat) (f : Wave → Wave) : (s.mapWave c w f).cores = s.cores := rfl
@[simp] theorem mapWave_rays (s : State) (c w : Nat) (f : Wave → Wave) : (s.mapWave c w f).rays = s.rays := rfl
@[simp] theorem mapWave_images (s : State) (c w : Nat) (f : Wave → Wave) : (s.mapWave c w f).images = s.images := rfl
@[simp] theorem mapWave_owners (s : State) (c w : Nat) (f : Wave → Wave) : (s.mapWave c w f).owners = s.owners := rfl
@[simp] theorem mapWave_pages (s : State) (c w : Nat) (f : Wave → Wave) : (s.mapWave c w f).pages = s.pages := rfl
@[simp] theorem mapWave_mp (s : State) (c w : Nat) (f : Wave → Wave) : (s.mapWave c w f).mp = s.mp := rfl
@[simp] theorem mapWave_boot (s : State) (c w : Nat) (f : Wave → Wave) : (s.mapWave c w f).boot = s.boot := rfl
@[simp] theorem mapWave_gulnos (s : State) (c w : Nat) (f : Wave → Wave) : (s.mapWave c w f).gulnos = s.gulnos := rfl
@[simp] theorem mapWave_display (s : State) (c w : Nat) (f : Wave → Wave) : (s.mapWave c w f).display = s.display := rfl
@[simp] theorem mapWave_health (s : State) (c w : Nat) (f : Wave → Wave) : (s.mapWave c w f).health = s.health := rfl
@[simp] theorem mapWave_ringlet (s : State) (c w : Nat) (f : Wave → Wave) : (s.mapWave c w f).ringlet = s.ringlet := rfl
@[simp] theorem mapWave_storage (s : State) (c w : Nat) (f : Wave → Wave) : (s.mapWave c w f).storage = s.storage := rfl
@[simp] theorem mapWave_met (s : State) (c w : Nat) (f : Wave → Wave) : (s.mapWave c w f).met = s.met := rfl
@[simp] theorem mapWave_thermal (s : State) (c w : Nat) (f : Wave → Wave) : (s.mapWave c w f).thermal = s.thermal := rfl
@[simp] theorem mapWave_telem (s : State) (c w : Nat) (f : Wave → Wave) : (s.mapWave c w f).telem = s.telem := rfl
@[simp] theorem mapWave_scores (s : State) (c w : Nat) (f : Wave → Wave) : (s.mapWave c w f).scores = s.scores := rfl
@[simp] theorem mapWave_schedAt (s : State) (c w : Nat) (f : Wave → Wave) : (s.mapWave c w f).schedAt = s.schedAt := rfl
@[simp] theorem mapWave_vectors (s : State) (c w : Nat) (f : Wave → Wave) : (s.mapWave c w f).vectors = s.vectors := rfl
@[simp] theorem mapWave_msix (s : State) (c w : Nat) (f : Wave → Wave) : (s.mapWave c w f).msix = s.msix := rfl
@[simp] theorem mapWave_answer (s : State) (c w : Nat) (f : Wave → Wave) : (s.mapWave c w f).answer = s.answer := rfl
@[simp] theorem mapWave_poisoned (s : State) (c w : Nat) (f : Wave → Wave) : (s.mapWave c w f).poisoned = s.poisoned := rfl

@[simp] theorem mapBlock_agenda (s : State) (k : Nat) (f : Block → Block) : (s.mapBlock k f).agenda = s.agenda := rfl
@[simp] theorem mapBlock_free (s : State) (k : Nat) (f : Block → Block) : (s.mapBlock k f).free = s.free := rfl
@[simp] theorem mapBlock_now (s : State) (k : Nat) (f : Block → Block) : (s.mapBlock k f).now = s.now := rfl
@[simp] theorem mapBlock_cur (s : State) (k : Nat) (f : Block → Block) : (s.mapBlock k f).cur = s.cur := rfl
@[simp] theorem mapBlock_serial (s : State) (k : Nat) (f : Block → Block) : (s.mapBlock k f).serial = s.serial := rfl
@[simp] theorem mapBlock_mem (s : State) (k : Nat) (f : Block → Block) : (s.mapBlock k f).mem = s.mem := rfl
@[simp] theorem mapBlock_waves (s : State) (k : Nat) (f : Block → Block) : (s.mapBlock k f).waves = s.waves := rfl
@[simp] theorem mapBlock_clubars (s : State) (k : Nat) (f : Block → Block) : (s.mapBlock k f).clubars = s.clubars := rfl
@[simp] theorem mapBlock_launches (s : State) (k : Nat) (f : Block → Block) : (s.mapBlock k f).launches = s.launches := rfl
@[simp] theorem mapBlock_ctxs (s : State) (k : Nat) (f : Block → Block) : (s.mapBlock k f).ctxs = s.ctxs := rfl
@[simp] theorem mapBlock_parts (s : State) (k : Nat) (f : Block → Block) : (s.mapBlock k f).parts = s.parts := rfl
@[simp] theorem mapBlock_queues (s : State) (k : Nat) (f : Block → Block) : (s.mapBlock k f).queues = s.queues := rfl
@[simp] theorem mapBlock_results (s : State) (k : Nat) (f : Block → Block) : (s.mapBlock k f).results = s.results := rfl
@[simp] theorem mapBlock_writes (s : State) (k : Nat) (f : Block → Block) : (s.mapBlock k f).writes = s.writes := rfl
@[simp] theorem mapBlock_dirty (s : State) (k : Nat) (f : Block → Block) : (s.mapBlock k f).dirty = s.dirty := rfl
@[simp] theorem mapBlock_homes (s : State) (k : Nat) (f : Block → Block) : (s.mapBlock k f).homes = s.homes := rfl
@[simp] theorem mapBlock_l1 (s : State) (k : Nat) (f : Block → Block) : (s.mapBlock k f).l1 = s.l1 := rfl
@[simp] theorem mapBlock_past (s : State) (k : Nat) (f : Block → Block) : (s.mapBlock k f).past = s.past := rfl
@[simp] theorem mapBlock_tlb (s : State) (k : Nat) (f : Block → Block) : (s.mapBlock k f).tlb = s.tlb := rfl
@[simp] theorem mapBlock_invals (s : State) (k : Nat) (f : Block → Block) : (s.mapBlock k f).invals = s.invals := rfl
@[simp] theorem mapBlock_cmds (s : State) (k : Nat) (f : Block → Block) : (s.mapBlock k f).cmds = s.cmds := rfl
@[simp] theorem mapBlock_tasks (s : State) (k : Nat) (f : Block → Block) : (s.mapBlock k f).tasks = s.tasks := rfl
@[simp] theorem mapBlock_cores (s : State) (k : Nat) (f : Block → Block) : (s.mapBlock k f).cores = s.cores := rfl
@[simp] theorem mapBlock_rays (s : State) (k : Nat) (f : Block → Block) : (s.mapBlock k f).rays = s.rays := rfl
@[simp] theorem mapBlock_images (s : State) (k : Nat) (f : Block → Block) : (s.mapBlock k f).images = s.images := rfl
@[simp] theorem mapBlock_owners (s : State) (k : Nat) (f : Block → Block) : (s.mapBlock k f).owners = s.owners := rfl
@[simp] theorem mapBlock_pages (s : State) (k : Nat) (f : Block → Block) : (s.mapBlock k f).pages = s.pages := rfl
@[simp] theorem mapBlock_mp (s : State) (k : Nat) (f : Block → Block) : (s.mapBlock k f).mp = s.mp := rfl
@[simp] theorem mapBlock_boot (s : State) (k : Nat) (f : Block → Block) : (s.mapBlock k f).boot = s.boot := rfl
@[simp] theorem mapBlock_gulnos (s : State) (k : Nat) (f : Block → Block) : (s.mapBlock k f).gulnos = s.gulnos := rfl
@[simp] theorem mapBlock_display (s : State) (k : Nat) (f : Block → Block) : (s.mapBlock k f).display = s.display := rfl
@[simp] theorem mapBlock_health (s : State) (k : Nat) (f : Block → Block) : (s.mapBlock k f).health = s.health := rfl
@[simp] theorem mapBlock_ringlet (s : State) (k : Nat) (f : Block → Block) : (s.mapBlock k f).ringlet = s.ringlet := rfl
@[simp] theorem mapBlock_storage (s : State) (k : Nat) (f : Block → Block) : (s.mapBlock k f).storage = s.storage := rfl
@[simp] theorem mapBlock_met (s : State) (k : Nat) (f : Block → Block) : (s.mapBlock k f).met = s.met := rfl
@[simp] theorem mapBlock_thermal (s : State) (k : Nat) (f : Block → Block) : (s.mapBlock k f).thermal = s.thermal := rfl
@[simp] theorem mapBlock_telem (s : State) (k : Nat) (f : Block → Block) : (s.mapBlock k f).telem = s.telem := rfl
@[simp] theorem mapBlock_scores (s : State) (k : Nat) (f : Block → Block) : (s.mapBlock k f).scores = s.scores := rfl
@[simp] theorem mapBlock_schedAt (s : State) (k : Nat) (f : Block → Block) : (s.mapBlock k f).schedAt = s.schedAt := rfl
@[simp] theorem mapBlock_vectors (s : State) (k : Nat) (f : Block → Block) : (s.mapBlock k f).vectors = s.vectors := rfl
@[simp] theorem mapBlock_msix (s : State) (k : Nat) (f : Block → Block) : (s.mapBlock k f).msix = s.msix := rfl
@[simp] theorem mapBlock_answer (s : State) (k : Nat) (f : Block → Block) : (s.mapBlock k f).answer = s.answer := rfl
@[simp] theorem mapBlock_poisoned (s : State) (k : Nat) (f : Block → Block) : (s.mapBlock k f).poisoned = s.poisoned := rfl

@[simp] theorem mapLaunch_agenda (s : State) (k : Nat) (f : Launch → Launch) : (s.mapLaunch k f).agenda = s.agenda := rfl
@[simp] theorem mapLaunch_free (s : State) (k : Nat) (f : Launch → Launch) : (s.mapLaunch k f).free = s.free := rfl
@[simp] theorem mapLaunch_now (s : State) (k : Nat) (f : Launch → Launch) : (s.mapLaunch k f).now = s.now := rfl
@[simp] theorem mapLaunch_cur (s : State) (k : Nat) (f : Launch → Launch) : (s.mapLaunch k f).cur = s.cur := rfl
@[simp] theorem mapLaunch_serial (s : State) (k : Nat) (f : Launch → Launch) : (s.mapLaunch k f).serial = s.serial := rfl
@[simp] theorem mapLaunch_mem (s : State) (k : Nat) (f : Launch → Launch) : (s.mapLaunch k f).mem = s.mem := rfl
@[simp] theorem mapLaunch_waves (s : State) (k : Nat) (f : Launch → Launch) : (s.mapLaunch k f).waves = s.waves := rfl
@[simp] theorem mapLaunch_blocks (s : State) (k : Nat) (f : Launch → Launch) : (s.mapLaunch k f).blocks = s.blocks := rfl
@[simp] theorem mapLaunch_clubars (s : State) (k : Nat) (f : Launch → Launch) : (s.mapLaunch k f).clubars = s.clubars := rfl
@[simp] theorem mapLaunch_ctxs (s : State) (k : Nat) (f : Launch → Launch) : (s.mapLaunch k f).ctxs = s.ctxs := rfl
@[simp] theorem mapLaunch_parts (s : State) (k : Nat) (f : Launch → Launch) : (s.mapLaunch k f).parts = s.parts := rfl
@[simp] theorem mapLaunch_queues (s : State) (k : Nat) (f : Launch → Launch) : (s.mapLaunch k f).queues = s.queues := rfl
@[simp] theorem mapLaunch_results (s : State) (k : Nat) (f : Launch → Launch) : (s.mapLaunch k f).results = s.results := rfl
@[simp] theorem mapLaunch_writes (s : State) (k : Nat) (f : Launch → Launch) : (s.mapLaunch k f).writes = s.writes := rfl
@[simp] theorem mapLaunch_dirty (s : State) (k : Nat) (f : Launch → Launch) : (s.mapLaunch k f).dirty = s.dirty := rfl
@[simp] theorem mapLaunch_homes (s : State) (k : Nat) (f : Launch → Launch) : (s.mapLaunch k f).homes = s.homes := rfl
@[simp] theorem mapLaunch_l1 (s : State) (k : Nat) (f : Launch → Launch) : (s.mapLaunch k f).l1 = s.l1 := rfl
@[simp] theorem mapLaunch_past (s : State) (k : Nat) (f : Launch → Launch) : (s.mapLaunch k f).past = s.past := rfl
@[simp] theorem mapLaunch_tlb (s : State) (k : Nat) (f : Launch → Launch) : (s.mapLaunch k f).tlb = s.tlb := rfl
@[simp] theorem mapLaunch_invals (s : State) (k : Nat) (f : Launch → Launch) : (s.mapLaunch k f).invals = s.invals := rfl
@[simp] theorem mapLaunch_cmds (s : State) (k : Nat) (f : Launch → Launch) : (s.mapLaunch k f).cmds = s.cmds := rfl
@[simp] theorem mapLaunch_tasks (s : State) (k : Nat) (f : Launch → Launch) : (s.mapLaunch k f).tasks = s.tasks := rfl
@[simp] theorem mapLaunch_cores (s : State) (k : Nat) (f : Launch → Launch) : (s.mapLaunch k f).cores = s.cores := rfl
@[simp] theorem mapLaunch_rays (s : State) (k : Nat) (f : Launch → Launch) : (s.mapLaunch k f).rays = s.rays := rfl
@[simp] theorem mapLaunch_images (s : State) (k : Nat) (f : Launch → Launch) : (s.mapLaunch k f).images = s.images := rfl
@[simp] theorem mapLaunch_owners (s : State) (k : Nat) (f : Launch → Launch) : (s.mapLaunch k f).owners = s.owners := rfl
@[simp] theorem mapLaunch_pages (s : State) (k : Nat) (f : Launch → Launch) : (s.mapLaunch k f).pages = s.pages := rfl
@[simp] theorem mapLaunch_mp (s : State) (k : Nat) (f : Launch → Launch) : (s.mapLaunch k f).mp = s.mp := rfl
@[simp] theorem mapLaunch_boot (s : State) (k : Nat) (f : Launch → Launch) : (s.mapLaunch k f).boot = s.boot := rfl
@[simp] theorem mapLaunch_gulnos (s : State) (k : Nat) (f : Launch → Launch) : (s.mapLaunch k f).gulnos = s.gulnos := rfl
@[simp] theorem mapLaunch_display (s : State) (k : Nat) (f : Launch → Launch) : (s.mapLaunch k f).display = s.display := rfl
@[simp] theorem mapLaunch_health (s : State) (k : Nat) (f : Launch → Launch) : (s.mapLaunch k f).health = s.health := rfl
@[simp] theorem mapLaunch_ringlet (s : State) (k : Nat) (f : Launch → Launch) : (s.mapLaunch k f).ringlet = s.ringlet := rfl
@[simp] theorem mapLaunch_storage (s : State) (k : Nat) (f : Launch → Launch) : (s.mapLaunch k f).storage = s.storage := rfl
@[simp] theorem mapLaunch_met (s : State) (k : Nat) (f : Launch → Launch) : (s.mapLaunch k f).met = s.met := rfl
@[simp] theorem mapLaunch_thermal (s : State) (k : Nat) (f : Launch → Launch) : (s.mapLaunch k f).thermal = s.thermal := rfl
@[simp] theorem mapLaunch_telem (s : State) (k : Nat) (f : Launch → Launch) : (s.mapLaunch k f).telem = s.telem := rfl
@[simp] theorem mapLaunch_scores (s : State) (k : Nat) (f : Launch → Launch) : (s.mapLaunch k f).scores = s.scores := rfl
@[simp] theorem mapLaunch_schedAt (s : State) (k : Nat) (f : Launch → Launch) : (s.mapLaunch k f).schedAt = s.schedAt := rfl
@[simp] theorem mapLaunch_vectors (s : State) (k : Nat) (f : Launch → Launch) : (s.mapLaunch k f).vectors = s.vectors := rfl
@[simp] theorem mapLaunch_msix (s : State) (k : Nat) (f : Launch → Launch) : (s.mapLaunch k f).msix = s.msix := rfl
@[simp] theorem mapLaunch_answer (s : State) (k : Nat) (f : Launch → Launch) : (s.mapLaunch k f).answer = s.answer := rfl
@[simp] theorem mapLaunch_poisoned (s : State) (k : Nat) (f : Launch → Launch) : (s.mapLaunch k f).poisoned = s.poisoned := rfl

@[simp] theorem mapCtx_agenda (s : State) (c : Nat) (f : Context → Context) : (s.mapCtx c f).agenda = s.agenda := rfl
@[simp] theorem mapCtx_free (s : State) (c : Nat) (f : Context → Context) : (s.mapCtx c f).free = s.free := rfl
@[simp] theorem mapCtx_now (s : State) (c : Nat) (f : Context → Context) : (s.mapCtx c f).now = s.now := rfl
@[simp] theorem mapCtx_cur (s : State) (c : Nat) (f : Context → Context) : (s.mapCtx c f).cur = s.cur := rfl
@[simp] theorem mapCtx_serial (s : State) (c : Nat) (f : Context → Context) : (s.mapCtx c f).serial = s.serial := rfl
@[simp] theorem mapCtx_mem (s : State) (c : Nat) (f : Context → Context) : (s.mapCtx c f).mem = s.mem := rfl
@[simp] theorem mapCtx_waves (s : State) (c : Nat) (f : Context → Context) : (s.mapCtx c f).waves = s.waves := rfl
@[simp] theorem mapCtx_blocks (s : State) (c : Nat) (f : Context → Context) : (s.mapCtx c f).blocks = s.blocks := rfl
@[simp] theorem mapCtx_clubars (s : State) (c : Nat) (f : Context → Context) : (s.mapCtx c f).clubars = s.clubars := rfl
@[simp] theorem mapCtx_launches (s : State) (c : Nat) (f : Context → Context) : (s.mapCtx c f).launches = s.launches := rfl
@[simp] theorem mapCtx_parts (s : State) (c : Nat) (f : Context → Context) : (s.mapCtx c f).parts = s.parts := rfl
@[simp] theorem mapCtx_queues (s : State) (c : Nat) (f : Context → Context) : (s.mapCtx c f).queues = s.queues := rfl
@[simp] theorem mapCtx_results (s : State) (c : Nat) (f : Context → Context) : (s.mapCtx c f).results = s.results := rfl
@[simp] theorem mapCtx_writes (s : State) (c : Nat) (f : Context → Context) : (s.mapCtx c f).writes = s.writes := rfl
@[simp] theorem mapCtx_dirty (s : State) (c : Nat) (f : Context → Context) : (s.mapCtx c f).dirty = s.dirty := rfl
@[simp] theorem mapCtx_homes (s : State) (c : Nat) (f : Context → Context) : (s.mapCtx c f).homes = s.homes := rfl
@[simp] theorem mapCtx_l1 (s : State) (c : Nat) (f : Context → Context) : (s.mapCtx c f).l1 = s.l1 := rfl
@[simp] theorem mapCtx_past (s : State) (c : Nat) (f : Context → Context) : (s.mapCtx c f).past = s.past := rfl
@[simp] theorem mapCtx_tlb (s : State) (c : Nat) (f : Context → Context) : (s.mapCtx c f).tlb = s.tlb := rfl
@[simp] theorem mapCtx_invals (s : State) (c : Nat) (f : Context → Context) : (s.mapCtx c f).invals = s.invals := rfl
@[simp] theorem mapCtx_cmds (s : State) (c : Nat) (f : Context → Context) : (s.mapCtx c f).cmds = s.cmds := rfl
@[simp] theorem mapCtx_tasks (s : State) (c : Nat) (f : Context → Context) : (s.mapCtx c f).tasks = s.tasks := rfl
@[simp] theorem mapCtx_cores (s : State) (c : Nat) (f : Context → Context) : (s.mapCtx c f).cores = s.cores := rfl
@[simp] theorem mapCtx_rays (s : State) (c : Nat) (f : Context → Context) : (s.mapCtx c f).rays = s.rays := rfl
@[simp] theorem mapCtx_images (s : State) (c : Nat) (f : Context → Context) : (s.mapCtx c f).images = s.images := rfl
@[simp] theorem mapCtx_owners (s : State) (c : Nat) (f : Context → Context) : (s.mapCtx c f).owners = s.owners := rfl
@[simp] theorem mapCtx_pages (s : State) (c : Nat) (f : Context → Context) : (s.mapCtx c f).pages = s.pages := rfl
@[simp] theorem mapCtx_mp (s : State) (c : Nat) (f : Context → Context) : (s.mapCtx c f).mp = s.mp := rfl
@[simp] theorem mapCtx_boot (s : State) (c : Nat) (f : Context → Context) : (s.mapCtx c f).boot = s.boot := rfl
@[simp] theorem mapCtx_gulnos (s : State) (c : Nat) (f : Context → Context) : (s.mapCtx c f).gulnos = s.gulnos := rfl
@[simp] theorem mapCtx_display (s : State) (c : Nat) (f : Context → Context) : (s.mapCtx c f).display = s.display := rfl
@[simp] theorem mapCtx_health (s : State) (c : Nat) (f : Context → Context) : (s.mapCtx c f).health = s.health := rfl
@[simp] theorem mapCtx_ringlet (s : State) (c : Nat) (f : Context → Context) : (s.mapCtx c f).ringlet = s.ringlet := rfl
@[simp] theorem mapCtx_storage (s : State) (c : Nat) (f : Context → Context) : (s.mapCtx c f).storage = s.storage := rfl
@[simp] theorem mapCtx_met (s : State) (c : Nat) (f : Context → Context) : (s.mapCtx c f).met = s.met := rfl
@[simp] theorem mapCtx_thermal (s : State) (c : Nat) (f : Context → Context) : (s.mapCtx c f).thermal = s.thermal := rfl
@[simp] theorem mapCtx_telem (s : State) (c : Nat) (f : Context → Context) : (s.mapCtx c f).telem = s.telem := rfl
@[simp] theorem mapCtx_scores (s : State) (c : Nat) (f : Context → Context) : (s.mapCtx c f).scores = s.scores := rfl
@[simp] theorem mapCtx_schedAt (s : State) (c : Nat) (f : Context → Context) : (s.mapCtx c f).schedAt = s.schedAt := rfl
@[simp] theorem mapCtx_vectors (s : State) (c : Nat) (f : Context → Context) : (s.mapCtx c f).vectors = s.vectors := rfl
@[simp] theorem mapCtx_msix (s : State) (c : Nat) (f : Context → Context) : (s.mapCtx c f).msix = s.msix := rfl
@[simp] theorem mapCtx_answer (s : State) (c : Nat) (f : Context → Context) : (s.mapCtx c f).answer = s.answer := rfl
@[simp] theorem mapCtx_poisoned (s : State) (c : Nat) (f : Context → Context) : (s.mapCtx c f).poisoned = s.poisoned := rfl

@[simp] theorem mapPart_agenda (s : State) (p : Nat) (f : Partition → Partition) : (s.mapPart p f).agenda = s.agenda := rfl
@[simp] theorem mapPart_free (s : State) (p : Nat) (f : Partition → Partition) : (s.mapPart p f).free = s.free := rfl
@[simp] theorem mapPart_now (s : State) (p : Nat) (f : Partition → Partition) : (s.mapPart p f).now = s.now := rfl
@[simp] theorem mapPart_cur (s : State) (p : Nat) (f : Partition → Partition) : (s.mapPart p f).cur = s.cur := rfl
@[simp] theorem mapPart_serial (s : State) (p : Nat) (f : Partition → Partition) : (s.mapPart p f).serial = s.serial := rfl
@[simp] theorem mapPart_mem (s : State) (p : Nat) (f : Partition → Partition) : (s.mapPart p f).mem = s.mem := rfl
@[simp] theorem mapPart_waves (s : State) (p : Nat) (f : Partition → Partition) : (s.mapPart p f).waves = s.waves := rfl
@[simp] theorem mapPart_blocks (s : State) (p : Nat) (f : Partition → Partition) : (s.mapPart p f).blocks = s.blocks := rfl
@[simp] theorem mapPart_clubars (s : State) (p : Nat) (f : Partition → Partition) : (s.mapPart p f).clubars = s.clubars := rfl
@[simp] theorem mapPart_launches (s : State) (p : Nat) (f : Partition → Partition) : (s.mapPart p f).launches = s.launches := rfl
@[simp] theorem mapPart_ctxs (s : State) (p : Nat) (f : Partition → Partition) : (s.mapPart p f).ctxs = s.ctxs := rfl
@[simp] theorem mapPart_queues (s : State) (p : Nat) (f : Partition → Partition) : (s.mapPart p f).queues = s.queues := rfl
@[simp] theorem mapPart_results (s : State) (p : Nat) (f : Partition → Partition) : (s.mapPart p f).results = s.results := rfl
@[simp] theorem mapPart_writes (s : State) (p : Nat) (f : Partition → Partition) : (s.mapPart p f).writes = s.writes := rfl
@[simp] theorem mapPart_dirty (s : State) (p : Nat) (f : Partition → Partition) : (s.mapPart p f).dirty = s.dirty := rfl
@[simp] theorem mapPart_homes (s : State) (p : Nat) (f : Partition → Partition) : (s.mapPart p f).homes = s.homes := rfl
@[simp] theorem mapPart_l1 (s : State) (p : Nat) (f : Partition → Partition) : (s.mapPart p f).l1 = s.l1 := rfl
@[simp] theorem mapPart_past (s : State) (p : Nat) (f : Partition → Partition) : (s.mapPart p f).past = s.past := rfl
@[simp] theorem mapPart_tlb (s : State) (p : Nat) (f : Partition → Partition) : (s.mapPart p f).tlb = s.tlb := rfl
@[simp] theorem mapPart_invals (s : State) (p : Nat) (f : Partition → Partition) : (s.mapPart p f).invals = s.invals := rfl
@[simp] theorem mapPart_cmds (s : State) (p : Nat) (f : Partition → Partition) : (s.mapPart p f).cmds = s.cmds := rfl
@[simp] theorem mapPart_tasks (s : State) (p : Nat) (f : Partition → Partition) : (s.mapPart p f).tasks = s.tasks := rfl
@[simp] theorem mapPart_cores (s : State) (p : Nat) (f : Partition → Partition) : (s.mapPart p f).cores = s.cores := rfl
@[simp] theorem mapPart_rays (s : State) (p : Nat) (f : Partition → Partition) : (s.mapPart p f).rays = s.rays := rfl
@[simp] theorem mapPart_images (s : State) (p : Nat) (f : Partition → Partition) : (s.mapPart p f).images = s.images := rfl
@[simp] theorem mapPart_owners (s : State) (p : Nat) (f : Partition → Partition) : (s.mapPart p f).owners = s.owners := rfl
@[simp] theorem mapPart_pages (s : State) (p : Nat) (f : Partition → Partition) : (s.mapPart p f).pages = s.pages := rfl
@[simp] theorem mapPart_mp (s : State) (p : Nat) (f : Partition → Partition) : (s.mapPart p f).mp = s.mp := rfl
@[simp] theorem mapPart_boot (s : State) (p : Nat) (f : Partition → Partition) : (s.mapPart p f).boot = s.boot := rfl
@[simp] theorem mapPart_gulnos (s : State) (p : Nat) (f : Partition → Partition) : (s.mapPart p f).gulnos = s.gulnos := rfl
@[simp] theorem mapPart_display (s : State) (p : Nat) (f : Partition → Partition) : (s.mapPart p f).display = s.display := rfl
@[simp] theorem mapPart_health (s : State) (p : Nat) (f : Partition → Partition) : (s.mapPart p f).health = s.health := rfl
@[simp] theorem mapPart_ringlet (s : State) (p : Nat) (f : Partition → Partition) : (s.mapPart p f).ringlet = s.ringlet := rfl
@[simp] theorem mapPart_storage (s : State) (p : Nat) (f : Partition → Partition) : (s.mapPart p f).storage = s.storage := rfl
@[simp] theorem mapPart_met (s : State) (p : Nat) (f : Partition → Partition) : (s.mapPart p f).met = s.met := rfl
@[simp] theorem mapPart_thermal (s : State) (p : Nat) (f : Partition → Partition) : (s.mapPart p f).thermal = s.thermal := rfl
@[simp] theorem mapPart_telem (s : State) (p : Nat) (f : Partition → Partition) : (s.mapPart p f).telem = s.telem := rfl
@[simp] theorem mapPart_scores (s : State) (p : Nat) (f : Partition → Partition) : (s.mapPart p f).scores = s.scores := rfl
@[simp] theorem mapPart_schedAt (s : State) (p : Nat) (f : Partition → Partition) : (s.mapPart p f).schedAt = s.schedAt := rfl
@[simp] theorem mapPart_vectors (s : State) (p : Nat) (f : Partition → Partition) : (s.mapPart p f).vectors = s.vectors := rfl
@[simp] theorem mapPart_msix (s : State) (p : Nat) (f : Partition → Partition) : (s.mapPart p f).msix = s.msix := rfl
@[simp] theorem mapPart_answer (s : State) (p : Nat) (f : Partition → Partition) : (s.mapPart p f).answer = s.answer := rfl
@[simp] theorem mapPart_poisoned (s : State) (p : Nat) (f : Partition → Partition) : (s.mapPart p f).poisoned = s.poisoned := rfl

@[simp] theorem mapQueue_agenda (s : State) (q : Nat) (f : Queue → Queue) : (s.mapQueue q f).agenda = s.agenda := rfl
@[simp] theorem mapQueue_free (s : State) (q : Nat) (f : Queue → Queue) : (s.mapQueue q f).free = s.free := rfl
@[simp] theorem mapQueue_now (s : State) (q : Nat) (f : Queue → Queue) : (s.mapQueue q f).now = s.now := rfl
@[simp] theorem mapQueue_cur (s : State) (q : Nat) (f : Queue → Queue) : (s.mapQueue q f).cur = s.cur := rfl
@[simp] theorem mapQueue_serial (s : State) (q : Nat) (f : Queue → Queue) : (s.mapQueue q f).serial = s.serial := rfl
@[simp] theorem mapQueue_mem (s : State) (q : Nat) (f : Queue → Queue) : (s.mapQueue q f).mem = s.mem := rfl
@[simp] theorem mapQueue_waves (s : State) (q : Nat) (f : Queue → Queue) : (s.mapQueue q f).waves = s.waves := rfl
@[simp] theorem mapQueue_blocks (s : State) (q : Nat) (f : Queue → Queue) : (s.mapQueue q f).blocks = s.blocks := rfl
@[simp] theorem mapQueue_clubars (s : State) (q : Nat) (f : Queue → Queue) : (s.mapQueue q f).clubars = s.clubars := rfl
@[simp] theorem mapQueue_launches (s : State) (q : Nat) (f : Queue → Queue) : (s.mapQueue q f).launches = s.launches := rfl
@[simp] theorem mapQueue_ctxs (s : State) (q : Nat) (f : Queue → Queue) : (s.mapQueue q f).ctxs = s.ctxs := rfl
@[simp] theorem mapQueue_parts (s : State) (q : Nat) (f : Queue → Queue) : (s.mapQueue q f).parts = s.parts := rfl
@[simp] theorem mapQueue_results (s : State) (q : Nat) (f : Queue → Queue) : (s.mapQueue q f).results = s.results := rfl
@[simp] theorem mapQueue_writes (s : State) (q : Nat) (f : Queue → Queue) : (s.mapQueue q f).writes = s.writes := rfl
@[simp] theorem mapQueue_dirty (s : State) (q : Nat) (f : Queue → Queue) : (s.mapQueue q f).dirty = s.dirty := rfl
@[simp] theorem mapQueue_homes (s : State) (q : Nat) (f : Queue → Queue) : (s.mapQueue q f).homes = s.homes := rfl
@[simp] theorem mapQueue_l1 (s : State) (q : Nat) (f : Queue → Queue) : (s.mapQueue q f).l1 = s.l1 := rfl
@[simp] theorem mapQueue_past (s : State) (q : Nat) (f : Queue → Queue) : (s.mapQueue q f).past = s.past := rfl
@[simp] theorem mapQueue_tlb (s : State) (q : Nat) (f : Queue → Queue) : (s.mapQueue q f).tlb = s.tlb := rfl
@[simp] theorem mapQueue_invals (s : State) (q : Nat) (f : Queue → Queue) : (s.mapQueue q f).invals = s.invals := rfl
@[simp] theorem mapQueue_cmds (s : State) (q : Nat) (f : Queue → Queue) : (s.mapQueue q f).cmds = s.cmds := rfl
@[simp] theorem mapQueue_tasks (s : State) (q : Nat) (f : Queue → Queue) : (s.mapQueue q f).tasks = s.tasks := rfl
@[simp] theorem mapQueue_cores (s : State) (q : Nat) (f : Queue → Queue) : (s.mapQueue q f).cores = s.cores := rfl
@[simp] theorem mapQueue_rays (s : State) (q : Nat) (f : Queue → Queue) : (s.mapQueue q f).rays = s.rays := rfl
@[simp] theorem mapQueue_images (s : State) (q : Nat) (f : Queue → Queue) : (s.mapQueue q f).images = s.images := rfl
@[simp] theorem mapQueue_owners (s : State) (q : Nat) (f : Queue → Queue) : (s.mapQueue q f).owners = s.owners := rfl
@[simp] theorem mapQueue_pages (s : State) (q : Nat) (f : Queue → Queue) : (s.mapQueue q f).pages = s.pages := rfl
@[simp] theorem mapQueue_mp (s : State) (q : Nat) (f : Queue → Queue) : (s.mapQueue q f).mp = s.mp := rfl
@[simp] theorem mapQueue_boot (s : State) (q : Nat) (f : Queue → Queue) : (s.mapQueue q f).boot = s.boot := rfl
@[simp] theorem mapQueue_gulnos (s : State) (q : Nat) (f : Queue → Queue) : (s.mapQueue q f).gulnos = s.gulnos := rfl
@[simp] theorem mapQueue_display (s : State) (q : Nat) (f : Queue → Queue) : (s.mapQueue q f).display = s.display := rfl
@[simp] theorem mapQueue_health (s : State) (q : Nat) (f : Queue → Queue) : (s.mapQueue q f).health = s.health := rfl
@[simp] theorem mapQueue_ringlet (s : State) (q : Nat) (f : Queue → Queue) : (s.mapQueue q f).ringlet = s.ringlet := rfl
@[simp] theorem mapQueue_storage (s : State) (q : Nat) (f : Queue → Queue) : (s.mapQueue q f).storage = s.storage := rfl
@[simp] theorem mapQueue_met (s : State) (q : Nat) (f : Queue → Queue) : (s.mapQueue q f).met = s.met := rfl
@[simp] theorem mapQueue_thermal (s : State) (q : Nat) (f : Queue → Queue) : (s.mapQueue q f).thermal = s.thermal := rfl
@[simp] theorem mapQueue_telem (s : State) (q : Nat) (f : Queue → Queue) : (s.mapQueue q f).telem = s.telem := rfl
@[simp] theorem mapQueue_scores (s : State) (q : Nat) (f : Queue → Queue) : (s.mapQueue q f).scores = s.scores := rfl
@[simp] theorem mapQueue_schedAt (s : State) (q : Nat) (f : Queue → Queue) : (s.mapQueue q f).schedAt = s.schedAt := rfl
@[simp] theorem mapQueue_vectors (s : State) (q : Nat) (f : Queue → Queue) : (s.mapQueue q f).vectors = s.vectors := rfl
@[simp] theorem mapQueue_msix (s : State) (q : Nat) (f : Queue → Queue) : (s.mapQueue q f).msix = s.msix := rfl
@[simp] theorem mapQueue_answer (s : State) (q : Nat) (f : Queue → Queue) : (s.mapQueue q f).answer = s.answer := rfl
@[simp] theorem mapQueue_poisoned (s : State) (q : Nat) (f : Queue → Queue) : (s.mapQueue q f).poisoned = s.poisoned := rfl

@[simp] theorem mapHealth_agenda (s : State) (c : Nat) (f : Health → Health) : (s.mapHealth c f).agenda = s.agenda := rfl
@[simp] theorem mapHealth_free (s : State) (c : Nat) (f : Health → Health) : (s.mapHealth c f).free = s.free := rfl
@[simp] theorem mapHealth_now (s : State) (c : Nat) (f : Health → Health) : (s.mapHealth c f).now = s.now := rfl
@[simp] theorem mapHealth_cur (s : State) (c : Nat) (f : Health → Health) : (s.mapHealth c f).cur = s.cur := rfl
@[simp] theorem mapHealth_serial (s : State) (c : Nat) (f : Health → Health) : (s.mapHealth c f).serial = s.serial := rfl
@[simp] theorem mapHealth_mem (s : State) (c : Nat) (f : Health → Health) : (s.mapHealth c f).mem = s.mem := rfl
@[simp] theorem mapHealth_waves (s : State) (c : Nat) (f : Health → Health) : (s.mapHealth c f).waves = s.waves := rfl
@[simp] theorem mapHealth_blocks (s : State) (c : Nat) (f : Health → Health) : (s.mapHealth c f).blocks = s.blocks := rfl
@[simp] theorem mapHealth_clubars (s : State) (c : Nat) (f : Health → Health) : (s.mapHealth c f).clubars = s.clubars := rfl
@[simp] theorem mapHealth_launches (s : State) (c : Nat) (f : Health → Health) : (s.mapHealth c f).launches = s.launches := rfl
@[simp] theorem mapHealth_ctxs (s : State) (c : Nat) (f : Health → Health) : (s.mapHealth c f).ctxs = s.ctxs := rfl
@[simp] theorem mapHealth_parts (s : State) (c : Nat) (f : Health → Health) : (s.mapHealth c f).parts = s.parts := rfl
@[simp] theorem mapHealth_queues (s : State) (c : Nat) (f : Health → Health) : (s.mapHealth c f).queues = s.queues := rfl
@[simp] theorem mapHealth_results (s : State) (c : Nat) (f : Health → Health) : (s.mapHealth c f).results = s.results := rfl
@[simp] theorem mapHealth_writes (s : State) (c : Nat) (f : Health → Health) : (s.mapHealth c f).writes = s.writes := rfl
@[simp] theorem mapHealth_dirty (s : State) (c : Nat) (f : Health → Health) : (s.mapHealth c f).dirty = s.dirty := rfl
@[simp] theorem mapHealth_homes (s : State) (c : Nat) (f : Health → Health) : (s.mapHealth c f).homes = s.homes := rfl
@[simp] theorem mapHealth_l1 (s : State) (c : Nat) (f : Health → Health) : (s.mapHealth c f).l1 = s.l1 := rfl
@[simp] theorem mapHealth_past (s : State) (c : Nat) (f : Health → Health) : (s.mapHealth c f).past = s.past := rfl
@[simp] theorem mapHealth_tlb (s : State) (c : Nat) (f : Health → Health) : (s.mapHealth c f).tlb = s.tlb := rfl
@[simp] theorem mapHealth_invals (s : State) (c : Nat) (f : Health → Health) : (s.mapHealth c f).invals = s.invals := rfl
@[simp] theorem mapHealth_cmds (s : State) (c : Nat) (f : Health → Health) : (s.mapHealth c f).cmds = s.cmds := rfl
@[simp] theorem mapHealth_tasks (s : State) (c : Nat) (f : Health → Health) : (s.mapHealth c f).tasks = s.tasks := rfl
@[simp] theorem mapHealth_cores (s : State) (c : Nat) (f : Health → Health) : (s.mapHealth c f).cores = s.cores := rfl
@[simp] theorem mapHealth_rays (s : State) (c : Nat) (f : Health → Health) : (s.mapHealth c f).rays = s.rays := rfl
@[simp] theorem mapHealth_images (s : State) (c : Nat) (f : Health → Health) : (s.mapHealth c f).images = s.images := rfl
@[simp] theorem mapHealth_owners (s : State) (c : Nat) (f : Health → Health) : (s.mapHealth c f).owners = s.owners := rfl
@[simp] theorem mapHealth_pages (s : State) (c : Nat) (f : Health → Health) : (s.mapHealth c f).pages = s.pages := rfl
@[simp] theorem mapHealth_mp (s : State) (c : Nat) (f : Health → Health) : (s.mapHealth c f).mp = s.mp := rfl
@[simp] theorem mapHealth_boot (s : State) (c : Nat) (f : Health → Health) : (s.mapHealth c f).boot = s.boot := rfl
@[simp] theorem mapHealth_gulnos (s : State) (c : Nat) (f : Health → Health) : (s.mapHealth c f).gulnos = s.gulnos := rfl
@[simp] theorem mapHealth_display (s : State) (c : Nat) (f : Health → Health) : (s.mapHealth c f).display = s.display := rfl
@[simp] theorem mapHealth_ringlet (s : State) (c : Nat) (f : Health → Health) : (s.mapHealth c f).ringlet = s.ringlet := rfl
@[simp] theorem mapHealth_storage (s : State) (c : Nat) (f : Health → Health) : (s.mapHealth c f).storage = s.storage := rfl
@[simp] theorem mapHealth_met (s : State) (c : Nat) (f : Health → Health) : (s.mapHealth c f).met = s.met := rfl
@[simp] theorem mapHealth_thermal (s : State) (c : Nat) (f : Health → Health) : (s.mapHealth c f).thermal = s.thermal := rfl
@[simp] theorem mapHealth_telem (s : State) (c : Nat) (f : Health → Health) : (s.mapHealth c f).telem = s.telem := rfl
@[simp] theorem mapHealth_scores (s : State) (c : Nat) (f : Health → Health) : (s.mapHealth c f).scores = s.scores := rfl
@[simp] theorem mapHealth_schedAt (s : State) (c : Nat) (f : Health → Health) : (s.mapHealth c f).schedAt = s.schedAt := rfl
@[simp] theorem mapHealth_vectors (s : State) (c : Nat) (f : Health → Health) : (s.mapHealth c f).vectors = s.vectors := rfl
@[simp] theorem mapHealth_msix (s : State) (c : Nat) (f : Health → Health) : (s.mapHealth c f).msix = s.msix := rfl
@[simp] theorem mapHealth_answer (s : State) (c : Nat) (f : Health → Health) : (s.mapHealth c f).answer = s.answer := rfl
@[simp] theorem mapHealth_poisoned (s : State) (c : Nat) (f : Health → Health) : (s.mapHealth c f).poisoned = s.poisoned := rfl

@[simp] theorem mapPage_agenda (s : State) (k : Nat) (f : Page → Page) : (s.mapPage k f).agenda = s.agenda := rfl
@[simp] theorem mapPage_free (s : State) (k : Nat) (f : Page → Page) : (s.mapPage k f).free = s.free := rfl
@[simp] theorem mapPage_now (s : State) (k : Nat) (f : Page → Page) : (s.mapPage k f).now = s.now := rfl
@[simp] theorem mapPage_cur (s : State) (k : Nat) (f : Page → Page) : (s.mapPage k f).cur = s.cur := rfl
@[simp] theorem mapPage_serial (s : State) (k : Nat) (f : Page → Page) : (s.mapPage k f).serial = s.serial := rfl
@[simp] theorem mapPage_mem (s : State) (k : Nat) (f : Page → Page) : (s.mapPage k f).mem = s.mem := rfl
@[simp] theorem mapPage_waves (s : State) (k : Nat) (f : Page → Page) : (s.mapPage k f).waves = s.waves := rfl
@[simp] theorem mapPage_blocks (s : State) (k : Nat) (f : Page → Page) : (s.mapPage k f).blocks = s.blocks := rfl
@[simp] theorem mapPage_clubars (s : State) (k : Nat) (f : Page → Page) : (s.mapPage k f).clubars = s.clubars := rfl
@[simp] theorem mapPage_launches (s : State) (k : Nat) (f : Page → Page) : (s.mapPage k f).launches = s.launches := rfl
@[simp] theorem mapPage_ctxs (s : State) (k : Nat) (f : Page → Page) : (s.mapPage k f).ctxs = s.ctxs := rfl
@[simp] theorem mapPage_parts (s : State) (k : Nat) (f : Page → Page) : (s.mapPage k f).parts = s.parts := rfl
@[simp] theorem mapPage_queues (s : State) (k : Nat) (f : Page → Page) : (s.mapPage k f).queues = s.queues := rfl
@[simp] theorem mapPage_results (s : State) (k : Nat) (f : Page → Page) : (s.mapPage k f).results = s.results := rfl
@[simp] theorem mapPage_writes (s : State) (k : Nat) (f : Page → Page) : (s.mapPage k f).writes = s.writes := rfl
@[simp] theorem mapPage_dirty (s : State) (k : Nat) (f : Page → Page) : (s.mapPage k f).dirty = s.dirty := rfl
@[simp] theorem mapPage_homes (s : State) (k : Nat) (f : Page → Page) : (s.mapPage k f).homes = s.homes := rfl
@[simp] theorem mapPage_l1 (s : State) (k : Nat) (f : Page → Page) : (s.mapPage k f).l1 = s.l1 := rfl
@[simp] theorem mapPage_past (s : State) (k : Nat) (f : Page → Page) : (s.mapPage k f).past = s.past := rfl
@[simp] theorem mapPage_tlb (s : State) (k : Nat) (f : Page → Page) : (s.mapPage k f).tlb = s.tlb := rfl
@[simp] theorem mapPage_invals (s : State) (k : Nat) (f : Page → Page) : (s.mapPage k f).invals = s.invals := rfl
@[simp] theorem mapPage_cmds (s : State) (k : Nat) (f : Page → Page) : (s.mapPage k f).cmds = s.cmds := rfl
@[simp] theorem mapPage_tasks (s : State) (k : Nat) (f : Page → Page) : (s.mapPage k f).tasks = s.tasks := rfl
@[simp] theorem mapPage_cores (s : State) (k : Nat) (f : Page → Page) : (s.mapPage k f).cores = s.cores := rfl
@[simp] theorem mapPage_rays (s : State) (k : Nat) (f : Page → Page) : (s.mapPage k f).rays = s.rays := rfl
@[simp] theorem mapPage_images (s : State) (k : Nat) (f : Page → Page) : (s.mapPage k f).images = s.images := rfl
@[simp] theorem mapPage_owners (s : State) (k : Nat) (f : Page → Page) : (s.mapPage k f).owners = s.owners := rfl
@[simp] theorem mapPage_mp (s : State) (k : Nat) (f : Page → Page) : (s.mapPage k f).mp = s.mp := rfl
@[simp] theorem mapPage_boot (s : State) (k : Nat) (f : Page → Page) : (s.mapPage k f).boot = s.boot := rfl
@[simp] theorem mapPage_gulnos (s : State) (k : Nat) (f : Page → Page) : (s.mapPage k f).gulnos = s.gulnos := rfl
@[simp] theorem mapPage_display (s : State) (k : Nat) (f : Page → Page) : (s.mapPage k f).display = s.display := rfl
@[simp] theorem mapPage_health (s : State) (k : Nat) (f : Page → Page) : (s.mapPage k f).health = s.health := rfl
@[simp] theorem mapPage_ringlet (s : State) (k : Nat) (f : Page → Page) : (s.mapPage k f).ringlet = s.ringlet := rfl
@[simp] theorem mapPage_storage (s : State) (k : Nat) (f : Page → Page) : (s.mapPage k f).storage = s.storage := rfl
@[simp] theorem mapPage_met (s : State) (k : Nat) (f : Page → Page) : (s.mapPage k f).met = s.met := rfl
@[simp] theorem mapPage_thermal (s : State) (k : Nat) (f : Page → Page) : (s.mapPage k f).thermal = s.thermal := rfl
@[simp] theorem mapPage_telem (s : State) (k : Nat) (f : Page → Page) : (s.mapPage k f).telem = s.telem := rfl
@[simp] theorem mapPage_scores (s : State) (k : Nat) (f : Page → Page) : (s.mapPage k f).scores = s.scores := rfl
@[simp] theorem mapPage_schedAt (s : State) (k : Nat) (f : Page → Page) : (s.mapPage k f).schedAt = s.schedAt := rfl
@[simp] theorem mapPage_vectors (s : State) (k : Nat) (f : Page → Page) : (s.mapPage k f).vectors = s.vectors := rfl
@[simp] theorem mapPage_msix (s : State) (k : Nat) (f : Page → Page) : (s.mapPage k f).msix = s.msix := rfl
@[simp] theorem mapPage_answer (s : State) (k : Nat) (f : Page → Page) : (s.mapPage k f).answer = s.answer := rfl
@[simp] theorem mapPage_poisoned (s : State) (k : Nat) (f : Page → Page) : (s.mapPage k f).poisoned = s.poisoned := rfl

@[simp] theorem mapPipe_agenda (s : State) (k : Nat) (f : Pipe → Pipe) : (s.mapPipe k f).agenda = s.agenda := rfl
@[simp] theorem mapPipe_free (s : State) (k : Nat) (f : Pipe → Pipe) : (s.mapPipe k f).free = s.free := rfl
@[simp] theorem mapPipe_now (s : State) (k : Nat) (f : Pipe → Pipe) : (s.mapPipe k f).now = s.now := rfl
@[simp] theorem mapPipe_cur (s : State) (k : Nat) (f : Pipe → Pipe) : (s.mapPipe k f).cur = s.cur := rfl
@[simp] theorem mapPipe_serial (s : State) (k : Nat) (f : Pipe → Pipe) : (s.mapPipe k f).serial = s.serial := rfl
@[simp] theorem mapPipe_mem (s : State) (k : Nat) (f : Pipe → Pipe) : (s.mapPipe k f).mem = s.mem := rfl
@[simp] theorem mapPipe_waves (s : State) (k : Nat) (f : Pipe → Pipe) : (s.mapPipe k f).waves = s.waves := rfl
@[simp] theorem mapPipe_blocks (s : State) (k : Nat) (f : Pipe → Pipe) : (s.mapPipe k f).blocks = s.blocks := rfl
@[simp] theorem mapPipe_clubars (s : State) (k : Nat) (f : Pipe → Pipe) : (s.mapPipe k f).clubars = s.clubars := rfl
@[simp] theorem mapPipe_launches (s : State) (k : Nat) (f : Pipe → Pipe) : (s.mapPipe k f).launches = s.launches := rfl
@[simp] theorem mapPipe_ctxs (s : State) (k : Nat) (f : Pipe → Pipe) : (s.mapPipe k f).ctxs = s.ctxs := rfl
@[simp] theorem mapPipe_parts (s : State) (k : Nat) (f : Pipe → Pipe) : (s.mapPipe k f).parts = s.parts := rfl
@[simp] theorem mapPipe_queues (s : State) (k : Nat) (f : Pipe → Pipe) : (s.mapPipe k f).queues = s.queues := rfl
@[simp] theorem mapPipe_results (s : State) (k : Nat) (f : Pipe → Pipe) : (s.mapPipe k f).results = s.results := rfl
@[simp] theorem mapPipe_writes (s : State) (k : Nat) (f : Pipe → Pipe) : (s.mapPipe k f).writes = s.writes := rfl
@[simp] theorem mapPipe_dirty (s : State) (k : Nat) (f : Pipe → Pipe) : (s.mapPipe k f).dirty = s.dirty := rfl
@[simp] theorem mapPipe_homes (s : State) (k : Nat) (f : Pipe → Pipe) : (s.mapPipe k f).homes = s.homes := rfl
@[simp] theorem mapPipe_l1 (s : State) (k : Nat) (f : Pipe → Pipe) : (s.mapPipe k f).l1 = s.l1 := rfl
@[simp] theorem mapPipe_past (s : State) (k : Nat) (f : Pipe → Pipe) : (s.mapPipe k f).past = s.past := rfl
@[simp] theorem mapPipe_tlb (s : State) (k : Nat) (f : Pipe → Pipe) : (s.mapPipe k f).tlb = s.tlb := rfl
@[simp] theorem mapPipe_invals (s : State) (k : Nat) (f : Pipe → Pipe) : (s.mapPipe k f).invals = s.invals := rfl
@[simp] theorem mapPipe_cmds (s : State) (k : Nat) (f : Pipe → Pipe) : (s.mapPipe k f).cmds = s.cmds := rfl
@[simp] theorem mapPipe_tasks (s : State) (k : Nat) (f : Pipe → Pipe) : (s.mapPipe k f).tasks = s.tasks := rfl
@[simp] theorem mapPipe_cores (s : State) (k : Nat) (f : Pipe → Pipe) : (s.mapPipe k f).cores = s.cores := rfl
@[simp] theorem mapPipe_rays (s : State) (k : Nat) (f : Pipe → Pipe) : (s.mapPipe k f).rays = s.rays := rfl
@[simp] theorem mapPipe_images (s : State) (k : Nat) (f : Pipe → Pipe) : (s.mapPipe k f).images = s.images := rfl
@[simp] theorem mapPipe_owners (s : State) (k : Nat) (f : Pipe → Pipe) : (s.mapPipe k f).owners = s.owners := rfl
@[simp] theorem mapPipe_pages (s : State) (k : Nat) (f : Pipe → Pipe) : (s.mapPipe k f).pages = s.pages := rfl
@[simp] theorem mapPipe_mp (s : State) (k : Nat) (f : Pipe → Pipe) : (s.mapPipe k f).mp = s.mp := rfl
@[simp] theorem mapPipe_boot (s : State) (k : Nat) (f : Pipe → Pipe) : (s.mapPipe k f).boot = s.boot := rfl
@[simp] theorem mapPipe_gulnos (s : State) (k : Nat) (f : Pipe → Pipe) : (s.mapPipe k f).gulnos = s.gulnos := rfl
@[simp] theorem mapPipe_health (s : State) (k : Nat) (f : Pipe → Pipe) : (s.mapPipe k f).health = s.health := rfl
@[simp] theorem mapPipe_ringlet (s : State) (k : Nat) (f : Pipe → Pipe) : (s.mapPipe k f).ringlet = s.ringlet := rfl
@[simp] theorem mapPipe_storage (s : State) (k : Nat) (f : Pipe → Pipe) : (s.mapPipe k f).storage = s.storage := rfl
@[simp] theorem mapPipe_met (s : State) (k : Nat) (f : Pipe → Pipe) : (s.mapPipe k f).met = s.met := rfl
@[simp] theorem mapPipe_thermal (s : State) (k : Nat) (f : Pipe → Pipe) : (s.mapPipe k f).thermal = s.thermal := rfl
@[simp] theorem mapPipe_telem (s : State) (k : Nat) (f : Pipe → Pipe) : (s.mapPipe k f).telem = s.telem := rfl
@[simp] theorem mapPipe_scores (s : State) (k : Nat) (f : Pipe → Pipe) : (s.mapPipe k f).scores = s.scores := rfl
@[simp] theorem mapPipe_schedAt (s : State) (k : Nat) (f : Pipe → Pipe) : (s.mapPipe k f).schedAt = s.schedAt := rfl
@[simp] theorem mapPipe_vectors (s : State) (k : Nat) (f : Pipe → Pipe) : (s.mapPipe k f).vectors = s.vectors := rfl
@[simp] theorem mapPipe_msix (s : State) (k : Nat) (f : Pipe → Pipe) : (s.mapPipe k f).msix = s.msix := rfl
@[simp] theorem mapPipe_answer (s : State) (k : Nat) (f : Pipe → Pipe) : (s.mapPipe k f).answer = s.answer := rfl
@[simp] theorem mapPipe_poisoned (s : State) (k : Nat) (f : Pipe → Pipe) : (s.mapPipe k f).poisoned = s.poisoned := rfl

@[simp] theorem mapTask_agenda (s : State) (p : Nat) (tok : W32) (f : Task → Task) : (s.mapTask p tok f).agenda = s.agenda := rfl
@[simp] theorem mapTask_free (s : State) (p : Nat) (tok : W32) (f : Task → Task) : (s.mapTask p tok f).free = s.free := rfl
@[simp] theorem mapTask_now (s : State) (p : Nat) (tok : W32) (f : Task → Task) : (s.mapTask p tok f).now = s.now := rfl
@[simp] theorem mapTask_cur (s : State) (p : Nat) (tok : W32) (f : Task → Task) : (s.mapTask p tok f).cur = s.cur := rfl
@[simp] theorem mapTask_serial (s : State) (p : Nat) (tok : W32) (f : Task → Task) : (s.mapTask p tok f).serial = s.serial := rfl
@[simp] theorem mapTask_mem (s : State) (p : Nat) (tok : W32) (f : Task → Task) : (s.mapTask p tok f).mem = s.mem := rfl
@[simp] theorem mapTask_waves (s : State) (p : Nat) (tok : W32) (f : Task → Task) : (s.mapTask p tok f).waves = s.waves := rfl
@[simp] theorem mapTask_blocks (s : State) (p : Nat) (tok : W32) (f : Task → Task) : (s.mapTask p tok f).blocks = s.blocks := rfl
@[simp] theorem mapTask_clubars (s : State) (p : Nat) (tok : W32) (f : Task → Task) : (s.mapTask p tok f).clubars = s.clubars := rfl
@[simp] theorem mapTask_launches (s : State) (p : Nat) (tok : W32) (f : Task → Task) : (s.mapTask p tok f).launches = s.launches := rfl
@[simp] theorem mapTask_ctxs (s : State) (p : Nat) (tok : W32) (f : Task → Task) : (s.mapTask p tok f).ctxs = s.ctxs := rfl
@[simp] theorem mapTask_parts (s : State) (p : Nat) (tok : W32) (f : Task → Task) : (s.mapTask p tok f).parts = s.parts := rfl
@[simp] theorem mapTask_queues (s : State) (p : Nat) (tok : W32) (f : Task → Task) : (s.mapTask p tok f).queues = s.queues := rfl
@[simp] theorem mapTask_results (s : State) (p : Nat) (tok : W32) (f : Task → Task) : (s.mapTask p tok f).results = s.results := rfl
@[simp] theorem mapTask_writes (s : State) (p : Nat) (tok : W32) (f : Task → Task) : (s.mapTask p tok f).writes = s.writes := rfl
@[simp] theorem mapTask_dirty (s : State) (p : Nat) (tok : W32) (f : Task → Task) : (s.mapTask p tok f).dirty = s.dirty := rfl
@[simp] theorem mapTask_homes (s : State) (p : Nat) (tok : W32) (f : Task → Task) : (s.mapTask p tok f).homes = s.homes := rfl
@[simp] theorem mapTask_l1 (s : State) (p : Nat) (tok : W32) (f : Task → Task) : (s.mapTask p tok f).l1 = s.l1 := rfl
@[simp] theorem mapTask_past (s : State) (p : Nat) (tok : W32) (f : Task → Task) : (s.mapTask p tok f).past = s.past := rfl
@[simp] theorem mapTask_tlb (s : State) (p : Nat) (tok : W32) (f : Task → Task) : (s.mapTask p tok f).tlb = s.tlb := rfl
@[simp] theorem mapTask_invals (s : State) (p : Nat) (tok : W32) (f : Task → Task) : (s.mapTask p tok f).invals = s.invals := rfl
@[simp] theorem mapTask_cmds (s : State) (p : Nat) (tok : W32) (f : Task → Task) : (s.mapTask p tok f).cmds = s.cmds := rfl
@[simp] theorem mapTask_cores (s : State) (p : Nat) (tok : W32) (f : Task → Task) : (s.mapTask p tok f).cores = s.cores := rfl
@[simp] theorem mapTask_rays (s : State) (p : Nat) (tok : W32) (f : Task → Task) : (s.mapTask p tok f).rays = s.rays := rfl
@[simp] theorem mapTask_images (s : State) (p : Nat) (tok : W32) (f : Task → Task) : (s.mapTask p tok f).images = s.images := rfl
@[simp] theorem mapTask_owners (s : State) (p : Nat) (tok : W32) (f : Task → Task) : (s.mapTask p tok f).owners = s.owners := rfl
@[simp] theorem mapTask_pages (s : State) (p : Nat) (tok : W32) (f : Task → Task) : (s.mapTask p tok f).pages = s.pages := rfl
@[simp] theorem mapTask_mp (s : State) (p : Nat) (tok : W32) (f : Task → Task) : (s.mapTask p tok f).mp = s.mp := rfl
@[simp] theorem mapTask_boot (s : State) (p : Nat) (tok : W32) (f : Task → Task) : (s.mapTask p tok f).boot = s.boot := rfl
@[simp] theorem mapTask_gulnos (s : State) (p : Nat) (tok : W32) (f : Task → Task) : (s.mapTask p tok f).gulnos = s.gulnos := rfl
@[simp] theorem mapTask_display (s : State) (p : Nat) (tok : W32) (f : Task → Task) : (s.mapTask p tok f).display = s.display := rfl
@[simp] theorem mapTask_health (s : State) (p : Nat) (tok : W32) (f : Task → Task) : (s.mapTask p tok f).health = s.health := rfl
@[simp] theorem mapTask_ringlet (s : State) (p : Nat) (tok : W32) (f : Task → Task) : (s.mapTask p tok f).ringlet = s.ringlet := rfl
@[simp] theorem mapTask_storage (s : State) (p : Nat) (tok : W32) (f : Task → Task) : (s.mapTask p tok f).storage = s.storage := rfl
@[simp] theorem mapTask_met (s : State) (p : Nat) (tok : W32) (f : Task → Task) : (s.mapTask p tok f).met = s.met := rfl
@[simp] theorem mapTask_thermal (s : State) (p : Nat) (tok : W32) (f : Task → Task) : (s.mapTask p tok f).thermal = s.thermal := rfl
@[simp] theorem mapTask_telem (s : State) (p : Nat) (tok : W32) (f : Task → Task) : (s.mapTask p tok f).telem = s.telem := rfl
@[simp] theorem mapTask_scores (s : State) (p : Nat) (tok : W32) (f : Task → Task) : (s.mapTask p tok f).scores = s.scores := rfl
@[simp] theorem mapTask_schedAt (s : State) (p : Nat) (tok : W32) (f : Task → Task) : (s.mapTask p tok f).schedAt = s.schedAt := rfl
@[simp] theorem mapTask_vectors (s : State) (p : Nat) (tok : W32) (f : Task → Task) : (s.mapTask p tok f).vectors = s.vectors := rfl
@[simp] theorem mapTask_msix (s : State) (p : Nat) (tok : W32) (f : Task → Task) : (s.mapTask p tok f).msix = s.msix := rfl
@[simp] theorem mapTask_answer (s : State) (p : Nat) (tok : W32) (f : Task → Task) : (s.mapTask p tok f).answer = s.answer := rfl
@[simp] theorem mapTask_poisoned (s : State) (p : Nat) (tok : W32) (f : Task → Task) : (s.mapTask p tok f).poisoned = s.poisoned := rfl

@[simp] theorem mapRay_agenda (s : State) (l : Nat) (id : W32) (f : Ray → Ray) : (s.mapRay l id f).agenda = s.agenda := rfl
@[simp] theorem mapRay_free (s : State) (l : Nat) (id : W32) (f : Ray → Ray) : (s.mapRay l id f).free = s.free := rfl
@[simp] theorem mapRay_now (s : State) (l : Nat) (id : W32) (f : Ray → Ray) : (s.mapRay l id f).now = s.now := rfl
@[simp] theorem mapRay_cur (s : State) (l : Nat) (id : W32) (f : Ray → Ray) : (s.mapRay l id f).cur = s.cur := rfl
@[simp] theorem mapRay_serial (s : State) (l : Nat) (id : W32) (f : Ray → Ray) : (s.mapRay l id f).serial = s.serial := rfl
@[simp] theorem mapRay_mem (s : State) (l : Nat) (id : W32) (f : Ray → Ray) : (s.mapRay l id f).mem = s.mem := rfl
@[simp] theorem mapRay_waves (s : State) (l : Nat) (id : W32) (f : Ray → Ray) : (s.mapRay l id f).waves = s.waves := rfl
@[simp] theorem mapRay_blocks (s : State) (l : Nat) (id : W32) (f : Ray → Ray) : (s.mapRay l id f).blocks = s.blocks := rfl
@[simp] theorem mapRay_clubars (s : State) (l : Nat) (id : W32) (f : Ray → Ray) : (s.mapRay l id f).clubars = s.clubars := rfl
@[simp] theorem mapRay_launches (s : State) (l : Nat) (id : W32) (f : Ray → Ray) : (s.mapRay l id f).launches = s.launches := rfl
@[simp] theorem mapRay_ctxs (s : State) (l : Nat) (id : W32) (f : Ray → Ray) : (s.mapRay l id f).ctxs = s.ctxs := rfl
@[simp] theorem mapRay_parts (s : State) (l : Nat) (id : W32) (f : Ray → Ray) : (s.mapRay l id f).parts = s.parts := rfl
@[simp] theorem mapRay_queues (s : State) (l : Nat) (id : W32) (f : Ray → Ray) : (s.mapRay l id f).queues = s.queues := rfl
@[simp] theorem mapRay_results (s : State) (l : Nat) (id : W32) (f : Ray → Ray) : (s.mapRay l id f).results = s.results := rfl
@[simp] theorem mapRay_writes (s : State) (l : Nat) (id : W32) (f : Ray → Ray) : (s.mapRay l id f).writes = s.writes := rfl
@[simp] theorem mapRay_dirty (s : State) (l : Nat) (id : W32) (f : Ray → Ray) : (s.mapRay l id f).dirty = s.dirty := rfl
@[simp] theorem mapRay_homes (s : State) (l : Nat) (id : W32) (f : Ray → Ray) : (s.mapRay l id f).homes = s.homes := rfl
@[simp] theorem mapRay_l1 (s : State) (l : Nat) (id : W32) (f : Ray → Ray) : (s.mapRay l id f).l1 = s.l1 := rfl
@[simp] theorem mapRay_past (s : State) (l : Nat) (id : W32) (f : Ray → Ray) : (s.mapRay l id f).past = s.past := rfl
@[simp] theorem mapRay_tlb (s : State) (l : Nat) (id : W32) (f : Ray → Ray) : (s.mapRay l id f).tlb = s.tlb := rfl
@[simp] theorem mapRay_invals (s : State) (l : Nat) (id : W32) (f : Ray → Ray) : (s.mapRay l id f).invals = s.invals := rfl
@[simp] theorem mapRay_cmds (s : State) (l : Nat) (id : W32) (f : Ray → Ray) : (s.mapRay l id f).cmds = s.cmds := rfl
@[simp] theorem mapRay_tasks (s : State) (l : Nat) (id : W32) (f : Ray → Ray) : (s.mapRay l id f).tasks = s.tasks := rfl
@[simp] theorem mapRay_cores (s : State) (l : Nat) (id : W32) (f : Ray → Ray) : (s.mapRay l id f).cores = s.cores := rfl
@[simp] theorem mapRay_images (s : State) (l : Nat) (id : W32) (f : Ray → Ray) : (s.mapRay l id f).images = s.images := rfl
@[simp] theorem mapRay_owners (s : State) (l : Nat) (id : W32) (f : Ray → Ray) : (s.mapRay l id f).owners = s.owners := rfl
@[simp] theorem mapRay_pages (s : State) (l : Nat) (id : W32) (f : Ray → Ray) : (s.mapRay l id f).pages = s.pages := rfl
@[simp] theorem mapRay_mp (s : State) (l : Nat) (id : W32) (f : Ray → Ray) : (s.mapRay l id f).mp = s.mp := rfl
@[simp] theorem mapRay_boot (s : State) (l : Nat) (id : W32) (f : Ray → Ray) : (s.mapRay l id f).boot = s.boot := rfl
@[simp] theorem mapRay_gulnos (s : State) (l : Nat) (id : W32) (f : Ray → Ray) : (s.mapRay l id f).gulnos = s.gulnos := rfl
@[simp] theorem mapRay_display (s : State) (l : Nat) (id : W32) (f : Ray → Ray) : (s.mapRay l id f).display = s.display := rfl
@[simp] theorem mapRay_health (s : State) (l : Nat) (id : W32) (f : Ray → Ray) : (s.mapRay l id f).health = s.health := rfl
@[simp] theorem mapRay_ringlet (s : State) (l : Nat) (id : W32) (f : Ray → Ray) : (s.mapRay l id f).ringlet = s.ringlet := rfl
@[simp] theorem mapRay_storage (s : State) (l : Nat) (id : W32) (f : Ray → Ray) : (s.mapRay l id f).storage = s.storage := rfl
@[simp] theorem mapRay_met (s : State) (l : Nat) (id : W32) (f : Ray → Ray) : (s.mapRay l id f).met = s.met := rfl
@[simp] theorem mapRay_thermal (s : State) (l : Nat) (id : W32) (f : Ray → Ray) : (s.mapRay l id f).thermal = s.thermal := rfl
@[simp] theorem mapRay_telem (s : State) (l : Nat) (id : W32) (f : Ray → Ray) : (s.mapRay l id f).telem = s.telem := rfl
@[simp] theorem mapRay_scores (s : State) (l : Nat) (id : W32) (f : Ray → Ray) : (s.mapRay l id f).scores = s.scores := rfl
@[simp] theorem mapRay_schedAt (s : State) (l : Nat) (id : W32) (f : Ray → Ray) : (s.mapRay l id f).schedAt = s.schedAt := rfl
@[simp] theorem mapRay_vectors (s : State) (l : Nat) (id : W32) (f : Ray → Ray) : (s.mapRay l id f).vectors = s.vectors := rfl
@[simp] theorem mapRay_msix (s : State) (l : Nat) (id : W32) (f : Ray → Ray) : (s.mapRay l id f).msix = s.msix := rfl
@[simp] theorem mapRay_answer (s : State) (l : Nat) (id : W32) (f : Ray → Ray) : (s.mapRay l id f).answer = s.answer := rfl
@[simp] theorem mapRay_poisoned (s : State) (l : Nat) (id : W32) (f : Ray → Ray) : (s.mapRay l id f).poisoned = s.poisoned := rfl

@[simp] theorem mapCmd_agenda (s : State) (c : Cmd) (f : Cmd → Cmd) : (s.mapCmd c f).agenda = s.agenda := rfl
@[simp] theorem mapCmd_free (s : State) (c : Cmd) (f : Cmd → Cmd) : (s.mapCmd c f).free = s.free := rfl
@[simp] theorem mapCmd_now (s : State) (c : Cmd) (f : Cmd → Cmd) : (s.mapCmd c f).now = s.now := rfl
@[simp] theorem mapCmd_cur (s : State) (c : Cmd) (f : Cmd → Cmd) : (s.mapCmd c f).cur = s.cur := rfl
@[simp] theorem mapCmd_serial (s : State) (c : Cmd) (f : Cmd → Cmd) : (s.mapCmd c f).serial = s.serial := rfl
@[simp] theorem mapCmd_mem (s : State) (c : Cmd) (f : Cmd → Cmd) : (s.mapCmd c f).mem = s.mem := rfl
@[simp] theorem mapCmd_waves (s : State) (c : Cmd) (f : Cmd → Cmd) : (s.mapCmd c f).waves = s.waves := rfl
@[simp] theorem mapCmd_blocks (s : State) (c : Cmd) (f : Cmd → Cmd) : (s.mapCmd c f).blocks = s.blocks := rfl
@[simp] theorem mapCmd_clubars (s : State) (c : Cmd) (f : Cmd → Cmd) : (s.mapCmd c f).clubars = s.clubars := rfl
@[simp] theorem mapCmd_launches (s : State) (c : Cmd) (f : Cmd → Cmd) : (s.mapCmd c f).launches = s.launches := rfl
@[simp] theorem mapCmd_ctxs (s : State) (c : Cmd) (f : Cmd → Cmd) : (s.mapCmd c f).ctxs = s.ctxs := rfl
@[simp] theorem mapCmd_parts (s : State) (c : Cmd) (f : Cmd → Cmd) : (s.mapCmd c f).parts = s.parts := rfl
@[simp] theorem mapCmd_queues (s : State) (c : Cmd) (f : Cmd → Cmd) : (s.mapCmd c f).queues = s.queues := rfl
@[simp] theorem mapCmd_results (s : State) (c : Cmd) (f : Cmd → Cmd) : (s.mapCmd c f).results = s.results := rfl
@[simp] theorem mapCmd_writes (s : State) (c : Cmd) (f : Cmd → Cmd) : (s.mapCmd c f).writes = s.writes := rfl
@[simp] theorem mapCmd_dirty (s : State) (c : Cmd) (f : Cmd → Cmd) : (s.mapCmd c f).dirty = s.dirty := rfl
@[simp] theorem mapCmd_homes (s : State) (c : Cmd) (f : Cmd → Cmd) : (s.mapCmd c f).homes = s.homes := rfl
@[simp] theorem mapCmd_l1 (s : State) (c : Cmd) (f : Cmd → Cmd) : (s.mapCmd c f).l1 = s.l1 := rfl
@[simp] theorem mapCmd_past (s : State) (c : Cmd) (f : Cmd → Cmd) : (s.mapCmd c f).past = s.past := rfl
@[simp] theorem mapCmd_tlb (s : State) (c : Cmd) (f : Cmd → Cmd) : (s.mapCmd c f).tlb = s.tlb := rfl
@[simp] theorem mapCmd_invals (s : State) (c : Cmd) (f : Cmd → Cmd) : (s.mapCmd c f).invals = s.invals := rfl
@[simp] theorem mapCmd_tasks (s : State) (c : Cmd) (f : Cmd → Cmd) : (s.mapCmd c f).tasks = s.tasks := rfl
@[simp] theorem mapCmd_cores (s : State) (c : Cmd) (f : Cmd → Cmd) : (s.mapCmd c f).cores = s.cores := rfl
@[simp] theorem mapCmd_rays (s : State) (c : Cmd) (f : Cmd → Cmd) : (s.mapCmd c f).rays = s.rays := rfl
@[simp] theorem mapCmd_images (s : State) (c : Cmd) (f : Cmd → Cmd) : (s.mapCmd c f).images = s.images := rfl
@[simp] theorem mapCmd_owners (s : State) (c : Cmd) (f : Cmd → Cmd) : (s.mapCmd c f).owners = s.owners := rfl
@[simp] theorem mapCmd_pages (s : State) (c : Cmd) (f : Cmd → Cmd) : (s.mapCmd c f).pages = s.pages := rfl
@[simp] theorem mapCmd_mp (s : State) (c : Cmd) (f : Cmd → Cmd) : (s.mapCmd c f).mp = s.mp := rfl
@[simp] theorem mapCmd_boot (s : State) (c : Cmd) (f : Cmd → Cmd) : (s.mapCmd c f).boot = s.boot := rfl
@[simp] theorem mapCmd_gulnos (s : State) (c : Cmd) (f : Cmd → Cmd) : (s.mapCmd c f).gulnos = s.gulnos := rfl
@[simp] theorem mapCmd_display (s : State) (c : Cmd) (f : Cmd → Cmd) : (s.mapCmd c f).display = s.display := rfl
@[simp] theorem mapCmd_health (s : State) (c : Cmd) (f : Cmd → Cmd) : (s.mapCmd c f).health = s.health := rfl
@[simp] theorem mapCmd_ringlet (s : State) (c : Cmd) (f : Cmd → Cmd) : (s.mapCmd c f).ringlet = s.ringlet := rfl
@[simp] theorem mapCmd_storage (s : State) (c : Cmd) (f : Cmd → Cmd) : (s.mapCmd c f).storage = s.storage := rfl
@[simp] theorem mapCmd_met (s : State) (c : Cmd) (f : Cmd → Cmd) : (s.mapCmd c f).met = s.met := rfl
@[simp] theorem mapCmd_thermal (s : State) (c : Cmd) (f : Cmd → Cmd) : (s.mapCmd c f).thermal = s.thermal := rfl
@[simp] theorem mapCmd_telem (s : State) (c : Cmd) (f : Cmd → Cmd) : (s.mapCmd c f).telem = s.telem := rfl
@[simp] theorem mapCmd_scores (s : State) (c : Cmd) (f : Cmd → Cmd) : (s.mapCmd c f).scores = s.scores := rfl
@[simp] theorem mapCmd_schedAt (s : State) (c : Cmd) (f : Cmd → Cmd) : (s.mapCmd c f).schedAt = s.schedAt := rfl
@[simp] theorem mapCmd_vectors (s : State) (c : Cmd) (f : Cmd → Cmd) : (s.mapCmd c f).vectors = s.vectors := rfl
@[simp] theorem mapCmd_msix (s : State) (c : Cmd) (f : Cmd → Cmd) : (s.mapCmd c f).msix = s.msix := rfl
@[simp] theorem mapCmd_answer (s : State) (c : Cmd) (f : Cmd → Cmd) : (s.mapCmd c f).answer = s.answer := rfl
@[simp] theorem mapCmd_poisoned (s : State) (c : Cmd) (f : Cmd → Cmd) : (s.mapCmd c f).poisoned = s.poisoned := rfl

@[simp] theorem mapCore_agenda (s : State) (c : Nat) (f : CoreSt → CoreSt) : (s.mapCore c f).agenda = s.agenda := by
  unfold State.mapCore; split <;> rfl
@[simp] theorem mapCore_free (s : State) (c : Nat) (f : CoreSt → CoreSt) : (s.mapCore c f).free = s.free := by
  unfold State.mapCore; split <;> rfl
@[simp] theorem mapCore_now (s : State) (c : Nat) (f : CoreSt → CoreSt) : (s.mapCore c f).now = s.now := by
  unfold State.mapCore; split <;> rfl
@[simp] theorem mapCore_cur (s : State) (c : Nat) (f : CoreSt → CoreSt) : (s.mapCore c f).cur = s.cur := by
  unfold State.mapCore; split <;> rfl
@[simp] theorem mapCore_serial (s : State) (c : Nat) (f : CoreSt → CoreSt) : (s.mapCore c f).serial = s.serial := by
  unfold State.mapCore; split <;> rfl
@[simp] theorem mapCore_mem (s : State) (c : Nat) (f : CoreSt → CoreSt) : (s.mapCore c f).mem = s.mem := by
  unfold State.mapCore; split <;> rfl
@[simp] theorem mapCore_waves (s : State) (c : Nat) (f : CoreSt → CoreSt) : (s.mapCore c f).waves = s.waves := by
  unfold State.mapCore; split <;> rfl
@[simp] theorem mapCore_blocks (s : State) (c : Nat) (f : CoreSt → CoreSt) : (s.mapCore c f).blocks = s.blocks := by
  unfold State.mapCore; split <;> rfl
@[simp] theorem mapCore_clubars (s : State) (c : Nat) (f : CoreSt → CoreSt) : (s.mapCore c f).clubars = s.clubars := by
  unfold State.mapCore; split <;> rfl
@[simp] theorem mapCore_launches (s : State) (c : Nat) (f : CoreSt → CoreSt) : (s.mapCore c f).launches = s.launches := by
  unfold State.mapCore; split <;> rfl
@[simp] theorem mapCore_ctxs (s : State) (c : Nat) (f : CoreSt → CoreSt) : (s.mapCore c f).ctxs = s.ctxs := by
  unfold State.mapCore; split <;> rfl
@[simp] theorem mapCore_parts (s : State) (c : Nat) (f : CoreSt → CoreSt) : (s.mapCore c f).parts = s.parts := by
  unfold State.mapCore; split <;> rfl
@[simp] theorem mapCore_queues (s : State) (c : Nat) (f : CoreSt → CoreSt) : (s.mapCore c f).queues = s.queues := by
  unfold State.mapCore; split <;> rfl
@[simp] theorem mapCore_results (s : State) (c : Nat) (f : CoreSt → CoreSt) : (s.mapCore c f).results = s.results := by
  unfold State.mapCore; split <;> rfl
@[simp] theorem mapCore_writes (s : State) (c : Nat) (f : CoreSt → CoreSt) : (s.mapCore c f).writes = s.writes := by
  unfold State.mapCore; split <;> rfl
@[simp] theorem mapCore_dirty (s : State) (c : Nat) (f : CoreSt → CoreSt) : (s.mapCore c f).dirty = s.dirty := by
  unfold State.mapCore; split <;> rfl
@[simp] theorem mapCore_homes (s : State) (c : Nat) (f : CoreSt → CoreSt) : (s.mapCore c f).homes = s.homes := by
  unfold State.mapCore; split <;> rfl
@[simp] theorem mapCore_l1 (s : State) (c : Nat) (f : CoreSt → CoreSt) : (s.mapCore c f).l1 = s.l1 := by
  unfold State.mapCore; split <;> rfl
@[simp] theorem mapCore_past (s : State) (c : Nat) (f : CoreSt → CoreSt) : (s.mapCore c f).past = s.past := by
  unfold State.mapCore; split <;> rfl
@[simp] theorem mapCore_tlb (s : State) (c : Nat) (f : CoreSt → CoreSt) : (s.mapCore c f).tlb = s.tlb := by
  unfold State.mapCore; split <;> rfl
@[simp] theorem mapCore_invals (s : State) (c : Nat) (f : CoreSt → CoreSt) : (s.mapCore c f).invals = s.invals := by
  unfold State.mapCore; split <;> rfl
@[simp] theorem mapCore_cmds (s : State) (c : Nat) (f : CoreSt → CoreSt) : (s.mapCore c f).cmds = s.cmds := by
  unfold State.mapCore; split <;> rfl
@[simp] theorem mapCore_tasks (s : State) (c : Nat) (f : CoreSt → CoreSt) : (s.mapCore c f).tasks = s.tasks := by
  unfold State.mapCore; split <;> rfl
@[simp] theorem mapCore_rays (s : State) (c : Nat) (f : CoreSt → CoreSt) : (s.mapCore c f).rays = s.rays := by
  unfold State.mapCore; split <;> rfl
@[simp] theorem mapCore_images (s : State) (c : Nat) (f : CoreSt → CoreSt) : (s.mapCore c f).images = s.images := by
  unfold State.mapCore; split <;> rfl
@[simp] theorem mapCore_owners (s : State) (c : Nat) (f : CoreSt → CoreSt) : (s.mapCore c f).owners = s.owners := by
  unfold State.mapCore; split <;> rfl
@[simp] theorem mapCore_pages (s : State) (c : Nat) (f : CoreSt → CoreSt) : (s.mapCore c f).pages = s.pages := by
  unfold State.mapCore; split <;> rfl
@[simp] theorem mapCore_mp (s : State) (c : Nat) (f : CoreSt → CoreSt) : (s.mapCore c f).mp = s.mp := by
  unfold State.mapCore; split <;> rfl
@[simp] theorem mapCore_boot (s : State) (c : Nat) (f : CoreSt → CoreSt) : (s.mapCore c f).boot = s.boot := by
  unfold State.mapCore; split <;> rfl
@[simp] theorem mapCore_gulnos (s : State) (c : Nat) (f : CoreSt → CoreSt) : (s.mapCore c f).gulnos = s.gulnos := by
  unfold State.mapCore; split <;> rfl
@[simp] theorem mapCore_display (s : State) (c : Nat) (f : CoreSt → CoreSt) : (s.mapCore c f).display = s.display := by
  unfold State.mapCore; split <;> rfl
@[simp] theorem mapCore_health (s : State) (c : Nat) (f : CoreSt → CoreSt) : (s.mapCore c f).health = s.health := by
  unfold State.mapCore; split <;> rfl
@[simp] theorem mapCore_ringlet (s : State) (c : Nat) (f : CoreSt → CoreSt) : (s.mapCore c f).ringlet = s.ringlet := by
  unfold State.mapCore; split <;> rfl
@[simp] theorem mapCore_storage (s : State) (c : Nat) (f : CoreSt → CoreSt) : (s.mapCore c f).storage = s.storage := by
  unfold State.mapCore; split <;> rfl
@[simp] theorem mapCore_met (s : State) (c : Nat) (f : CoreSt → CoreSt) : (s.mapCore c f).met = s.met := by
  unfold State.mapCore; split <;> rfl
@[simp] theorem mapCore_thermal (s : State) (c : Nat) (f : CoreSt → CoreSt) : (s.mapCore c f).thermal = s.thermal := by
  unfold State.mapCore; split <;> rfl
@[simp] theorem mapCore_telem (s : State) (c : Nat) (f : CoreSt → CoreSt) : (s.mapCore c f).telem = s.telem := by
  unfold State.mapCore; split <;> rfl
@[simp] theorem mapCore_scores (s : State) (c : Nat) (f : CoreSt → CoreSt) : (s.mapCore c f).scores = s.scores := by
  unfold State.mapCore; split <;> rfl
@[simp] theorem mapCore_schedAt (s : State) (c : Nat) (f : CoreSt → CoreSt) : (s.mapCore c f).schedAt = s.schedAt := by
  unfold State.mapCore; split <;> rfl
@[simp] theorem mapCore_vectors (s : State) (c : Nat) (f : CoreSt → CoreSt) : (s.mapCore c f).vectors = s.vectors := by
  unfold State.mapCore; split <;> rfl
@[simp] theorem mapCore_msix (s : State) (c : Nat) (f : CoreSt → CoreSt) : (s.mapCore c f).msix = s.msix := by
  unfold State.mapCore; split <;> rfl
@[simp] theorem mapCore_answer (s : State) (c : Nat) (f : CoreSt → CoreSt) : (s.mapCore c f).answer = s.answer := by
  unfold State.mapCore; split <;> rfl
@[simp] theorem mapCore_poisoned (s : State) (c : Nat) (f : CoreSt → CoreSt) : (s.mapCore c f).poisoned = s.poisoned := by
  unfold State.mapCore; split <;> rfl

@[simp] theorem setOwner_agenda (s : State) (o : Nat) (f : Owner → Owner) : (s.setOwner o f).agenda = s.agenda := rfl
@[simp] theorem setOwner_free (s : State) (o : Nat) (f : Owner → Owner) : (s.setOwner o f).free = s.free := rfl
@[simp] theorem setOwner_now (s : State) (o : Nat) (f : Owner → Owner) : (s.setOwner o f).now = s.now := rfl
@[simp] theorem setOwner_cur (s : State) (o : Nat) (f : Owner → Owner) : (s.setOwner o f).cur = s.cur := rfl
@[simp] theorem setOwner_serial (s : State) (o : Nat) (f : Owner → Owner) : (s.setOwner o f).serial = s.serial := rfl
@[simp] theorem setOwner_mem (s : State) (o : Nat) (f : Owner → Owner) : (s.setOwner o f).mem = s.mem := rfl
@[simp] theorem setOwner_waves (s : State) (o : Nat) (f : Owner → Owner) : (s.setOwner o f).waves = s.waves := rfl
@[simp] theorem setOwner_blocks (s : State) (o : Nat) (f : Owner → Owner) : (s.setOwner o f).blocks = s.blocks := rfl
@[simp] theorem setOwner_clubars (s : State) (o : Nat) (f : Owner → Owner) : (s.setOwner o f).clubars = s.clubars := rfl
@[simp] theorem setOwner_launches (s : State) (o : Nat) (f : Owner → Owner) : (s.setOwner o f).launches = s.launches := rfl
@[simp] theorem setOwner_ctxs (s : State) (o : Nat) (f : Owner → Owner) : (s.setOwner o f).ctxs = s.ctxs := rfl
@[simp] theorem setOwner_parts (s : State) (o : Nat) (f : Owner → Owner) : (s.setOwner o f).parts = s.parts := rfl
@[simp] theorem setOwner_queues (s : State) (o : Nat) (f : Owner → Owner) : (s.setOwner o f).queues = s.queues := rfl
@[simp] theorem setOwner_results (s : State) (o : Nat) (f : Owner → Owner) : (s.setOwner o f).results = s.results := rfl
@[simp] theorem setOwner_writes (s : State) (o : Nat) (f : Owner → Owner) : (s.setOwner o f).writes = s.writes := rfl
@[simp] theorem setOwner_dirty (s : State) (o : Nat) (f : Owner → Owner) : (s.setOwner o f).dirty = s.dirty := rfl
@[simp] theorem setOwner_homes (s : State) (o : Nat) (f : Owner → Owner) : (s.setOwner o f).homes = s.homes := rfl
@[simp] theorem setOwner_l1 (s : State) (o : Nat) (f : Owner → Owner) : (s.setOwner o f).l1 = s.l1 := rfl
@[simp] theorem setOwner_past (s : State) (o : Nat) (f : Owner → Owner) : (s.setOwner o f).past = s.past := rfl
@[simp] theorem setOwner_tlb (s : State) (o : Nat) (f : Owner → Owner) : (s.setOwner o f).tlb = s.tlb := rfl
@[simp] theorem setOwner_invals (s : State) (o : Nat) (f : Owner → Owner) : (s.setOwner o f).invals = s.invals := rfl
@[simp] theorem setOwner_cmds (s : State) (o : Nat) (f : Owner → Owner) : (s.setOwner o f).cmds = s.cmds := rfl
@[simp] theorem setOwner_tasks (s : State) (o : Nat) (f : Owner → Owner) : (s.setOwner o f).tasks = s.tasks := rfl
@[simp] theorem setOwner_cores (s : State) (o : Nat) (f : Owner → Owner) : (s.setOwner o f).cores = s.cores := rfl
@[simp] theorem setOwner_rays (s : State) (o : Nat) (f : Owner → Owner) : (s.setOwner o f).rays = s.rays := rfl
@[simp] theorem setOwner_images (s : State) (o : Nat) (f : Owner → Owner) : (s.setOwner o f).images = s.images := rfl
@[simp] theorem setOwner_pages (s : State) (o : Nat) (f : Owner → Owner) : (s.setOwner o f).pages = s.pages := rfl
@[simp] theorem setOwner_mp (s : State) (o : Nat) (f : Owner → Owner) : (s.setOwner o f).mp = s.mp := rfl
@[simp] theorem setOwner_boot (s : State) (o : Nat) (f : Owner → Owner) : (s.setOwner o f).boot = s.boot := rfl
@[simp] theorem setOwner_gulnos (s : State) (o : Nat) (f : Owner → Owner) : (s.setOwner o f).gulnos = s.gulnos := rfl
@[simp] theorem setOwner_display (s : State) (o : Nat) (f : Owner → Owner) : (s.setOwner o f).display = s.display := rfl
@[simp] theorem setOwner_health (s : State) (o : Nat) (f : Owner → Owner) : (s.setOwner o f).health = s.health := rfl
@[simp] theorem setOwner_ringlet (s : State) (o : Nat) (f : Owner → Owner) : (s.setOwner o f).ringlet = s.ringlet := rfl
@[simp] theorem setOwner_storage (s : State) (o : Nat) (f : Owner → Owner) : (s.setOwner o f).storage = s.storage := rfl
@[simp] theorem setOwner_met (s : State) (o : Nat) (f : Owner → Owner) : (s.setOwner o f).met = s.met := rfl
@[simp] theorem setOwner_thermal (s : State) (o : Nat) (f : Owner → Owner) : (s.setOwner o f).thermal = s.thermal := rfl
@[simp] theorem setOwner_telem (s : State) (o : Nat) (f : Owner → Owner) : (s.setOwner o f).telem = s.telem := rfl
@[simp] theorem setOwner_scores (s : State) (o : Nat) (f : Owner → Owner) : (s.setOwner o f).scores = s.scores := rfl
@[simp] theorem setOwner_schedAt (s : State) (o : Nat) (f : Owner → Owner) : (s.setOwner o f).schedAt = s.schedAt := rfl
@[simp] theorem setOwner_vectors (s : State) (o : Nat) (f : Owner → Owner) : (s.setOwner o f).vectors = s.vectors := rfl
@[simp] theorem setOwner_msix (s : State) (o : Nat) (f : Owner → Owner) : (s.setOwner o f).msix = s.msix := rfl
@[simp] theorem setOwner_answer (s : State) (o : Nat) (f : Owner → Owner) : (s.setOwner o f).answer = s.answer := rfl
@[simp] theorem setOwner_poisoned (s : State) (o : Nat) (f : Owner → Owner) : (s.setOwner o f).poisoned = s.poisoned := rfl

end Sys2Proof.Machine
end

