-- ==== Sys2Proof/Tests/Slice0.lean ====
section
/-! SUPPORT. Tests: words written out from the encodings of the manual, instructions that are not well-formed, results of the
manual's examples, and a state and operands that meet the hypotheses of every statement that has some. -/
namespace Sys2Proof.Tests
open Sys2Proof Sys2Proof.Machine

-- One theorem after another: each that waits for the kernel would hold a thread of its own.
set_option Elab.async false

/-! ### Small states -/

/-- One loaded thread at PC 0x8000 that issues. -/
def base : State := { State.reset.loadWord [] with agenda := [], cur := some ⟨0, 0, 1, 0x8000⟩ }

/-- The loaded thread changed. -/
def withThread (f : Thread → Thread) (s : State) : State :=
  { s with waves := [{ loadedWave with slots := .live (f loadedThread) :: List.replicate 31 .empty }] }

/-- Registers of the loaded thread set. -/
def withRegs (l : List (Nat × W32)) (s : State) : State :=
  withThread (fun t => { t with regs := l.foldl (fun r x => r.set x.1 x.2) t.regs }) s

/-- Words placed in memory. -/
def withWords (pa : Nat) (ws : List W32) (s : State) : State := { s with mem := s.mem.writeRun pa (wordsBytes ws) }

/-- What the issue in progress sees. -/
def viewOf (s : State) : View := (s.view?).getD ⟨s, ⟨0, 0, 0, 0⟩, loadedWave⟩

theorem view_some {s : State} (h : s.view?.isSome = true) : s.view? = some (viewOf s) := by
  unfold viewOf
  cases hv : s.view? with
  | none => simp [hv] at h
  | some v => rfl

/-- Operands without options, with destination v8. -/
def ops (m : BitVec 7) (a b c : Src) : Operands := ⟨m, ⟨false, 8⟩, a, b, c, ⟨0, 0, false⟩, false, 0, false⟩

/-- A register of the own lane. -/
def reg (n : Byte) : Src := .reg n .own false false

theorem lane_zero {m : Mask} (h : m = 1) {i : Nat} (hi : m.getLsbD i = true) : i = 0 := by
  subst h
  by_cases h0 : i = 0
  · exact h0
  · simp [h0] at hi

/-- What a computation that succeeds gives. -/
def got {ε α : Type} (d : α) : Except ε α → α
  | .ok x => x
  | .error _ => d

/-- Whether it succeeds. -/
def isOk {ε α : Type} : Except ε α → Bool
  | .ok _ => true
  | .error _ => false

theorem ok_got {ε α : Type} {d : α} {e : Except ε α} (h : isOk e = true) : e = .ok (got d e) := by
  cases e with
  | ok x => rfl
  | error x => simp [isOk] at h

theorem some_got {α : Type} {d : α} {e : Option α} (h : e.isSome = true) : e = some (e.getD d) := by
  cases e with
  | some x => rfl
  | none => simp at h

/-- Whether a check of scratchpad accesses passes without a stash window. -/
def noWin {ε α β γ : Type} : Except ε (α × β × List γ) → Bool
  | .ok (_, _, []) => true
  | _ => false

theorem ok_noWin {ε α β γ : Type} {e : Except ε (α × β × List γ)} (h : noWin e = true) : ∃ l p, e = .ok (l, p, []) := by
  match e, h with
  | .ok (l, p, []), _ => exact ⟨l, p, rfl⟩

/-! ### Hypotheses that are met: instructions of the lanes -/

/-- v1 = 5, v2:v3 = 0x4000, v4:v5 = 0x9000, v6:v7 = 0x20000, v31 = 0x8100: operands of every kind of access. -/
def plainS : State := withRegs [(1, 5), (2, 0x4000), (4, 0x9000), (6, 0x20000), (31, 0x8100)] base

def plainV : View := viewOf plainS

def plainO : Operands := ops 0 (reg 2) (reg 1) .unused

/-- A guard that fails in every lane. -/
def offO : Operands := { plainO with guard := ⟨0, 0, true⟩ }

theorem plain_view : plainS.view? = some plainV := view_some (by decide +kernel)

theorem plain_lane {o : Operands} (h : plainV.passing o = 1) {i : Nat} (hi : (plainV.passing o).getLsbD i = true) : i = 0 := lane_zero h hi

theorem wit_ClassFWrites : ∃ (s : State) (v : View) (o : Operands), s.view? = some v ∧ v.passing o ≠ 0 ∧ v.fmaMismatch (v.passing o) = none :=
  ⟨plainS, plainV, plainO, plain_view, by decide +kernel, by decide +kernel⟩

theorem wit_ClassVLeavesResult : ∃ (s : State) (v : View) (o : Operands), s.view? = some v ∧ v.resultsFull = false ∧
    v.fmaMismatch (v.passing o) = none ∧ v.passing o ≠ 0 :=
  ⟨plainS, plainV, plainO, plain_view, by decide +kernel, by decide +kernel, by decide +kernel⟩

theorem wit_LogicAndMoves : ∃ (s : State) (v : View) (o : Operands), s.view? = some v ∧ v.passing o ≠ 0 :=
  ⟨plainS, plainV, plainO, plain_view, by decide +kernel⟩

theorem wit_DivisionAndShifts : ∃ (s : State) (v : View) (o : Operands), s.view? = some v ∧ v.resultsFull = false ∧ v.intB o 0 ≠ 0 :=
  ⟨plainS, plainV, plainO, plain_view, by decide +kernel, by decide +kernel⟩

theorem wit_DivisionByZero : ∃ (s : State) (v : View) (o : Operands), s.view? = some v ∧ v.resultsFull = false ∧ v.intB o 0 = 0 :=
  ⟨plainS, plainV, ops 0 (reg 1) (reg 9) .unused, plain_view, by decide +kernel, by decide +kernel⟩

theorem wit_CrossLaneReductions : (∃ (s : State) (v : View), s.view? = some v ∧ v.resultsFull = false) ∧
    ∃ f : W32 → W32 → W32, (∀ a b, f a b = f b a) ∧ ∀ a b c, f (f a b) c = f a (f b c) :=
  ⟨⟨plainS, plainV, plain_view, by decide +kernel⟩, (· + ·), BitVec.add_comm, BitVec.add_assoc⟩

/-- The thread shades a pixel. -/
def pixelS : State := withThread (fun t => { t with pixel := some ⟨0, 0x9000, 2, 3, 0, 7, List.replicate 96 0, true⟩ }) base

theorem wit_SpecialRegisters : (∃ (s : State) (v : View) (o : Operands), s.view? = some v ∧ v.resultsFull = false ∧
      v.unprivileged o = false ∧ specNum o.a = 0x18 ∧ v.outstanding = false ∧
      ∀ i, (v.passing o).getLsbD i = true → ∀ c ∈ s.cmds, c.uid ≠ (v.thread i).uid) ∧
    (∃ (s : State) (v : View) (o : Operands), s.view? = some v ∧ v.unprivileged o = false ∧ specNum o.a = 0x0C) ∧
    ∃ (s : State) (v : View) (o : Operands), s.view? = some v ∧ v.resultsFull = false ∧
      ∀ i, (v.passing o).getLsbD i = true → (v.thread i).pixel.isSome = true :=
  ⟨⟨plainS, plainV, ops 1 (.spec 0x18) (reg 1) .unused, plain_view, by decide +kernel, by decide +kernel, by decide +kernel,
      by decide +kernel, fun _ _ c hc => by cases hc⟩,
    ⟨plainS, plainV, ops 0 (.spec 0x0C) (reg 1) .unused, plain_view, by decide +kernel, by decide +kernel⟩,
    ⟨pixelS, viewOf pixelS, plainO, view_some (by decide +kernel), by decide +kernel, fun i hi => by
      rw [lane_zero (by decide +kernel) hi]; decide +kernel⟩⟩

/-! ### Control flow -/

def targetO : Operands := ops 0 (.imm 3) (.imm 3) .unused

theorem wit_Transfers : ∃ (s : State) (v : View), s.view? = some v ∧ v.resultsFull = false ∧
    (∃ o : Operands, v.passing o ≠ 0 ∧ dispOf o.a = 3 ∧ ∀ i, (v.passing o).getLsbD i = true →
      v.targetFault i (v.ic.pc + BitVec.ofInt 64 (12 * dispOf o.a)) = none) ∧
    (∃ o : Operands, v.passing o ≠ 0 ∧ ∀ i, (v.passing o).getLsbD i = true → v.targetFault i (v.src64 0 o.a i) = none) ∧
    (∃ o : Operands, v.passing o ≠ 0 ∧ o.mod.getLsbD 0 = false ∧ ∀ i, (v.passing o).getLsbD i = true →
      v.targetFault i (v.ic.pc.extractLsb' 32 32 ++ v.readSlot i 31 (readTag i 0 0)) = none) ∧
    (∃ o : Operands, v.passing o ≠ 0 ∧ ∀ i, (v.passing o).getLsbD i = true → v.src32 .int 0 o.a i - 1 ≠ 0 ∧
      v.targetFault i (v.ic.pc + BitVec.ofInt 64 (12 * dispOf o.b)) = none) :=
  ⟨plainS, plainV, plain_view, by decide +kernel,
    ⟨targetO, by decide +kernel, by decide +kernel, fun i hi => by rw [plain_lane (by decide +kernel) hi]; decide +kernel⟩,
    ⟨ops 0 (reg 2) .unused .unused, by decide +kernel, fun i hi => by rw [plain_lane (by decide +kernel) hi]; decide +kernel⟩,
    ⟨ops 0 .unused .unused .unused, by decide +kernel, by decide +kernel, fun i hi => by
      rw [plain_lane (by decide +kernel) hi]; decide +kernel⟩,
    ⟨ops 0 (reg 1) (.imm 0x7FFF) .unused, by decide +kernel, fun i hi => by
      rw [plain_lane (by decide +kernel) hi]; decide +kernel⟩⟩

theorem wit_ThreadsEndAndRejoin : (∃ (s : State) (v : View) (o : Operands), s.view? = some v ∧ v.passing o ≠ 0 ∧
      ∀ i, (v.passing o).getLsbD i = true → (v.thread i).holds = false) ∧
    ∃ es : List Rejoin, es ≠ [] ∧ ∀ x ∈ es, x.armed = true ∧ x.t ≠ 0x40 :=
  ⟨⟨plainS, plainV, plainO, plain_view, by decide +kernel, fun i hi => by rw [plain_lane (by decide +kernel) hi]; decide +kernel⟩,
    [⟨true, 0x80, 1, 0, 0, 3, 0⟩], by decide, by decide⟩

/-- The thread's context is attached to a debugger with breakpoints enabled. -/
def debugS : State :=
  { plainS with parts := updateAt plainS.parts 0 fun p => { p with dbg := { p.dbg with attach := true, brk := true, ctx := 1 } } }

/-- A table of one entry at 0x30000, named by a record at POOL. -/
def tableS : State := withWords 0x30000 [5] (withWords 0x20000 [0x30000, 0, 4, 0, 0, 0, 0, 0] plainS)

def tableO : Operands := ops 0 .unused (.pool 0) .unused

def tableWords : List W32 := got [] ((viewOf tableS).poolRecord tableO.b)

def tablePieces : List Piece :=
  got [] (tableS.lanePieces 1 (viewOf tableS).accLoad false 4 ((viewOf tableS).tableReads tableO 1 tableWords))

theorem wit_ControlAndTableJump :
    (∃ (s : State) (v : View) (o : Operands), s.view? = some v ∧ v.passing o = 0) ∧
    (∃ (s : State) (v : View) (o : Operands), s.view? = some v ∧ v.passing o ≠ 0 ∧ v.breakable = true) ∧
    ∃ (s : State) (v : View) (o : Operands) (ws : List W32) (ps : List Piece), s.view? = some v ∧ v.passing o = 1 ∧
      v.poolRecord o.b = .ok ws ∧ plainOk ws = true ∧ (recBase ws).toNat % 4 = 0 ∧
      addressFault 4 (v.tableReads o (v.passing o) ws) = none ∧
      s.lanePieces v.ctx v.accLoad false 4 (v.tableReads o (v.passing o) ws) = .ok ps ∧ s.badLine v.part true ps = none ∧
      4 * (v.src32 .int 0 o.a 0).toNat + 4 ≤ recExtent ws ∧
      v.targetFault 0 (v.ic.pc + 12 * (BitVec.ofNat 32 (bytesNat
        (({ v with s := v.touchPieces v.s ps } : View).laneBytes ps 0))).signExtend 64) = none := by
  refine ⟨⟨plainS, plainV, offO, plain_view, by decide +kernel⟩,
    ⟨debugS, viewOf debugS, plainO, view_some (by decide +kernel), by decide +kernel, by decide +kernel⟩,
    tableS, viewOf tableS, tableO, tableWords, tablePieces, view_some (by decide +kernel), by decide +kernel, ?_, by decide +kernel,
    by decide +kernel, by decide +kernel, ?_, by decide +kernel, by decide +kernel, by decide +kernel⟩
  · exact ok_got (by decide +kernel)
  · exact ok_got (by decide +kernel)

/-! ### Faults, traps and system calls -/

/-- The thread belongs to a context without privilege. -/
def userS : State := { plainS with ctxs := [{ loadedContext with priv := false }] }

theorem wit_FaultsEndContexts :
    (∃ (s : State) (c : Nat) (x : Context), s.ctx? c = some x ∧ x.ended = false) ∧
    (∃ (s : State) (v : View) (o : Operands), s.view? = some v ∧ (s.ctxOf v.ctx).priv = false ∧ v.passing o ≠ 0 ∧ 0x4000 ≤ specNum o.a) ∧
    (∃ (s : State) (v : View) (o : Operands) (i : Nat), s.view? = some v ∧ (v.passing o).getLsbD i = true ∧
      95 < (v.src32 .int 0 o.a i).toNat ∧ v.resultsFull = false) ∧
    ∃ (s : State) (v : View) (o : Operands) (i : Nat), s.view? = some v ∧ (v.passing o).getLsbD i = true ∧
      wordAt (v.srcQuad 0 o.a i) 0 &&& 0xFFFEF000 ≠ 0 :=
  ⟨⟨plainS, 1, loadedContext, by decide +kernel, by decide +kernel⟩,
    ⟨userS, viewOf userS, ops 0 (.spec 0x4000) .unused .unused, view_some (by decide +kernel), by decide +kernel, by decide +kernel,
      by decide +kernel⟩,
    ⟨plainS, plainV, plainO, 0, plain_view, by decide +kernel, by decide +kernel, by decide +kernel⟩,
    ⟨plainS, plainV, ops 0 (reg 2) .unused .unused, 0, plain_view, by decide +kernel, by decide +kernel⟩⟩

theorem wit_MisalignedTarget : ∃ (s : State) (v : View) (o : Operands), s.view? = some v ∧ v.passing o ≠ 0 ∧
    (v.src64 0 o.a (lowestLane (v.passing o))).toNat % 4 ≠ 0 :=
  ⟨withRegs [(2, 0x4002)] base, viewOf (withRegs [(2, 0x4002)] base), ops 0 (reg 2) .unused .unused, view_some (by decide +kernel),
    by decide +kernel, by decide +kernel⟩

/-- The thread has a trap vector, and a class-V result is outstanding or not. -/
def trapS (busy : Bool) (h : Bool) : State :=
  { withThread (fun t => { t with tvec := 0x8200, inHandler := h }) base with
    results := if busy then [⟨0, 0, [⟨0, 1, [⟨5, 0xFFFFFFFF, 7, false⟩], []⟩], 0, none⟩] else [] }

theorem wit_UserTraps :
    (∃ (s : State) (v : View) (o : Operands), s.view? = some v ∧ v.passing o ≠ 0 ∧ v.outstanding = false ∧
      ∀ i, (v.passing o).getLsbD i = true → (v.thread i).tvec ≠ 0 ∧ (v.thread i).inHandler = false) ∧
    (∃ (s : State) (v : View) (o : Operands), s.view? = some v ∧ v.passing o ≠ 0 ∧ v.outstanding = true ∧
      ∀ i, (v.passing o).getLsbD i = true → (v.thread i).inHandler = true) ∧
    (∃ (s : State) (core wslot lane : Nat) (w : Wave) (x : Thread), s.wave? core wslot = some w ∧ w.live? lane = some x ∧
      s.drained core wslot = true ∧ x.tvec = 0) ∧
    (∃ (s : State) (v : View) (o : Operands), s.view? = some v ∧ v.passing o ≠ 0 ∧ v.outstanding = false ∧
      ∀ i, (v.passing o).getLsbD i = true → (v.thread i).inHandler = true) ∧
    ∃ (s : State) (v : View) (o : Operands) (i : Nat), s.view? = some v ∧ (v.passing o).getLsbD i = true ∧
      (v.thread i).inHandler = false :=
  ⟨⟨trapS false false, viewOf (trapS false false), plainO, view_some (by decide +kernel), by decide +kernel, by decide +kernel,
      fun i hi => by rw [lane_zero (by decide +kernel) hi]; decide +kernel⟩,
    ⟨trapS true true, viewOf (trapS true true), plainO, view_some (by decide +kernel), by decide +kernel, by decide +kernel,
      fun i hi => by rw [lane_zero (by decide +kernel) hi]; decide +kernel⟩,
    ⟨base, 0, 0, 0, loadedWave, loadedThread, by decide +kernel, by decide +kernel, by decide +kernel, by decide +kernel⟩,
    ⟨trapS false true, viewOf (trapS false true), plainO, view_some (by decide +kernel), by decide +kernel, by decide +kernel,
      fun i hi => by rw [lane_zero (by decide +kernel) hi]; decide +kernel⟩,
    plainS, plainV, plainO, 0, plain_view, by decide +kernel, by decide +kernel⟩

/-- The replayable ring of partition 0's host is full. -/
def fullRingS : State := { plainS with owners := updateAt plainS.owners 1 fun o => { o with rprod := 4096 } }

theorem wit_SystemCall :
    (∃ (s : State) (v : View) (o : Operands), s.view? = some v ∧ v.passing o ≠ 0 ∧ s.replayFull (1 + v.part) = false) ∧
    ∃ (s : State) (v : View) (o : Operands), s.view? = some v ∧ v.passing o ≠ 0 ∧ s.replayFull (1 + v.part) = true :=
  ⟨⟨plainS, plainV, plainO, plain_view, by decide +kernel, by decide +kernel⟩,
    fullRingS, viewOf fullRingS, plainO, view_some (by decide +kernel), by decide +kernel, by decide +kernel⟩


/-! ### Loads, stores and scratchpads -/

/-- The launch gives its threads a stack of 4 KiB steps and 6,144 bytes of scratchpad. -/
def roomyL : Launch := { loadedLaunch 0 with words := (loadedRecord.set 5 0x10F801).set 6 1 }

def roomyS : State := { plainS with launches := [roomyL] }

def roomyV : View := viewOf roomyS

theorem roomy_view : roomyS.view? = some roomyV := view_some (by decide +kernel)

theorem roomy_lane {o : Operands} (h : roomyV.passing o = 1) {i : Nat} (hi : (roomyV.passing o).getLsbD i = true) : i = 0 := lane_zero h hi

/-- Global address v4:v5 + v9 = 0x9000, or stack or scratchpad address v9 = 0. -/
def memO : Operands := ops 2 (reg 4) (reg 9) .unused

/-- A buffer of 16 bytes at 0x30000, named by a record at POOL. -/
def bufferS : State := withWords 0x20000 [0x30000, 0, 16, 0, 0, 0, 0, 0] plainS

def bufferO : Operands := ops 2 (.pool 0) (reg 9) .unused

def bufferReads : List (Nat × W64) := got [] ((viewOf bufferS).poolBuffer bufferO 1 4)

theorem ready_of {v : View} {acc : Acc} {fl rd st : Bool} {n : Nat} {l : List (Nat × W64)} (h1 : addressFault n l = none)
    (h2 : isOk (v.s.lanePieces v.ctx acc fl n l) = true)
    (h3 : v.s.badLine v.part rd (stackPieces st (got [] (v.s.lanePieces v.ctx acc fl n l))) = none) :
    Claims.Ready v acc fl rd st n l (got [] (v.s.lanePieces v.ctx acc fl n l)) :=
  ⟨h1, ok_got h2, h3⟩

theorem wit_Loads :
    (∃ (s : State) (v : View) (o : Operands) (ps : List Piece), s.view? = some v ∧ v.resultsFull = false ∧ v.passing o = 1 ∧
      misaligned 4 (laneAddrs (v.passing o) (v.globalEa o)) = none ∧
      Claims.Ready v v.accLoad false true false 4 (laneAddrs (v.passing o) (v.globalEa o)) ps) ∧
    (∃ (s : State) (v : View) (o : Operands) (ps : List Piece) (reads : List (Nat × W64)), s.view? = some v ∧ v.resultsFull = false ∧
      v.poolBuffer o 1 4 = .ok reads ∧ reads ≠ [] ∧ v.passing o = 1 ∧ Claims.Ready v v.accLoad false true false 4 reads ps) ∧
    (∃ (s : State) (v : View) (o : Operands) (ps : List Piece), s.view? = some v ∧ v.resultsFull = false ∧ v.launch.stack ≠ 0 ∧
      (∀ i, (v.passing o).getLsbD i = true → (v.thread i).slim.toNat ≤ (v.stackEa o i).toNat) ∧ v.passing o = 1 ∧
      misaligned 4 (laneAddrs (v.passing o) (v.stackEa o)) = none ∧
      Claims.Ready v v.accLoad false true true 4 (laneAddrs (v.passing o) (v.stackEa o)) ps) ∧
    ∃ (s : State) (v : View) (o : Operands), s.view? = some v ∧ v.resultsFull = false ∧ v.passing o = 0 :=
  ⟨⟨plainS, plainV, memO, _, plain_view, by decide +kernel, by decide +kernel, by decide +kernel,
      ready_of (by decide +kernel) (by decide +kernel) (by decide +kernel)⟩,
    ⟨bufferS, viewOf bufferS, bufferO, _, bufferReads, view_some (by decide +kernel), by decide +kernel, ok_got (by decide +kernel),
      by decide +kernel, by decide +kernel, ready_of (by decide +kernel) (by decide +kernel) (by decide +kernel)⟩,
    ⟨roomyS, roomyV, memO, _, roomy_view, by decide +kernel, by decide +kernel, fun i hi => by
        rw [roomy_lane (by decide +kernel) hi]; decide +kernel, by decide +kernel, by decide +kernel,
      ready_of (by decide +kernel) (by decide +kernel) (by decide +kernel)⟩,
    plainS, plainV, offO, plain_view, by decide +kernel, by decide +kernel⟩

theorem wit_LoadReadsMemory : ∃ (s : State) (v : View) (ps : List Piece), s.view? = some v ∧ ps ≠ [] ∧
    (∀ x ∈ s.l1, x.core = v.ic.core → x.data = s.mem.readRun (x.line * 128) 128) ∧
    (∀ w ∈ s.writes, w.uid ≠ 0 → w.agent.core ≠ some v.ic.core ∧ w.so = false) ∧
    (∀ p ∈ ps, ∀ t, p.tr = some t → isRemote p.pa = false ∧ p.pa + p.len ≤ s.usable ∧
      (∀ a, p.pa ≤ a → a < p.pa + p.len → s.aliasedAt (homeSlice (s.domain (some v.part)) t.tgeo a) a = false) ∧
      (t.kind = 2 → ∀ x ∈ s.past, p.pa ≤ x.pa → x.pa < p.pa + p.len → x.at_ < v.since p.lane)) := by
  refine ⟨plainS, plainV, got [] (plainS.lanePieces 1 plainV.accLoad false 4 [(0, 0x9000)]), plain_view, by decide +kernel, ?_, ?_, ?_⟩
  · intro x hx; cases hx
  · intro x hx; cases hx
  · intro p hp t _
    have h : ∀ p ∈ got [] (plainS.lanePieces 1 plainV.accLoad false 4 [(0, 0x9000)]), isRemote p.pa = false ∧ p.pa + p.len ≤ plainS.usable := by
      decide +kernel
    exact ⟨(h p hp).1, (h p hp).2, fun _ _ _ => rfl, fun _ x hx => by cases hx⟩

theorem wit_StoresAndStackLimit :
    (∃ (s u : State) (v : View) (o : Operands) (ps : List Piece), s.view? = some v ∧ v.heldRelease (ordScope o) = false ∧ v.passing o = 1 ∧
      Claims.Ready v v.accStore false false false 4 (laneAddrs (v.passing o) (v.globalEa o)) ps ∧
      s.noteWrite v.ic.core v.ctx (pieceVpages ps) = some u) ∧
    (∃ (s u : State) (v : View) (o : Operands) (ps : List Piece) (dests : List (Nat × W64)), s.view? = some v ∧
      v.poolBuffer o 1 4 = .ok dests ∧ v.passing o = 1 ∧ Claims.Ready v v.accStore false false false 4 dests ps ∧
      s.noteWrite v.ic.core v.ctx (pieceVpages ps) = some u) ∧
    (∃ (s u : State) (v : View) (o : Operands) (ps : List Piece), s.view? = some v ∧ v.launch.stack ≠ 0 ∧ v.passing o = 1 ∧
      (v.thread 0).slim.toNat ≤ (v.stackEa o 0).toNat ∧ misaligned 4 (laneAddrs (v.passing o) (v.stackEa o)) = none ∧
      Claims.Ready v v.accStore false false true 4 (laneAddrs (v.passing o) (v.stackEa o)) ps ∧
      s.noteWrite v.ic.core v.ctx (pieceVpages ps) = some u) ∧
    (∃ (s : State) (v : View) (o : Operands), s.view? = some v ∧ v.outstanding = false ∧ v.passing o = 1 ∧ v.launch.stack = 0 ∧
      (v.thread 0).tvec ≠ 0 ∧ (v.thread 0).inHandler = false) ∧
    ∃ (s : State) (v : View) (o : Operands), s.view? = some v ∧ v.outstanding = false ∧ v.passing o = 1 ∧ v.launch.stack ≠ 0 ∧
      (v.stackEa o 0).toNat + 4 = (v.thread 0).slim.toNat ∧ addressFault 4 (laneAddrs (v.passing o) (v.stackEa o)) = none ∧
      misaligned 4 (laneAddrs (v.passing o) (v.stackEa o)) = none ∧ (v.thread 0).tvec ≠ 0 ∧ (v.thread 0).inHandler = false := by
  let below : State := { trapS false false with launches := [roomyL] }
  exact ⟨⟨plainS, _, plainV, memO, _, plain_view, by decide +kernel, by decide +kernel,
      ready_of (by decide +kernel) (by decide +kernel) (by decide +kernel), some_got (d := base) (by decide +kernel)⟩,
    ⟨bufferS, _, viewOf bufferS, bufferO, _, bufferReads, view_some (by decide +kernel), ok_got (by decide +kernel), by decide +kernel,
      ready_of (by decide +kernel) (by decide +kernel) (by decide +kernel), some_got (d := base) (by decide +kernel)⟩,
    ⟨roomyS, _, roomyV, memO, _, roomy_view, by decide +kernel, by decide +kernel, by decide +kernel, by decide +kernel,
      ready_of (by decide +kernel) (by decide +kernel) (by decide +kernel), some_got (d := base) (by decide +kernel)⟩,
    ⟨trapS false false, viewOf (trapS false false), memO, view_some (by decide +kernel), by decide +kernel, by decide +kernel,
      by decide +kernel, by decide +kernel, by decide +kernel⟩,
    below, viewOf below, ops 2 (reg 4) (.imm 0x7FFC) .unused, view_some (by decide +kernel), by decide +kernel, by decide +kernel,
      by decide +kernel, by decide +kernel, by decide +kernel, by decide +kernel, by decide +kernel, by decide +kernel⟩

/-- A pixel of a draw whose target table names a target of 32-bit pixels at 0x40000. -/
def drawOf (key : Nat) : Draw :=
  ⟨key, 0, 1, 0x50000, 0, List.replicate 16 0, [0x40000, 0, 64, 64, 256, 0, 0, 0], 1, 1, 0, true, false, [], [], [], [], [], [], none, false⟩

theorem wit_PixelStore : ∃ (s u : State) (v : View) (o : Operands) (ps : List Piece), s.view? = some v ∧ v.passing o = 1 ∧
    (v.thread 0).pixel.isSome = true ∧
    Claims.Ready v v.accStore false false true (targetBytes (targetFmt (drawOf 7).targets 0)) [(0, targetPixel (drawOf 7).targets 0 2 3)] ps ∧
    s.noteWrite v.ic.core v.ctx (pieceVpages ps) = some u := by
  let s : State := { pixelS with display := { pixelS.display with draws := [drawOf 7] } }
  exact ⟨s, _, viewOf s, ops 0 (reg 4) (.imm 0) .unused, _, view_some (by decide +kernel), by decide +kernel, by decide +kernel,
    ready_of (by decide +kernel) (by decide +kernel) (by decide +kernel), some_got (d := base) (by decide +kernel)⟩

def scrO : Operands := ops 2 (reg 9) (reg 9) .unused

theorem wit_ScratchAndStash :
    (∃ (s : State) (v : View) (o : Operands) (l : List ScrAccess) (parts : List ScrPart), s.view? = some v ∧ v.resultsFull = false ∧
      v.passing o = 1 ∧ v.scrReady 4 false v.accLoad [(0, ((v.src32 .int 0 o.a 0) + v.src32 .int 1 o.b 0).toNat)] = .ok (l, parts, [])) ∧
    (∃ (s u : State) (v : View) (o : Operands) (l : List ScrAccess) (parts : List ScrPart), s.view? = some v ∧ v.passing o = 1 ∧
      v.scrReady 4 true v.accStore [(0, ((v.src32 .int 0 o.a 0) + v.src32 .int 1 o.b 0).toNat)] = .ok (l, parts, []) ∧
      s.noteWrite v.ic.core v.ctx (pieceVpages ([] : List Piece)) = some u) ∧
    (∃ (s : State) (v : View) (o : Operands), s.view? = some v ∧ v.passing o = 1 ∧
      addressFault (v.src32 .int 2 o.c 0).toNat [(0, v.src64 0 o.a 0)] = none ∧
      v.smapOk ((s.unmap (v.thread 0).blk fun x => x.win = o.mod.toNat % 16).blockOf (v.thread 0).blk) (v.src64 0 o.a 0)
        (v.src32 .int 1 o.b 0).toNat (v.src32 .int 2 o.c 0).toNat = true ∧
      s.scoreAny (v.thread 0).blk ((v.src32 .int 1 o.b 0).toNat % 2 ^ 19) (v.src32 .int 2 o.c 0).toNat = false) := by
  obtain ⟨l, p, h⟩ := ok_noWin (e := roomyV.scrReady 4 false roomyV.accLoad
    [(0, ((roomyV.src32 .int 0 scrO.a 0) + roomyV.src32 .int 1 scrO.b 0).toNat)]) (by decide +kernel)
  obtain ⟨l', p', h'⟩ := ok_noWin (e := roomyV.scrReady 4 true roomyV.accStore
    [(0, ((roomyV.src32 .int 0 scrO.a 0) + roomyV.src32 .int 1 scrO.b 0).toNat)]) (by decide +kernel)
  exact ⟨⟨roomyS, roomyV, scrO, l, p, roomy_view, by decide +kernel, by decide +kernel, h⟩,
    ⟨roomyS, roomyS, roomyV, scrO, l', p', roomy_view, by decide +kernel, h', rfl⟩,
    roomyS, roomyV, ops 3 (reg 2) (.imm 128) (.imm 256), roomy_view, by decide +kernel, by decide +kernel, by decide +kernel,
      by decide +kernel⟩

def atomO : Operands := ops 0 (reg 4) (reg 1) (.imm 0)

theorem wit_AtomicOperations :
    (∃ (s u : State) (v : View) (o : Operands) (ps : List Piece), s.view? = some v ∧ v.passing o = 1 ∧
      v.atomReady (atomBytes o) (laneAddrs (v.passing o) fun i => v.src64 0 o.a i) = .ok ps ∧
      s.noteWrite v.ic.core v.ctx (pieceVpages ps) = some u ∧ v.heldRelease (v.atomOrd o).rel = false ∧ v.heldRelease (some 4) = false ∧
      v.resultsFull = false) ∧
    (∃ (s : State) (v : View) (p : Piece), s.view? = some v ∧ isRemote p.pa = false ∧ p.pa + p.len ≤ s.usable ∧ p.len = 4 ∧
      (∀ w ∈ s.writes, w.uid ≠ 0 → w.agent.core ≠ some v.ic.core ∧ w.so = false) ∧
      ∀ a, p.pa ≤ a → a < p.pa + p.len → s.aliasedAt (v.slices ((p.tr.map (·.tgeo)).getD 0) a) a = false) ∧
    ∃ (s u : State) (v : View) (o : Operands) (l : List ScrAccess) (parts : List ScrPart), s.view? = some v ∧ v.resultsFull = false ∧
      v.heldRelease (v.atomOrd o).rel = false ∧ v.passing o = 1 ∧
      v.scrReady (atomBytes o) true v.accAtomic [(0, (v.src32 .int 0 o.a 0).toNat)] = .ok (l, parts, []) ∧
      badWindow (atomBytes o) [] = none ∧ s.noteWrite v.ic.core v.ctx (pieceVpages ([] : List Piece)) = some u := by
  obtain ⟨l, p, h⟩ := ok_noWin (e := roomyV.scrReady (atomBytes atomO) true roomyV.accAtomic [(0, (roomyV.src32 .int 0 (reg 9) 0).toNat)])
    (by decide +kernel)
  refine ⟨⟨plainS, _, plainV, atomO, got [] (plainV.atomReady (atomBytes atomO) (laneAddrs (plainV.passing atomO)
        fun i => plainV.src64 0 atomO.a i)), plain_view, by decide +kernel, ok_got (by decide +kernel),
      some_got (d := base) (by decide +kernel), by decide +kernel, by decide +kernel, by decide +kernel⟩,
    ⟨plainS, plainV, (got [] (plainV.atomReady 4 [(0, 0x9000)])).headD ⟨0, 0, 0, 4, none⟩, plain_view, by decide +kernel,
      by decide +kernel, by decide +kernel, ?_, fun _ _ _ => rfl⟩,
    roomyS, roomyS, roomyV, ops 0 (reg 9) (reg 1) (.imm 0), l, p, roomy_view, by decide +kernel, by decide +kernel, by decide +kernel,
      h, by decide +kernel, rfl⟩
  intro x hx
  cases hx

theorem wit_CacheRequests : ∃ (s : State) (v : View) (o : Operands), s.view? = some v ∧ v.passing o = 1 ∧
    addressFault 1 (laneAddrs (v.passing o) (v.globalEa o)) = none ∧
    ((s.owner (1 + v.part)).rprod - (s.owner (1 + v.part)).rcons).toNat + 1 ≤ 4096 ∧
    addressFault (v.src32 .int 1 o.b 0).toNat [(0, v.src64 0 o.a 0)] = none :=
  ⟨plainS, plainV, memO, plain_view, by decide +kernel, by decide +kernel, by decide +kernel, by decide +kernel⟩

theorem wit_BarriersAndGenerations : ∃ (s : State) (v : View) (o : Operands), s.view? = some v ∧ v.passing o = 1 ∧
    (∀ i, (v.passing o).getLsbD i = true → (v.src32 .int 0 o.a i).toNat ≤ 95 ∧ (v.src32 .int 1 o.b i).toNat ≤ (v.block i).nthreads) ∧
    v.resultsFull = false ∧ v.heldRelease (some 1) = false ∧ v.heldRelease (some 2) = false ∧ s.writes.any (·.stack) = false :=
  ⟨plainS, plainV, ops 0 (.imm 95) (.imm 1) .unused, plain_view, by decide +kernel, fun i hi => by
    rw [plain_lane (by decide +kernel) hi]; decide +kernel, by decide +kernel, by decide +kernel, by decide +kernel, by decide +kernel⟩

theorem wit_FencesAndSections :
    (∃ (s : State) (v : View) (o : Operands), s.view? = some v ∧ v.passing o ≠ 0 ∧ o.mod.toNat % 4 = 2 ∧ bitField o.mod.toNat 2 3 = 5 ∧
      v.heldRelease (some 5) = false ∧ s.cwbPending v.ic.core = false ∧ v.heldRelease (some 3) = false) ∧
    ∃ (s : State) (v : View) (o : Operands), s.view? = some v ∧ v.passing o = 0 :=
  ⟨⟨plainS, plainV, ops 22 .unused .unused .unused, plain_view, by decide +kernel, by decide +kernel, by decide +kernel,
    by decide +kernel, by decide +kernel, by decide +kernel⟩, plainS, plainV, offO, plain_view, by decide +kernel⟩


/-! ### Commands, records, rays and vertices -/

def cpyO : Operands := ops 0 (reg 4) (reg 2) (.imm 16)

/-- A command in flight that reads the block's scratchpad. -/
def flightC : Cmd :=
  { token := 1, blk := 1, core := 0, ctx := 1, part := 0, uid := 1, lane := 0, op := .cpy true true 64 0 16, acq := false, rel := false
    scope := 0, ranges := [⟨0, 1, 0, 16, false⟩, ⟨0, 1, 64, 16, true⟩], stamp := 0, loc := 0, pc := 0x8000, step := 0, wait := none }

theorem wit_CommandsIssueAndWait :
    (∃ (s u : State) (v : View) (o : Operands) (cs : List NewCmd), s.view? = some v ∧ v.resultsFull = false ∧ v.passing o = 1 ∧
      v.commandsFull (lanesOf (v.passing o)) = none ∧ v.heldRelease none = false ∧ (o.mod.getLsbD 2 && v.passing o ≠ 0) = false ∧
      s.noteWrite v.ic.core v.ctx (cs.flatMap (·.pages)) = some u ∧ (lanesOf (v.passing o)).mapM (View.cpyCmd v o) = .ok cs) ∧
    ∃ (s : State) (v : View) (o : Operands), s.view? = some v ∧ v.resultsFull = false ∧ v.passing o = 1 ∧
      ∀ i, (v.passing o).getLsbD i = true → (v.scoreRange o i).isSome = true := by
  refine ⟨⟨plainS, _, plainV, cpyO, got [] ((lanesOf (plainV.passing cpyO)).mapM (View.cpyCmd plainV cpyO)), plain_view, by decide +kernel,
      by decide +kernel, by decide +kernel, by decide +kernel, by decide +kernel, some_got (d := base) (by decide +kernel),
      ok_got (by decide +kernel)⟩,
    roomyS, roomyV, ops 0 (reg 9) (.imm 8) .unused, roomy_view, by decide +kernel, by decide +kernel, ?_⟩
  intro i hi
  rw [roomy_lane (by decide +kernel) hi]
  decide +kernel

def messageX : Context := { loadedContext with msg := some ⟨0x20000, 31, 0, 0, 0, true, 0⟩ }

/-- The context of the thread receives messages, of which v12 names it. -/
def messageS : State :=
  { withRegs [(2, 0x4000), (12, 1)] base with ctxs := [messageX] }

theorem room (s : State) (p k : Nat) (h : s.waiting p k = []) : Claims.roomFor s p k 1 := by
  unfold Claims.roomFor
  rw [h]
  exact ⟨nofun, by simp⟩

def recO : Operands := ops 0 (reg 2) .unused .unused
def messageO : Operands := ops 0 (reg 12) (reg 2) .unused

theorem wit_RecordsPushed : ∃ (s : State) (v : View) (o : Operands) (ps : List Piece), s.view? = some v ∧ v.passing o = 1 ∧
    v.heldRelease (some 3) = false ∧ Claims.roomFor s v.part 0 1 ∧
    misaligned 32 (laneAddrs (v.passing o) fun i => v.src64 0 o.a i) = none ∧
    v.recordPieces 32 (laneAddrs (v.passing o) fun i => v.src64 0 o.a i) = .ok ps :=
  ⟨plainS, plainV, recO, got [] (plainV.recordPieces 32 (laneAddrs (plainV.passing recO) fun i => plainV.src64 0 recO.a i)), plain_view,
    by decide +kernel, by decide +kernel, room plainS plainV.part 0 (by decide +kernel), by decide +kernel, ok_got (by decide +kernel)⟩

def messageV : View := viewOf messageS

theorem message_view : messageS.view? = some messageV := view_some (by decide +kernel)

theorem message_taken : ∀ i ∈ [0], bitsAt (messageRec (messageV.srcQuad 0 messageO.a i) messageV.ctx) 76 1 = 0 ∧
    ∃ x, messageS.ctx? (bitsAt (messageRec (messageV.srcQuad 0 messageO.a i) messageV.ctx) 64 12) = some x ∧
      x.part = messageV.part ∧ x.ended = false ∧ x.msg.isSome = true := by
  intro i hi
  rw [List.mem_singleton.mp hi]
  refine ⟨?_, messageX, ?_, ?_, ?_, ?_⟩
  · decide +kernel
  · decide +kernel
  · decide +kernel
  · decide +kernel
  · decide +kernel

theorem wit_Messages : ∃ (s : State) (v : View) (o : Operands) (ps : List Piece), s.view? = some v ∧ v.passing o = 1 ∧
    v.heldRelease (some 5) = false ∧ Claims.roomFor s v.part 1 1 ∧ v.badHeader o = none ∧
    v.recordPieces 48 (laneAddrs (v.passing o) fun i => v.src64 1 o.b i) = .ok ps ∧
    ∀ i ∈ [0], bitsAt (messageRec (v.srcQuad 0 o.a i) v.ctx) 76 1 = 0 ∧
      ∃ x, s.ctx? (bitsAt (messageRec (v.srcQuad 0 o.a i) v.ctx) 64 12) = some x ∧ x.part = v.part ∧ x.ended = false ∧
        x.msg.isSome = true := by
  refine ⟨messageS, messageV, messageO, got [] (messageV.recordPieces 48 (laneAddrs (messageV.passing messageO) fun i =>
    messageV.src64 1 messageO.b i)), message_view, ?_, ?_, ?_, ?_, ?_, ?_⟩
  · decide +kernel
  · decide +kernel
  · exact room messageS messageV.part 1 (by decide +kernel)
  · decide +kernel
  · exact ok_got (by decide +kernel)
  · exact message_taken

/-- Whether every lane's record has been pushed. -/
def allPushed {α β : Type} : Push × α × List β → Bool
  | (.done _, _, []) => true
  | _ => false

theorem pushed_all {α β : Type} {x : Push × α × List β} (h : allPushed x = true) : ∃ w a, x = (.done w, a, []) := by
  obtain ⟨p, a, l⟩ := x
  cases p <;> cases l <;> simp [allPushed] at h ⊢

theorem wit_Joins : (∃ (s u w : State) (v : View) (o : Operands) (ps : List Piece) (out : List (Nat × W32)), s.view? = some v ∧
    v.resultsFull = false ∧ v.passing o ≠ 0 ∧ v.heldRelease (some 3) = false ∧
    misaligned 64 (laneAddrs (v.passing o) fun i => v.src64 0 o.a i) = none ∧
    v.atomReady 4 (laneAddrs (v.passing o) fun i => v.src64 0 o.a i) = .ok ps ∧
    s.noteWrite v.ic.core v.ctx (pieceVpages ps) = some u ∧ v.badJoin ps = none ∧
    pushLanes (v.joinLane ps) (lanesOf (v.passing o)) ((v.cachePieces u ps).release v.ic.core 3) [] = (.done w, out, [])) ∧
    ∃ (s : State) (v : View) (ps : List Piece) (p : Piece), s.view? = some v ∧ ps.find? (·.lane = 0) = some p ∧ p.len = 4 ∧
      isRemote p.pa = false ∧ p.pa + 4 ≤ s.usable ∧ s.writes = [] ∧
      ∀ a, p.pa ≤ a → a < p.pa + 4 → s.aliasedAt (v.slices ((p.tr.map (·.tgeo)).getD 0) a) a = false := by
  let o : Operands := ops 0 (reg 2) .unused .unused
  let ps : List Piece := got [] (plainV.atomReady 4 (laneAddrs (plainV.passing o) fun i => plainV.src64 0 o.a i))
  let u : State := (plainS.noteWrite 0 1 (pieceVpages ps)).getD base
  obtain ⟨w, out, h⟩ := pushed_all (x := pushLanes (plainV.joinLane ps) (lanesOf (plainV.passing o))
    ((plainV.cachePieces u ps).release 0 3) []) (by decide +kernel)
  exact ⟨⟨plainS, u, w, plainV, o, ps, out, plain_view, by decide +kernel, by decide +kernel, by decide +kernel, by decide +kernel,
      ok_got (by decide +kernel), some_got (by decide +kernel), by decide +kernel, h⟩,
    plainS, plainV, ps, (ps.head?).getD ⟨0, 0, 0, 0, none⟩, plain_view, by decide +kernel, by decide +kernel, by decide +kernel, by decide +kernel,
    by decide +kernel, fun a _ _ => rfl⟩

/-- The launch has ray states at 0x60000 whose first word counts 4 records, and a scene record at POOL. -/
def rayS : State :=
  withWords 0x60000 [4] (withWords 0x20000 [0x30000, 0, 0, 0, 0, 0, 0, 0]
    { roomyS with launches := [{ roomyL with words := roomyL.words.set 12 0x60000 }] })

def rayO : Operands := ops 0 (reg 12) (reg 16) (.pool 0)

theorem wit_Rays :
    (∃ (s : State) (v : View) (o : Operands) (x : View) (ws : List W32) (c : Nat), s.view? = some v ∧ v.resultsFull = false ∧
      v.passing o = 1 ∧ v.launch.rayst ≠ 0 ∧ v.poolRecord o.c = .ok ws ∧ sceneOk ws = true ∧
      v.rayCount (lowestLane (v.passing o)) = .ok (x, c) ∧ 1 ≤ c ∧ c ≤ 1048576 ∧ o.mod.getLsbD 2 = false ∧ x.heldRelease none = false ∧
      (x.sendRays o ws c (lanesOf (v.passing o)) x.s []).2.2 = []) ∧
    ∃ (s u : State) (v : View) (o : Operands) (l : List ScrAccess) (parts : List ScrPart), s.view? = some v ∧ v.resultsFull = false ∧
      v.passing o = 1 ∧ v.scrReady 32 true v.accStore [(0, (v.src32 .int 0 o.a 0).toNat)] = .ok (l, parts, []) ∧
      s.noteWrite v.ic.core v.ctx (pieceVpages ([] : List Piece)) = some u := by
  let v : View := viewOf rayS
  let r : View × Nat := got (v, 0) (v.rayCount (lowestLane (v.passing rayO)))
  obtain ⟨l, p, h⟩ := ok_noWin (e := roomyV.scrReady 32 true roomyV.accStore [(0, (roomyV.src32 .int 0 scrO.a 0).toNat)])
    (by decide +kernel)
  exact ⟨⟨rayS, v, rayO, r.1, got [] (v.poolRecord rayO.c), r.2, view_some (by decide +kernel), by decide +kernel, by decide +kernel,
      by decide +kernel, ok_got (by decide +kernel), by decide +kernel, ok_got (by decide +kernel), by decide +kernel, by decide +kernel,
      by decide +kernel, by decide +kernel, by decide +kernel⟩,
    roomyS, roomyS, roomyV, scrO, l, p, roomy_view, by decide +kernel, by decide +kernel, h, rfl⟩

/-- An image that is not the shipped one is a context's own. -/
theorem own_image (k : Nat) (s : State) (im : List W64) (h : im ≠ Config.shippedImage k) :
    ({ s with ctxs := [{ loadedContext with mcode := [(k, im)] }] }.ownMicrocode 1 k) = some im := by
  have hc : ({ s with ctxs := [{ loadedContext with mcode := [(k, im)] }] } : State).ctxOf 1 =
    { loadedContext with mcode := [(k, im)] } := rfl
  simp [State.ownMicrocode, hc, Option.filter, h]

/-- A vertex buffer, or a texture of 4 by 4 texels, at 0x30000, named by a record at POOL. -/
def vertexS (ws : List W32) : State := withWords 0x20000 ws roomyS

def vertexO : Operands := ops 0 (.pool 0) (reg 12) .unused

def textureS : State := vertexS [0x30000, 0, 64, 0x10, 0x40004, 0, 0, 0]
def imageS (im : List W64) : State := { textureS with ctxs := [{ loadedContext with mcode := [(3, im)] }] }

/-- A context's sampler image whose first word ends its item. -/
theorem own_sampler : ∃ (s w : State) (v : View) (o : Operands) (ws : List W32) (im : List W64) (l : List (Nat × List W32)),
    s.view? = some v ∧ v.resultsFull = false ∧ v.passing o ≠ 0 ∧ v.poolRecord o.a = .ok ws ∧ textureOk ws = true ∧
      s.ownMicrocode v.ctx 3 = some im ∧ v.ownSamples im (lanesOf (v.passing o)) s = .ok (w, l) := by
  have both : ∀ im : List W64, im = [27] ∨ im = [27, 27] → im ≠ Config.shippedImage 3 →
      ∃ (s w : State) (v : View) (o : Operands) (ws : List W32) (im : List W64) (l : List (Nat × List W32)),
        s.view? = some v ∧ v.resultsFull = false ∧ v.passing o ≠ 0 ∧ v.poolRecord o.a = .ok ws ∧ textureOk ws = true ∧
          s.ownMicrocode v.ctx 3 = some im ∧ v.ownSamples im (lanesOf (v.passing o)) s = .ok (w, l) := by
    intro im hi hn
    rcases hi with rfl | rfl
    · exact ⟨imageS [27], _, viewOf (imageS [27]), vertexO, got [] ((viewOf (imageS [27])).poolRecord vertexO.a), [27], _,
        view_some (by decide +kernel), by decide +kernel, by decide +kernel, ok_got (by decide +kernel), by decide +kernel,
        own_image 3 textureS [27] hn, ok_got (d := (base, [])) (by decide +kernel)⟩
    · exact ⟨imageS [27, 27], _, viewOf (imageS [27, 27]), vertexO, got [] ((viewOf (imageS [27, 27])).poolRecord vertexO.a), [27, 27], _,
        view_some (by decide +kernel), by decide +kernel, by decide +kernel, ok_got (by decide +kernel), by decide +kernel,
        own_image 3 textureS [27, 27] hn, ok_got (d := (base, [])) (by decide +kernel)⟩
  by_cases h : ([27] : List W64) = Config.shippedImage 3
  · exact both [27, 27] (.inr rfl) (by rw [← h]; decide)
  · exact both [27] (.inl rfl) h

theorem wit_Graphics :
    (∃ (s : State) (v : View) (o : Operands), s.view? = some v ∧ v.passing o = 0 ∧ v.resultsFull = false) ∧
    (∃ (s : State) (v : View) (o : Operands) (ps : List Piece) (ws : List W32) (reads : List (Nat × W64)), s.view? = some v ∧
      v.resultsFull = false ∧ v.passing o = 1 ∧ v.poolRecord o.a = .ok ws ∧ vertexOk ws = true ∧
      v.poolAddrs 1 ws 4 (fun i => (v.src32 .int 1 o.b i).toNat * (wordAt ws 4).toNat + (wordAt ws 5).toNat) = .ok reads ∧ reads ≠ [] ∧
      v.recordPieces 4 reads = .ok ps) ∧
    (∃ (s : State) (v : View) (o : Operands) (ps : List Piece) (ws : List W32), s.view? = some v ∧ v.resultsFull = false ∧
      v.passing o = 1 ∧ v.poolRecord o.a = .ok ws ∧ textureOk ws = true ∧ s.ownMicrocode v.ctx 3 = none ∧ (texture ws).robust = true ∧
      ((texture ws).sample (v.srcQuad 1 o.b 0)).isSome = true ∧
      v.recordPieces ((texture ws).chn * elemBytes (texture ws).fmt) ((lanesOf (v.passing o)).flatMap fun i =>
        match (texture ws).sample (v.srcQuad 1 o.b i) with
        | some q => ((texture ws).inside q).map fun k => (i, (texture ws).base + BitVec.ofNat 64 (q.offs.getD k 0))
        | none => []) = .ok ps) ∧
    (∃ (s w : State) (v : View) (o : Operands) (ws : List W32) (im : List W64) (l : List (Nat × List W32)), s.view? = some v ∧
      v.resultsFull = false ∧ v.passing o ≠ 0 ∧ v.poolRecord o.a = .ok ws ∧ textureOk ws = true ∧ s.ownMicrocode v.ctx 3 = some im ∧
      v.ownSamples im (lanesOf (v.passing o)) s = .ok (w, l)) ∧
    ∃ (s : State) (v : View) (o : Operands) (l : List (Nat × List W32)), s.view? = some v ∧
      (∀ i, (v.passing o).getLsbD i = true → (v.thread i).vertex.isSome = true) ∧
      (lanesOf (v.passing o)).mapM (fun i => (v.attributes o (immNat o.c % 32) i).map fun a => (i, a)) = .ok l ∧ (v.sendVerts o l s).2 = [] := by
  let vs : State := vertexS [0x30000, 0, 64, 0, 4, 0, 0, 0]
  let ts : State := textureS
  let ps : State := { withThread (fun t => { t with vertex := some 7 }) base with launches := [roomyL] }
  let po : Operands := ops 0 (reg 12) (reg 9) (.imm 2)
  refine ⟨⟨plainS, plainV, offO, plain_view, by decide +kernel, by decide +kernel⟩,
    ⟨vs, viewOf vs, vertexO, _, got [] ((viewOf vs).poolRecord vertexO.a), got [] ((viewOf vs).poolAddrs 1 (got [] ((viewOf vs).poolRecord vertexO.a)) 4
        (fun i => ((viewOf vs).src32 .int 1 vertexO.b i).toNat * (wordAt (got [] ((viewOf vs).poolRecord vertexO.a)) 4).toNat
          + (wordAt (got [] ((viewOf vs).poolRecord vertexO.a)) 5).toNat)), view_some (by decide +kernel), by decide +kernel,
      by decide +kernel, ok_got (by decide +kernel), by decide +kernel, ok_got (by decide +kernel), by decide +kernel,
      ok_got (d := []) (by decide +kernel)⟩,
    ⟨ts, viewOf ts, vertexO, _, got [] ((viewOf ts).poolRecord vertexO.a), view_some (by decide +kernel), by decide +kernel,
      by decide +kernel, ok_got (by decide +kernel), by decide +kernel, by decide +kernel, by decide +kernel, by decide +kernel,
      ok_got (d := []) (by decide +kernel)⟩,
    own_sampler,
    ps, viewOf ps, po, _, view_some (by decide +kernel), ?_, ok_got (d := []) (by decide +kernel), by decide +kernel⟩
  intro i hi
  rw [lane_zero (by decide +kernel) hi]
  decide +kernel


/-! ### The lookup engine and tile tasks -/

/-- A scratchpad of 32 KiB, v2:v3 = 0x40000, v10 = 0x100060. -/
def wideS : State :=
  { withRegs [(2, 0x40000), (10, 0x100060)] base with launches := [{ roomyL with words := roomyL.words.set 5 0x100F801 }] }

def wideV : View := viewOf wideS

theorem wide_view : wideS.view? = some wideV := view_some (by decide +kernel)

/-- The engine state of the core taken for the loaded block. -/
def claimedS : State := (wideS.claim 0 1).getD base

def claimedV : View := { wideV with s := claimedS }

theorem claimed : wideS.claim 0 1 = some claimedS := some_got (by decide +kernel)

theorem wit_LookupEngine :
    (∃ (s : State) (v : View) (o : Operands), s.view? = some v ∧ v.passing o ≠ 0 ∧
      s.claim v.ic.core (v.thread (lowestLane (v.passing o))).blk = none) ∧
    (∃ (s : State) (v : View) (o : Operands), s.view? = some v ∧ v.passing o = 0) ∧
    (∃ (s u : State) (v x y : View) (o : Operands) (bytes : Array Byte) (cbase : W64) (nent : Nat) (book : Nat → Nat → W32),
      s.view? = some v ∧ v.passing o = 1 ∧ s.claim v.ic.core (v.thread 0).blk = some u ∧
      View.tbldBook { v with s := u } o 0 (bitField o.mod.toNat 4 2) = .ok (cbase, nent) ∧
      View.readRange { v with s := u } 0 (View.src32 { v with s := u } .int 0 o.a 0).toNat (15 * 16 + 16) = .ok (x, bytes) ∧
      x.readBook 0 ⟨6, 0, 4, 16, 16⟩ cbase = .ok (y, book) ∧ o.mod.toNat % 16 = 6 ∧ bitField o.mod.toNat 4 2 = 0 ∧
      bitField (View.src32 { v with s := u } .int 1 o.b 0).toNat 5 7 + 1 = 4 ∧
      (View.src32 { v with s := u } .int 1 o.b 0).toNat / 65536 = 16 ∧ (Build.mk 6 0 4 16 16).kb = 16 ∧
      (Build.mk 6 0 4 16 16).regs ≤ 6 ∧ View.addsWrong { v with s := u } 0 = false ∧
      (View.src32 { v with s := u } .int 0 o.a 0).toNat % 4 = 0 ∧ bitField (View.src32 { v with s := u } .int 1 o.b 0).toNat 12 4 = 0) := by
  let busy : State := plainS.mapCore 0 fun c => { c with owner := some 9 }
  let o : Operands := ops 6 (reg 9) (reg 10) .unused
  let x : View × Array Byte := got (claimedV, #[]) (claimedV.readRange 0 (claimedV.src32 .int 0 o.a 0).toNat (15 * 16 + 16))
  let c : W64 × Nat := got (0, 0) (claimedV.tbldBook o 0 (bitField o.mod.toNat 4 2))
  exact ⟨⟨busy, viewOf busy, plainO, view_some (by decide +kernel), by decide +kernel, by decide +kernel⟩,
    ⟨plainS, plainV, offO, plain_view, by decide +kernel⟩,
    wideS, claimedS, wideV, x.1, x.1, o, x.2, c.1, c.2, e2m1Book, wide_view, by decide +kernel, claimed, ok_got (by decide +kernel),
    ok_got (by decide +kernel), rfl, by decide +kernel, by decide +kernel, by decide +kernel, by decide +kernel, by decide +kernel,
    by decide +kernel, by decide +kernel, by decide +kernel, by decide +kernel⟩

theorem wit_TableImages :
    (∃ (s u a : State) (v x : View) (o : Operands) (tb : Table) (ps : List Piece), s.view? = some v ∧ v.passing o = 1 ∧
      s.claim v.ic.core (v.thread 0).blk = some u ∧ (View.src64 { v with s := u } 0 o.a 0).toNat % 64 = 0 ∧
      View.spillTable { v with s := u } 0 (immNat o.b) = .ok (x, tb) ∧
      Claims.Ready x x.accStore false false false 16448 [(0, View.src64 { v with s := u } 0 o.a 0)] ps ∧
      x.s.noteWrite v.ic.core x.ctx (pieceVpages ps) = some a) := by
  let o : Operands := ops 0 (reg 2) (.imm 0) .unused
  let x : View × Table := got (claimedV, .empty) (claimedV.spillTable 0 (immNat o.b))
  let ps : List Piece := got [] (x.1.s.lanePieces x.1.ctx x.1.accStore false 16448 [(0, claimedV.src64 0 o.a 0)])
  exact ⟨wideS, claimedS, (x.1.s.noteWrite 0 x.1.ctx (pieceVpages ps)).getD base, wideV, x.1, o, x.2, ps, wide_view, by decide +kernel,
    claimed, by decide +kernel, ok_got (d := (claimedV, Table.empty)) (by decide +kernel),
    ready_of (by decide +kernel) (by decide +kernel) (by decide +kernel), some_got (by decide +kernel)⟩

theorem wit_TileRows :
    (∃ (s u : State) (v x : View) (o : Operands) (bytes : Array Byte), s.view? = some v ∧ v.passing o = 1 ∧
      s.claim v.ic.core (v.thread 0).blk = some u ∧ (View.src32 { v with s := u } .int 0 o.a 0).toNat % 4 = 0 ∧
      (View.src32 { v with s := u } .int 1 o.b 0).toNat = 256 ∧ fmtBits (o.mod.toNat % 16) = 32 ∧
      View.readRange { v with s := u } 0 (View.src32 { v with s := u } .int 0 o.a 0).toNat (15 * 256 + 256) = .ok (x, bytes)) ∧
    ∃ (s u a : State) (v : View) (o : Operands) (rows : List ScrRange), s.view? = some v ∧ v.passing o = 1 ∧
      s.claim v.ic.core (v.thread 0).blk = some u ∧ (View.src32 { v with s := u } .int 0 o.a 0).toNat % 4 = 0 ∧
      (View.src32 { v with s := u } .int 1 o.b 0).toNat = 256 ∧ fmtBits (o.mod.toNat % 16) = 32 ∧
      (u.scrTarget (View.block { v with s := u } 0) (View.src32 { v with s := u } .int 0 o.a 0).toNat (15 * 256 + 256)).isSome = true ∧
      View.drainRows { v with s := u } 0 (View.src32 { v with s := u } .int 0 o.a 0).toNat 256 256 = .ok rows ∧
      u.noteWrite v.ic.core v.ctx (pieceVpages (rows.flatMap fun r => r.wins.map (·.2))) = some a := by
  let o : Operands := ops 0 (reg 9) (.imm 256) (.imm 3)
  let x : View × Array Byte := got (claimedV, #[]) (claimedV.readRange 0 (claimedV.src32 .int 0 o.a 0).toNat (15 * 256 + 256))
  let rows : List ScrRange := got [] (claimedV.drainRows 0 (claimedV.src32 .int 0 o.a 0).toNat 256 256)
  exact ⟨⟨wideS, claimedS, wideV, x.1, o, x.2, wide_view, by decide +kernel, claimed, by decide +kernel, by decide +kernel,
      by decide +kernel, ok_got (by decide +kernel)⟩,
    wideS, claimedS, (claimedS.noteWrite 0 1 (pieceVpages (rows.flatMap fun r => r.wins.map (·.2)))).getD base, wideV, o, rows,
    wide_view, by decide +kernel, claimed, by decide +kernel, by decide +kernel, by decide +kernel, by decide +kernel,
    ok_got (by decide +kernel), some_got (by decide +kernel)⟩

/-- A table register that holds a build of 4 groups of 4 elements of FMT 6. -/
def smallTable : Table := ⟨statWord ⟨6, 0, 4, 16, 16⟩ 0 0 0, 0, 16, 16, 0, []⟩

/-- The core's first table register holds it; POOL names a B tile of FMT 12; the block's multiply at this PC stopped at its end. -/
def mulS : State :=
  { wideS.mapCore 0 (fun c => { c with tables := [(0, smallTable)] }) with
    mem := wideS.mem.writeRun 0x20000 (wordsBytes [0, 0, 0, 12, 0, 0, 0, 0])
    blocks := [{ loadedBlock 0 with mlkStop := some 0x8000, kprog := 1 }] }

def mulV : View := { viewOf mulS with s := (mulS.claim 0 1).getD base }

def mulO : Operands := ops 0 (reg 9) (.pool 0) (.imm 0)

theorem run_end (m : Mul) (f : Nat → Nat → Nat → W32) (n k : Nat) (acc : List W32) (h : n = 0) :
    m.run f none n k acc = (acc, k, .done) := by
  subst h
  rfl

theorem wit_Multiply : ∃ (s u : State) (v x : View) (o : Operands) (bytes : Array Byte) (ws : List W32) (acc : List W32) (k : Nat),
    s.view? = some v ∧ v.passing o ≠ 0 ∧ s.claim v.ic.core (v.thread (lowestLane (v.passing o))).blk = some u ∧
    View.poolRecord { v with s := u } o.b = .ok ws ∧ bRecOk ws = true ∧ (u.core v.ic.core).table? 0 = some smallTable ∧
    mlkShapeOk smallTable.build (bRec ws) = true ∧ (u.core v.ic.core).badRegister 0 smallTable (o.mod.getLsbD 0) = none ∧
    (u.core v.ic.core).needsRebuild 0 smallTable = false ∧ (u.core v.ic.core).lookupFault = none ∧
    (View.src32 { v with s := u } .int 0 o.a 0).toNat % 4 = 0 ∧ (View.src32 { v with s := u } .int 2 o.c 0).toNat < 1024 ∧
    View.readRange { v with s := u } 0 (View.src32 { v with s := u } .int 0 o.a 0).toNat
      ((bRec ws).bytes 4 4 ((bRec ws).pitch 4 4)) = .ok (x, bytes) ∧
    (x.s.blockOf 1).mlkStop = some v.ic.pc ∧ (x.s.blockOf 1).kprog = 1 ∧
    let mul : Mul := ⟨smallTable.build, bRec ws, (bRec ws).pitch 4 4, fun k => bytes.getD k 0⟩
    mul.steps = 1 ∧ mul.run ((x.s.core v.ic.core).setEntries 0 smallTable.build) none (mul.steps - 1) 1 (x.s.tile v.ic.core 0) = (acc, k, .done) := by
  let ws : List W32 := got [] (mulV.poolRecord mulO.b)
  let x : View × Array Byte := got (mulV, #[]) (mulV.readRange 0 (mulV.src32 .int 0 mulO.a 0).toNat
    ((bRec ws).bytes 4 4 ((bRec ws).pitch 4 4)))
  exact ⟨mulS, (mulS.claim 0 1).getD base, viewOf mulS, x.1, mulO, x.2, ws, x.1.s.tile 0 0, 1, view_some (by decide +kernel),
    by decide +kernel, some_got (by decide +kernel), ok_got (by decide +kernel), by decide +kernel, by decide +kernel, by decide +kernel,
    by decide +kernel, by decide +kernel, by decide +kernel, by decide +kernel, by decide +kernel, ok_got (by decide +kernel),
    by decide +kernel, by decide +kernel, by decide +kernel, run_end _ _ _ _ _ (by decide +kernel)⟩

/-- Partition 0 holds core 0 and runs. -/
def layout0 : Layout :=
  { (base.part 0).layout with valid := true, cls := 1, cores := 1, mbt := 1, evdelay := 1, sechold := 1, saveto := 1, binage := 1, wlen := 1 }

def withPart (f : Partition → Partition) (s : State) : State :=
  { s with parts := s.parts.set 0 (f { s.part 0 with layout := layout0, state := .running }) }

/-- The record of a tile task of 4 groups of 4 elements of FMT 6 whose A, B and C lie at 0x30000, 0x31000 and 0x32000. -/
def taskWords : List W32 := [0x601, 0x40000, 0x30000, 0, 0x31000, 0, 0x32000, 0, 0x01000010, 4, 0, 0, 0, 0, 0, 0]

/-- Its token is 1. -/
def taskX (st : TaskState) (core : Option Nat) (acc : List W32) : Task :=
  ⟨1, 0, 1, 1, false, core, 0x20000, taskWords, st, if acc = [] then 0 else 1, acc, 0, 0, none⟩

/-- The next token is 2, POOL names a B tile of FMT 12, and the task's record lies at v2:v3. -/
def taskS (x : Task) : State :=
  withPart (fun p => { p with taskSer := 2 })
    { withWords 0x20000 [0, 0, 0, 12, 0, 0, 0, 0] (withWords 0x4000 taskWords plainS) with tasks := [x] }

def tenqV : View := viewOf (taskS (taskX .done none []))
def tenqO : Operands := ops 0 (reg 2) .unused .unused
def tenqPs : List Piece := got [] (tenqV.recordPieces 64 (laneAddrs (tenqV.passing tenqO) fun i => tenqV.src64 0 tenqO.a i))

theorem tenq_words : View.recordWords { tenqV with s := tenqV.touchPieces (taskS (taskX .done none [])) tenqPs } tenqPs 0 = taskWords := by
  decide +kernel

theorem tenq_pool : isOk (tenqV.poolRecord (.pool 0)) = true := by decide +kernel

theorem tenq_checked : isOk (tenqV.taskChecked 0 (tenqV.src64 0 tenqO.a 0) taskWords) = true := by decide +kernel

theorem tasks_one (v : View) (va : Nat → W64) (words : Nat → List W32) (l : List Nat) (ws : List W32) (hl : l = [0]) (hw : words 0 = ws)
    (h : isOk (v.taskChecked 0 (va 0) ws) = true) : v.tasksChecked va words l = .ok () := by
  subst hl hw
  rw [View.tasksChecked, ok_got (d := ()) h]
  rfl

theorem wit_TileTasks :
    (∃ (s : State) (v : View) (o : Operands) (ps : List Piece), s.view? = some v ∧ v.resultsFull = false ∧ v.passing o = 1 ∧
      misaligned 64 (laneAddrs (v.passing o) fun i => v.src64 0 o.a i) = none ∧
      v.recordPieces 64 (laneAddrs (v.passing o) fun i => v.src64 0 o.a i) = .ok ps ∧
      v.tasksChecked (fun i => v.src64 0 o.a i) (View.recordWords { v with s := v.touchPieces s ps } ps) (lanesOf (v.passing o)) = .ok () ∧
      taskAcq (View.recordWords { v with s := v.touchPieces s ps } ps 0) = false ∧
      Claims.roomFor s v.part 2 1 ∧ v.part < s.parts.length ∧ (s.part v.part).taskSer ≠ 0 ∧ (s.part v.part).taskSer.toNat + 1 ≤ 2 ^ 32) ∧
    (∃ (s : State) (v : View) (o : Operands), s.view? = some v ∧ v.resultsFull = false ∧ v.passing o = 1 ∧
      o.mod.getLsbD 0 = false ∧ s.tokenState v.part (v.src32 .int 0 o.a 0) = 3) ∧
    ∃ (s : State) (v : View) (o : Operands) (x : Task), s.view? = some v ∧ v.resultsFull = false ∧ v.passing o = 1 ∧
      o.mod.getLsbD 0 = true ∧ Claims.roomFor s v.part 2 1 ∧ s.keptTask v.part (v.src32 .int 0 o.a 0) = some x ∧ x.state = .stopped := by
  let s : State := taskS (taskX .done none [])
  let z : State := taskS (taskX .stopped none [])
  exact ⟨⟨s, tenqV, tenqO, tenqPs, view_some (by decide +kernel), by decide +kernel, by decide +kernel, by decide +kernel,
      ok_got (by decide +kernel), tasks_one _ _ _ _ taskWords (by decide +kernel) tenq_words tenq_checked,
      by rw [tenq_words]; decide +kernel, room s tenqV.part 2 (by decide +kernel), by decide +kernel, by decide +kernel, by decide +kernel⟩,
    ⟨s, tenqV, ops 0 (.imm 1) .unused .unused, view_some (by decide +kernel), by decide +kernel, by decide +kernel, by decide +kernel,
      by decide +kernel⟩,
    z, viewOf z, ops 1 (.imm 1) .unused .unused, taskX .stopped none [], view_some (by decide +kernel), by decide +kernel, by decide +kernel,
    by decide +kernel, room z (viewOf z).part 2 (by decide +kernel), by decide +kernel, rfl⟩

def tasksQ : Task := taskX .queued none []
def tasksR (core : Option Nat) : Task := taskX .running core (List.replicate 64 0)

def noPlan : State × Mul × (Nat → Nat → Nat → W32) := (base, ⟨⟨0, 0, 0, 0, 0⟩, ⟨0, 0, false, 0, 0, 0⟩, 0, fun _ => 0⟩, fun _ _ _ => 0)

def planOf (x : Task) : State × Mul × (Nat → Nat → Nat → W32) :=
  got noPlan ((taskS x).taskPlan (x.eng 0) x)

theorem plan_ok (x : Task) (h : isOk ((taskS x).taskPlan (x.eng 0) x) = true) :
    (taskS x).taskPlan (x.eng 0) x = .ok ((planOf x).1, (planOf x).2.1, (planOf x).2.2) := ok_got h

theorem wit_TileTaskRuns :
    (∃ (s u : State) (p c : Nat) (x : Task) (m : Mul) (ents : Nat → Nat → Nat → W32), s.task? p x.tok = some x ∧ x.part = p ∧
      s.taskStamp x = x.stamp ∧ s.taskPlan (x.eng c) x = .ok (u, m, ents) ∧ s.starts p = true ∧ s.tasks.find? (fun t => t.part = p && s.taskReady t) = some x ∧
      s.pickEngine x = some c ∧ x.acc = [] ∧ bitsAt x.words 18 1 = 0) ∧
    (∃ (s u : State) (p c : Nat) (x : Task) (m : Mul) (ents : Nat → Nat → Nat → W32), s.task? p x.tok = some x ∧ x.part = p ∧
      s.taskStamp x = x.stamp ∧ s.taskPlan (x.eng c) x = .ok (u, m, ents) ∧ s.starts p = true ∧ x.state = .running ∧ x.core = none ∧ x.wait = none ∧
      s.pickEngine x = some c ∧ x.acc ≠ []) := by
  exact ⟨⟨taskS tasksQ, (planOf tasksQ).1, 0, 0, tasksQ, (planOf tasksQ).2.1, (planOf tasksQ).2.2, by decide +kernel, by decide +kernel,
      by decide +kernel, plan_ok tasksQ (by decide +kernel), by decide +kernel, by decide +kernel, by decide +kernel, by decide +kernel, by decide +kernel⟩,
    taskS (tasksR none), (planOf (tasksR none)).1, 0, 0, tasksR none, (planOf (tasksR none)).2.1, (planOf (tasksR none)).2.2,
    by decide +kernel, by decide +kernel, by decide +kernel, plan_ok (tasksR none) (by decide +kernel), by decide +kernel, by decide +kernel, by decide +kernel,
    by decide +kernel, by decide +kernel, by decide +kernel⟩

def tasksE : Task := tasksR (some 0)
def tasksY : State := (planOf tasksE).1.mapTask 0 tasksE.tok fun _ => { tasksE with acc := tasksE.acc, ksteps := 1 }
def tasksW : State :=
  (tasksY.noteWrite 0 tasksE.ctx ((List.range 16).flatMap fun i => pagesOf (tasksE.rowAddr i) (tasksE.rowBytes tasksE.acc 0).length)).getD base
def tasksZ : State :=
  got base ((List.range 16).foldlM (fun a i => a.engWrite (tasksE.eng 0) (tasksE.rowAddr i) (tasksE.rowBytes tasksE.acc i)) tasksW)

theorem tasks_write : tasksY.noteWrite 0 tasksE.ctx
    ((List.range 16).flatMap fun i => pagesOf (tasksE.rowAddr i) (tasksE.rowBytes tasksE.acc 0).length) = some tasksW :=
  some_got (d := base) (by decide +kernel)

theorem tasks_store :
    (List.range 16).foldlM (fun a i => a.engWrite (tasksE.eng 0) (tasksE.rowAddr i) (tasksE.rowBytes tasksE.acc i)) tasksW = .ok tasksZ :=
  ok_got (d := base) (by decide +kernel)

theorem wit_TileTaskComplete : ∃ (s u : State) (c : Nat) (x : Task) (m : Mul) (ents : Nat → Nat → Nat → W32) (k : Nat) (w z : State),
    s.task? 0 x.tok = some x ∧ x.part = 0 ∧ s.taskPlan (x.eng c) x = .ok (u, m, ents) ∧ x.core = some c ∧ x.state = .running ∧
    (s.core c).hung = none ∧ (u.core c).lookupFault = none ∧
    m.run ents none (min 65536 (m.steps - x.ksteps)) x.ksteps x.acc = (x.acc, k, .done) ∧ m.steps ≤ k ∧
    let y := u.mapTask 0 x.tok fun _ => { x with acc := x.acc, ksteps := k }
    (∃ trs, (List.range 16).mapM (fun i =>
      (accessParts (x.rowAddr i) (x.rowBytes x.acc 0).length).mapM fun q => y.engTrans (x.eng c) true q.1 q.2.2) = .ok trs) ∧
    y.noteWrite c x.ctx ((List.range 16).flatMap fun i => pagesOf (x.rowAddr i) (x.rowBytes x.acc 0).length) = some w ∧
    (List.range 16).foldlM (fun a i => a.engWrite (x.eng c) (x.rowAddr i) (x.rowBytes x.acc i)) w = .ok z := by
  exact ⟨taskS tasksE, (planOf tasksE).1, 0, tasksE, (planOf tasksE).2.1, (planOf tasksE).2.2, 1, tasksW, tasksZ, by decide +kernel,
    by decide +kernel, plan_ok tasksE (by decide +kernel), by decide +kernel, by decide +kernel, by decide +kernel, by decide +kernel,
    run_end (planOf tasksE).2.1 (planOf tasksE).2.2 (min 65536 ((planOf tasksE).2.1.steps - tasksE.ksteps)) 1 tasksE.acc
      (by decide +kernel), by decide +kernel,
    ⟨_, ok_got (d := []) (by decide +kernel)⟩, tasks_write, tasks_store⟩

/-! ### Results, bins, home slices and commands -/

/-- A mismatch is injected in the FMA pipes of quadrant 0 of core 0. -/
def residueS : State := (trapS false false).mapCore 0 fun c => { c with inject := [⟨1, 0⟩] }

/-- A class-V result of the loaded thread for v5. -/
def resultX : Result := ⟨0, 0, [⟨0, 1, [⟨5, 0xFFFFFFFF, 7, false⟩], []⟩], 0, none⟩

theorem wit_ResultsAndResidue :
    (∃ (s : State) (v : View), s.view? = some v ∧ v.resultsFull = true) ∧
    (∃ (s : State) (n : Nat) (x : Result) (w : Wave), s.results[n]? = some x ∧ s.wave? x.core x.wslot = some w ∧
      (x.lanes.map (·.lane)).Nodup ∧ (∀ l ∈ x.lanes, l.lane < 32) ∧ ∃ l ∈ x.lanes, ∃ y, w.live? l.lane = some y ∧ y.uid = l.uid) ∧
    ∃ (s : State) (v : View) (o : Operands) (k : Nat) (m : Mask), s.view? = some v ∧ v.fmaMismatch (v.passing o) = some (k, m, true) ∧
      v.outstanding = false ∧ ∀ i, m.getLsbD i = true → ∃ x, v.w.live? i = some x ∧ x.tvec ≠ 0 ∧ x.inHandler = false := by
  let full : State := { plainS with results := List.replicate 32 resultX }
  let one : State := { base with results := [resultX] }
  refine ⟨⟨full, viewOf full, view_some (by decide +kernel), by decide +kernel⟩,
    ⟨one, 0, resultX, loadedWave, by decide +kernel, by decide +kernel, by decide +kernel, by decide +kernel,
      resultX.lanes.headD ⟨0, 0, [], []⟩, by decide +kernel, loadedThread, by decide +kernel, by decide +kernel⟩,
    residueS, viewOf residueS, plainO, 0, 1, view_some (by decide +kernel), by decide +kernel, by decide +kernel, fun i hi => ?_⟩
  rw [lane_zero rfl hi]
  exact ⟨{ loadedThread with tvec := 0x8200 }, by decide +kernel, by decide +kernel, by decide +kernel⟩

/-- A bin of core 0 that holds a thread of the loaded launch, which has no other wave. -/
def binX : Bin := ⟨3, 1, 0x800C, 0, 256, [({ loadedThread with pc := 0x800C }, 2)]⟩

def binS : State := { base.mapCore 0 (fun c => { c with bins := [binX] }) with waves := [] }

/-- A wave that the holds of its entry 1 have stopped. -/
def stuckW : Wave := { loadedWave with rejoin := loadedWave.rejoin.set 1 ⟨true, 0x9000, 3, 0x8100, 0, 0, 1⟩ }

theorem wit_ReformAndBins :
    (∃ (s : State) (v : View), s.view? = some v ∧ v.outstanding = true) ∧
    (∃ (s : State) (v : View) (o : Operands) (m : Option (List W32)), s.view? = some v ∧ v.outstanding = false ∧ v.passing o ≠ 0 ∧
      s.liveMask v.launch v.ic.core v.ic.pc = .ok m) ∧
    (∃ (s : State) (b : Bin), (s.core 0).bins.find? (fun b => b.n = 3) = some b ∧ s.binDue 0 b = true ∧
      s.launchHalted b.launch = false ∧ s.freeSlots 0 ≠ [] ∧ b.nregs ≤ s.quadFree 0 (s.bestQuad 0)) ∧
    (∃ (s : State) (w : Wave), s.wave? 0 0 = some w ∧ w.deadlocked = true ∧
      (∀ i, i < 1 → ((w.rejoin.getD i .none).armed && (w.rejoin.getD i .none).held ≠ 0) = false) ∧ 1 < w.rejoin.length ∧
      (w.rejoin.getD 1 .none).armed = true ∧ (w.rejoin.getD 1 .none).held ≠ 0) := by
  exact ⟨⟨trapS true false, viewOf (trapS true false), view_some (by decide +kernel), by decide +kernel⟩,
    ⟨plainS, plainV, plainO, got none (plainS.liveMask plainV.launch plainV.ic.core plainV.ic.pc), plain_view, by decide +kernel,
      by decide +kernel, ok_got (by decide +kernel)⟩,
    ⟨binS, binX, by decide +kernel, by decide +kernel, by decide +kernel, by decide +kernel, by decide +kernel⟩,
    { base with waves := [stuckW] }, stuckW, by decide +kernel, by decide +kernel, by decide +kernel, by decide +kernel,
    by decide +kernel, by decide +kernel⟩

/-- A write of four bytes to 0x9000. -/
def writeX (slice : Nat) (mis : Bool) : PendWrite := ⟨⟨some 1, some 0⟩, 1, 0x9000, 0x9000, 0, [1, 2, 3, 4], slice, false, false, false, false, 0, 0, mis⟩

def homeOf : Nat := plainS.writeSlice (writeX 0 false)

theorem wit_HomeSlices :
    (∃ (s : State) (w : PendWrite), s.writes[0]? = some w ∧ s.writeReady 0 = true ∧ s.sliceHolds w.slice = false ∧ w.slice = s.writeSlice w ∧
      isRemote w.addr = false ∧ w.addr + w.data.length ≤ s.usable ∧ (∀ l ∈ linesOf w.addr w.data.length, s.lineState false 0 (l * 128) = .ok) ∧ w.cwb ≠ 2 ∧
      w.data.length ≤ 128 - w.addr % 128 ∧ 0 < w.data.length ∧ 0 ∈ s.liveWays w.slice ∧
      ∀ e ∈ s.stuckLines w.slice (lineSet w.addr), e.way ≠ 0) ∧
    (∃ (s : State) (w : PendWrite), s.writes[0]? = some w ∧ s.writeReady 0 = true ∧ s.sliceHolds w.slice = false ∧ w.slice ≠ s.writeSlice w) ∧
    (∃ (s : State) (w : PendWrite), s.writes[0]? = some w ∧ s.sliceHolds w.slice = true ∧ isRemote w.addr = false) ∧
    (∃ (s : State) (w : PendWrite), s.writes[0]? = some w ∧ s.writeReady 0 = false ∧ w.misdirected = true) ∧
    (∃ (s : State) (w : PendWrite), s.writes[0]? = some w ∧ w.misdirected = false) := by
  refine ⟨⟨{ plainS with writes := [writeX homeOf false] }, writeX homeOf false, by decide +kernel, by decide +kernel, by decide +kernel,
      by decide +kernel, by decide +kernel, by decide +kernel, by decide +kernel, by decide +kernel, by decide +kernel, by decide +kernel,
      by decide +kernel, by decide +kernel⟩,
    ⟨{ plainS with writes := [writeX (homeOf + 1) false] }, writeX (homeOf + 1) false, by decide +kernel, by decide +kernel,
      by decide +kernel, by decide +kernel⟩,
    ⟨{ plainS with writes := [writeX 0 false], mp := { plainS.mp with split := some ⟨[], [0], 2⟩ } }, writeX 0 false, by decide +kernel,
      by decide +kernel, by decide +kernel⟩,
    ⟨{ plainS with writes := [writeX 0 true] }, writeX 0 true, by decide +kernel, by decide +kernel, by decide +kernel⟩,
    { plainS with writes := [writeX 0 false] }, writeX 0 false, by decide +kernel, by decide +kernel⟩

def flightS : State := { roomyS with cmds := [flightC] }

theorem wit_CommandsRetire :
    (∃ (s : State) (c : Cmd) (u : State) (k : Nat), s.cmds[0]? = some c ∧ s.readyCmd 0 = some c ∧
      s.runElems c.eng c ((s.cmdElems c).drop c.step) c.step = (u, k, none)) ∧
    (∃ (s : State) (c : Cmd) (dst src : W64) (len b off b' off' : Nat), s.cmds[0]? = some c ∧ s.readyCmd 0 = some c ∧
      c.op = .cpy true true dst src len ∧ c.step = 0 ∧ (s.block? b).isSome = true ∧
      s.cmdScr c (dst.toNat % 2 ^ 32) len = some (.scr b off) ∧ s.cmdScr c (src.toNat % 2 ^ 32) len = some (.scr b' off') ∧
      (b ≠ b' ∨ off + len ≤ off' ∨ off' + len ≤ off)) ∧
    ∃ (s : State) (c : Cmd), s.cmds[0]? = some c ∧ s.readyCmd 0 = none := by
  let r : State × Nat × Option EngFail := flightS.runElems flightC.eng flightC (flightS.cmdElems flightC) 0
  have h : r.2.2 = none := by decide +kernel
  let stuck : Cmd := { flightC with wait := some (0, 0) }
  exact ⟨⟨flightS, flightC, r.1, r.2.1, by decide +kernel, by decide +kernel, by rw [← h]; rfl⟩,
    ⟨flightS, flightC, 64, 0, 16, 1, 64, 1, 0, by decide +kernel, by decide +kernel, rfl, rfl, by decide +kernel, by decide +kernel,
      by decide +kernel, by decide⟩,
    { roomyS with cmds := [stuck] }, stuck, by decide +kernel, by decide +kernel⟩

/-! ### Issue, steps and inputs from outside -/

/-- The loaded program whose first word is that of nop, before its issue. -/
def readyS (w : BitVec 96) : State := State.reset.withFetchWord 96 w.toNat

def chosen (s : State) : State := ({ s with agenda := [], free := s.free + 1, cur := none } : State).choose 0 0

def piecesOf (s : State) : List Piece := got [] (viewOf (chosen s)).fetchPieces

theorem wit_IssueChoice :
    (∃ (s : State) (ic : IssueCtx), (s.choose 0 0).cur = some ic ∧ ∀ w ∈ s.waves, ∀ i < 32, (w.live? i).all (·.starve < 64) = true) ∧
    ∃ (s : State) (ic : IssueCtx) (w : Wave) (x : Thread), (s.choose 0 0).cur = some ic ∧ w ∈ s.waves ∧ w.live? 0 = some x ∧
      w.eligible.getLsbD 0 = true ∧ 64 ≤ x.starve := by
  let late : State := { withThread (fun t => { t with starve := 70 }) (readyS 0) with agenda := [] }
  exact ⟨⟨readyS 0, ((readyS 0).choose 0 0).cur.getD ⟨0, 0, 0, 0⟩, some_got (by decide +kernel), by decide +kernel⟩,
    late, (late.choose 0 0).cur.getD ⟨0, 0, 0, 0⟩, late.waves.headD loadedWave, { loadedThread with starve := 70 }, some_got (by decide +kernel),
    by decide +kernel, by decide +kernel, by decide +kernel, by decide +kernel⟩

theorem not_ok {ε α : Type} {e : Except ε α} (h : isOk e = false) : ∃ c, e = .error c := by
  cases e with
  | ok x => simp [isOk] at h
  | error c => exact ⟨c, rfl⟩

theorem wit_StepRunsDecoded :
    (∃ (s : State), s.agenda = [.issue 0 0] ∧ (chosen s).view? = none) ∧
    (∃ (s : State) (v : View) (ps : List Piece) (i : Instr), s.agenda = [.issue 0 0] ∧ (chosen s).view? = some v ∧ v.ic.pc.toNat % 4 = 0 ∧
      v.fetchPieces = .ok ps ∧ (chosen s).past = [] ∧ (∀ p ∈ ps, p.pa + p.len ≤ (chosen s).usable) ∧ decode v.w.nregs (bytesWord (v.fetchBytes ps)) = .ok i) ∧
    (∃ (s : State) (v : View) (ps : List Piece) (x : Context), s.agenda = [.issue 0 0] ∧ (chosen s).view? = some v ∧
      v.ic.pc.toNat % 4 = 0 ∧ v.fetchPieces = .ok ps ∧ (∃ c, decode v.w.nregs (bytesWord (v.fetchBytes ps)) = .error c) ∧
      (chosen s).ctx? v.ctx = some x ∧ x.ended = false) ∧
    (∃ (s : State) (v : View) (x : Context), s.agenda = [.issue 0 0] ∧ (chosen s).view? = some v ∧ v.ic.pc.toNat % 4 ≠ 0 ∧
      (chosen s).ctx? v.ctx = some x ∧ x.ended = false) := by
  let idle : State := { readyS 0 with waves := [] }
  let good : State := readyS 0x089
  let bad : State := readyS 0x3FF
  let odd : State := { withThread (fun t => { t with pc := 0x8002 }) base with agenda := [.issue 0 0] }
  exact ⟨⟨idle, by decide +kernel, by decide +kernel⟩,
    ⟨good, viewOf (chosen good), piecesOf good, got (.nop (ops 0 .unused .unused .unused)) (decode 256 (bytesWord ((viewOf (chosen good)).fetchBytes (piecesOf good)))), by decide +kernel, view_some (by decide +kernel),
      by decide +kernel, ok_got (by decide +kernel), by decide +kernel, by decide +kernel, ok_got (by decide +kernel)⟩,
    ⟨bad, viewOf (chosen bad), piecesOf bad, loadedContext, by decide +kernel, view_some (by decide +kernel), by decide +kernel,
      ok_got (by decide +kernel), not_ok (by decide +kernel), by decide +kernel, by decide +kernel⟩,
    odd, viewOf (chosen odd), loadedContext, by decide +kernel, view_some (by decide +kernel), by decide +kernel, by decide +kernel,
    by decide +kernel⟩

/-! ### Queues, launches and blocks -/

/-- User queue 5 of partition 0: its descriptor at 0x50000, and its next record at 0x51000 one of class `cls`. -/
def queueX (slot : Option Nat) : Queue := ⟨5, 0, 0x50000, slot, none, slot.isNone, none, none, 0⟩

def recordOf (cls : W32) : List W32 := loadedRecord.set 6 (cls * 0x4000000)

def queueS (pend : W32) (rec0 : List W32) (qs : List Queue) : State :=
  withPart id { withWords 0x50000 [0x51000, 0, 0x10004, 1, 0, pend] (withWords 0x51000 rec0 base) with queues := qs, now := 9000 }

theorem wit_QueueWrites :
    (∃ (s : State) (x : Queue), s.queue? 5 = some x ∧ x.part < 8 ∧ (s.part x.part).layout.valid = true ∧ x.qdesc.toNat + 64 ≤ s.usable ∧
      x.slot = none) ∧
    (∃ (s : State) (x : Queue), s.queue? 5 = some x ∧ x.part < 8 ∧ (s.part x.part).layout.valid = true ∧ x.qdesc.toNat + 64 ≤ s.usable ∧
      x.slot = some 0 ∧ ((7 : W32) - queueRidx (s.queueWords x)).toNat ≤ 2 ^ queueLogn (s.queueWords x)) ∧
    (∃ (s : State) (x : Queue), s.queue? 5 = some x ∧ Fn.pf ≠ Fn.vf x.part ∧ Fn.vf 3 ≠ Fn.pf ∧ Fn.vf 3 ≠ Fn.vf x.part) ∧
    (∃ (s : State), s.queue? 5 = none) ∧
    (∃ (s : State) (x : Queue), s.queue? 5 = some x ∧ x.part = 0 ∧ x.qdesc = 0x50000 ∧ x.slot = none) :=
  ⟨⟨queueS 0 (recordOf 0) [queueX none], queueX none, by decide +kernel, by decide +kernel, by decide +kernel, by decide +kernel, rfl⟩,
    ⟨queueS 0 (recordOf 0) [queueX (some 0)], queueX (some 0), by decide +kernel, by decide +kernel, by decide +kernel, by decide +kernel,
      rfl, by decide +kernel⟩,
    ⟨queueS 0 (recordOf 0) [queueX none], queueX none, by decide +kernel, by decide, by decide, by decide⟩,
    ⟨queueS 0 (recordOf 0) [], by decide +kernel⟩,
    queueS 0 (recordOf 0) [queueX none], queueX none, by decide +kernel, rfl, rfl, rfl⟩

/-- Sixty-four queues of class 3 that hold the slots, and queue 5 that waits. -/
def fullQueues : List Queue := queueX none :: (List.range 64).map fun k => ⟨100 + k, 0, 0x54000, some k, none, false, none, none, 0⟩

def fullQueueS : State :=
  withWords 0x54000 [0x55000, 0, 0x10004, 1, 0, 0] (withWords 0x55000 (recordOf 3) (queueS 0 (recordOf 0) fullQueues))

def victimQ : Queue := ⟨163, 0, 0x54000, some 63, none, false, none, none, 0⟩

theorem wit_QueueDecisions :
    (∃ (s : State), s.decisionDue = false) ∧
    (∃ (s : State), s.decisionDue = true ∧ (∀ q ∈ s.queues, s.idleQueue q = false) ∧ s.waitingQueues = []) ∧
    (∃ (s : State) (x : Queue) (k : Nat) (r : List Nat), s.decisionDue = true ∧ (∀ q ∈ s.queues, s.idleQueue q = false) ∧
      s.waitingQueues = [x] ∧ s.queue? x.q = some x ∧ s.queueBad x = false ∧ s.freeQueueSlots = k :: r) ∧
    (∃ (s : State) (x v : Queue), s.decisionDue = true ∧ (∀ q ∈ s.queues, s.idleQueue q = false) ∧
      s.waitingQueues = [x] ∧ s.queue? x.q = some x ∧ s.queueBad x = false ∧ s.freeQueueSlots = [] ∧
      s.slotVictim (s.queueRank x) = some v ∧ s.queue? v.q = some v ∧ v.q ≠ x.q) := by
  let one : State := queueS 0 (recordOf 0) [queueX none]
  exact ⟨⟨base, by decide +kernel⟩,
    ⟨queueS 0 (recordOf 0) [], by decide +kernel, by decide +kernel, by decide +kernel⟩,
    ⟨one, queueX none, 0, (List.range 63).map (· + 1), by decide +kernel, by decide +kernel, by decide +kernel, by decide +kernel,
      by decide +kernel, by decide +kernel⟩,
    fullQueueS, queueX none, victimQ, by decide +kernel, by decide +kernel, by decide +kernel, by decide +kernel, by decide +kernel,
    by decide +kernel, by decide +kernel, by decide +kernel, by decide⟩

theorem wit_Launches :
    (∃ (s u : State) (x : Queue) (bs : List Byte), s.queue? 5 = some x ∧ x.slot.isSome = true ∧ x.wait = none ∧ s.queueWork x = true ∧
      s.orderMet x = true ∧ s.engRead (s.queueEng x) (s.nextRecord x) 64 = .ok (u, bs) ∧ launchBad (bytesWords bs) = false) ∧
    (∃ (s u : State) (x : Queue) (bs : List Byte), s.queue? 5 = some x ∧ x.slot.isSome = true ∧ x.wait = none ∧ s.queueWork x = true ∧
      s.orderMet x = true ∧ s.engRead (s.queueEng x) (s.nextRecord x) 64 = .ok (u, bs) ∧ launchBad (bytesWords bs) = true) ∧
    (∃ (s : State) (l : Launch), s.launches.find? (fun x => x.key = 1) = some l ∧ s.launchDone l = true ∧ s.ctxBlocked l.ctx = false) := by
  let x : Queue := queueX (some 0)
  let s : State := queueS 0 (recordOf 0) [x]
  let bad : State := queueS 0 (loadedRecord.set 7 1) [x]
  let r : State × List Byte := got (base, []) (s.engRead (s.queueEng x) (s.nextRecord x) 64)
  let r' : State × List Byte := got (base, []) (bad.engRead (bad.queueEng x) (bad.nextRecord x) 64)
  let l : Launch := { loadedLaunch 0 with queue := some 5 }
  exact ⟨⟨s, r.1, x, r.2, by decide +kernel, rfl, rfl, by decide +kernel, by decide +kernel, ok_got (by decide +kernel), by decide +kernel⟩,
    ⟨bad, r'.1, x, r'.2, by decide +kernel, rfl, rfl, by decide +kernel, by decide +kernel, ok_got (by decide +kernel), by decide +kernel⟩,
    { base with launches := [l], blocks := [] }, l, by decide +kernel, by decide +kernel, by decide +kernel⟩

/-- The launch of the loaded program with a cluster left, on an empty core. -/
def openS (f : Partition → Partition) : State := { withPart f base with launches := [{ loadedLaunch 0 with nextClu := 0 }], waves := [], blocks := [] }

def contWords : List W32 := [0x8000, 0, 1, 2, 3, 4, 1, 0, 0, 0, 0, 0, 0, 0, 0, 0]
def handleWords : List W32 := [0x8000, 0, 1, 0, 7, 0, 0, 0, 0, 0, 0, 0, 0, 0, 0, 0]

theorem wit_BlockStarts :
    (∃ (s t : State) (b : NewBlock), s.tryBlock b 0 = some t) ∧
    (∃ (s u : State) (l : Launch), s.starts 0 = true ∧ s.pickLaunch 0 = some (l, u) ∧ s.noneBetter 0 3 (rankOf l) = true) ∧
    (∃ (s u : State) (k lk c since : Nat) (ws : List W32) (h ring : Bool) (rank : Nat), s.starts 0 = true ∧
      s.headRecord 0 0 = some (k, .cont lk c ws h since ring) ∧ contBad ws = false ∧ s.contReady 0 = some (rank, u) ∧
      s.noneBetter 0 0 rank = true) ∧
    (∃ (s : State) (k lk c since : Nat) (ws : List W32) (h ring : Bool), s.starts 0 = true ∧
      s.headRecord 0 0 = some (k, .cont lk c ws h since ring) ∧ contBad ws = true ∧ (s.ctx? c).isSome = true) ∧
    (∃ (s u : State) (k c since : Nat) (ws pl : List W32) (ring : Bool) (m : MsgSettings) (rank : Nat), s.starts 0 = true ∧
      s.headRecord 0 1 = some (k, .msg c ws pl since ring) ∧ (s.ctxOf c).msg = some m ∧ (s.ctxOf c).ended = false ∧
      s.msgReady 0 = some (rank, u) ∧ s.noneBetter 0 1 rank = true) ∧
    (∃ (s : State) (k c since : Nat) (ws pl : List W32) (ring : Bool), s.starts 0 = true ∧
      s.headRecord 0 1 = some (k, .msg c ws pl since ring) ∧ (s.ctxOf c).msg = none ∧ (∀ r ∈ (s.part 0).work, r.inRing = false)) := by
  let s : State := openS id
  let b : NewBlock := (s.nextCluster (loadedLaunch 0)).headD (s.contBlock (loadedLaunch 0) contWords)
  let pick : Launch × State := (s.pickLaunch 0).getD (loadedLaunch 0, base)
  let cs : State := { openS (fun p => { p with work := [.cont 1 1 contWords false 0 false] }) with launches := [loadedLaunch 0] }
  let cb : State := { openS (fun p => { p with work := [.cont 1 1 (contWords.set 6 0) false 0 false] }) with launches := [loadedLaunch 0] }
  let ms : State := { openS (fun p => { p with work := [.msg 1 handleWords [] 0 false] }) with launches := [loadedLaunch 0], ctxs := [messageX] }
  let md : State := { openS (fun p => { p with work := [.msg 1 handleWords [] 0 false] }) with launches := [loadedLaunch 0] }
  let c : Nat × State := (cs.contReady 0).getD (0, base)
  let m : Nat × State := (ms.msgReady 0).getD (0, base)
  exact ⟨⟨s, (s.tryBlock b 0).getD base, b, some_got (by decide +kernel)⟩,
    ⟨s, pick.2, pick.1, by decide +kernel, some_got (by decide +kernel), by decide +kernel⟩,
    ⟨cs, c.2, 0, 1, 1, 0, contWords, false, false, c.1, by decide +kernel, by decide +kernel, by decide +kernel, some_got (by decide +kernel),
      by decide +kernel⟩,
    ⟨cb, 0, 1, 1, 0, contWords.set 6 0, false, false, by decide +kernel, by decide +kernel, by decide +kernel, by decide +kernel⟩,
    ⟨ms, m.2, 0, 1, 0, handleWords, [], false, ⟨0x20000, 31, 0, 0, 0, true, 0⟩, m.1, by decide +kernel, by decide +kernel, by decide +kernel,
      by decide +kernel, some_got (by decide +kernel), by decide +kernel⟩,
    md, 0, 1, 0, handleWords, [], false, by decide +kernel, by decide +kernel, by decide +kernel, by decide +kernel⟩

/-! ### Limits, windows, evictions, answers of the host and the debugger -/

/-- A second partition that takes part in windows. -/
def withNext (st : PState) (s : State) : State :=
  { s with parts := s.parts.set 1 { s.part 1 with layout := { layout0 with cores := 1 }, state := st } }

def layoutOpen : Layout := { layout0 with wlen := base.boot.period }
def layoutShut : Layout := { layout0 with wlen := base.boot.period + 1, woff := base.boot.period + 1 }

theorem wit_LimitsAndWindows :
    (∃ (s : State) (x : Block), s.block? 1 = some x ∧ x.ended = false ∧ x.out = false ∧
      (s.part x.part).layout.mbt * 100 < s.now - x.start) ∧
    (∃ (s : State) (x : Block), s.block? 1 = some x ∧ x.ended = false ∧ s.now - x.start ≤ (s.part x.part).layout.mbt * 100) ∧
    (∃ (s : State) (x : Block) (y : Thread), s.block? 1 = some x ∧ x.ended = false ∧ y ∈ s.holders ∧
      (∀ z ∈ s.holders, z.uid = y.uid → z = y) ∧ y.blk = 1 ∧ (s.part x.part).layout.sechold * 100 < s.now - y.holdStart) ∧
    (∃ (s : State), s.parts.length = 8 ∧ (s.part 0).layout.valid = true ∧ (s.part 0).state = .waiting ∧ s.inWindow 0 = true ∧
      s.commitHolds 0 = false ∧ (∀ q, q < 8 → s.shareCores 0 q = true → (s.part q).state.occupies = false) ∧
      (∀ q, q < 8 → s.shareCores 0 q = true → (s.part q).state ≠ .waiting ∧ (s.part q).state ≠ .held)) ∧
    (∃ (s : State), s.parts.length = 8 ∧ (s.part 0).layout.valid = true ∧ (s.part 0).state = .out ∧ s.inWindow 0 = true ∧
      s.commitHolds 0 = false ∧ (∀ q, q < 8 → s.shareCores 0 q = true → (s.part q).state.occupies = false) ∧
      s.shareCores 0 1 = true ∧ (s.part 1).state = .held) ∧
    (∃ (s : State), (s.part 0).layout.valid = true ∧ s.shareCores 0 1 = true ∧ (s.part 1).state.occupies = true) ∧
    (∃ (s : State), (s.part 0).state = .running ∧ s.inWindow 0 = false ∧ s.partHalted 0 = true) ∧
    (∃ (s : State), (s.part 0).state = .running ∧ s.inWindow 0 = false ∧ s.partHalted 0 = false ∧ s.partIdle 0 = false) ∧
    (∃ (s : State), (s.part 0).state = .running ∧ s.inWindow 0 = false ∧ s.partHalted 0 = false ∧ s.partIdle 0 = true) ∧
    (∃ (s : State), (s.part 0).state = .draining ∧ (s.part 0).layout.mbt * 100 < s.now - (s.part 0).drainAt) := by
  let s : State := withPart id base
  let late : State := { s with now := 1000 }
  let hold : State := { withThread (fun t => { t with holds := true }) late with now := 1000 }
  let shut : State := withPart (fun p => { p with layout := layoutShut }) base
  let op (st st' : PState) : State := withNext st' (withPart (fun p => { p with layout := layoutOpen, state := st }) base)
  exact ⟨⟨late, loadedBlock 0, by decide +kernel, by decide +kernel, by decide +kernel, by decide +kernel⟩,
    ⟨s, loadedBlock 0, by decide +kernel, by decide +kernel, by decide +kernel⟩,
    ⟨hold, loadedBlock 0, { loadedThread with holds := true }, by decide +kernel, by decide +kernel, by decide +kernel,
      by decide +kernel, by decide +kernel, by decide +kernel⟩,
    ⟨op .waiting .idle, by decide +kernel, by decide +kernel, by decide +kernel, by decide +kernel, by decide +kernel, by decide +kernel,
      by decide +kernel⟩,
    ⟨op .out .held, by decide +kernel, by decide +kernel, by decide +kernel, by decide +kernel, by decide +kernel, by decide +kernel,
      by decide +kernel, by decide +kernel⟩,
    ⟨op .waiting .draining, by decide +kernel, by decide +kernel, by decide +kernel⟩,
    ⟨{ shut with waves := [{ loadedWave with halt := ⟨1, 0, 0⟩ }] }, by decide +kernel, by decide +kernel, by decide +kernel⟩,
    ⟨shut, by decide +kernel, by decide +kernel, by decide +kernel, by decide +kernel⟩,
    ⟨{ shut with blocks := [] }, by decide +kernel, by decide +kernel, by decide +kernel, by decide +kernel⟩,
    { withPart (fun p => { p with state := .draining }) base with now := 1000 }, by decide +kernel, by decide +kernel⟩

/-- Four waves of a launch of class 2 leave no registers for the block of a launch of class 0. -/
def crowdedS : State :=
  { withPart id base with
    now := 100000
    waves := (List.range 4).map fun k => { loadedWave with wslot := k, quad := k, nregs := 1000 }
    launches := [{ loadedLaunch 0 with cls := 2 }, { loadedLaunch 0 with key := 2, nextClu := 0 }] }

def dueOn (s : State) (y : Waiter) : Bool :=
  (s.part 0).layout.evdelay * 100 < s.now - y.since && !s.canStart 0 y &&
    s.waves.any fun w => s.wavePart w = 0 && y.cls < (s.launchOf w.launch).cls

def waitingX : Waiter := (lowestScore (·.cls) ((crowdedS.waiters 0).filter (dueOn crowdedS))).getD ⟨0, 0, 0, []⟩

def savedW : Wave := { loadedWave with saving := some (0, 1) }

def evictedI (spill : Option (Nat × Nat × Option (Nat × W32))) : Image :=
  { part := 0, core := 0, evict := true, ringlet := false, waves := [loadedWave], bins := [], owner := none, accs := [], tables := [],
    bytes := 0, shadow := false, since := 0, raw := [], kept := [], safe := true, spill := spill }

def evictedS (spill : Option (Nat × Nat × Option (Nat × W32))) : State :=
  { withPart id base with images := [evictedI spill], waves := [], now := 20000 }

theorem wit_Evictions :
    (∃ (s : State), s.starts 0 = true ∧ (s.waiters 0).filter (dueOn s) = []) ∧
    (∃ (s : State) (x : Waiter), s.starts 0 = true ∧ lowestScore (·.cls) ((s.waiters 0).filter (dueOn s)) = some x ∧
      (∀ c ∈ s.cores, c.bins = []) ∧ s.selectWaves 0 x ≠ []) ∧
    (∃ (s : State) (since cls : Nat) (w : Wave), s.wave? 0 0 = some w ∧ w.saving = some (since, cls) ∧ 1000 < s.now - since ∧
      (∀ x ∈ s.waves, x.core = 0 → x.wslot = 0 → x = w)) ∧
    (∃ (s : State) (since cls : Nat) (w : Wave), s.wave? 0 0 = some w ∧ w.saving = some (since, cls) ∧ s.now - since ≤ 1000) ∧
    (∃ (s : State) (i : Image) (w : Wave), s.images[0]? = some i ∧ i.evict = true ∧ i.waves = [w] ∧ (s.part i.part).state = .running ∧
      (s.health.getD i.core .reset).state = 0 ∧ s.freeSlots i.core ≠ [] ∧ w.nregs ≤ s.quadFree i.core (s.bestQuad i.core) ∧
      s.betterWaits i.part (s.launchOf w.launch).cls i.core = false) ∧
    (∃ (s u : State) (i : Image), s.images[0]? = some i ∧ i.part = 0 ∧
      i.spill.any (fun x => x.2.2.isNone || decide (10000 ≤ s.now - x.2.1)) = true ∧
      (∀ k j, k ≠ 0 → s.images[k]? = some j → j.part = 0 → j.spill = none) ∧
      s.saveParts 0 (s.savePlace i) (s.imageParts i) = .ok u) ∧
    (∃ (s : State) (c : Nat) (i : Image) (x : Context),
      s.images.find? (fun i => i.part = 0 && i.spill.any fun x => (s.part 0).layout.saveto * 100 < s.now - x.1) = some i ∧
      (s.imageCtxs i).head? = some c ∧ s.ctx? c = some x ∧ x.ended = false) := by
  let e : State := evictedS (some (0, 0, none))
  let one : State := { e with images := [{ evictedI (some (0, 0, none)) with waves := [] }] }
  refine ⟨⟨withPart id base, by decide +kernel, List.isEmpty_iff.mp (by decide +kernel)⟩,
    ⟨crowdedS, waitingX, by decide +kernel, some_got (by decide +kernel), by decide +kernel, by decide +kernel⟩,
    ⟨{ base with waves := [savedW], now := 5000 }, 0, 1, savedW, by decide +kernel, by decide +kernel, by decide +kernel, by decide +kernel⟩,
    ⟨{ base with waves := [savedW] }, 0, 1, savedW, by decide +kernel, by decide +kernel, by decide +kernel⟩,
    ⟨evictedS none, evictedI none, loadedWave, by decide +kernel, by decide +kernel, by decide +kernel, by decide +kernel,
      by decide +kernel, by decide +kernel, by decide +kernel, by decide +kernel⟩,
    ⟨one, got base (one.saveParts 0 (one.savePlace (one.images.headD (evictedI none))) (one.imageParts (one.images.headD (evictedI none)))),
      one.images.headD (evictedI none), by decide +kernel, by decide +kernel, by decide +kernel, ?_, ok_got (by decide +kernel)⟩,
    e, 1, evictedI (some (0, 0, none)), loadedContext, by decide +kernel, by decide +kernel, by decide +kernel, by decide +kernel⟩
  intro k j hk hj
  cases k with
  | zero => exact absurd rfl hk
  | succ k => simp [one] at hj

def openR : Outstanding := ⟨4, 0x01, 0, 1, 0, none⟩

/-- An open record of owner 1, an invalidation of its own, and an attached debugger. -/
def ownerS (disp : Bool) (halt : Nat) : State :=
  { withPart (fun p => { p with dbg := ⟨true, false, 1, 0, 0, 0, 5, 0, false⟩ }) base with
    owners := base.owners.set 1 { base.owner 1 with open_ := [openR], rdoneDisp := disp }
    invals := [⟨1, 1, none, none, 0, 1⟩]
    waves := [{ loadedWave with halt := ⟨halt, 0, 0⟩ }] }

/-- A write waits at a held page that the invalidation covers. -/
def heldS : State :=
  { ownerS false 0 with
    invals := [⟨1, 1, none, none, 0, 0x1000⟩], writes := [writeX homeOf false]
    storage := { base.storage with held := [(pageOf 0x9000, 0)] } }

theorem wit_HostAnswersAndDebugger :
    (∃ (s : State) (r : Outstanding) (x : Context), (s.owner 1).open_.find? (fun r => r.sq = 4) = some r ∧ 1 < s.owners.length ∧
      (s.owner 1).rdoneDisp = true ∧ r.kind ≠ 0x03 ∧ s.ctx? r.ctx = some x ∧ x.ended = false) ∧
    (∃ (s : State) (r : Outstanding), (s.owner 1).open_.find? (fun r => r.sq = 4) = some r ∧ 1 < s.owners.length ∧
      (s.owner 1).rdoneDisp = false) ∧
    (∃ (s : State) (x : TlbInval), s.invals.find? (fun x => x.owner = 1) = some x ∧ 1 < s.owners.length ∧ s.invalHeld x = false) ∧
    (∃ (s : State) (x : TlbInval), s.invals.find? (fun x => x.owner = 1) = some x ∧ 1 < s.owners.length ∧ s.invalHeld x = true) ∧
    (∃ (s : State) (w : Wave), 0 < s.parts.length ∧ (s.part 0).dbg.attach = true ∧ s.debugWave 0 = some w ∧ w.halt.state ≠ 2) ∧
    (∃ (s : State) (w : Wave) (y : Thread), (s.part 0).dbg.attach = true ∧ s.debugWave 0 = some w ∧ w.halt.state = 2 ∧
      s.wave? (s.part 0).dbg.core (s.part 0).dbg.wave = some w ∧ w.thread? (s.part 0).dbg.lane = some y ∧ 1 ≤ (s.part 0).dbg.reg ∧
      (s.part 0).dbg.reg < y.regs.length) ∧
    (∃ (s : State), 0 < s.parts.length ∧ (s.part 0).dbg.attach = false) ∧
    (∃ (s : State) (w : Wave), s.wave? 0 0 = some w ∧ w.halt.state = 1 ∧ s.drained 0 0 = true) := by
  let w (h : Nat) : Wave := { loadedWave with halt := ⟨h, 0, 0⟩ }
  exact ⟨⟨ownerS true 0, openR, loadedContext, by decide +kernel, by decide +kernel, by decide +kernel, by decide +kernel, by decide +kernel,
      by decide +kernel⟩,
    ⟨ownerS false 0, openR, by decide +kernel, by decide +kernel, by decide +kernel⟩,
    ⟨ownerS false 0, ⟨1, 1, none, none, 0, 1⟩, by decide +kernel, by decide +kernel, by decide +kernel⟩,
    ⟨heldS, ⟨1, 1, none, none, 0, 0x1000⟩, by decide +kernel, by decide +kernel, by decide +kernel⟩,
    ⟨ownerS false 0, w 0, by decide +kernel, by decide +kernel, by decide +kernel, by decide +kernel⟩,
    ⟨ownerS false 2, w 2, loadedThread, by decide +kernel, by decide +kernel, by decide +kernel, by decide +kernel, by decide +kernel,
      by decide +kernel, by decide +kernel⟩,
    ⟨base, by decide +kernel, by decide +kernel⟩,
    ownerS false 1, w 1, by decide +kernel, by decide +kernel, by decide +kernel⟩

/-! ### Rays and draws -/

/-- A ray along +z from (¼, ¼, −1) that has reached a leaf of one triangle, (0,0,0), (1,0,0), (0,1,0), at 0x70000. -/
def rayX : Ray :=
  { launch := 1, ctx := 1, part := 0, core := 0, id := 3, addr := 0x60000, pool := 0x20000, org := [0x3E800000, 0x3E800000, 0xBF800000]
    dir := [0, 0, 0x3F800000], tmin := 0, tmax := 0x41200000, thit := 0x41200000, prim := 0, inst := 0, bary := [0, 0], upc := 0, rayid := 9, die := 0, topNode := 0
    rf := 2, cand := false, node := 0, stack := [], scene := 0x30000, state := .flight, wait := none, accepted := false
    level := 0, lroot := 0x70000, layout := [2, 0, 0, 0, 0, 0, 0, 0], instAddr := 0, obj := [], leaf := some (0, 1), visit := false
    levelDepth := 0, topRoot := 0x70000, topIndex := 0, topLayout := [2, 0, 0, 0, 0, 0, 0, 0], topLeaf := none, tri := [], wregs := []
    flagF := false, nb := 0, started := true, steps := 30, stamp := 0, ending := false, saved := none }

def raysS (r : Ray) : State :=
  { withPart id (withWords 0x70000 [0, 0, 0, 0x3F800000, 0, 0, 0, 0x3F800000, 0] base) with rays := [r] }

def ranRay (r : Ray) : State × Ray × RayEnd := r.run (raysS r) 1048576

theorem ran_as (r : Ray) (e : RayEnd) (h : (ranRay r).2.2 = e) : r.run (raysS r) 1048576 = ((ranRay r).1, (ranRay r).2.1, e) := by
  rw [← h]
  rfl

def seenRay : State × Option Ray := (ranRay rayX).1.saveRay { (ranRay rayX).2.1 with steps := (ranRay rayX).2.1.steps + 8 } 5

theorem pair_some {α β : Type} {x : α × Option β} {d : β} (h : x.2.isSome = true) : x = (x.1, some (x.2.getD d)) := by
  obtain ⟨a, b⟩ := x
  cases b with
  | none => simp at h
  | some b => rfl

theorem seen_ray : (ranRay rayX).1.saveRay { (ranRay rayX).2.1 with steps := (ranRay rayX).2.1.steps + 8 } 5 = (seenRay.1, some (seenRay.2.getD rayX)) :=
  pair_some (x := (ranRay rayX).1.saveRay { (ranRay rayX).2.1 with steps := (ranRay rayX).2.1.steps + 8 } 5) (by decide +kernel)

def savedR : Ray := { rayX with saved := some (List.replicate 32 0) }

def readRay : State × List Byte := got (base, []) ((raysS savedR).rayRead savedR 0x60000 128)

theorem read_ray : (raysS savedR).rayRead savedR 0x60000 128 = .ok (readRay.1, readRay.2) := ok_got (d := (base, [])) (by decide +kernel)

/-- The ray at the first, second or third word of an image of its own that emits, yields and ends. -/
def ownR (k : Nat) : Ray := { rayX with upc := k, wregs := List.replicate 16 0, leaf := none }

def ownS (im : List W64) (k : Nat) : State := { raysS (ownR k) with ctxs := [{ loadedContext with mcode := [(2, im)] }] }

def ownRan (im : List W64) (k : Nat) : State × Ray × MicroEnd := (ownR k).runMicro (ownS im k) im 1048577

def ownSaved (im : List W64) : State × Option Ray := (ownRan im 1).1.saveRay { (ownRan im 1).2.1 with steps := 0 } 5

/-- The ray at its yield. -/
def yieldR : Ray := { ownR 1 with upc := 0, steps := 0 }

theorem own_rays : ∃ im : List W64, (∀ k, (ownS im k).ownMicrocode 1 2 = some im) ∧ (ownRan im 0).2.2 = .next (.emit 0) ∧
    (ownRan im 1).2.2 = .next .yield ∧ (ownRan im 2).2.2 = .next .halt ∧ (ownSaved im).2.isSome = true := by
  by_cases h : ([17, 20, 27] : List W64) = Config.shippedImage 2
  · have hi k := own_image 2 (raysS (ownR k)) [17, 20, 27, 27] (by rw [← h]; decide)
    refine ⟨[17, 20, 27, 27], hi, by decide +kernel, by decide +kernel, by decide +kernel, ?_⟩
    rw [show ownSaved [17, 20, 27, 27] = (ownS [17, 20, 27, 27] 1).saveRay yieldR 5 from rfl]
    unfold State.saveRay State.rayWords
    simp only [show (ownS [17, 20, 27, 27] 1).ownMicrocode yieldR.ctx 2 = some [17, 20, 27, 27] from hi 1, Option.isSome_some, if_true]
    decide +kernel
  · have hi k := own_image 2 (raysS (ownR k)) [17, 20, 27] h
    refine ⟨[17, 20, 27], hi, by decide +kernel, by decide +kernel, by decide +kernel, ?_⟩
    rw [show ownSaved [17, 20, 27] = (ownS [17, 20, 27] 1).saveRay yieldR 5 from rfl]
    unfold State.saveRay State.rayWords
    simp only [show (ownS [17, 20, 27] 1).ownMicrocode yieldR.ctx 2 = some [17, 20, 27] from hi 1, Option.isSome_some, if_true]
    decide +kernel

theorem wit_OwnRays : ∃ (im : List W64) (s : Nat → State) (r : Nat → Ray) (w : Nat → State) (y : Nat → Ray) (v : State) (z : Ray),
    (∀ k < 3, (s k).rays[0]? = some (r k) ∧ (r k).state = .flight ∧ (r k).wait = none ∧ (s k).rayRuns (r k) = true ∧
      (s k).hitRoom (r k) = true ∧ (s k).mayRun (r k) 5 = true ∧ (r k).queued = false ∧ (r k).ending = false ∧ (r k).saved = none ∧
      (r k).microBegin (s k) = .ok (s k, r k, false)) ∧ (∀ k, (s k).ownMicrocode (r k).ctx 2 = some im) ∧
    (r 0).runMicro (s 0) im 1048577 = (w 0, y 0, .next (.emit 0)) ∧ (r 1).runMicro (s 1) im 1048577 = (w 1, y 1, .next .yield) ∧
    (w 1).saveRay { y 1 with steps := 0 } 5 = (v, some z) ∧ (r 2).runMicro (s 2) im 1048577 = (w 2, y 2, .next .halt) := by
  obtain ⟨im, hi, h0, h1, h2, hs⟩ := own_rays
  have ran (k : Nat) (e : MicroEnd) (h : (ownRan im k).2.2 = e) :
      (ownR k).runMicro (ownS im k) im 1048577 = ((ownRan im k).1, (ownRan im k).2.1, e) := by
    rw [← h]
    rfl
  refine ⟨im, ownS im, ownR, fun k => (ownRan im k).1, fun k => (ownRan im k).2.1, (ownSaved im).1, (ownSaved im).2.getD rayX,
    fun k hk => ?_, hi, ran 0 _ h0, ran 1 _ h1, pair_some hs, ran 2 _ h2⟩
  refine ⟨rfl, rfl, rfl, ?_, ?_, ?_, rfl, rfl, rfl, rfl⟩
  · exact (show (raysS (ownR 0)).rayRuns rayX = true by decide +kernel)
  · exact (show (raysS (ownR 0)).hitRoom rayX = true by decide +kernel)
  · exact (show (raysS (ownR 0)).mayRun rayX 5 = true by decide +kernel)

/-- A ray that sequencer 5 may run. -/
abbrev goesOn (s : State) (r : Ray) : Prop :=
  s.rays[0]? = some r ∧ s.mayRun r 5 = true ∧ r.state = .flight ∧ r.wait = none ∧ s.rayRuns r = true ∧ s.hitRoom r = true ∧
    (r.queued = false ∨ 5 / 32 = r.die ∧ s.rayFirst 0 r = true)

theorem wit_Traversal :
    (∃ (s : State) (r : Ray), goesOn s r ∧ r.ending = true ∧ r.steps + 8 ≤ 1048576) ∧
    (∃ (s : State) (r : Ray), goesOn s r ∧ r.ending = false ∧ r.saved = none ∧ s.ownMicrocode r.ctx 2 = none ∧ r.started = false ∧
      r.missAtOnce = true ∧ r.accepted = false ∧ r.steps + 8 ≤ 1048576) ∧
    (∃ (s u : State) (r x : Ray), (goesOn s r ∧ r.ending = false ∧ r.saved = none ∧ s.ownMicrocode r.ctx 2 = none) ∧
      r.run s 1048576 = (u, x, .ended) ∧ x.steps + 8 ≤ 1048576) ∧
    (∃ (s u w : State) (r x y : Ray), (goesOn s r ∧ r.ending = false ∧ r.saved = none ∧ s.ownMicrocode r.ctx 2 = none) ∧
      r.run s 1048576 = (u, x, .candidate) ∧ x.steps + 8 ≤ 1048576 ∧ u.saveRay { x with steps := x.steps + 8 } 5 = (w, some y)) ∧
    (∃ (s u : State) (r : Ray) (bs : List Byte), (goesOn s r ∧ r.saved = some (bytesWords bs) ∧ r.ending = false ∧
      s.ownMicrocode r.ctx 2 = none ∧ r.level = 0) ∧ s.rayRead r r.addr 128 = .ok (u, bs)) ∧
    (∃ (s : State) (r : Ray), s.rays[0]? = some r ∧ s.mayRun r 5 = true ∧ r.state = .flight ∧ r.wait = none ∧
      s.ownMicrocode r.ctx 2 = none ∧ 1048576 < r.steps) := by
  let e : Ray := { rayX with ending := true }
  let m : Ray := { rayX with started := false, dir := [0, 0, 0] }
  let o : Ray := { rayX with leaf := none }
  let k : Ray := { rayX with steps := 1048577 }
  exact ⟨⟨raysS e, e, by decide +kernel⟩,
    ⟨raysS m, m, by decide +kernel⟩,
    ⟨raysS o, (ranRay o).1, o, (ranRay o).2.1, by decide +kernel, ran_as o .ended (by decide +kernel), by decide +kernel⟩,
    ⟨raysS rayX, (ranRay rayX).1, seenRay.1, rayX, (ranRay rayX).2.1, seenRay.2.getD rayX, by decide +kernel,
      ran_as rayX .candidate (by decide +kernel), by decide +kernel, seen_ray⟩,
    ⟨raysS savedR, readRay.1, savedR, readRay.2, by decide +kernel, read_ray⟩,
    raysS k, k, by decide +kernel⟩

/-- A draw of three vertices on a view of 8 by 8 pixels; its record at 0x48040 names launch records and a target table. -/
def drawWords : List W32 := [0x51000, 0, 0x51000, 0, 3, 0, 0, 0, 0x52000, 0, 0, 0x00080008, 0, 0, 0, 0]

def drawX : Draw := ⟨7, 0, 1, 0x48000, 0, drawWords, [], 8, 9, 0, true, false, [], [], [], [], [], [], none, false⟩

def ringBlock (ridx : Option W32) : RenderBlock := ⟨0x48000, 1, 4, 0, 0, ridx, 1, none, 0, 0⟩

def drawS (ridx : Option W32) (ds : List Draw) : State :=
  { withPart (fun p => { p with render := ringBlock ridx })
      (withWords 0x48040 drawWords (withWords 0x51000 (recordOf 0) (withWords 0x48000 [1, 0] base))) with
    display := { base.display with draws := ds }
    launches := [loadedLaunch 0, { loadedLaunch 0 with key := 8, draw := some 7 }, { loadedLaunch 0 with key := 9, draw := some 7 }] }

/-- The engine's reads of a draw ring. -/
def ringReadOf (s : State) (va : W64) (n : Nat) : State × List Byte := got (base, []) (s.engRead (s.ringEng 1) va n)

theorem ring_read (s : State) (va : W64) (n : Nat) (h : isOk (s.engRead (s.ringEng 1) va n) = true) :
    s.engRead (s.ringEng 1) va n = .ok ((ringReadOf s va n).1, (ringReadOf s va n).2) := ok_got h

theorem wit_RingReads :
    (∃ (s u : State) (bs : List Byte), 0 < s.parts.length ∧ s.ringOn 0 = true ∧ (s.part 0).render.wait = none ∧ s.taken 0 = none ∧
      (s.part 0).render.ridx = none ∧ s.engRead (s.ringEng (s.part 0).render.dctx) ((s.part 0).render.dring + 4) 4 = .ok (u, bs)) ∧
    (∃ (s u : State) (bs : List Byte), 0 < s.parts.length ∧ s.ringOn 0 = true ∧ (s.part 0).render.wait = none ∧ s.taken 0 = none ∧
      (s.part 0).render.ridx.isSome = true ∧ s.engRead (s.ringEng (s.part 0).render.dctx) (s.part 0).render.dring 4 = .ok (u, bs)) :=
  ⟨⟨drawS none [], (ringReadOf (drawS none []) 0x48004 4).1, (ringReadOf (drawS none []) 0x48004 4).2, by decide +kernel, by decide +kernel,
      by decide +kernel, by decide +kernel, by decide +kernel, ring_read (drawS none []) 0x48004 4 (by decide +kernel)⟩,
    drawS (some 0) [], (ringReadOf (drawS (some 0) []) 0x48000 4).1, (ringReadOf (drawS (some 0) []) 0x48000 4).2, by decide +kernel,
    by decide +kernel, by decide +kernel, by decide +kernel, by decide +kernel, ring_read (drawS (some 0) []) 0x48000 4 (by decide +kernel)⟩

def idleRing : State := drawS (some 0) []
def nextRead : State × List Byte := ringReadOf idleRing 0x48040 64

def drawReadOf (s : State) (e : Eng) (ws : List W32) : State × List W32 × List W32 × List W32 := got (base, [], [], []) (s.readDraw e ws)

theorem draw_found (s : State) (e : Eng) (ws : List W32) (h : isOk (s.readDraw e ws) = true)
    (h1 : targetsOk (drawReadOf s e ws).2.2.2 = true) (h2 : drawLaunchBad (drawReadOf s e ws).2.1 = false)
    (h3 : drawLaunchBad (drawReadOf s e ws).2.2.1 = false) : ∃ w vws pws tws, s.readDraw e ws = .ok (w, vws, pws, tws) ∧
      targetsOk tws = true ∧ drawLaunchBad vws = false ∧ drawLaunchBad pws = false := ⟨_, _, _, _, ok_got h, h1, h2, h3⟩

theorem next_draw : ∃ w vws pws tws, nextRead.1.readDraw (idleRing.ringEng 1) (bytesWords nextRead.2) = .ok (w, vws, pws, tws) ∧
    targetsOk tws = true ∧ drawLaunchBad vws = false ∧ drawLaunchBad pws = false :=
  draw_found nextRead.1 (idleRing.ringEng 1) (bytesWords nextRead.2) (by decide +kernel) (by decide +kernel) (by decide +kernel)
    (by decide +kernel)

theorem wit_DrawTaken : ∃ (s u w : State) (bs : List Byte) (n : W32) (vws pws tws : List W32), s.starts 0 = true ∧
    (s.part 0).render.wait = none ∧ s.taken 0 = none ∧ (s.part 0).render.ridx = some n ∧ s.ringOn 0 = true ∧ (s.part 0).render.widx ≠ n ∧
    s.engRead (s.ringEng 1) (0x48000 + BitVec.ofNat 64 (64 + 64 * (n.toNat % 2 ^ (s.part 0).render.dlog))) 64 = .ok (u, bs) ∧
    drawRecordOk (bytesWords bs) = true ∧ u.passesOver (u.newDraw 0 n (bytesWords bs) []) = false ∧
    u.readDraw (s.ringEng 1) (bytesWords bs) = .ok (w, vws, pws, tws) ∧ targetsOk tws = true ∧ drawLaunchBad vws = false ∧
    drawLaunchBad pws = false :=
  let ⟨w, vws, pws, tws, h, h1, h2, h3⟩ := next_draw
  ⟨idleRing, nextRead.1, w, nextRead.2, 0, vws, pws, tws, by decide +kernel, by decide +kernel,
    by decide +kernel, by decide +kernel, by decide +kernel, by decide +kernel, ring_read idleRing 0x48040 64 (by decide +kernel),
    by decide +kernel, by decide +kernel, h, h1, h2, h3⟩

def doneX : Draw := { drawX with vnext := 3 }
def heldX : Draw := { drawX with started := false }
def doneS : State := drawS (some 0) [doneX]
def flushedS : State := doneS.flushWhere fun w => w.agent.ctx = some doneX.ctx && w.uid ≠ 0

theorem wit_DrawGoesOn :
    (∃ (s u : State) (d : Draw) (rank : Nat), s.starts 0 = true ∧ (s.part 0).render.wait = none ∧ s.taken 0 = some d ∧
      s.draw? d.key = some d ∧ s.vertexReady d = some (rank, u) ∧ s.noneBetter 0 4 rank = true) ∧
    (∃ (s u w : State) (d : Draw), s.starts 0 = true ∧ (s.part 0).render.wait = none ∧ s.taken 0 = some d ∧ s.draw? d.key = some d ∧
      d.part = 0 ∧ s.vertexReady d = none ∧ s.drawDone d = true ∧ (s.flushWhere fun w => w.agent.ctx = some d.ctx && w.uid ≠ 0) = u ∧
      u.engWrite (u.ringEng d.ctx) (d.ring + 4) (natBytes 4 (d.index + 1).toNat) = .ok w ∧ (s.part 0).render.ridx.isSome = true) ∧
    (∃ (s : State) (d : Draw), s.taken 0 = some d ∧ s.draw? d.key = some d ∧ d.started = false ∧ s.offsetPassed d = true) := by
  let s : State := drawS (some 0) [drawX]
  let r : Nat × State := (s.vertexReady drawX).getD (0, base)
  exact ⟨⟨s, r.2, drawX, r.1, by decide +kernel, by decide +kernel, by decide +kernel, by decide +kernel, some_got (by decide +kernel),
      by decide +kernel⟩,
    ⟨doneS, flushedS, got base (flushedS.engWrite (flushedS.ringEng 1) (doneX.ring + 4) (natBytes 4 (doneX.index + 1).toNat)), doneX,
      by decide +kernel, by decide +kernel, by decide +kernel, by decide +kernel, by decide +kernel, by decide +kernel, by decide +kernel,
      rfl, ok_got (by decide +kernel), by decide +kernel⟩,
    drawS (some 0) [heldX], heldX, by decide +kernel, by decide +kernel, by decide +kernel, by decide +kernel⟩

def vertexX : Vertex := ⟨[0, 0, 0, 0x3F800000], [], false⟩
def stripX (vs : List Vertex) : Draw := { drawX with verts := [(5, vertexX)], strips := [(5, (0, vs))] }
def triX : Tri := ⟨[[0x3F800000, 0x3F800000], [0x40800000, 0x3F800000], [0x3F800000, 0x40800000]], [], [[5], [6], [7]], 0⟩
def waitingX2 : Draw := { drawX with raster := [⟨0, 0, 1, 0, []⟩] }
def trisX : Draw := { drawX with tris := [triX] }
def quadX : Draw := { drawX with quads := [⟨0, 0, 1, 0, []⟩] }
def overX : Draw := { drawX with overrun := true }

theorem wit_DrawItems :
    (∃ (s : State) (d : Draw) (x y : Vertex), s.display.draws[0]? = some d ∧ s.draw? d.key = some d ∧ s.drawRuns d = true ∧
      d.part < s.parts.length ∧ s.ownMicrocode d.ctx 0 = none ∧ d.verts = [(5, vertexX)] ∧ d.strip 5 = (0, [x, y])) ∧
    (∃ (s : State) (d : Draw), s.display.draws[0]? = some d ∧ s.draw? d.key = some d ∧ s.drawRuns d = true ∧
      d.part < s.parts.length ∧ s.ownMicrocode d.ctx 0 = none ∧ d.verts = [(5, vertexX)] ∧ d.strip 5 = (0, [])) ∧
    (∃ (s : State) (d : Draw), s.display.draws[0]? = some d ∧ s.draw? d.key = some d ∧ s.drawRuns d = true ∧
      d.part < s.parts.length ∧ s.ownMicrocode d.ctx 1 = none ∧ d.raster = [] ∧ d.tris = [triX] ∧ d.verts = []) ∧
    (∃ (s : State) (d : Draw), s.display.draws[0]? = some d ∧ s.draw? d.key = some d ∧ s.drawRuns d = true ∧
      d.part < s.parts.length ∧ d.raster ≠ [] ∧ d.verts = []) ∧
    (∃ (s u : State) (d : Draw) (rank : Nat), s.display.draws[0]? = some d ∧ s.draw? d.key = some d ∧ s.starts d.part = true ∧
      s.pixelReady d = some (rank, u) ∧ s.noneBetter d.part 4 rank = true) ∧
    (∃ (s : State) (d : Draw), s.display.draws[0]? = some d ∧ s.draw? d.key = some d ∧ d.overrun = true) := by
  let q : State := drawS (some 0) [quadX]
  let r : Nat × State := (q.pixelReady quadX).getD (0, base)
  exact ⟨⟨drawS (some 0) [stripX [vertexX, vertexX]], stripX [vertexX, vertexX], vertexX, vertexX, by decide +kernel, by decide +kernel,
      by decide +kernel, by decide +kernel, by decide +kernel, by decide +kernel, by decide +kernel⟩,
    ⟨drawS (some 0) [stripX []], stripX [], by decide +kernel, by decide +kernel, by decide +kernel, by decide +kernel, by decide +kernel,
      by decide +kernel, by decide +kernel⟩,
    ⟨drawS (some 0) [trisX], trisX, by decide +kernel⟩,
    ⟨drawS (some 0) [waitingX2], waitingX2, by decide +kernel⟩,
    ⟨q, r.2, quadX, r.1, by decide +kernel, by decide +kernel, by decide +kernel, some_got (by decide +kernel), by decide +kernel⟩,
    drawS (some 0) [overX], overX, by decide +kernel, by decide +kernel, by decide +kernel⟩

/-! ### The display path -/

/-- A safety layer of 8 by 8 pixels with planes at 0x40000 and 0x41000 and arrays at 0x44000 and 0x45000. -/
def layerWords (w0 : W32) : List W32 := [w0, 0, 0x00080008, 0, 0x40000, 0, 0x41000, 0, 0x44000, 0, 0x45000, 0, 32, 0, 0x00080008, 0]

def layerX (w0 : W32) (rends : List Rendering) : Layer := ⟨2, layerWords w0, none, none, rends, none, none, false, false, none, 0, false⟩

/-- A mode of 64 by 64 pixels whose frames last 16.384 ms. -/
def modeX : List W32 := [0x00400040, 0x00800080, 0, 0, 1000, 0x80, 0, 0]

def pipeX (l : Layer) : Pipe := { base.pipe 1 with mode := some modeX, layers := [l] }

def pipeS (p : Pipe) : State := { base with display := { base.display with pipes := base.display.pipes.set 1 p }, now := 5000000 }


def layer2 (rends : List Rendering) : Layer := layerX 0x404005 rends

/-- Pipe 1 has shown frame 6, and frame 7 is due. -/
def dueP (l : Layer) : Pipe := { pipeX l with fcount := 6, frameAt := 3000000 }

def comparedS (l : Layer) : State := (((pipeS (dueP l)).mapPipe 1 fun p => { p.applyNext 5000000 with compared := some 7 }).criticalFox 1).passWaiting 1

def signedBoth : List Rendering := [⟨7, 0, some 0, true, true, false⟩, ⟨7, 1, some 0, true, true, false⟩]

theorem wit_SignatureCompute : ∃ (s : State) (p : Pipe) (l : Layer) (r : Rendering), 1 < s.display.pipes.length ∧ s.pipe 1 = p ∧
    p.layer? l.n = some l ∧ l.safety = true ∧ l.rends.find? (fun r => r.rend = 0 && r.ended && !r.signed) = some r ∧ l.rend r.frame 0 = r ∧
    s.displayServed true (l.plane 0) (l.h * l.pitch) = true ∧
    s.displayServed false (l.sig 0) (8 * (s.planeSignatures l (l.plane 0)).length) = true ∧
    l.sig 0 % 281474976710656 + 8 * (s.planeSignatures l (l.plane 0)).length ≤ s.usable := by
  let r : Rendering := ⟨7, 0, some 0, true, false, false⟩
  exact ⟨pipeS (dueP (layer2 [r])), dueP (layer2 [r]), layer2 [r], r, by decide +kernel, by decide +kernel, by decide +kernel,
    by decide +kernel, by decide +kernel, by decide +kernel, by decide +kernel, by decide +kernel, by decide +kernel⟩

theorem wit_ComparePoint :
    (∃ (s : State) (p : Pipe), s.pipe 1 = p ∧ p.mode = some modeX ∧ p.compared = some (p.fcount + 1)) ∧
    (∃ (s u : State) (p : Pipe), s.pipe 1 = p ∧ p.mode = some modeX ∧ p.compared ≠ some (p.fcount + 1) ∧
      p.frameAt + framePeriod modeX ≤ s.now + flatch modeX * 100 ∧
      ((s.mapPipe 1 fun p => { p.applyNext s.now with compared := some (p.fcount + 1) }).criticalFox 1).passWaiting 1 = u ∧
      (∀ x ∈ (u.pipe 1).layers, x.safety = true → (u.pipe 1).onFoxglove x.n = true ∧ u.ringlet.gstate.getD (x.group 0) 0 = 1)) ∧
    (∃ (s u : State) (p : Pipe) (l : Layer), s.pipe 1 = p ∧ p.mode = some modeX ∧ p.compared ≠ some (p.fcount + 1) ∧
      p.frameAt + framePeriod modeX ≤ s.now + flatch modeX * 100 ∧
      ((s.mapPipe 1 fun p => { p.applyNext s.now with compared := some 7 }).criticalFox 1).passWaiting 1 = u ∧ (u.pipe 1).layer? l.n = some l ∧
      l.safety = true ∧ l.n < 8 ∧ (∀ x ∈ (u.pipe 1).layers, x.safety = true → x = l) ∧ (u.pipe 1).onFoxglove l.n = false ∧
      (l.rend 7 0).complete = true ∧ (l.rend 7 1).complete = true ∧ u.signatureArray l 0 = u.signatureArray l 1) ∧
    (∃ (s u : State) (p : Pipe) (l : Layer), s.pipe 1 = p ∧ p.mode = some modeX ∧ p.compared ≠ some (p.fcount + 1) ∧
      p.frameAt + framePeriod modeX ≤ s.now + flatch modeX * 100 ∧
      ((s.mapPipe 1 fun p => { p.applyNext s.now with compared := some 7 }).criticalFox 1).passWaiting 1 = u ∧ (u.pipe 1).layer? l.n = some l ∧
      l.safety = true ∧ l.n < 8 ∧ (∀ x ∈ (u.pipe 1).layers, x.safety = true → x = l) ∧ (u.pipe 1).onFoxglove l.n = false ∧
      (l.rend 7 0).complete = false ∧ 0 < u.owners.length) := by
  let done : Pipe := { dueP (layer2 []) with compared := some 7 }
  let shown : Pipe := { dueP (layer2 []) with foxg := 4 }
  let s : State := { pipeS shown with ringlet := { base.ringlet with gstate := [1, 0] } }
  exact ⟨⟨pipeS done, done, by decide +kernel, by decide +kernel, by decide +kernel⟩,
    ⟨s, _, shown, by decide +kernel, by decide +kernel, by decide +kernel, by decide +kernel, rfl, by decide +kernel⟩,
    ⟨pipeS (dueP (layer2 signedBoth)), comparedS (layer2 signedBoth), dueP (layer2 signedBoth), layer2 signedBoth, by decide +kernel,
      by decide +kernel, by decide +kernel, by decide +kernel, rfl, by decide +kernel, by decide +kernel, by decide +kernel,
      by decide +kernel, by decide +kernel, by decide +kernel, by decide +kernel, by decide +kernel⟩,
    pipeS (dueP (layer2 [])), comparedS (layer2 []), dueP (layer2 []), layer2 [], by decide +kernel, by decide +kernel, by decide +kernel,
    by decide +kernel, rfl, by decide +kernel, by decide +kernel, by decide +kernel, by decide +kernel, by decide +kernel, by decide +kernel,
    by decide +kernel⟩

theorem wit_ScanoutCheck :
    (∃ (s : State) (p : Pipe) (l : Layer), s.pipe 1 = p ∧ p.layer? l.n = some l ∧ l.inFrame.safety = true ∧ l.inFrame.level = 3 ∧
      l.agreed = some p.fcount ∧ l.scanned ≠ some p.fcount ∧ s.signatureArray l.inFrame 0 = s.planeSignatures l.inFrame (l.inFrame.plane 0)) ∧
    (∃ (s : State) (p : Pipe) (l : Layer), s.pipe 1 = p ∧ p.layer? l.n = some l ∧ l.inFrame.safety = true ∧ l.inFrame.level = 3 ∧
      l.agreed = some p.fcount ∧ l.scanned ≠ some p.fcount ∧
      firstDiff (s.signatureArray l.inFrame 0) (s.planeSignatures l.inFrame (l.inFrame.plane 0)) = some 0 ∧ l.scanBad = false ∧ 0 < s.owners.length) := by
  let l : Layer := { layerX 0x404007 [] with agreed := some 6 }
  exact ⟨⟨pipeS (dueP l), dueP l, l, by decide +kernel, by decide +kernel, by decide +kernel, by decide +kernel, by decide +kernel,
      by decide +kernel, by decide +kernel⟩,
    withWords 0x40000 [5] (pipeS (dueP l)), dueP l, l, by decide +kernel, by decide +kernel, by decide +kernel, by decide +kernel,
    by decide +kernel, by decide +kernel, by decide +kernel, by decide +kernel, by decide +kernel⟩

/-- A camera layer of LEVEL 2 that shows port 0. -/
def cameraX (frame : Option Nat) : Layer := { layerX 0x40000D [] with frame := frame }

theorem wit_FramesAndBands :
    (∃ (s : State) (p : Pipe), s.pipe 1 = p ∧ p.mode = some modeX ∧ p.compared = some (p.fcount + 1) ∧ p.frameAt + framePeriod modeX ≤ s.now) ∧
    (∃ (s : State) (p : Pipe), s.pipe 1 = p ∧ p.mode = some modeX ∧ p.compared ≠ some (p.fcount + 1)) ∧
    (∃ (s : State) (p : Pipe), s.pipe 1 = p ∧ p.mode = some modeX ∧ warps modeX = true ∧
      p.bandAt + lineTime modeX (64 * p.band) ≤ s.now + 40000) ∧
    (∃ (s : State) (p : Pipe), s.pipe 1 = p ∧ p.mode = some modeX ∧ s.now + 40000 < p.bandAt + lineTime modeX (64 * p.band)) ∧
    (∃ (s : State) (p : Pipe) (l : Layer), 1 < s.display.pipes.length ∧ s.pipe 1 = p ∧ p.layer? l.n = some l ∧
      (∀ j, j < 6 → ((s.pipe j).layers.filter fun l => l.en && l.camera && l.port = 0) = if j = 1 then [l] else []) ∧ l.frame = some 2 ∧
      4 * l.w ≤ l.pitch ∧ l.frameBase 0 + l.h * l.pitch ≤ s.usable ∧ l.frameBase 0 + l.h * l.pitch ≤ 281474976710656) ∧
    (∃ (s : State), ∀ q ∈ s.display.pipes, ∀ l ∈ q.layers, (l.en && l.camera && l.port = 0) = false) ∧
    (∃ (s : State) (p : Pipe) (l : Layer), 1 < s.display.pipes.length ∧ s.pipe 1 = p ∧ p.layer? l.n = some l ∧ 0 < s.owners.length ∧
      (l.en && l.camera && l.level = 2 && !l.stale && l.frameAt + l.fresh * 100000 ≤ s.now) = true) ∧
    (∃ (s : State) (p : Pipe) (l : Layer), s.pipe 1 = p ∧ p.layer? l.n = some l ∧
      (l.en && l.camera && l.level = 2 && !l.stale && l.frameAt + l.fresh * 100000 ≤ s.now) = false) := by
  let done : Pipe := { dueP (layer2 []) with compared := some 7 }
  let later : Pipe := { dueP (layer2 []) with bandAt := 6000000 }
  let c : Layer := cameraX (some 2)
  let late : State := { pipeS (pipeX c) with now := 20000000 }
  exact ⟨⟨pipeS done, done, by decide +kernel, by decide +kernel, by decide +kernel, by decide +kernel⟩,
    ⟨pipeS (dueP (layer2 [])), dueP (layer2 []), by decide +kernel, by decide +kernel, by decide +kernel⟩,
    ⟨pipeS (dueP (layer2 [])), dueP (layer2 []), by decide +kernel, by decide +kernel, by decide +kernel, by decide +kernel⟩,
    ⟨pipeS later, later, by decide +kernel, by decide +kernel, by decide +kernel⟩,
    ⟨pipeS (pipeX c), pipeX c, c, by decide +kernel, by decide +kernel, by decide +kernel, by decide +kernel, by decide +kernel,
      by decide +kernel, by decide +kernel, by decide +kernel⟩,
    ⟨base, by decide +kernel⟩,
    ⟨late, pipeX c, c, by decide +kernel, by decide +kernel, by decide +kernel, by decide +kernel, by decide +kernel⟩,
    pipeS (pipeX c), pipeX c, c, by decide +kernel, by decide +kernel, by decide +kernel⟩

/-! ### Reliability, bring-up and the host link -/

def ringletOf (f : Ringlet → Ringlet) : State := { base with ringlet := f base.ringlet }

def coreState (f : Health → Health) (s : State) : State := { s with health := s.health.set 0 (f (s.healthOf 0)) }

/-- Core 0 is scanned, with a wave of it saved and a page in its write ranges. -/
def scannedS (fails : Bool) : State :=
  { (ringletOf fun r => { r with cur := some 0, left := [0] }).mapCore 0 fun c =>
      { c with ranges := [⟨1, 9, 1, 0⟩], inject := if fails then [⟨3, 0⟩] else [] } with
    images := [{ evictedI none with evict := false, ringlet := true }], waves := [] }

theorem wit_Scans :
    (∃ (s : State), ¬ (s.ringlet.en = true ∧ s.ringlet.cur = none ∧ s.ringlet.readyAt ≤ s.now ∧ s.mp.restartAt = none ∧
      s.thermal.critical = false)) ∧
    (∃ (s : State), s.ringlet.en = true ∧ s.ringlet.cur = none ∧ s.ringlet.readyAt ≤ s.now ∧ s.mp.restartAt = none ∧
      s.thermal.critical = false ∧ (s.healthOf 0).state = 0 ∧ (s.healthOf 0).draining = false ∧ s.ringlet.fronts = [0]) ∧
    (∃ (s : State), s.ringlet.en = true ∧ s.ringlet.cur = none ∧ s.ringlet.readyAt ≤ s.now ∧ s.mp.restartAt = none ∧
      s.thermal.critical = false ∧ (s.healthOf 0).state = 0 ∧ (s.healthOf 0).draining = false ∧ s.ringlet.fronts = [] ∧
      s.ringlet.lastCore < 96 ∧ ∀ d, d < 96 → (0 + 95 - s.ringlet.lastCore) % 96 ≤ (d + 95 - s.ringlet.lastCore) % 96) ∧
    (∃ (s : State), 0 < s.health.length ∧ s.ringlet.cur = some 0 ∧ (s.core 0).scanFails = false ∧ s.ringlet.left = [0] ∧ s.onDuty 0 = false) ∧
    (∃ (s : State), s.ringlet.cur = some 0 ∧ Claims.damageRoom s ((s.core 0).ranges.length + (s.core 0).blocks.length + s.blocks.length) ∧
      0 < s.owners.length ∧ (∀ l ∈ s.launches, l.dmgmap = 0) ∧ (s.core 0).scanFails = true) ∧
    (∃ (s : State), (s.healthOf 0).state = 1 ∧ (s.healthOf 0).qby ≠ 2 ∧ 0 < s.owners.length ∧ (s.core 0).scanFails = false ∧
      (s.healthOf 0).passrun < 2) ∧
    (∃ (s : State), (s.healthOf 0).state = 1 ∧ (s.healthOf 0).qby ≠ 2 ∧ 0 < s.owners.length ∧ (s.core 0).scanFails = false ∧
      2 ≤ (s.healthOf 0).passrun ∧ s.ringlet.duty.find? (fun d => d.1 = 0) = some (0, [0]) ∧ 0 < s.ringlet.gstate.length) ∧
    (∃ (s : State), (s.healthOf 0).state ≠ 1) := by
  let duty : State := { coreState (fun h => { h with state := 1, passrun := 2 }) base with
    ringlet := { base.ringlet with duty := [(0, [0])] } }
  refine ⟨⟨ringletOf fun r => { r with en := false }, by decide +kernel⟩,
    ⟨ringletOf fun r => { r with fronts := [0] }, by decide +kernel, by decide +kernel, by decide +kernel, by decide +kernel,
      by decide +kernel, by decide +kernel, by decide +kernel, by decide +kernel⟩,
    ⟨base, by decide +kernel, by decide +kernel, by decide +kernel, by decide +kernel, by decide +kernel, by decide +kernel,
      by decide +kernel, by decide +kernel, by decide +kernel, by decide +kernel⟩,
    ⟨scannedS false, by decide +kernel, by decide +kernel, by decide +kernel, by decide +kernel, by decide +kernel⟩,
    ⟨scannedS true, by decide +kernel, ?_, by decide +kernel, by decide +kernel, by decide +kernel⟩,
    ⟨coreState (fun h => { h with state := 1 }) base, by decide +kernel, by decide +kernel, by decide +kernel, by decide +kernel,
      by decide +kernel⟩,
    ⟨duty, by decide +kernel, by decide +kernel, by decide +kernel, by decide +kernel, by decide +kernel, by decide +kernel,
      by decide +kernel⟩,
    base, by decide +kernel⟩
  show ∀ x ∈ (scannedS true).parts, _
  decide +kernel

def dirtyX : DirtyLine := { line := 0x120, slice := 5, set := 1, way := 2, tag := 1, poison := false, hist := [] }

theorem wit_FailingStorage :
    (∃ (s : State) (at_ : Nat), (s.core 0).hung = some at_ ∧ 200000 ≤ s.now - at_ ∧ Claims.damageRoom s 3 ∧ 0 < s.owners.length ∧
      (∀ l ∈ s.launches, l.dmgmap = 0) ∧ (s.core 0).owner = some 1 ∧ (s.core 0).task = none ∧ s.block? 1 = some (loadedBlock 0) ∧
      (loadedBlock 0).ended = false) ∧
    (∃ (s : State) (x : Task), (s.core 0).task = some x.tok ∧ s.tasks.find? (fun y => y.tok = x.tok && y.core = some 0) = some x ∧
      s.task? x.part x.tok = some x) ∧
    (∃ (s : State) (d : DirtyLine) (x : Context), s.dirty.find? (fun d => d.line = 0x120 && !d.poison) = some d ∧ 0 < s.owners.length ∧
      d.tag ≠ noTag ∧ s.ctx? d.tag = some x) ∧
    (∃ (s : State), s.dirty.find? (fun d => d.line = 0x120 && !d.poison) = none) ∧
    (∃ (s : State), 0 < s.owners.length ∧ s.mp.inExec = none ∧ s.mp.restartAt = none ∧ s.boot.state ≠ 0 ∧
      s.mp.own = [.retirePage 0x9000] ∧ s.storage.retired.contains (pageOf 0x9000) = false) ∧
    (∃ (s : State), 0 < s.owners.length ∧ s.mp.inExec = none ∧ s.mp.restartAt = none ∧ s.boot.state ≠ 0 ∧
      s.mp.own = [.quarantineWay 5 2] ∧ s.storage.ways.contains (5, 2) = false) ∧
    (∃ (s : State), s.mp.own = []) ∧
    (∃ (s : State), 0 < s.owners.length ∧ 0x120 ∈ s.storage.badMem ∧ s.storage.retired.contains (pageOf (0x120 * 128)) = false) := by
  let hung : State := { base.mapCore 0 fun c => { c with hung := some 0, owner := some 1 } with now := 300000 }
  let t : Task := tasksR (some 0)
  let busy : State := { base.mapCore 0 fun c => { c with task := some 1 } with tasks := [t] }
  let own (o : List OwnWork) : State := { base with boot := { base.boot with state := 4 }, mp := { base.mp with own := o } }
  refine ⟨⟨hung, 0, by decide +kernel, by decide +kernel, ?_, by decide +kernel, by decide +kernel, by decide +kernel, by decide +kernel,
      by decide +kernel, by decide +kernel⟩,
    ⟨busy, t, by decide +kernel, by decide +kernel, by decide +kernel⟩,
    ⟨{ base with dirty := [dirtyX] }, dirtyX, loadedContext, by decide +kernel, by decide +kernel, by decide +kernel, by decide +kernel⟩,
    ⟨base, by decide +kernel⟩,
    ⟨own [.retirePage 0x9000], by decide +kernel, by decide +kernel, by decide +kernel, by decide +kernel, by decide +kernel,
      by decide +kernel⟩,
    ⟨own [.quarantineWay 5 2], by decide +kernel, by decide +kernel, by decide +kernel, by decide +kernel, by decide +kernel,
      by decide +kernel⟩,
    ⟨base, by decide +kernel⟩,
    { base with storage := { base.storage with badMem := [0x120] } }, by decide +kernel, by decide +kernel, by decide +kernel⟩
  show ∀ x ∈ hung.parts, _
  decide +kernel

def thermalS (f : Thermal → Thermal) : State := { base with thermal := f base.thermal, now := 200000 }

theorem wit_ThermalLimits :
    (∃ (s : State), s.thermal.temps.length = 11 ∧ s.thermal.clocks.length = 11 ∧ s.thermal.stepAt.length = 11 ∧ 0 < s.owners.length ∧
      s.thermal.threshold < 211 ∧ 3 ∉ s.thermal.throttled) ∧
    (∃ (s : State), s.thermal.temps.length = 11 ∧ 3 ∈ s.thermal.throttled ∧ s.thermal.threshold < s.thermal.temps.getD 3 0 ∧
      10000 ≤ s.now - s.thermal.stepAt.getD 3 0 ∧ 1500 < s.thermal.clocks.getD 3 0) ∧
    (∃ (s : State), s.thermal.temps.length = 11 ∧ 3 ∈ s.thermal.throttled ∧ s.thermal.power ≤ s.thermal.limit * 1000 ∧
      s.thermal.peak ≤ 450000 ∧ 100000 ≤ s.now - s.thermal.stepAt.getD 3 0 ∧ s.thermal.temps.getD 3 0 + 4 ≤ s.thermal.threshold ∧
      s.thermal.clocks.getD 3 0 + 200 < 3100) ∧
    (∃ (s : State), s.thermal.temps.length = 11 ∧ 3 ∈ s.thermal.throttled ∧ s.thermal.power ≤ s.thermal.limit * 1000 ∧
      s.thermal.peak ≤ 450000 ∧ 100000 ≤ s.now - s.thermal.stepAt.getD 3 0 ∧ s.thermal.temps.getD 3 0 + 4 ≤ s.thermal.threshold ∧
      3100 ≤ s.thermal.clocks.getD 3 0 + 200) ∧
    (∃ (s : State), s.thermal.critical = false ∧ 250 ≤ s.thermal.temps.getD 3 0) ∧
    (∃ (s : State), s.thermal.temps.length = 11 ∧ 3 ∈ s.thermal.throttled ∧ s.thermal.temps.getD 3 0 < 0 ∧
      s.thermal.temps.getD 3 0 + 4 ≤ s.thermal.threshold) := by
  let cool (c : Nat) : State := thermalS fun t => { t with throttled := [3], clocks := t.clocks.set 3 c }
  exact ⟨⟨thermalS id, by decide +kernel, by decide +kernel, by decide +kernel, by decide +kernel, by decide +kernel, by decide +kernel⟩,
    ⟨thermalS fun t => { t with throttled := [3], temps := t.temps.set 3 211 }, by decide +kernel, by decide +kernel, by decide +kernel,
      by decide +kernel, by decide +kernel⟩,
    ⟨cool 1500, by decide +kernel, by decide +kernel, by decide +kernel, by decide +kernel, by decide +kernel, by decide +kernel,
      by decide +kernel⟩,
    ⟨cool 2900, by decide +kernel, by decide +kernel, by decide +kernel, by decide +kernel, by decide +kernel, by decide +kernel,
      by decide +kernel⟩,
    ⟨thermalS fun t => { t with temps := t.temps.set 3 250 }, by decide +kernel, by decide +kernel⟩,
    thermalS fun t => { t with throttled := [3], temps := t.temps.set 3 (-5) }, by decide +kernel⟩

/-- A device that runs, with a management processor that a function changes. -/
def mpS (f : Mp → Mp) : State := { base with boot := { base.boot with state := 4 }, mp := f base.mp, now := 20000000 }

theorem wit_Watchdog :
    (∃ (s : State), s.pages.length = 9 ∧ s.boot.state ≠ 0 ∧ s.mp.restartAt = none ∧ s.mp.wdMs * 100000 ≤ s.now - s.mp.serviced ∧
      s.mp.inExec.isSome = true) ∧
    (∃ (s : State), s.pages.length = 9 ∧ s.now - s.mp.serviced < s.mp.wdMs * 100000) ∧
    (∃ (s : State), s.pages.length = 9 ∧ s.mp.restartAt.isSome = true ∧ s.mp.inExec = some (0, 3) ∧ s.mp.prepared = none) ∧
    (∃ (s : State) (x : Prepared), s.pages.length = 9 ∧ s.mp.restartAt.isSome = true ∧ s.mp.prepared = some x ∧ x.sealed = false) ∧
    (∃ (s : State) (x : Prepared), s.pages.length = 9 ∧ s.mp.restartAt.isSome = true ∧ s.mp.prepared = some x ∧ Claims.goodSet x ∧
      s.allDrained x = true) ∧
    (∃ (s : State) (x : Prepared), s.pages.length = 9 ∧ s.mp.restartAt.isSome = true ∧ s.mp.prepared = some x ∧ Claims.goodSet x ∧
      s.allDrained x = false) ∧
    (∃ (s : State) (x : Prepared), s.pages.length = 9 ∧ s.mp.restartAt.isSome = true ∧ s.mp.prepared = some x ∧ x.sealed = true ∧
      x.sealedBy ≠ x.checksum) ∧
    (∃ (s : State), s.pages.length = 9 ∧ s.mp.restartAt.isSome = true ∧ s.heldSplit.isSome = true) ∧
    (∀ n ∈ [2, 3], ∃ (s : State) (x : Split), s.pages.length = 9 ∧ s.boot.state ≠ 0 ∧ s.mp.restartAt = none ∧
      s.mp.wdMs * 100000 ≤ s.now - s.mp.serviced ∧ s.heldSplit = some x ∧ x.stage = n) := by
  let x (b : Bool) : Prepared := ⟨0, [], 0, b, 0⟩
  let y : Prepared := ⟨0, [], 0, true, 1⟩
  let cut (n : Nat) : Option Split := some ⟨[(0, (0, 24))], [0], n⟩
  refine ⟨⟨mpS fun m => { m with inExec := some (0, 3) }, by decide +kernel, by decide +kernel, by decide +kernel, by decide +kernel,
      by decide +kernel⟩,
    ⟨base, by decide +kernel, by decide +kernel⟩,
    ⟨mpS fun m => { m with restartAt := some 0, inExec := some (0, 3) }, by decide +kernel, by decide +kernel, by decide +kernel,
      by decide +kernel⟩,
    ⟨mpS fun m => { m with restartAt := some 0, prepared := some (x false) }, x false, by decide +kernel, by decide +kernel,
      by decide +kernel, by decide +kernel⟩,
    ⟨mpS fun m => { m with restartAt := some 0, prepared := some (x true) }, x true, by decide +kernel, by decide +kernel, by decide +kernel,
      ⟨rfl, rfl⟩, by decide +kernel⟩,
    ⟨withPart (fun p => { p with state := .draining }) (mpS fun m => { m with restartAt := some 0, prepared := some (x true) }), x true,
      by decide +kernel, by decide +kernel, by decide +kernel, ⟨rfl, rfl⟩, by decide +kernel⟩,
    ⟨mpS fun m => { m with restartAt := some 0, prepared := some y }, y, by decide +kernel⟩,
    ⟨mpS fun m => { m with restartAt := some 0, inExec := some (0, 3), split := cut 3 }, by decide +kernel⟩,
    fun n hn => ⟨mpS fun m => { m with inExec := some (0, 3), split := cut n }, ⟨[(0, (0, 24))], [0], n⟩, ?_⟩⟩
  simp only [List.mem_cons, List.not_mem_nil, or_false] at hn
  rcases hn with rfl | rfl <;> decide +kernel

/-! ### Bring-up, windows, registers and links -/

/-- A boot image of one pipe entry and a mode of 64 by 64 pixels, with its CRC. -/
def bootWords (crc : W32) : List W32 :=
  [0x544F4F42, 192, crc, 1] ++ List.replicate 12 0 ++ ([2, 0, 128] ++ List.replicate 13 0) ++
    ([0x00400040, 0x00800080, 0x00080048, 0x00080048, 10000, 4, 0, 0] ++ List.replicate 8 0)

def bootFlash : List Byte := wordsBytes (bootWords 0x6A44F5A9)

/-- The CRC of some bytes with each step's value taken before the next. -/
def crcForced : List Byte → W32 → W32
  | [], c => c
  | b :: bs, c => if crcByte c b = 0 then crcForced bs 0 else crcForced bs (crcByte c b)

theorem crc_forced : ∀ (bs : List Byte) (c : W32), bs.foldl crcByte c = crcForced bs c
  | [], _ => rfl
  | b :: bs, c => by
    rw [crcForced, List.foldl, crc_forced bs]
    split <;> simp [*]

theorem boot_ok : bootImageOk bootFlash = true := by
  simp only [bootImageOk, crc32c, crc_forced]
  decide +kernel

def bootS (f : Boot → Boot) : State := { base with boot := f base.boot }

theorem wit_BringUp :
    (∃ (s : State), s.boot.power = false) ∧ (∃ (s : State), s.boot.power = true ∧ s.boot.state = 2) ∧ (∃ (s : State), 4 ≤ s.boot.state) ∧
    (∃ (s : State) (f : BootFinding), s.boot.power = true ∧ s.boot.state = 0 ∧ bootImageOk f.flash = true ∧
      0 < (wordAt (bootHeader f.flash) 3).toNat ∧ (wordAt (bytesWords (flashBytes f.flash 64 64)) 0).toNat < 6 ∧
      modeOk (bytesWords (flashBytes f.flash (wordAt (bytesWords (flashBytes f.flash 64 64)) 2).toNat 64)) = true) :=
  ⟨⟨bootS fun b => { b with power := false }, by decide +kernel⟩, ⟨bootS fun b => { b with state := 2 }, by decide +kernel, by decide +kernel⟩,
    ⟨bootS fun b => { b with state := 4 }, by decide +kernel⟩,
    base, ⟨bootFlash, 128, true, []⟩, by decide +kernel, by decide +kernel, boot_ok, by decide +kernel, by decide +kernel,
    by decide +kernel⟩

/-- A device whose storage a function changes. -/
def storageS (f : Storage → Storage) : State := { base with storage := f base.storage, boot := { base.boot with numVfs := 8 } }

/-- The lines of an access of the host at 0x9000, whose home is the whole device. -/
def hostLine (s : State) (rd : Bool) (tag l : Nat) : LineState := s.requestState (s.domain (s.fnHome .pf)) 0 rd (tag + l) l

/-- The device with a window of BAR 4 that starts where no memory is. -/
def farS : State := { storageS id with boot := { (storageS id).boot with winBase := 0x2000000000 } }

/-- Line 0x120 dirty, and its place in its slice uncorrectable. -/
def lostS : State := { storageS (fun x => { x with badDirty := [0x120] }) with dirty := [dirtyX] }

def movingS : State :=
  { storageS id with mp := { base.mp with split := some ⟨[], [homeSlice ((storageS id).domain ((storageS id).fnHome .pf)) 0 0x9000], 2⟩ } }

theorem wit_HostWindows :
    (∃ (s : State) (ps : List (Nat × Nat)), s.boot.power = true ∧ Fn.valid .pf = true ∧ s.owners.length = 9 ∧ 0x9000 + 8 ≤ 2 ^ s.boot.bar4 ∧
      s.fnPieces .pf false 0x9000 8 = some ps ∧ (∀ l ∈ piecesLines ps, hostLine s true 576460752303423488 l = .ok) ∧
      (∀ p ∈ ps, p.1 + p.2 ≤ s.usable) ∧ s.homes = []) ∧
    (∃ (s : State), s.boot.power = true ∧ s.owners.length = 9 ∧ 2 ^ s.boot.bar4 < 0x10000000 + 8) ∧
    (∃ (s : State), s.boot.power = true ∧ s.owners.length = 9 ∧ 0 + 8 ≤ 2 ^ s.boot.bar4 ∧ s.fnPieces .pf false 0 8 = none ∧
      s.fnPieces .pf true 0 8 = none) ∧
    (∃ (s : State) (ps : List (Nat × Nat)), s.fnPieces .pf false 0x9000 8 = some ps ∧
      ∃ l ∈ piecesLines ps, hostLine s true 576460752303423488 l = .retired) ∧
    (∃ (s : State) (ps : List (Nat × Nat)), s.fnPieces .pf false 0x9000 8 = some ps ∧ piecesLines ps = [0x120] ∧ 0x120 ∈ s.storage.badMem ∧
      s.dirtyAt (0x120 * 128) = none ∧ s.storage.retired.contains (pageOf (0x120 * 128)) = false ∧ s.storage.held = [] ∧ s.mp.split = none) ∧
    (∃ (s : State) (ps : List (Nat × Nat)), s.fnPieces .pf false 0x9000 8 = some ps ∧ piecesLines ps = [0x120] ∧
      hostLine s true 576460752303423488 0x120 = .moving) ∧
    (∃ (s : State) (ps : List (Nat × Nat)), s.fnPieces .pf false 0x9000 8 = some ps ∧ piecesLines ps = [0x120] ∧
      hostLine s true 576460752303423488 0x120 = .held ∧ s.lineLost 0x120 = false) ∧
    (∃ (s : State) (ps : List (Nat × Nat)), s.fnPieces .pf false 0x9000 8 = some ps ∧ piecesLines ps = [0x120] ∧
      hostLine s true 576460752303423488 0x120 = .held ∧ s.lineLost 0x120 = true) ∧
    (∃ (s : State) (ps : List (Nat × Nat)), s.fnPieces .pf true 0x9000 8 = some ps ∧
      (∀ l ∈ piecesLines ps, s.requestState (s.domain (s.fnHome .pf)) 0 false 0 l = .ok) ∧ ps = [(0x9000, 8)] ∧ 0x9000 + 8 ≤ s.usable) ∧
    (∃ (s : State) (ps : List (Nat × Nat)), s.fnPieces .pf true 0x9000 8 = some ps ∧
      ∃ l ∈ piecesLines ps, s.requestState (s.domain (s.fnHome .pf)) 0 false 0 l = .retired) ∧
    (∃ (s : State) (ps : List (Nat × Nat)), s.fnPieces .pf true 0x9000 8 = some ps ∧
      (∃ l ∈ piecesLines ps, s.requestState (s.domain (s.fnHome .pf)) 0 false 0 l = .held) ∧
      ∀ l ∈ piecesLines ps, s.requestState (s.domain (s.fnHome .pf)) 0 false 0 l ≠ .retired) ∧
    (∃ (s : State), s.pages.length = 9 ∧ s.parts.length = 8 ∧ s.vfOn 3 = true ∧ (s.part 3).layout.valid = true ∧
      (s.part 3).state ≠ .resetting) ∧ (∃ (s : State), s.vfOn 3 = false) := by
  let s : State := storageS id
  let r : State := storageS fun x => { x with retired := [pageOf 0x9000] }
  let h : State := storageS fun x => { x with held := [(pageOf 0x9000, 0)] }
  let b : State := storageS fun x => { x with badMem := [0x120] }
  let v : State := { s with parts := s.parts.set 3 { s.part 3 with layout := layout0, state := .idle } }
  exact ⟨⟨s, [(0x9000, 8)], by decide +kernel⟩, ⟨s, by decide +kernel⟩, ⟨farS, by decide +kernel⟩,
    ⟨r, [(0x9000, 8)], by decide +kernel, 0x120, by decide +kernel, by decide +kernel⟩,
    ⟨b, [(0x9000, 8)], by decide +kernel⟩, ⟨movingS, [(0x9000, 8)], by decide +kernel⟩, ⟨h, [(0x9000, 8)], by decide +kernel⟩,
    ⟨lostS, [(0x9000, 8)], by decide +kernel⟩, ⟨s, [(0x9000, 8)], by decide +kernel⟩,
    ⟨r, [(0x9000, 8)], by decide +kernel, 0x120, by decide +kernel, by decide +kernel⟩,
    ⟨h, [(0x9000, 8)], by decide +kernel, ⟨0x120, by decide +kernel, by decide +kernel⟩, by decide +kernel⟩,
    ⟨v, by decide +kernel⟩, base, by decide +kernel⟩

theorem wit_Registers : ∃ (s : State), s.boot.power = true ∧ s.pages.length = 9 ∧ s.owners.length = 9 ∧ s.parts.length = 8 ∧
    s.display.pipes.length = 6 ∧ ∀ p ∈ s.display.pipes, p.latch0.length = 16 ∧ p.latch1.length = 16 :=
  ⟨base, by decide +kernel, by decide +kernel, by decide +kernel, by decide +kernel, by decide +kernel, by decide +kernel⟩

/-- A device that is paired, and takes accesses from 0x9000 to 0xA000. -/
def pairedS : State :=
  { base with gulnos := { base.gulnos with en := true, lup := 1, paired := true, rbase := 0x9000, rlimit := 0xA000
                                           pending := [(4, 0x800000000000, 0, ⟨some 1, some 0⟩, 0)] }, now := 200000 }

/-- The lines of an access of the paired device. -/
def remoteLine (s : State) (rd : Bool) (l : Nat) : LineState := s.requestState (s.domain none) 0 rd (576460752303423488 + l) l

theorem wit_GulnosLinks :
    (∃ (s : State), s.boot.power = true ∧ s.gulnos.en = true ∧ s.gulnos.paired = false) ∧
    (∃ (s : State), s.boot.power = true ∧ s.gulnos.lup &&& ~~~BitVec.ofNat 2 (2 ^ 0) = 0 ∧ s.gulnos.paired = true) ∧
    (∃ (s : State), s.linkUp = false) ∧ (∃ (s : State), s.linkUp = true ∧ ¬ (s.gulnos.rbase.toNat ≤ 0x8000)) ∧
    (∃ (s : State), s.linkUp = true ∧ s.gulnos.rbase.toNat ≤ 0x9000 ∧ 0x9000 + 8 ≤ s.gulnos.rlimit.toNat ∧ 0x9000 + 8 ≤ s.usable ∧
      (∀ l ∈ linesOf 0x9000 8, remoteLine s true l = .ok ∧ remoteLine s false l = .ok) ∧ s.homes = []) ∧
    (∃ (s : State), s.linkUp = true ∧ s.gulnos.rbase.toNat ≤ 0x9000 ∧ 0x9000 + 8 ≤ s.gulnos.rlimit.toNat ∧
      linesOf 0x9000 8 = [0x120] ∧ remoteLine s true 0x120 = .held) ∧
    (∃ (s : State), s.linkUp = true ∧ s.gulnos.rbase.toNat ≤ 0x9000 ∧ 0x9000 + 8 ≤ s.gulnos.rlimit.toNat ∧
      linesOf 0x9000 8 = [0x120] ∧ remoteLine s false 0x120 = .moving) ∧
    (∃ (s : State), s.linkUp = true ∧ s.gulnos.rbase.toNat ≤ 0x9000 ∧ 0x9000 + 8 ≤ s.gulnos.rlimit.toNat ∧
      linesOf 0x9000 8 = [0x120] ∧ remoteLine s true 0x120 = .retired ∧ 0 < s.owners.length) ∧
    (∃ (s : State) (pa at_ : Nat) (a : Agent) (e : Nat), s.gulnos.pending.find? (fun p => p.1 = 4) = some (4, pa, at_, a, e) ∧
      100000 ≤ s.now - at_ ∧ 0 < s.owners.length) ∧
    (∃ (s : State) (pa at_ : Nat) (a : Agent) (e : Nat), s.gulnos.pending.find? (fun p => p.1 = 4) = some (4, pa, at_, a, e) ∧
      s.now - at_ < 100000) :=
  ⟨⟨{ base with gulnos := { base.gulnos with en := true } }, by decide +kernel⟩, ⟨pairedS, by decide +kernel⟩, ⟨base, by decide +kernel⟩,
    ⟨pairedS, by decide +kernel⟩, ⟨pairedS, by decide +kernel⟩,
    ⟨{ pairedS with storage := { base.storage with held := [(pageOf 0x9000, 0)] } }, by decide +kernel⟩,
    ⟨{ pairedS with mp := { base.mp with split := some ⟨[], [homeSlice (base.domain none) 0 0x9000], 2⟩ } }, by decide +kernel⟩,
    ⟨{ pairedS with storage := { base.storage with retired := [pageOf 0x9000] } }, by decide +kernel⟩,
    ⟨pairedS, 0x800000000000, 0, ⟨some 1, some 0⟩, 0, by decide +kernel⟩,
    { pairedS with now := 5 }, 0x800000000000, 0, ⟨some 1, some 0⟩, 0, by decide +kernel⟩

/-! ### A table register filled from its image -/

theorem readRun_zero {m : Cells} : ∀ (n a : Nat), (∀ b, a ≤ b → m.read b = 0) → m.readRun a n = List.replicate n 0
  | 0, _, _ => rfl
  | n + 1, a, h => by
    rw [Cells.readRun, h a (Nat.le_refl a), readRun_zero n (a + 1) fun b hb => h b (by omega), List.replicate_succ]

theorem readRun_add (m : Cells) : ∀ (k n a : Nat), m.readRun a (k + n) = m.readRun a k ++ m.readRun (a + k) n
  | 0, n, a => by simp [Cells.readRun]
  | k + 1, n, a => by
    rw [Nat.add_right_comm, Cells.readRun, readRun_add m k n (a + 1), Cells.readRun, Nat.add_right_comm a 1 k]
    rfl

theorem homeRead_run (s : State) (tag : Nat) : ∀ (n pa : Nat), pa + n ≤ s.usable → s.homeRead tag pa n = s.mem.readRun pa n
  | 0, _, _ => rfl
  | n + 1, pa, h => by
    rw [State.homeRead, Cells.readRun, homeRead_run s tag n (pa + 1) (by omega), if_pos (by omega)]

/-- Beyond the entries of a memory every byte is zero. -/
theorem read_beyond : ∀ (m : Cells) (b : Nat), (∀ c ∈ m, c.1 < b) → m.read b = 0
  | [], _, _ => rfl
  | (k, v) :: r, b, h => by
    have hk : k < b := h (k, v) List.mem_cons_self
    rw [Cells.read]
    rw [if_neg (by omega)]
    exact read_beyond r b fun c hc => h c (List.mem_cons_of_mem _ hc)

theorem crc_zeros : ∀ n, (List.replicate n (0 : Byte)).foldl crcByte 0 = 0
  | 0 => rfl
  | n + 1 => by rw [List.replicate_succ, List.foldl_cons, show crcByte 0 0 = 0 by decide, crc_zeros n]

/-- An image at 0x40000, in a strongly ordered page, whose record is zero but for a second word that takes its CRC to all ones. -/
def fillS : State :=
  { wideS with mem := ((wideS.mem.writeRun 0x12000 (natBytes 8 0x1C7)).writeRun 0x40000 (wordsBytes [0, 0xB798B438])).writeRun 0x4003C
                 (wordsBytes [0xFFFFFFFF]) }

def fillV : View := { viewOf fillS with s := (fillS.claim 0 1).getD base }

def fillO : Operands := ops 0 (reg 2) (.imm 0) .unused

def fillT : Trans := ⟨0, 30, 0, 0, 0, true, true, true, true, true, false, 0⟩

def fillP (k n : Nat) : Piece := ⟨0, BitVec.ofNat 64 (0x40000 + k), k, n, some fillT⟩

def fillPs : List Piece := [fillP 0 4096, fillP 4096 4096, fillP 8192 4096, fillP 12288 4096, fillP 16384 64]

theorem fill_pieces : fillV.recordPieces 16448 [(0, fillV.src64 0 fillO.a 0)] = .ok fillPs := by
  have h : got [] (fillV.recordPieces 16448 [(0, fillV.src64 0 fillO.a 0)]) = fillPs := by decide +kernel
  rw [← h]
  exact ok_got (by decide +kernel)

/-- The view after the reads have met the core's own writes. -/
def fillR : View := { fillV with s := fillV.touchPieces fillV.s fillPs }

/-- Where no line has been written, nothing is read at another slice. -/
theorem aliased_none (s : State) (h : s.homes = []) (tag : Nat) (slice : Nat → Nat) (pa : Nat) (bs : List Byte) :
    s.aliased tag slice pa bs = bs := by
  refine List.ext_getElem (by simp [State.aliased]) fun i h1 h2 => ?_
  simp [State.aliased, State.aliasedAt, h]

theorem piece_run (v : View) (p : Piece) (t : Trans) (ht : p.tr = some t) (hk : t.kind = 0) (hr : isRemote p.pa = false)
    (hd : v.s.homes = []) (hw : v.s.writes = []) (hi : p.pa + p.len ≤ v.s.usable) : v.pieceBytes p = v.s.mem.readRun p.pa p.len := by
  have hc : t.cached = false := by simp [Trans.cached, hk]
  simp [View.pieceBytes, ht, hr, View.aliased, aliased_none v.s hd, State.coreRead, hc, hk, overlay, hw,
    homeRead_run v.s 4194304 p.len p.pa hi]

theorem fill_piece (k n : Nat) (hp : (fillP k n).pa = 0x40000 + k) (hr : isRemote (0x40000 + k) = false) (hi : 0x40000 + k + n ≤ 0x50000) :
    fillR.pieceBytes (fillP k n) = fillR.s.mem.readRun (0x40000 + k) n := by
  have h := piece_run fillR (fillP k n) fillT rfl rfl (by rw [hp]; exact hr) (by decide +kernel) (by decide +kernel)
    (by rw [hp]; exact Nat.le_trans hi (by decide +kernel))
  rw [hp] at h
  exact h

/-- The image's bytes. -/
def fillBytes : List Byte :=
  [0, 0, 0, 0, 0x38, 0xB4, 0x98, 0xB7] ++ List.replicate 52 0 ++ ([0xFF, 0xFF, 0xFF, 0xFF] ++ List.replicate 16384 0)

theorem fill_bytes : fillR.laneBytes fillPs 0 = fillBytes := by
  have hz : fillR.s.mem.readRun 0x40040 16384 = List.replicate 16384 0 :=
    readRun_zero 16384 0x40040 fun b hb => read_beyond _ b fun c hc =>
      Nat.lt_of_lt_of_le ((by decide +kernel : ∀ c ∈ fillR.s.mem, c.1 < 0x40040) c hc) hb
  have hf : fillPs.filter (·.lane = 0) = fillPs := by decide +kernel
  rw [View.laneBytes, hf]
  simp only [fillPs, List.flatMap_cons, List.flatMap_nil]
  rw [fill_piece 0 4096 (by decide +kernel) (by decide +kernel) (by decide), fill_piece 4096 4096 (by decide +kernel) (by decide +kernel) (by decide),
    fill_piece 8192 4096 (by decide +kernel) (by decide +kernel) (by decide), fill_piece 12288 4096 (by decide +kernel) (by decide +kernel) (by decide),
    fill_piece 16384 64 (by decide +kernel) (by decide +kernel) (by decide), List.append_nil]
  have e1 : fillR.s.mem.readRun (0x40000 + 12288) 4096 ++ fillR.s.mem.readRun (0x40000 + 16384) 64 =
    fillR.s.mem.readRun (0x40000 + 12288) (4096 + 64) := (readRun_add _ 4096 64 _).symm
  have e2 : fillR.s.mem.readRun (0x40000 + 8192) 4096 ++ fillR.s.mem.readRun (0x40000 + 12288) (4096 + 64) =
    fillR.s.mem.readRun (0x40000 + 8192) (4096 + (4096 + 64)) := (readRun_add _ 4096 (4096 + 64) _).symm
  have e3 : fillR.s.mem.readRun (0x40000 + 4096) 4096 ++ fillR.s.mem.readRun (0x40000 + 8192) (4096 + (4096 + 64)) =
    fillR.s.mem.readRun (0x40000 + 4096) (4096 + (4096 + (4096 + 64))) := (readRun_add _ 4096 _ _).symm
  have e4 : fillR.s.mem.readRun (0x40000 + 0) 4096 ++ fillR.s.mem.readRun (0x40000 + 4096) (4096 + (4096 + (4096 + 64))) =
    fillR.s.mem.readRun 0x40000 (64 + 16384) := (readRun_add _ 4096 (4096 + (4096 + (4096 + 64))) 0x40000).symm
  have h0 : fillR.s.mem.readRun 0x40000 64 = [0, 0, 0, 0, 0x38, 0xB4, 0x98, 0xB7] ++ List.replicate 52 0 ++ [0xFF, 0xFF, 0xFF, 0xFF] := by
    decide +kernel
  rw [e1, e2, e3, e4, readRun_add, h0, hz]
  exact List.append_assoc _ _ _

/-- What the CRC of an image covers. -/
theorem image_crc (z : List Byte) :
    ([0, 0, 0, 0, 0x38, 0xB4, 0x98, 0xB7] ++ List.replicate 52 0 ++ ([0xFF, 0xFF, 0xFF, 0xFF] ++ z)).take 60 ++
      ([0, 0, 0, 0, 0x38, 0xB4, 0x98, 0xB7] ++ List.replicate 52 0 ++ ([0xFF, 0xFF, 0xFF, 0xFF] ++ z)).drop 64 =
    [0, 0, 0, 0, 0x38, 0xB4, 0x98, 0xB7] ++ (List.replicate 52 (0 : Byte) ++ z) := rfl

theorem fill_crc : crc32c (fillBytes.take 60 ++ fillBytes.drop 64) = 0xFFFFFFFF := by
  have h4 : ([0, 0, 0, 0, 0x38, 0xB4, 0x98, 0xB7] : List Byte).foldl crcByte 0xFFFFFFFF = 0 := by decide +kernel
  have h := image_crc (List.replicate 16384 0)
  rw [List.replicate_append_replicate] at h
  rw [fillBytes, h, crc32c, List.foldl_append, h4, crc_zeros]
  rfl

theorem readGlobal_ok (v w : View) (lane : Nat) (va : W64) (n : Nat) (ps : List Piece) (bs : List Byte)
    (h : v.recordPieces n [(lane, va)] = .ok ps) (hw : { v with s := v.touchPieces v.s ps } = w) (hb : w.laneBytes ps lane = bs) :
    v.readGlobal lane va n = .ok ({ w with s := v.remoteReads (v.cachePieces w.s ps) ps }, bs.toArray) := by
  subst hw hb
  rw [View.readGlobal, h]
  rfl

theorem image_ok {bs : List Byte} (h1 : bitsAt (bytesWords bs) 160 320 = 0) (h3 : bitsAt (bytesWords bs) 25 7 = 0) (h2 : crc32c (bs.take 60 ++ bs.drop 64) = wordAt (bytesWords bs) 15) :
    bitsAt (bytesWords bs.toArray.toList) 160 320 = 0 ∧ bitsAt (bytesWords bs.toArray.toList) 25 7 = 0 ∧
      crc32c (bs.toArray.toList.take 60 ++ bs.toArray.toList.drop 64) = wordAt (bytesWords bs.toArray.toList) 15 := by
  rw [List.toList_toArray]
  exact ⟨h1, h3, h2⟩

theorem wit_TableFill : ∃ (s u : State) (v x : View) (o : Operands) (bytes : Array Byte), s.view? = some v ∧ v.passing o = 1 ∧
    s.claim v.ic.core (v.thread 0).blk = some u ∧ (View.src64 { v with s := u } 0 o.a 0).toNat % 64 = 0 ∧
    View.readGlobal { v with s := u } 0 (View.src64 { v with s := u } 0 o.a 0) 16448 = .ok (x, bytes) ∧
    bitsAt (bytesWords bytes.toList) 160 320 = 0 ∧ bitsAt (bytesWords bytes.toList) 25 7 = 0 ∧
    crc32c (bytes.toList.take 60 ++ bytes.toList.drop 64) = wordAt (bytesWords bytes.toList) 15 :=
  ⟨fillS, (fillS.claim 0 1).getD base, viewOf fillS, { fillR with s := fillV.remoteReads (fillV.cachePieces fillR.s fillPs) fillPs }, fillO,
    fillBytes.toArray, view_some (by decide +kernel), by decide +kernel, some_got (by decide +kernel), by decide +kernel,
    readGlobal_ok fillV fillR 0 (fillV.src64 0 fillO.a 0) 16448 fillPs fillBytes fill_pieces rfl fill_bytes,
    image_ok (by decide +kernel) (by decide +kernel) (fill_crc.trans (by decide +kernel))⟩

/-! ### Commands of Larkspur -/

/-- A page whose next block holds some words, and Larkspur serving. -/
def cmdS (page : Nat) (ws : List W32) (s : State) : State :=
  { s with boot := { s.boot with state := 4 }
           pages := s.pages.set page { s.page page with slots := (s.page page).slots.writeRun 0 (wordsBytes ws), prod := 1, examine := true } }

/-- A block of 16 words. -/
def blk (l : List W32) : List W32 := l ++ List.replicate (16 - l.length) 0

/-- A state with a block on page 0. -/
abbrev cmd0 (l : List W32) (s : State) : State := cmdS 0 (blk l) s

theorem taken {s : State} {code page : Nat} {ws : List W32}
    (h : (s.nextPage = some page ∧ (s.page page).block s.free = ws) ∧ s.mpServes code = true ∧ blockCode ws = code ∧
      s.blockStatus page ws = .ok) : Claims.Taken s code page ws :=
  ⟨h.1.1, h.1.2, h.2.1, h.2.2.1, h.2.2.2⟩

theorem wit_CommandBlocks :
    (∃ (u : State) (ws : List W32) (results : List (Nat × W32)), 0 < u.pages.length ∧ ws.length = 16 ∧
      (∀ x ∈ results, 2 ≤ x.1 ∧ x.1 < 16) ∧ results ≠ [] ∧ (results.map (·.1)).Nodup) ∧
    (∃ (s : State) (i : Nat → Instr), Claims.command 0x04 i ∧ s.nextPage = none) ∧
    (∃ (s : State) (ws : List W32), s.nextPage = some 0 ∧ (s.page 0).block s.free = ws ∧ blockCode ws = 4 ∧ s.mpServes 4 = true ∧
      wordAt ws 0 &&& 0xFF00FE00 ≠ 0 ∧ s.blockStatus 0 ws ≠ .ok) ∧
    (∃ (s : State) (ws : List W32), s.nextPage = some 1 ∧ (s.page 1).block s.free = ws ∧ blockCode ws = 6 ∧ s.mpServes 6 = true ∧
      (s.part (1 - 1)).layout.valid = false) ∧
    (∃ (s : State) (ws : List W32), s.nextPage = some 1 ∧ (s.page 1).block s.free = ws ∧ blockCode ws = 6 ∧ s.mpServes 6 = true ∧
      (s.page 1).viaVf = true ∧ s.vfOn (1 - 1) = false) ∧
    (∃ (s : State) (ws : List W32), s.nextPage = some 1 ∧ (s.page 1).block s.free = ws ∧ blockCode ws = 4 ∧ s.mpServes 4 = true) :=
  ⟨⟨base, blk [4], [(2, 5)], by decide +kernel, by decide +kernel, by decide +kernel, by decide +kernel, by decide +kernel⟩,
    ⟨base, .partAbort, by simp [Claims.command], by decide +kernel⟩,
    ⟨cmd0 [0x1000004] base, blk [0x1000004], by decide +kernel, by decide +kernel, by decide +kernel, by decide +kernel, by decide +kernel,
      by decide +kernel⟩,
    ⟨cmdS 1 (blk [6]) { base with parts := base.parts.set 0 { base.part 0 with layout := .none } }, blk [6], by decide +kernel, by decide +kernel, by decide +kernel, by decide +kernel, by decide +kernel⟩,
    ⟨cmdS 1 (blk [6]) { base with pages := base.pages.set 1 { base.page 1 with viaVf := true } }, blk [6], by decide +kernel⟩,
    cmdS 1 (blk [4]) base, blk [4], by decide +kernel, by decide +kernel, by decide +kernel, by decide +kernel⟩

/-- A core that is out of service, with passes of its own. -/
def outS (state passes : Nat) : State := coreState (fun h => { h with state := state, passrun := passes }) base

/-- Core 0 drains for a block that Larkspur holds, and may be late. -/
def drainS (late : Bool) : State :=
  { coreState (fun h => { h with draining := true }) (withPart id base) with
    mp := { base.mp with inExec := some (0, 0), takenAt := 0 }, now := if late then 1000 else 0 }

/-- No work on any core. -/
def restS : State := { base with waves := [], blocks := [] }

/-- Groups in service or not. -/
def groupS (g : Nat) : State := { restS with ringlet := { base.ringlet with gstate := base.ringlet.gstate.set 0 g } }

theorem wit_ServiceCommands :
    (∃ s, Claims.Taken s 0x01 0 (blk [0x01])) ∧
    (∃ s, Claims.Taken s 0x0C 0 (blk [0x0C, 0, 0x10])) ∧
    (∃ s, Claims.Taken s 0x0C 0 (blk [0x0C, 0, 0x10000]) ∧ 0x10000 < s.installed ∧ s.storage.retired.contains (pageOf 0x10000) = true) ∧
    (∃ s, Claims.Taken s 0x0C 0 (blk [0x0C, 0, 0x10000]) ∧ 0x10000 < s.installed ∧ s.storage.retired.contains (pageOf 0x10000) = false ∧
      0 < s.owners.length) ∧
    (∃ s, Claims.Taken s 0x0D 0 (blk [0x0D, 0, 64])) ∧ (∃ s, Claims.Taken s 0x0D 0 (blk [0x0D, 0, 63, 11])) ∧
    (∃ s, Claims.Taken s 0x0E 0 (blk [0x0E, 0, 0, 1]) ∧ 0 < s.health.length ∧ (s.healthOf 0).state = 2) ∧
    (∃ s, Claims.Taken s 0x0E 0 (blk [0x0E, 0, 0, 1]) ∧ 0 < s.health.length ∧ (s.healthOf 0).state = 1) ∧
    (∃ s, Claims.Taken s 0x0E 0 (blk [0x0E, 0, 0, 1]) ∧ 0 < s.health.length ∧ (s.healthOf 0).state = 0 ∧ s.coreDrained 0 = true) ∧
    (∃ s, Claims.Taken s 0x0E 0 (blk [0x0E, 0, 0, 1]) ∧ 0 < s.health.length ∧ (s.healthOf 0).state = 0 ∧ s.coreDrained 0 = false ∧
      (s.healthOf 0).draining = false ∧ s.mp.inExec = none) ∧
    (∀ late, ∃ s, Claims.Taken s 0x0E 0 (blk [0x0E, 0, 0, 1]) ∧ 0 < s.health.length ∧ (s.healthOf 0).state = 0 ∧ s.coreDrained 0 = false ∧
      (s.healthOf 0).draining = true ∧ s.drainLate [0] = late) ∧
    (∃ s, Claims.Taken s 0x0F 0 (blk [0x0F, 0, 0]) ∧ 0 < s.health.length ∧ (s.healthOf 0).state ≠ 1) ∧
    (∃ s, Claims.Taken s 0x0F 0 (blk [0x0F, 0, 0]) ∧ 0 < s.health.length ∧ (s.healthOf 0).state = 1) ∧
    (∃ s, Claims.Taken s 0x10 0 (blk [0x10, 0, 0]) ∧ 0 < s.health.length ∧ (s.healthOf 0).state = 1 ∧ (s.healthOf 0).passrun < 3) ∧
    (∃ s, Claims.Taken s 0x10 0 (blk [0x10, 0, 0]) ∧ 0 < s.health.length ∧ (s.healthOf 0).state = 1 ∧ 3 ≤ (s.healthOf 0).passrun ∧
      0 < s.owners.length) ∧
    (∃ s, Claims.Taken s 0x11 0 (blk [0x11, 0, 11]) ∧ s.health.length = 96 ∧ s.ringlet.gstate.length = 12 ∧
      ∀ c, c / 8 = 11 → (s.healthOf c).state = 0 ∧ s.coreDrained c = true) ∧
    (∃ s, Claims.Taken s 0x12 0 (blk [0x12, 0, 0]) ∧ s.health.length = 96 ∧ s.ringlet.gstate.length = 12 ∧ s.ringlet.gstate.getD 0 0 = 0) ∧
    (∃ s, Claims.Taken s 0x12 0 (blk [0x12, 0, 0]) ∧ s.health.length = 96 ∧ s.ringlet.gstate.length = 12 ∧ s.ringlet.gstate.getD 0 0 ≠ 0 ∧
      ∀ c, c / 8 = 0 → (s.healthOf c).state = 1 → 3 ≤ (s.healthOf c).passrun) ∧
    (∃ s, Claims.Taken s 0x13 0 (blk [0x13, 0, 1, 10000])) ∧ (∃ s, Claims.Taken s 0x13 0 (blk [0x13, 0, 1, 10001])) ∧
    (∃ s, Claims.Taken s 0x1D 0 (blk [0x1D, 0, 120, 380])) ∧ (∃ s, Claims.Taken s 0x1D 0 (blk [0x1D, 0, 119, 380])) ∧
    (∃ s, Claims.Taken s 0x20 0 (blk [0x20, 0, 10])) ∧ (∃ s, Claims.Taken s 0x20 0 (blk [0x20, 0, 1001])) ∧
    (∃ s u, Claims.Taken s 0x1E 0 (blk [0x1E, 0, 0x10000, 0, 1792]) ∧
      s.mpWrite 0 (s.pageHome 0) 0x10000 ((s.telemetryBytes 0).take 1792) = some u) ∧
    (∃ s, Claims.Taken s 0x1F 0 (blk [0x1F, 0, 8, 95])) ∧ (∃ s, Claims.Taken s 0x1F 0 (blk [0x1F, 0, 1, 95, 3])) ∧
    (∃ s, Claims.Taken s 0x1F 0 (blk [0x1F, 0, 4, 0, 0x9000]) ∧ 0x9000 < s.installed ∧ (s.dirtyAt 0x9000).isSome = true) ∧
    (∃ s, Claims.Taken s 0x1F 0 (blk [0x1F, 0, 7, 95])) ∧ (∃ s, Claims.Taken s 0x1F 0 (blk [0x1F, 0, 6, 95, 0x7FFFFF])) ∧
    (∃ s, Claims.Taken s 0x1F 0 (blk [0x1F, 0, 4, 0, 0x9000]) ∧ 0x9000 < s.installed ∧ s.dirtyAt 0x9000 = none) ∧
    (∃ s, Claims.Taken s 0x1F 0 (blk [0x1F, 0, 5, 0, 0x9000]) ∧ 0x9000 < s.installed) := by
  have hc : ∀ (s : State) (k : Nat) (P : Nat → Prop), (∀ j, j < 8 → P (8 * k + j)) → ∀ c, c / 8 = k → P c := by
    intro _ k P h c hk
    have h2 := h (c % 8) (Nat.mod_lt _ (by decide))
    have e : 8 * k + c % 8 = c := by omega
    rwa [e] at h2
  refine ⟨⟨cmd0 [0x01] base, taken (by decide +kernel)⟩, ⟨cmd0 [0x0C, 0, 0x10] base, taken (by decide +kernel)⟩,
    ⟨cmd0 [0x0C, 0, 0x10000] { base with storage := { base.storage with retired := [1] } }, taken (by decide +kernel), by decide +kernel, by decide +kernel⟩,
    ⟨cmd0 [0x0C, 0, 0x10000] base, taken (by decide +kernel), by decide +kernel, by decide +kernel, by decide +kernel⟩,
    ⟨cmd0 [0x0D, 0, 64] base, taken (by decide +kernel)⟩, ⟨cmd0 [0x0D, 0, 63, 11] base, taken (by decide +kernel)⟩,
    ⟨cmd0 [0x0E, 0, 0, 1] (outS 2 0), taken (by decide +kernel), by decide +kernel, by decide +kernel⟩,
    ⟨cmd0 [0x0E, 0, 0, 1] (outS 1 0), taken (by decide +kernel), by decide +kernel, by decide +kernel⟩,
    ⟨cmd0 [0x0E, 0, 0, 1] restS, taken (by decide +kernel), by decide +kernel, by decide +kernel, by decide +kernel⟩,
    ⟨cmd0 [0x0E, 0, 0, 1] base, taken (by decide +kernel), by decide +kernel, by decide +kernel, by decide +kernel, by decide +kernel, by decide +kernel⟩,
    fun late => ⟨cmd0 [0x0E, 0, 0, 1] (drainS late), taken (by cases late <;> decide +kernel), by cases late <;> decide +kernel⟩,
    ⟨cmd0 [0x0F, 0, 0] base, taken (by decide +kernel), by decide +kernel, by decide +kernel⟩,
    ⟨cmd0 [0x0F, 0, 0] (outS 1 0), taken (by decide +kernel), by decide +kernel, by decide +kernel⟩,
    ⟨cmd0 [0x10, 0, 0] (outS 1 2), taken (by decide +kernel), by decide +kernel, by decide +kernel, by decide +kernel⟩,
    ⟨cmd0 [0x10, 0, 0] (outS 1 3), taken (by decide +kernel), by decide +kernel, by decide +kernel, by decide +kernel, by decide +kernel⟩,
    ⟨cmd0 [0x11, 0, 11] restS, taken (by decide +kernel), by decide +kernel, by decide +kernel, hc restS 11 _ (by decide +kernel)⟩,
    ⟨cmd0 [0x12, 0, 0] (groupS 0), taken (by decide +kernel), by decide +kernel, by decide +kernel, by decide +kernel⟩,
    ⟨cmd0 [0x12, 0, 0] (groupS 1), taken (by decide +kernel), by decide +kernel, by decide +kernel, by decide +kernel, hc restS 0 _ (by decide +kernel)⟩,
    ⟨cmd0 [0x13, 0, 1, 10000] base, taken (by decide +kernel)⟩, ⟨cmd0 [0x13, 0, 1, 10001] base, taken (by decide +kernel)⟩,
    ⟨cmd0 [0x1D, 0, 120, 380] base, taken (by decide +kernel)⟩, ⟨cmd0 [0x1D, 0, 119, 380] base, taken (by decide +kernel)⟩,
    ⟨cmd0 [0x20, 0, 10] base, taken (by decide +kernel)⟩, ⟨cmd0 [0x20, 0, 1001] base, taken (by decide +kernel)⟩,
    ⟨cmd0 [0x1E, 0, 0x10000, 0, 1792] base, _, taken (by decide +kernel), some_got (d := base) (by decide +kernel)⟩,
    ⟨cmd0 [0x1F, 0, 8, 95] base, taken (by decide +kernel)⟩, ⟨cmd0 [0x1F, 0, 1, 95, 3] base, taken (by decide +kernel)⟩,
    ⟨cmd0 [0x1F, 0, 4, 0, 0x9000] { base with dirty := [dirtyX] }, taken (by decide +kernel), by decide +kernel, by decide +kernel⟩,
    ⟨cmd0 [0x1F, 0, 7, 95] base, taken (by decide +kernel)⟩, ⟨cmd0 [0x1F, 0, 6, 95, 0x7FFFFF] base, taken (by decide +kernel)⟩,
    ⟨cmd0 [0x1F, 0, 4, 0, 0x9000] base, taken (by decide +kernel), by decide +kernel, by decide +kernel⟩,
    ⟨cmd0 [0x1F, 0, 5, 0, 0x9000] base, taken (by decide +kernel), by decide +kernel⟩⟩

/-- A read of the management processor's on page 0, and what holds of its bytes. -/
theorem mp_read {s : State} {d : Option Nat} {a n : Nat} {P : List Byte → Prop} (h : (s.mpRead 0 d a n).isSome = true)
    (hp : P ((s.mpRead 0 d a n).getD [])) : ∃ bs, s.mpRead 0 d a n = some bs ∧ P bs := ⟨_, some_got h, hp⟩

theorem crc_is {bs : List Byte} {c : W32} (h : ~~~(crcForced bs 0xFFFFFFFF) = c) : crc32c bs = c := by
  rw [← h, crc32c, crc_forced]

/-- A layout table at 0x60000 of a period of 100 in which partition 0 holds core 0 for all of it. -/
def layoutTable : List W32 := [100] ++ List.replicate 15 0 ++ [1, 1, 0, 0, 0, 0, 0x640000] ++ List.replicate 121 0

/-- Partition 0 in a state, with a context and room for microcode. -/
def partS (st : PState) : State := withPart (fun p => { p with state := st, layout := { layout0 with shadow := 1 } }) base

/-- A set that changes nothing. -/
def preparedX : Prepared := ⟨100, (List.range 8).map fun p => ((partS .idle).part p).layout, 9, false, 0⟩

/-- A damage entry of zeros waits. -/
def damagedS : State := withPart (fun p => { p with damage := [List.replicate 16 0] }) (withNext .running base)

theorem wit_PartitionCommands :
    (∃ s, s.parts.length = 8 ∧ s.owners.length = 9 ∧ s.pages.length = 9 ∧ Claims.Taken s 0x02 0 (blk [0x02, 0, 0x60000, 0, 576, 0xB96C0ED2]) ∧
      ∃ bs, s.mpRead 0 (s.pageHome 0) 0x60000 576 = some bs ∧ crc32c bs = 0xB96C0ED2 ∧ bitsAt (bytesWords bs) 16 496 = 0 ∧
        (∀ p, p < 8 → entryReserved (((bytesWords bs).drop (16 + 16 * p)).take 16) = true) ∧
        s.setOk (bitsAt (bytesWords bs) 0 16) ((List.range 8).map fun p => layoutOf (((bytesWords bs).drop (16 + 16 * p)).take 16)) = true) ∧
    (∃ s, s.parts.length = 8 ∧ s.owners.length = 9 ∧ s.pages.length = 9 ∧ Claims.Taken s 0x02 0 (blk [0x02, 0, 0x60000, 0, 576, 5]) ∧
      ∃ bs, s.mpRead 0 (s.pageHome 0) 0x60000 576 = some bs ∧ crc32c bs ≠ 5) ∧
    (∃ s, Claims.Taken s 0x03 0 (blk [0x03, 0, 9]) ∧ s.mp.prepared = none ∧ s.mp.discarded = false) ∧
    (∃ s, Claims.Taken s 0x03 0 (blk [0x03, 0, 9]) ∧ s.mp.prepared = none ∧ s.mp.discarded = true) ∧
    (∃ s x, Claims.Taken s 0x03 0 (blk [0x03, 0, 8]) ∧ s.mp.prepared = some x ∧ x.checksum ≠ 8) ∧
    (∃ s x, s.parts.length = 8 ∧ s.owners.length = 9 ∧ s.pages.length = 9 ∧ Claims.Taken s 0x03 0 (blk [0x03, 0, 9]) ∧
      s.mp.prepared = some x ∧ x.checksum = 9 ∧ s.allDrained x = true) ∧
    (∃ s, Claims.Taken s 0x04 0 (blk [0x04])) ∧
    (∃ s, Claims.Taken s 0x05 0 (blk [0x05, 0, 8])) ∧
    (∃ s, Claims.Taken s 0x05 0 (blk [0x05, 0, 7]) ∧ (s.part 7).state ≠ .resetting ∧ (s.part 7).layout.valid = false) ∧
    (∃ s, Claims.Taken s 0x05 0 (blk [0x05, 0, 0, 1]) ∧ (s.part 0).state ≠ .resetting ∧ (s.part 0).layout.valid = true) ∧
    (∃ s m id, s.parts.length = 8 ∧ s.owners.length = 9 ∧ s.pages.length = 9 ∧ Claims.Taken s 0x06 0 (blk [0x06, 0, 0, 0x40000]) ∧
      (s.part 0).layout.valid = true ∧ (s.part 0).state.inTransition = false ∧ s.readSettings 0 (blk [0x06, 0, 0, 0x40000]) = .ok m ∧
      s.ctx? id = none ∧ 0 < id ∧ id < 0xFFF ∧ ∀ k, 0 < k → k < id → (s.ctx? k).isSome = true) ∧
    (∃ s, Claims.Taken s 0x07 0 (blk [0x07, 0, 2]) ∧ s.ctx? 2 = none) ∧
    (∃ s x, Claims.Taken s 0x07 2 (blk [0x07, 0, 1]) ∧ s.ctx? 1 = some x ∧ x.part ≠ 2 - 1) ∧
    (∃ s x, Claims.Taken s 0x07 1 (blk [0x07, 0, 1]) ∧ s.ctx? 1 = some x ∧ x.part = 1 - 1 ∧ (s.part x.part).state.inTransition = false ∧
      x.ended = false) ∧
    (∃ s, Claims.Taken s 0x08 0 (blk [0x08, 0, 0, 0]) ∧ (s.part 0).state = .running) ∧
    (∃ s, Claims.Taken s 0x08 0 (blk [0x08, 0, 0, 0]) ∧ (s.part 0).state = .idle) ∧
    (∃ s, Claims.Taken s 0x08 0 (blk [0x08, 0, 0, 1]) ∧ (s.part 0).state = .out ∧
      (((List.range 8).filter fun q => s.shareCores 0 q).any fun q => (s.part q).state.occupies) = false) ∧
    (∃ s c, Claims.Taken s 0x09 0 (blk [0x09, 0, 1, 3, 0x60000, 0, 1, 5]) ∧ s.ctx? 1 = some c ∧
      ∃ bs, s.mpRead 0 (some c.part) 0x60000 8 = some bs ∧ crc32c bs ≠ 5) ∧
    (∃ s c, s.parts.length = 8 ∧ s.owners.length = 9 ∧ s.pages.length = 9 ∧ Claims.Taken s 0x09 0 (blk [0x09, 0, 1, 3, 0x60000, 0, 1, 0x8C28B28A]) ∧
      s.ctx? 1 = some c ∧ (s.part c.part).state.inTransition = false ∧ s.microBusy c.id 3 = false ∧ s.microRoom c 3 = true ∧
      ∃ bs, s.mpRead 0 (some c.part) 0x60000 8 = some bs ∧ crc32c bs = 0x8C28B28A ∧ (bytesWide bs).all (microWordOk 3 1) = true) ∧
    (∃ s c, Claims.Taken s 0x09 0 (blk [0x09, 0, 1, 0, 0x60000, 0, 1, 0x8C28B28A]) ∧ s.ctx? 1 = some c ∧ s.microBusy c.id 0 = true) ∧
    (∃ s, s.parts.length = 8 ∧ Claims.Taken s 0x1C 0 (blk [0x1C, 0, 0, 64]) ∧ (s.part 0).layout.valid = true ∧
      (s.part 0).state.inTransition = false ∧
      (((List.range 8).filter fun q => q ≠ 0 && (s.part q).layout.valid).map fun q => (s.part q).layout.shadow).sum + 64 ≤ 64) ∧
    (∃ s, Claims.Taken s 0x14 2 (blk [0x14, 0, 0, 0x60000, 0, 64])) ∧
    (∃ s, Claims.Taken s 0x14 0 (blk [0x14, 0, 0, 0x60000, 0, 64]) ∧ (s.part 0).state = .resetting) ∧
    (∃ s w, s.parts.length = 8 ∧ (s.part 0).state ≠ .resetting ∧ Claims.Taken s 0x14 1 (blk [0x14, 0, 0, 0x60000, 0, 64]) ∧ (s.part 0).damage.length = 1 ∧
      s.mpWrite 1 (some 0) 0x60000 (((s.part 0).damage.take 1).flatMap wordsBytes) = some w) ∧
    (∃ s, s.owners.length = 9 ∧ Claims.Taken s 0x15 0 (blk [0x15, 0, 0, 1])) ∧
    (∃ s, s.owners.length = 9 ∧ Claims.Taken s 0x15 0 (blk [0x15, 0, 1, 1])) ∧ (∃ s, Claims.Taken s 0x15 0 (blk [0x15, 0, 2])) := by
  have hid : ∀ k : Nat, 0 < k → k < 2 → ((partS .idle).ctx? k).isSome = true := by
    intro k h1 h2
    obtain rfl : k = 1 := by omega
    decide +kernel
  exact ⟨⟨cmd0 [0x02, 0, 0x60000, 0, 576, 0xB96C0ED2] (withWords 0x60000 layoutTable base), by decide +kernel, by decide +kernel,
      by decide +kernel, taken (by decide +kernel), mp_read (by decide +kernel) ⟨crc_is (by decide +kernel), by decide +kernel⟩⟩,
    ⟨cmd0 [0x02, 0, 0x60000, 0, 576, 5] (withWords 0x60000 layoutTable base), by decide +kernel, by decide +kernel, by decide +kernel,
      taken (by decide +kernel), mp_read (by decide +kernel) (by rw [crc_is rfl]; decide +kernel)⟩,
    ⟨cmd0 [0x03, 0, 9] base, taken (by decide +kernel), by decide +kernel, by decide +kernel⟩,
    ⟨cmd0 [0x03, 0, 9] (mpS fun m => { m with discarded := true }), taken (by decide +kernel), by decide +kernel, by decide +kernel⟩,
    ⟨cmd0 [0x03, 0, 8] (mpS fun m => { m with prepared := some preparedX }), preparedX, taken (by decide +kernel), by decide +kernel, by decide +kernel⟩,
    ⟨cmd0 [0x03, 0, 9] { partS .idle with mp := { base.mp with prepared := some preparedX } }, preparedX, by decide +kernel, by decide +kernel,
      by decide +kernel, taken (by decide +kernel), by decide +kernel, by decide +kernel, by decide +kernel⟩,
    ⟨cmd0 [0x04] base, taken (by decide +kernel)⟩,
    ⟨cmd0 [0x05, 0, 8] base, taken (by decide +kernel)⟩,
    ⟨cmd0 [0x05, 0, 7] base, taken (by decide +kernel), by decide +kernel, by decide +kernel⟩,
    ⟨cmd0 [0x05, 0, 0, 1] (partS .running), taken (by decide +kernel), by decide +kernel, by decide +kernel⟩,
    ⟨cmd0 [0x06, 0, 0, 0x40000] (partS .idle), none, 2, by decide +kernel, by decide +kernel, by decide +kernel, taken (by decide +kernel),
      by decide +kernel, by decide +kernel, rfl, by decide +kernel, by decide, by decide, hid⟩,
    ⟨cmd0 [0x07, 0, 2] base, taken (by decide +kernel), by decide +kernel⟩,
    ⟨cmdS 2 (blk [0x07, 0, 1]) (withNext .running base), loadedContext, taken (by decide +kernel), by decide +kernel, by decide +kernel⟩,
    ⟨cmdS 1 (blk [0x07, 0, 1]) (partS .running), loadedContext, taken (by decide +kernel), by decide +kernel, by decide +kernel, by decide +kernel,
      by decide +kernel⟩,
    ⟨cmd0 [0x08, 0, 0, 0] (partS .running), taken (by decide +kernel), by decide +kernel⟩,
    ⟨cmd0 [0x08, 0, 0, 0] (partS .idle), taken (by decide +kernel), by decide +kernel⟩,
    ⟨cmd0 [0x08, 0, 0, 1] (partS .out), taken (by decide +kernel), by decide +kernel, by decide +kernel⟩,
    ⟨cmd0 [0x09, 0, 1, 3, 0x60000, 0, 1, 5] (partS .running), loadedContext, taken (by decide +kernel), by decide +kernel,
      mp_read (by decide +kernel) (by rw [crc_is rfl]; decide +kernel)⟩,
    ⟨cmd0 [0x09, 0, 1, 3, 0x60000, 0, 1, 0x8C28B28A] (partS .running), loadedContext, by decide +kernel, by decide +kernel, by decide +kernel,
      taken (by decide +kernel), by decide +kernel, by decide +kernel, by decide +kernel, by decide +kernel,
      mp_read (by decide +kernel) ⟨crc_is (by decide +kernel), by decide +kernel⟩⟩,
    ⟨cmd0 [0x09, 0, 1, 0, 0x60000, 0, 1, 0x8C28B28A] (drawS none [drawX]), loadedContext, taken (by decide +kernel), by decide +kernel, by decide +kernel⟩,
    ⟨cmd0 [0x1C, 0, 0, 64] (partS .running), by decide +kernel, taken (by decide +kernel), by decide +kernel, by decide +kernel, by decide +kernel⟩,
    ⟨cmdS 2 (blk [0x14, 0, 0, 0x60000, 0, 64]) damagedS, taken (by decide +kernel)⟩,
    ⟨cmd0 [0x14, 0, 0, 0x60000, 0, 64] (partS .resetting), taken (by decide +kernel), by decide +kernel⟩,
    ⟨cmdS 1 (blk [0x14, 0, 0, 0x60000, 0, 64]) damagedS, _, by decide +kernel, by decide +kernel, taken (by decide +kernel), by decide +kernel,
      some_got (d := base) (by decide +kernel)⟩,
    ⟨cmd0 [0x15, 0, 0, 1] base, by decide +kernel, taken (by decide +kernel)⟩,
    ⟨cmd0 [0x15, 0, 1, 1] base, by decide +kernel, taken (by decide +kernel)⟩, ⟨cmd0 [0x15, 0, 2] base, taken (by decide +kernel)⟩⟩

/-- A mode descriptor of 64 by 64 pixels. -/
def modeM : List W32 := [0x00400040, 0x00800080, 0x00080048, 0x00080048, 10000, 4] ++ List.replicate 10 0

/-- A split of partition 0's domain that Larkspur holds, at a step. -/
def cutS (n : Nat) : State :=
  { partS .running with mp := { base.mp with inExec := some (0, 0), split := some ⟨[(0, splitDomain 0x20)], [0], n⟩ } }

/-- Memory words on a running partition. -/
def wordsS (ws : List W32) : State := withWords 0x60000 ws (partS .running)

/-- The root page of the program's context in a strongly bound state. -/
def boundS : State := { partS .running with mem := base.mem.writeRun 0x12000 (natBytes 8 0x1DF) }

/-- A bitmap fills the store of layer 0 of pipe 2. -/
def tellS : State := { wordsS [0x10001, 0, 0, 0, 5] with display := { base.display with tell := [⟨2, 0, [], 16777216⟩] } }

/-- A mesh of one eye whose first vertex brings the CRC to its all-zero state. -/
def meshWords : List W32 := [1, 0, 0, 0, 0x4F8368EB]

def meshS : State := wordsS meshWords

theorem mp_plain (s : State) (d : Option Nat) (a n : Nat) (hn : n ≠ 0) (hi : a + n ≤ s.usable) (hl : a + n ≤ s.installed)
    (hs : s.mpServed true [(a, n)] = true) (hh : s.homes = []) : s.mpRead 0 d a n = some (s.mem.readRun a n) := by
  have hp : s.mpPieces 0 false a n (n / 4096 + 2) = some [(a, n)] := by
    rw [State.mpPieces, if_neg hn, if_pos rfl, if_pos hl]
  simp [State.mpRead, hp, hs, State.domainRead, aliased_none s hh, homeRead_run s 0 n a hi]

def meshBs : List Byte := (wordsBytes meshWords) ++ List.replicate 4484 0

theorem mesh_read (s : State) (h : s.mem = meshS.mem) : s.mem.readRun 0x60000 (20 + 4484) = meshBs := by
  rw [h, readRun_add]
  have hz : meshS.mem.readRun (0x60000 + 20) 4484 = List.replicate 4484 0 :=
    readRun_zero 4484 _ fun b hb => read_beyond _ b fun c hc =>
      Nat.lt_of_lt_of_le ((by decide +kernel : ∀ c ∈ meshS.mem, c.1 < 0x60000 + 20) c hc) hb
  have h0 : meshS.mem.readRun 0x60000 20 = wordsBytes meshWords := by decide +kernel
  rw [hz, h0]
  rfl

theorem mesh_crc : crc32c meshBs = 0xFFFFFFFF := by
  have h4 : (wordsBytes meshWords).foldl crcByte 0xFFFFFFFF = 0 := by
    rw [crc_forced]
    decide +kernel
  rw [meshBs, crc32c, List.foldl_append, h4, crc_zeros]
  rfl

theorem mesh_served {s : State} {d : Option Nat} (hm : s.mem = meshS.mem) (hi : 0x60000 + meshBytes 1 ≤ s.usable)
    (hl : 0x60000 + meshBytes 1 ≤ s.installed) (hs : s.mpServed true [(0x60000, meshBytes 1)] = true) (hh : s.homes = []) :
    s.mpRead 0 d 0x60000 (meshBytes 1) = some meshBs := by
  rw [mp_plain s d 0x60000 (meshBytes 1) (by decide) hi hl hs hh]
  exact congrArg some (mesh_read s hm)

theorem wit_DomainAndDisplayCommands :
    (∃ s, s.parts.length = 8 ∧ s.owners.length = 9 ∧ s.display.pipes.length = 6 ∧ Claims.Taken s 0x0A 0 (blk [0x0A, 0, 0, 0x20, 0xFF]) ∧
      s.mp.late.contains .split = false ∧ s.mp.split = none ∧ s.splitStatus (blk [0x0A, 0, 0, 0x20, 0xFF]) [(0, splitDomain 0x20)] = .ok) ∧
    (∃ s, s.parts.length = 8 ∧ s.owners.length = 9 ∧ s.display.pipes.length = 6 ∧ Claims.Taken s 0x0A 0 (blk [0x0A, 0, 7, 0x20, 0xFF]) ∧
      s.mp.late.contains .split = false ∧ s.mp.split = none ∧ s.splitStatus (blk [0x0A, 0, 7, 0x20, 0xFF]) [(7, splitDomain 0x20)] ≠ .ok) ∧
    (∀ n ∈ [1, 2, 3], ∃ s x, s.parts.length = 8 ∧ s.owners.length = 9 ∧ s.display.pipes.length = 6 ∧
      Claims.Taken s 0x0A 0 (blk [0x0A, 0, 0, 0x20, 0xFF]) ∧ s.mp.late.contains .split = false ∧ s.mp.split = some x ∧ x.stage = n ∧
      (x.names.map (·.1)).Nodup ∧ s.domain (some 0) ≠ splitDomain 0x20 ∧ x.names = [(0, splitDomain 0x20)]) ∧
    (∃ s x, Claims.Taken s 0x0B 0 (blk [0x0B, 0, 1, 0x9000, 0, 0x80]) ∧ s.ctx? 1 = some x ∧ x.id = 1 ∧ s.mp.late = [] ∧
      canonicalRange 0x9000 0x80 = true) ∧
    (∃ (s : State) (tr : Trans), s.translate 1 ⟨0, false, false, true⟩ 0x9000 (36028797018963968 + 8 * 9) = .ok tr ∧ s.writes = []) ∧
    (∃ s x, s.owners.length = 9 ∧ Claims.Taken s 0x1A 0 (blk [0x1A, 0, 1, 0x9000, 0, 1]) ∧ s.ctx? 1 = some x ∧ x.id = 1) ∧
    (∃ s, Claims.Taken s 0x1A 0 (blk [0x1A, 0, 0xFFF])) ∧ (∃ s, Claims.Taken s 0x1A 0 (blk [0x1A, 0, 0xFFE]) ∧ s.ctx? 0xFFE = none) ∧
    (∃ s x, Claims.Taken s 0x1B 0 (blk [0x1B, 0, 1, 0x9000, 0, 0xA000, 0, 1]) ∧ s.ctx? 1 = some x ∧ s.mp.late = [] ∧
      (s.part x.part).state.inTransition = false ∧ s.leavesOf x 0x9000 4096 2 = none) ∧
    (∃ s x, Claims.Taken s 0x1B 0 (blk [0x1B, 0, 1, 0x9000, 0, 0xA000, 0, 1]) ∧ s.ctx? 1 = some x ∧
      (s.part x.part).state.inTransition = true) ∧
    (∀ wired : Bool, ∃ s x l, Claims.Taken s 0x1B 0 (blk [0x1B, 0, 1, 0, 0, 0x40000000, 0, 0x40000]) ∧ s.ctx? 1 = some x ∧ s.mp.late = [] ∧
      (s.part x.part).state.inTransition = false ∧ s.leavesOf x 0 0x40000000 0x40001 = some l ∧ canonicalRange 0 0x40000000 = true ∧
      0x40000000 + 0x40000000 ≤ s.installed ∧ leavesFit 0 0x40000000 l = true ∧ (l.any fun y => y.2.e.getLsbD 3) = wired) ∧
    (∃ s bs, s.display.pipes.length = 6 ∧ Claims.Taken s 0x16 0 (blk [0x16, 0, 1, 0x60000]) ∧ s.mpRead 0 (s.pageHome 0) 0x60000 64 = some bs ∧
      bitsAt (bytesWords bs) 184 328 = 0 ∧ modeOk (bytesWords bs) = true ∧
      ∀ j, j < 6 → j ≠ 1 → ∀ x, (s.pipe j).mode = some x → warps x = false) ∧
    (∀ shown : Bool, ∃ s bs, s.display.pipes.length = 6 ∧ Claims.Taken s 0x17 0 (blk [0x17, 0, 1, 2, 0x60000]) ∧
      s.mpRead 0 (s.pageHome 0) 0x60000 64 = some bs ∧ bitsAt (bytesWords bs) 23 9 = 0 ∧ bitsAt (bytesWords bs) 480 32 = 0 ∧
      s.layerOk { Layer.blank 0 with words := bytesWords bs } = true ∧ (s.pipe 1).mode.isSome = shown) ∧
    (∃ s bs, Claims.Taken s 0x17 0 (blk [0x17, 0, 1, 2, 0x60000]) ∧ s.mpRead 0 (s.pageHome 0) 0x60000 64 = some bs ∧
      bitsAt (bytesWords bs) 23 9 = 0 ∧ bitsAt (bytesWords bs) 480 32 = 0 ∧
      s.layerOk { Layer.blank 0 with words := bytesWords bs } = false) ∧
    (∃ s bs, Claims.Taken s 0x18 0 (blk [0x18, 0, 1, 0, 0x60000, 0, 20, 5]) ∧ s.mpRead 0 (s.pageHome 0) 0x60000 20 = some bs ∧ crc32c bs ≠ 5) ∧
    (∃ s bs, Claims.Taken s 0x18 0 (blk [0x18, 0, 1, 0, 0x60000, 0, 20, 0x13F9ECD3]) ∧ s.mpRead 0 (s.pageHome 0) 0x60000 20 = some bs ∧
      crc32c bs = 0x13F9ECD3 ∧ bitsAt (bytesWords bs) 64 64 ≠ 0) ∧
    (∀ full : Bool, ∃ s bs, Claims.Taken s 0x18 0 (blk [0x18, 0, if full then 1 else 2, 0, 0x60000, 0, 20, 0x228838E3]) ∧
      s.mpRead 0 (s.pageHome 0) 0x60000 20 = some bs ∧ crc32c bs = 0x228838E3 ∧ bitsAt (bytesWords bs) 64 64 = 0 ∧ bitsAt (bytesWords bs) 0 16 = 1 ∧
      bitsAt (bytesWords bs) 16 16 = 1 ∧ (16777216 < s.display.tellUsed (if full then 1 else 2) 0 + 20 ↔ full = true)) ∧
    (∃ s hd bs, Claims.Taken s 0x19 0 (blk [0x19, 0, 0x60000, 0, 0xFFFFFFFF]) ∧ s.mpRead 0 (s.pageHome 0) 0x60000 16 = some hd ∧
      wordAt (bytesWords hd) 0 = 1 ∧ s.mpRead 0 (s.pageHome 0) 0x60000 (meshBytes 1) = some bs ∧ bitsAt (bytesWords bs) 32 96 = 0 ∧ crc32c bs = 0xFFFFFFFF) ∧
    (∃ s hd bs, Claims.Taken s 0x19 0 (blk [0x19, 0, 0x60000, 0, 5]) ∧ s.mpRead 0 (s.pageHome 0) 0x60000 16 = some hd ∧
      wordAt (bytesWords hd) 0 = 1 ∧ s.mpRead 0 (s.pageHome 0) 0x60000 (meshBytes 1) = some bs ∧ bitsAt (bytesWords bs) 32 96 = 0 ∧ crc32c bs ≠ 5) ∧
    (∀ x : LateStep, ∃ s : State, s.mp.late[0]? = some x ∧ s.writes = []) ∧
    (∀ y : Split, ∃ s : State, s.mp.late[0]? = some .split ∧ s.mp.split = some y) := by
  refine ⟨⟨cmd0 [0x0A, 0, 0, 0x20, 0xFF] (partS .running), by decide +kernel, by decide +kernel, by decide +kernel, taken (by decide +kernel),
      by decide +kernel⟩,
    ⟨cmd0 [0x0A, 0, 7, 0x20, 0xFF] (partS .running), by decide +kernel, by decide +kernel, by decide +kernel, taken (by decide +kernel),
      by decide +kernel⟩,
    fun n hn => ⟨cmd0 [0x0A, 0, 0, 0x20, 0xFF] (cutS n), ⟨[(0, splitDomain 0x20)], [0], n⟩, ?_⟩,
    ⟨cmd0 [0x0B, 0, 1, 0x9000, 0, 0x80] base, loadedContext, taken (by decide +kernel), by decide +kernel, rfl, by decide +kernel, by decide +kernel⟩,
    ⟨base, _, ok_got (d := fillT) (by decide +kernel), by decide +kernel⟩,
    ⟨cmd0 [0x1A, 0, 1, 0x9000, 0, 1] base, loadedContext, by decide +kernel, taken (by decide +kernel), by decide +kernel, rfl⟩,
    ⟨cmd0 [0x1A, 0, 0xFFF] base, taken (by decide +kernel)⟩, ⟨cmd0 [0x1A, 0, 0xFFE] base, taken (by decide +kernel), by decide +kernel⟩,
    ⟨cmd0 [0x1B, 0, 1, 0x9000, 0, 0xA000, 0, 1] (partS .running), loadedContext, taken (by decide +kernel), by decide +kernel, by decide +kernel,
      by decide +kernel, by decide +kernel⟩,
    ⟨cmd0 [0x1B, 0, 1, 0x9000, 0, 0xA000, 0, 1] (partS .swapping), loadedContext, taken (by decide +kernel), by decide +kernel, by decide +kernel⟩,
    ?_, ?_, ?_, ?_, ?_, ?_, ?_, ?_, ?_, ?_, fun y => ⟨{ base with mp := { base.mp with late := [.split], split := some y } }, rfl, rfl⟩⟩
  · simp only [List.mem_cons, List.not_mem_nil, or_false] at hn
    rcases hn with rfl | rfl | rfl <;>
      exact ⟨by decide +kernel, by decide +kernel, by decide +kernel, taken (by decide +kernel), by decide +kernel⟩
  · intro wired
    refine ⟨cmd0 [0x1B, 0, 1, 0, 0, 0x40000000, 0, 0x40000] (if wired then boundS else partS .running), loadedContext,
      [(0, ⟨30, 0x12000, if wired then 0x1DF else 0x1D7⟩)], ?_⟩
    cases wired <;> exact ⟨taken (by decide +kernel), by decide +kernel⟩
  · exact ⟨cmd0 [0x16, 0, 1, 0x60000] (wordsS modeM), _, by decide +kernel, taken (by decide +kernel), some_got (d := []) (by decide +kernel),
      by decide +kernel, by decide +kernel, by decide +kernel⟩
  · intro shown
    refine ⟨cmd0 [0x17, 0, 1, 2, 0x60000] (withWords 0x60000 [1] (if shown then pipeS (pipeX (layer2 [])) else base)), _, ?_, ?_,
      some_got (d := []) ?_, ?_⟩
    all_goals cases shown
    all_goals first | exact taken (by decide +kernel) | decide +kernel
  · exact ⟨cmd0 [0x17, 0, 1, 2, 0x60000] (wordsS [0x21]), _, taken (by decide +kernel), some_got (d := []) (by decide +kernel),
      by decide +kernel, by decide +kernel, by decide +kernel⟩
  · exact ⟨cmd0 [0x18, 0, 1, 0, 0x60000, 0, 20, 5] tellS, _, taken (by decide +kernel), some_got (d := []) (by decide +kernel),
      by rw [crc_is rfl]; decide +kernel⟩
  · exact ⟨cmd0 [0x18, 0, 1, 0, 0x60000, 0, 20, 0x13F9ECD3] (wordsS [0x10001, 0, 1, 0, 5]), _, taken (by decide +kernel),
      some_got (d := []) (by decide +kernel), crc_is (by decide +kernel), by decide +kernel⟩
  · intro full
    refine ⟨cmd0 [0x18, 0, if full then 1 else 2, 0, 0x60000, 0, 20, 0x228838E3] tellS, _, ?_, some_got (d := []) ?_, crc_is ?_, ?_⟩
    all_goals cases full
    all_goals first | exact taken (by decide +kernel) | decide +kernel
  · exact ⟨cmd0 [0x19, 0, 0x60000, 0, 0xFFFFFFFF] meshS, _, meshBs, taken (by decide +kernel), some_got (d := []) (by decide +kernel), by decide +kernel,
      mesh_served rfl (by decide +kernel) (by decide +kernel) (by decide +kernel) rfl, by decide +kernel, mesh_crc⟩
  · exact ⟨cmd0 [0x19, 0, 0x60000, 0, 5] meshS, _, meshBs, taken (by decide +kernel), some_got (d := []) (by decide +kernel), by decide +kernel,
      mesh_served rfl (by decide +kernel) (by decide +kernel) (by decide +kernel) rfl, by decide +kernel, by rw [mesh_crc]; decide⟩
  · intro x
    exact ⟨{ base with mp := { base.mp with late := [x] } }, rfl, rfl⟩

/-! ### Errors and messages from outside, decoding and memory -/

/-- An image in shadow storage that holds a wave of the loaded launch. -/
def shadowS : State := { evictedS none with images := [{ evictedI none with shadow := true }] }

/-- A paired device's message for the loaded context, which accepts such messages. -/
def peerS : State := { pairedS with ctxs := [messageX] }

def peerWords : List W32 := [0x9000, 0, 1] ++ List.replicate 13 0

theorem wit_OutsideInputs :
    (∃ (s : State), s.agenda = [.upset .cleanLine]) ∧ (∃ (s : State), s.agenda = [.peerMessage peerWords []]) ∧
    (∀ a : Act, ∃ (s : State), s.agenda = [a]) ∧ (∃ (s : State), 0x120 ∉ s.storage.badMem) ∧
    (∃ (s : State), s.boot.offgen.getLsbD 0 = true) ∧
    (∃ (s : State), 0 < s.parts.length ∧ (s.part 0).state = .swapping ∧ s.spilled 0 = true) ∧
    (∃ (s : State), 0 < s.parts.length ∧ (s.part 0).state = .swappingIn) ∧
    (∃ (s : State), s.gulnos.out.head? = some (.message 0 [])) ∧
    (∃ (s : State) (x : Block), s.block? 1 = some x ∧ x.core = 0 ∧ x.ended = false) ∧
    (∃ (s : State) (i : Image) (x : Context), s.images[0]? = some i ∧ i.shadow = true ∧ s.imageOf i 1 = true ∧ s.ctx? 1 = some x ∧
      x.ended = false) ∧
    (∃ (s : State) (x : Context), s.ctx? (bitsAt peerWords 64 12) = some x ∧ x.ended = false ∧ s.gulnos.paired = true ∧ s.gulnos.lup ≠ 0 ∧
      x.msg.any (·.remote) = true ∧ Claims.roomFor s x.part 1 1) ∧
    (∃ (s : State) (x : Context), s.ctx? (bitsAt peerWords 64 12) = some x ∧ x.msg.any (·.remote) = false) :=
  ⟨⟨{ base with agenda := [.upset .cleanLine] }, rfl⟩, ⟨{ base with agenda := [.peerMessage peerWords []] }, rfl⟩,
    fun a => ⟨{ base with agenda := [a] }, rfl⟩, ⟨base, by decide +kernel⟩, ⟨bootS fun b => { b with offgen := 1 }, by decide +kernel⟩,
    ⟨partS .swapping, by decide +kernel⟩, ⟨partS .swappingIn, by decide +kernel⟩,
    ⟨{ base with gulnos := { base.gulnos with out := [.message 0 []] } }, by decide +kernel⟩,
    ⟨base, loadedBlock 0, by decide +kernel, by decide +kernel, by decide +kernel⟩,
    ⟨shadowS, { evictedI none with shadow := true }, loadedContext, by decide +kernel, by decide +kernel, by decide +kernel, by decide +kernel,
      by decide +kernel⟩,
    ⟨peerS, messageX, by decide +kernel, by decide +kernel, by decide +kernel, by decide +kernel, by decide +kernel,
      room peerS messageX.part 1 (by decide +kernel)⟩,
    base, loadedContext, by decide +kernel, by decide +kernel⟩

theorem wit_DecodeEncode : ∃ (n : Nat) (i : Instr) (w : W96), WellFormed n i = true ∧ encode i = some w :=
  ⟨16, .iadd (ops 0 (reg 4) (reg 5) .unused), _, by decide +kernel, rfl⟩

theorem wit_EncodeDecode :
    (∃ i, decode 16 0x000000000000280010100000 = .ok i) ∧ ∃ c, decode 16 0x3FF = .error c := by
  refine ⟨⟨_, ok_got (d := .iadd (ops 0 (reg 4) (reg 5) .unused)) (by decide +kernel)⟩, ?_⟩
  have h : isOk (decode 16 0x3FF) = false := by decide +kernel
  cases hd : decode 16 0x3FF with
  | ok _ => rw [hd] at h; cases h
  | error c => exact ⟨c, rfl⟩

/-- Whether a step gives a next state. -/
def isNext : Host.Outcome State Fault Refusal → Bool
  | .next _ => true
  | _ => false

theorem wit_MemoryStaysCanonical : ∃ s t : State, Memory.wf s.mem = true ∧ step s = .next t := by
  have h : isNext (step (State.reset.loadWord [])) = true := by decide +kernel
  cases hs : step (State.reset.loadWord []) with
  | next t => exact ⟨_, t, by decide +kernel, hs⟩
  | fault _ => rw [hs] at h; cases h
  | refused _ => rw [hs] at h; cases h

theorem test_nop : (match step (State.reset.withFetchWord 96 0x089) with
    | .next s => s.waves.map fun w => (w.slots.filterMap Slot.live?).map (·.pc)
    | _ => []) = [[0x800C]] := by decide +kernel

/-! ### Terms that are not well-formed -/

/-- One term for each code of R130 that a term can have; code 5 lies in bits that no term holds. -/
theorem test_codes : ([
    .iadd (ops 4 (reg 4) (reg 5) .unused), .notB (ops 0 (reg 4) (reg 5) .unused), .exit (ops 0 .unused .unused .unused),
    .lop3 (ops 0 (reg 4) (reg 5) (.imm 0x100)), .brx { ops 0 (.imm 0) .unused .unused with dst := ⟨false, 0⟩ },
    .iadd { ops 0 (reg 4) (reg 5) .unused with dst := ⟨false, 16⟩ }, .iadd (ops 0 (reg 16) (reg 5) .unused),
    .iadd { ops 0 (reg 4) (reg 5) .unused with guard := ⟨16, 0, true⟩ }, .iadd { ops 0 (reg 4) (reg 5) .unused with dst := ⟨true, 8⟩ },
    .movl { ops 0 (reg 5) .unused .unused with dst := ⟨true, 8⟩ }, .mov (ops 0 (.spec 0x0A) .unused .unused),
    .imul (ops 0 (.reg 4 .own true false) (reg 5) .unused), .iadd { ops 0 (.imm 4) (reg 5) .unused with ru := 1 },
    .vote (ops 0 (.reg 4 .left false false) .unused .unused)] : List Instr).all (fun i => !WellFormed 16 i) = true := by decide +kernel

/-- The code of R130 that a word raises in a kernel of 16 registers; 0 for none. -/
def wordCode (w : W96) : Nat :=
  match decode 16 w with
  | .ok _ => 0
  | .error c => c

/-- The lowest code that applies to a word. -/
theorem test_word_codes :
    [0x000000000000280010100000, 0x3FF, 0x000000000000280010101000, 0x000000000000284010100000, 0x82, 0x000008000000000010110000].map wordCode =
      [0, 1, 2, 3, 4, 5] := by decide +kernel

/-- One term for each bound on the arguments of a device step. -/
theorem test_events : ([
    .rejoinDisarm 96 0, .rejoinDisarm 0 64, .binDraw 96 0, .binDraw 0 64, .sectionHoldExceeded 96 0 1, .sectionHoldExceeded 0 64 1, .evictionWaveTimeout 96 0, .evictionWaveTimeout 0 64, .haltComplete 96 0, .haltComplete 0 64,
    .vfFunctionLevelReset 8, .thermalThreshold 11 0 0 0, .throttleClockStep 11, .thermalCritical 11, .frameStart 6, .comparePoint 6, .bandLatch 6,
    .cameraFrame 16 [], .gulnosLinkUp 2 0 0, .gulnosLinkDown 2, .lookupEngineReset 96, .quarantineScanComplete 96 true, .bar4Read .pf 0 0,
    .bar4Write .pf 0 [], .registerWrite .pf 0 2 0] : List Instr).all (fun i => !WellFormed 16 i) = true := by decide +kernel

theorem test_events_ok : ([
    .rejoinDisarm 95 63, .binDraw 95 63, .evictionWaveTimeout 95 63, .haltComplete 95 63,
    .vfFunctionLevelReset 7, .thermalThreshold 10 0 0 0, .throttleClockStep 10, .thermalCritical 10, .frameStart 5, .comparePoint 5, .bandLatch 5,
    .cameraFrame 15 [], .gulnosLinkUp 1 0 0, .gulnosLinkDown 1, .lookupEngineReset 95, .quarantineScanComplete 95 true, .bar4Read .pf 0 1,
    .bar4Write .pf 0 [0], .registerWrite .pf 0 4 0, .registerWrite .pf 0 8 0] : List Instr).all (WellFormed 16) = true := by decide +kernel

/-- The engine state of the core is another block's. -/
def ownedS : State := plainS.mapCore 0 fun c => { c with owner := some 2 }

theorem wit_BlockWideWaits :
    (∃ (s : State) (v : View) (o : Operands), s.view? = some v ∧ v.passing o = 0) ∧
    (∃ (s : State) (v : View) (o : Operands), s.view? = some v ∧ v.passing o ≠ 0 ∧
      s.claim v.ic.core (v.thread (lowestLane (v.passing o))).blk = none) :=
  ⟨⟨plainS, plainV, offO, plain_view, by decide +kernel⟩, ownedS, viewOf ownedS, plainO, view_some (by decide +kernel), by decide +kernel,
    by decide +kernel⟩

/-! ### Words of every instruction, from the tables of its group

Each word is written from the fields of R117 and the row that its group's table gives (R141, R148, R157, R171, R180, R186, R197, R203,
R206, R209, R213, R217, R220, R228, R237, R255, R266). -/

/-- Operand fields without guard and markers; the destination is v8, wide or not, or there is none. -/
def wordO (m : BitVec 7) (d : Option Bool) (a b c : Src) : Operands :=
  ⟨m, match d with | none => ⟨false, 0⟩ | some w => ⟨w, 8⟩, a, b, c, ⟨0, 0, false⟩, false, 0, false⟩

/-- Whether each word decodes to its instruction. -/
def wordsOk (l : List (Nat × Instr)) : Bool := l.all fun x => decodeTableWord 96 x.1 = some x.2

theorem test_words_int : wordsOk
    [(0x00000091A2B3C00010110C00, .iadd (wordO 0x43 (some false) (reg 4) (.lit 0x12345678) .unused)),
     (0x000000000400380010100801, .isub (wordO 0x02 (some false) (reg 4) (.imm 0x7) .unused)),
     (0x000000006000280010100002, .iadd3 (wordO 0x00 (some false) (reg 4) (reg 5) (reg 6))),
     (0x000000000000280010100003, .imul (wordO 0x00 (some false) (reg 4) (reg 5) .unused)),
     (0x000000000000280010100404, .imulh (wordO 0x01 (some false) (reg 4) (reg 5) .unused)),
     (0x000000006000280010100005, .imad (wordO 0x00 (some false) (reg 4) (reg 5) (reg 6))),
     (0x000000006000280012100406, .imadw (wordO 0x01 (some true) (reg 4) (reg 5) (reg 6))),
     (0x000000000000280010100407, .imin (wordO 0x01 (some false) (reg 4) (reg 5) .unused)),
     (0x000000000000480010110008, .imax (wordO 0x40 (some false) (reg 4) (.lit 0x9) .unused)),
     (0x000000000000000010100809, .iabs (wordO 0x02 (some false) (reg 4) .unused .unused)),
     (0x00000000000000001010080A, .ineg (wordO 0x02 (some false) (reg 4) .unused .unused)),
     (0x00000000600028001010040B, .iclamp (wordO 0x01 (some false) (reg 4) (reg 5) (reg 6))),
     (0x00000000000028001010040C, .idiv (wordO 0x01 (some false) (reg 4) (reg 5) .unused)),
     (0x00000000000028001010000D, .irem (wordO 0x00 (some false) (reg 4) (reg 5) .unused)),
     (0x00000000000028001010000E, .andB (wordO 0x00 (some false) (reg 4) (reg 5) .unused)),
     (0x00000000000028001010000F, .orB (wordO 0x00 (some false) (reg 4) (reg 5) .unused)),
     (0x000000000000280010100010, .xorB (wordO 0x00 (some false) (reg 4) (reg 5) .unused)),
     (0x000000000000280010100011, .andn (wordO 0x00 (some false) (reg 4) (reg 5) .unused)),
     (0x000000000000000010100012, .notB (wordO 0x00 (some false) (reg 4) .unused .unused)),
     (0x000008096000280010100013, .lop3 (wordO 0x00 (some false) (reg 4) (reg 5) (.imm 0x96))),
     (0x000000000000000010100014, .popc (wordO 0x00 (some false) (reg 4) .unused .unused)),
     (0x000000000000000010100015, .clz (wordO 0x00 (some false) (reg 4) .unused .unused)),
     (0x000000000000000010100016, .ctz (wordO 0x00 (some false) (reg 4) .unused .unused)),
     (0x000000000000000010100017, .brev (wordO 0x00 (some false) (reg 4) .unused .unused)),
     (0x000000000000280010100418, .bfe (wordO 0x01 (some false) (reg 4) (reg 5) .unused)),
     (0x000000006000280010100019, .bfi (wordO 0x00 (some false) (reg 4) (reg 5) (reg 6))),
     (0x00000000600028001010001A, .bperm (wordO 0x00 (some false) (reg 4) (reg 5) (reg 6))),
     (0x000000006000280010100C1B, .dp4 (wordO 0x03 (some false) (reg 4) (reg 5) (reg 6))),
     (0x000000006000280010101C1C, .dp2 (wordO 0x07 (some false) (reg 4) (reg 5) (reg 6))),
     (0x00000000600028001010041D, .sad (wordO 0x01 (some false) (reg 4) (reg 5) (reg 6)))] = true := by decide +kernel

theorem test_words_shift : wordsOk
    [(0x000000000000280010100040, .shl (wordO 0x00 (some false) (reg 4) (reg 5) .unused)),
     (0x000000000000280012100441, .shr (wordO 0x01 (some true) (reg 4) (reg 5) .unused)),
     (0x000000000400180012100442, .sra (wordO 0x01 (some true) (reg 4) (.imm 0x3) .unused)),
     (0x000000000000280010100043, .rotl (wordO 0x00 (some false) (reg 4) (reg 5) .unused)),
     (0x000000006000280010100C44, .shf (wordO 0x03 (some false) (reg 4) (reg 5) (reg 6))),
     (0x000008023403200010102845, .icmp (wordO 0x0A (some false) (reg 4) (.imm 0x64) (.imm 0x23))),
     (0x000008045000300010103446, .icmp64 (wordO 0x0D (some false) (reg 4) (reg 6) (.imm 0x45))),
     (0x000000000000000010109447, .setc (wordO 0x25 (some false) (reg 4) .unused .unused)),
     (0x000000007000300012108C48, .sel (wordO 0x23 (some true) (reg 4) (reg 6) (reg 7))),
     (0x000000000000060004100049, .mov (wordO 0x00 (some false) (.spec 0x1) .unused .unused)),
     (0x00000000000002001610004A, .movl (wordO 0x00 (some true) (.imm 0x5) .unused .unused)),
     (0x000000000400F8001010A84B, .pmov (wordO 0x2A (some false) (reg 4) (.imm 0x1F) .unused)),
     (0x00000A081000280010107C4C, .plop (wordO 0x1F (some false) (reg 4) (reg 5) (.imm 0x2081))),
     (0x00000000000028001010084D, .lea (wordO 0x02 (some false) (reg 4) (reg 5) .unused)),
     (0x000000000000280012102C4E, .lea64 (wordO 0x0B (some true) (reg 4) (reg 5) .unused)),
     (0x00000000000030001210004F, .iadd64 (wordO 0x00 (some true) (reg 4) (reg 6) .unused)),
     (0x000000000000800012110050, .isub64 (wordO 0x40 (some true) (reg 4) (.lit 0x10) .unused)),
     (0x000008005000280012100C51, .wfield (wordO 0x03 (some true) (reg 4) (reg 5) (.imm 0x5))),
     (0x000000000000280010100852, .pack (wordO 0x02 (some false) (reg 4) (reg 5) .unused))] = true := by decide +kernel

theorem test_words_control : wordsOk
    [(0x00000000000003FFF4000080, .bra (wordO 0x00 none (.imm 0x7FFD) .unused .unused)),
     (0x000000000000000010000081, .brx (wordO 0x00 none (reg 4) .unused .unused)),
     (0x00000000000002000C000082, .call (wordO 0x00 none (.imm 0x3) .unused .unused)),
     (0x000000000000000010000083, .callx (wordO 0x00 none (reg 4) .unused .unused)),
     (0x000000000000000010000484, .ret (wordO 0x01 none (reg 4) .unused .unused)),
     (0x000000000000000000000085, .exit (wordO 0x00 none .unused .unused .unused)),
     (0x000000000400100010000086, .rejoin (wordO 0x00 none (reg 4) (.imm 0x2) .unused)),
     (0x000000000000000000000087, .reform (wordO 0x00 none .unused .unused .unused)),
     (0x000000000000020FFC000088, .yield (wordO 0x00 none (.imm 0x3FF) .unused .unused)),
     (0x000000000000000000000089, .nop (wordO 0x00 none .unused .unused .unused)),
     (0x00000000000002001400008A, .brkp (wordO 0x00 none (.imm 0x5) .unused .unused)),
     (0x00000000080018001000008B, .jtbl (wordO 0x00 none (reg 4) (.pool 3) .unused)),
     (0x000007FFFFFFF8001011008C, .loopd (wordO 0x40 (some false) (reg 4) (.lit 0xFFFFFFFF) .unused))] = true := by decide +kernel

theorem test_words_float : wordsOk
    [(0x0000000000002800101004C0, .fadd (wordO 0x01 (some false) (reg 4) (reg 5) .unused)),
     (0x0000000000002800101004C1, .fsub (wordO 0x01 (some false) (reg 4) (reg 5) .unused)),
     (0x0000000000002800101004C2, .fmul (wordO 0x01 (some false) (reg 4) (reg 5) .unused)),
     (0x0000000060002800101008C3, .fma (wordO 0x02 (some false) (reg 4) (reg 5) (reg 6))),
     (0x000000000000280012100CC4, .ftsum (wordO 0x03 (some true) (reg 4) (reg 5) .unused)),
     (0x0000000000002800101000C5, .fmin (wordO 0x00 (some false) (reg 4) (reg 5) .unused)),
     (0x000001FC00000000101100C6, .fmax (wordO 0x40 (some false) (reg 4) (.lit 0x3F800000) .unused)),
     (0x0000000060002800101000C7, .fclamp (wordO 0x00 (some false) (reg 4) (reg 5) (reg 6))),
     (0x0000000000002800101008C8, .fdiv (wordO 0x02 (some false) (reg 4) (reg 5) .unused)),
     (0x0000000000000000101004C9, .frcp (wordO 0x01 (some false) (reg 4) .unused .unused)),
     (0x0000000000000000101000CA, .frsq (wordO 0x00 (some false) (reg 4) .unused .unused)),
     (0x000000000000000010100CCB, .fsqrt (wordO 0x03 (some false) (reg 4) .unused .unused)),
     (0x0000000000000000101000CC, .fexp2 (wordO 0x00 (some false) (reg 4) .unused .unused)),
     (0x0000000000000000101000CD, .flog2 (wordO 0x00 (some false) (reg 4) .unused .unused)),
     (0x0000000000000000101000CE, .fsin (wordO 0x00 (some false) (reg 4) .unused .unused)),
     (0x0000000000000000101000CF, .fcos (wordO 0x00 (some false) (reg 4) .unused .unused)),
     (0x0000000000000000101000D0, .ftanh (wordO 0x00 (some false) (reg 4) .unused .unused)),
     (0x00000802F0002800101018D1, .fcmp (wordO 0x06 (some false) (reg 4) (reg 5) (.imm 0x2F))),
     (0x0000000000000000101000D2, .fclass (wordO 0x00 (some false) (reg 4) .unused .unused)),
     (0x0000000000000000101004D3, .fround (wordO 0x01 (some false) (reg 4) .unused .unused)),
     (0x0000000000000000101000D4, .ffrac (wordO 0x00 (some false) (reg 4) .unused .unused)),
     (0x0000000004001800101008D5, .fldexp (wordO 0x02 (some false) (reg 4) (.imm 0x3) .unused)),
     (0x0000000000000000101000D6, .fexpo (wordO 0x00 (some false) (reg 4) .unused .unused)),
     (0x0000000060002800101004D7, .hfma2 (wordO 0x01 (some false) (reg 4) (reg 5) (reg 6))),
     (0x000000000000280010100CD8, .hadd2 (wordO 0x03 (some false) (reg 4) (reg 5) .unused)),
     (0x0000000000002800101000D9, .hmul2 (wordO 0x00 (some false) (reg 4) (reg 5) .unused)),
     (0x0000000000002800101000DA, .hmin2 (wordO 0x00 (some false) (reg 4) (reg 5) .unused)),
     (0x0000000000002800101000DB, .hmax2 (wordO 0x00 (some false) (reg 4) (reg 5) .unused)),
     (0x0000000060002800101004DC, .fdot2 (wordO 0x01 (some false) (reg 4) (reg 5) (reg 6)))] = true := by decide +kernel

theorem test_words_convert : wordsOk
    [(0x000000000400180010104D00, .cvtf (wordO 0x13 (some false) (reg 4) (.imm 0x3) .unused)),
     (0x000000000000000012106501, .cvtfi (wordO 0x19 (some true) (reg 4) .unused .unused)),
     (0x000000000000000010107502, .cvtif (wordO 0x1D (some false) (reg 4) .unused .unused)),
     (0x000000000000000010107503, .cvti (wordO 0x1D (some false) (reg 4) .unused .unused)),
     (0x000000006000280010106504, .qcvt (wordO 0x19 (some false) (reg 4) (reg 5) (reg 6))),
     (0x000000006000280010102905, .dqcvt (wordO 0x0A (some false) (reg 4) (reg 5) (reg 6))),
     (0x000008003000280010105506, .qpack (wordO 0x15 (some false) (reg 4) (reg 5) (.imm 0x3))),
     (0x000000000400180012101507, .qunpack (wordO 0x05 (some true) (reg 4) (.imm 0x3) .unused)),
     (0x000000000000000010101908, .scexp (wordO 0x06 (some false) (reg 4) .unused .unused))] = true := by decide +kernel

theorem test_words_lanes : wordsOk
    [(0x000000000400800012101540, .shfl (wordO 0x05 (some true) (reg 4) (.imm 0x10) .unused)),
     (0x00000000000000001011FD41, .vote (wordO 0x7F (some false) (reg 4) .unused .unused)),
     (0x000000000000000010100542, .matchB (wordO 0x01 (some false) (reg 4) .unused .unused)),
     (0x000000000000000010100543, .redadd (wordO 0x01 (some false) (reg 4) .unused .unused)),
     (0x000000000000000010100944, .redmin (wordO 0x02 (some false) (reg 4) .unused .unused)),
     (0x000000000000000010100545, .redmax (wordO 0x01 (some false) (reg 4) .unused .unused)),
     (0x000000000000000010100146, .redabs (wordO 0x00 (some false) (reg 4) .unused .unused)),
     (0x000000000000000010100947, .redbit (wordO 0x02 (some false) (reg 4) .unused .unused)),
     (0x000000000000000010101D48, .scan (wordO 0x07 (some false) (reg 4) .unused .unused)),
     (0x000000000400F80012100549, .bcast (wordO 0x01 (some true) (reg 4) (.imm 0x1F) .unused)),
     (0x00000000000000000010054A, .amask (wordO 0x01 (some false) .unused .unused .unused))] = true := by decide +kernel

theorem test_words_memory : wordsOk
    [(0x000008206400800010113180, .ld (wordO 0x4C (some false) (reg 4) (.imm 0x10) (.imm 0x206))),
     (0x00000000C000500010017981, .st (wordO 0x5E none (reg 4) (reg 10) (reg 12))),
     (0x00000000000054001E101582, .ldp (wordO 0x05 (some true) (.pool 7) (reg 10) .unused)),
     (0x00000000C00054001C000183, .stp (wordO 0x00 none (.pool 7) (reg 10) (reg 12))),
     (0x000000000000280010100D84, .lds (wordO 0x03 (some false) (reg 4) (reg 5) .unused)),
     (0x000000006000280010000985, .sts (wordO 0x02 none (reg 4) (reg 5) (reg 6))),
     (0x000000000000280012101986, .ldk (wordO 0x06 (some true) (reg 4) (reg 5) .unused)),
     (0x000000000400400000100587, .ldf (wordO 0x01 (some false) .unused (.imm 0x8) .unused)),
     (0x000000006400400000001588, .stf (wordO 0x05 none .unused (.imm 0x8) (reg 6))),
     (0x000000000000280010000589, .pf (wordO 0x01 none (reg 4) (reg 5) .unused)),
     (0x0000000060002C000810918A, .ldt (wordO 0x24 (some false) (.pool 2) (reg 5) (reg 6))),
     (0x0000000060002C000811618B, .stt (wordO 0x58 (some false) (.pool 2) (reg 5) (reg 6))),
     (0x000000007000300010003D8C, .smap (wordO 0x0F none (reg 4) (reg 6) (reg 7))),
     (0x00000000000000000000418D, .swb (wordO 0x10 none .unused .unused .unused)),
     (0x000000000000000000000D8E, .sinv (wordO 0x03 none .unused .unused .unused)),
     (0x00000000000030001000018F, .resq (wordO 0x00 none (reg 4) (reg 6) .unused)),
     (0x000000000000300010000590, .cwb (wordO 0x01 none (reg 4) (reg 6) .unused)),
     (0x000000000000300010000191, .cinv (wordO 0x00 none (reg 4) (reg 6) .unused))] = true := by decide +kernel

theorem test_words_atomics : wordsOk
    [(0x0000080094032000301015C0, .atom (wordO 0x05 (some false) (reg 12) (.imm 0x64) (.imm 0x9))),
     (0x00000000A00030001210DDC1, .cas (wordO 0x37 (some true) (reg 4) (reg 6) (reg 10))),
     (0x0000080050003000121081C2, .atoms (wordO 0x20 (some true) (reg 4) (reg 6) (.imm 0x5))),
     (0x0000000060002800101001C3, .cass (wordO 0x00 (some false) (reg 4) (reg 5) (reg 6))),
     (0x0000080070002800100059C4, .atomr (wordO 0x16 none (reg 4) (reg 5) (.imm 0x7))),
     (0x0000080000003000121081C5, .atomsc (wordO 0x20 (some true) (reg 4) (reg 6) (.imm 0x0)))] = true := by decide +kernel

theorem test_words_sync : wordsOk
    [(0x000000000400020014000200, .bar (wordO 0x00 none (.imm 0x5) (.imm 0x0) .unused)),
     (0x000000000000280010100201, .bara (wordO 0x00 (some false) (reg 4) (reg 5) .unused)),
     (0x000000000000280010000202, .barw (wordO 0x00 none (reg 4) (reg 5) .unused)),
     (0x000000000000000000000203, .barc (wordO 0x00 none .unused .unused .unused)),
     (0x000000000000000000005A04, .fence (wordO 0x16 none .unused .unused .unused)),
     (0x000000000000000000000205, .osb (wordO 0x00 none .unused .unused .unused)),
     (0x000000000000000000000206, .ose (wordO 0x00 none .unused .unused .unused)),
     (0x000000000000280010000207, .sbwait (wordO 0x00 none (reg 4) (reg 5) .unused)),
     (0x000000000000280010100208, .sbq (wordO 0x00 (some false) (reg 4) (reg 5) .unused)),
     (0x000000000000000010000209, .await (wordO 0x00 none (reg 4) .unused .unused))] = true := by decide +kernel

theorem test_words_engines : wordsOk
    [(0x000009000000300010107640, .cpy (wordO 0x1D (some false) (reg 4) (reg 6) (.imm 0x1000))),
     (0x00000000C000300010000A41, .cpy2d (wordO 0x02 none (reg 4) (reg 6) (reg 12))),
     (0x00000000C800280010100242, .cpyg (wordO 0x00 (some false) (reg 4) (.pool 5) (reg 12))),
     (0x00000000C00030001010A243, .coll (wordO 0x28 (some false) (reg 4) (reg 6) (reg 12))),
     (0x000000000000500010000244, .amsg (wordO 0x00 none (reg 4) (reg 10) .unused)),
     (0x00000000A000300010007E45, .spawn (wordO 0x1F none (reg 4) (reg 6) (reg 10))),
     (0x000000000000000010100246, .join (wordO 0x00 (some false) (reg 4) .unused .unused)),
     (0x000000000000000010000247, .crec (wordO 0x00 none (reg 4) .unused .unused))] = true := by decide +kernel

theorem test_words_lookup : wordsOk
    [(0x000010009000280010008680, .tbld (wordO 0x21 none (reg 4) (reg 5) (.pool 9))),
     (0x000000000400B80010000281, .tspill (wordO 0x00 none (reg 4) (.imm 0x17) .unused)),
     (0x000000000400B00010000282, .tfill (wordO 0x00 none (reg 4) (.imm 0x16) .unused)),
     (0x000000000000000010000283, .tinv (wordO 0x00 none (reg 4) .unused .unused)),
     (0x00000000000002005C100284, .tstat (wordO 0x00 (some false) (.imm 0x17) .unused .unused)),
     (0x000008041800180028000685, .mlk (wordO 0x01 none (reg 10) (.pool 3) (.imm 0x41))),
     (0x00000000000002000C000286, .azero (wordO 0x00 none (.imm 0x3) .unused .unused)),
     (0x00000801F000280010002287, .aload (wordO 0x08 none (reg 4) (reg 5) (.imm 0x1F))),
     (0x00000801E000280010006A88, .adrain (wordO 0x1A none (reg 4) (reg 5) (.imm 0x1E))),
     (0x000000000000000010100289, .tenq (wordO 0x00 (some false) (reg 4) .unused .unused)),
     (0x00000000000000001010028A, .twait (wordO 0x00 (some false) (reg 4) .unused .unused)),
     (0x00000000000000001010068B, .tprog (wordO 0x01 (some false) (reg 4) .unused .unused))] = true := by decide +kernel

theorem test_words_render : wordsOk
    [(0x0000000000000000101052C0, .win (wordO 0x14 (some false) (reg 4) .unused .unused)),
     (0x0000000000000000101002C1, .wpool (wordO 0x00 (some false) (reg 4) .unused .unused)),
     (0x0000000000000000100162C2, .crsz (wordO 0x58 none (reg 4) .unused .unused)),
     (0x000010001000600010111AC3, .trace (wordO 0x46 (some false) (reg 4) (reg 12) (.pool 1))),
     (0x0000000000000000101002C4, .traceq (wordO 0x00 (some false) (reg 4) .unused .unused)),
     (0x0000000004001000100002C5, .hitrep (wordO 0x00 none (reg 4) (.imm 0x2) .unused)),
     (0x0000000000002C001210E2C6, .vfetch (wordO 0x38 (some true) (.pool 4) (reg 5) .unused)),
     (0x0000080300005000100002C7, .prim (wordO 0x00 none (reg 4) (reg 10) (.imm 0x30))),
     (0x0000000000000000101002C8, .rqpop (wordO 0x00 (some false) (reg 4) .unused .unused)),
     (0x0000000000000200FC100AC9, .interp (wordO 0x02 (some false) (.imm 0x3F) .unused .unused)),
     (0x00000000000064001A1002CA, .tsamp (wordO 0x00 (some true) (.pool 6) (reg 12) .unused)),
     (0x0000000004003800100002CB, .pxout (wordO 0x00 none (reg 4) (.imm 0x7) .unused))] = true := by decide +kernel

theorem test_words_system : wordsOk
    [(0x00000000000006002A100700, .srd (wordO 0x01 (some true) (.spec 0xA) .unused .unused)),
     (0x0000000000002E004C000301, .swr (wordO 0x00 none (.spec 0x13) (reg 5) .unused)),
     (0x00000000000002FFFC000302, .trap (wordO 0x00 none (.imm 0x3FFF) .unused .unused)),
     (0x000000000000000000000303, .tret (wordO 0x00 none .unused .unused .unused)),
     (0x000000000000020FFC000304, .sysc (wordO 0x00 none (.imm 0x3FF) .unused .unused)),
     (0x000000000000000002100705, .clk (wordO 0x01 (some true) .unused .unused .unused))] = true := by decide +kernel


/-! ### Results that the manual's examples give -/

/-- What one instruction on some registers of the loaded thread leaves in v8 and v9, or has in flight for them, with the flags that
it sets. -/
def after (i : Instr) (l : List (Nat × W32)) : W32 × W32 × FFlags :=
  match exec i (withRegs l base) with
  | .next t =>
    match t.results, t.waves with
    | x :: _, _ => let v (k : Nat) : W32 := (((x.lanes.flatMap (·.dsts)).find? fun d => d.reg = k).map (·.val)).getD 0
                   (v 8, v 9, x.fflags)
    | [], w :: _ => (((w.live? 0).map fun t => t.regs.getD 8 0).getD 0, ((w.live? 0).map fun t => t.regs.getD 9 0).getD 0, w.fflags)
    | [], [] => (0, 0, 0)
  | _ => (0, 0, 0)

/-- v4, v5 and v6. -/
def abc (a b c : W32) : List (Nat × W32) := [(4, a), (5, b), (6, c)]

/-- Operands v8, v4 and v5. -/
def two (m : BitVec 7) : Operands := ops m (reg 4) (reg 5) .unused
/-- Operands v8, v4, v5 and v6. -/
def three (m : BitVec 7) : Operands := ops m (reg 4) (reg 5) (reg 6)
/-- Operands v8 and v4. -/
def one (m : BitVec 7) : Operands := ops m (reg 4) .unused .unused

/-- The rows of R156's table. -/
theorem test_integer_examples : ([
    (.iadd (two 2), abc 0x7FFFFFFF 1 0, 0x7FFFFFFF), (.iadd (ops 2 (reg 4) (.imm 0x7FFD) .unused), abc 5 0 0, 2),
    (.iadd (ops 3 (reg 4) (.imm 0x7FFD) .unused), abc 5 0 0, 0xFFFFFFFF), (.iabs (one 0), abc 0x80000000 0 0, 0x80000000),
    (.iabs (one 2), abc 0x80000000 0 0, 0x7FFFFFFF), (.imulh (two 0), abc 0xFFFFFFFF 0xFFFFFFFF 0, 0),
    (.imulh (two 1), abc 0xFFFFFFFF 0xFFFFFFFF 0, 0xFFFFFFFE), (.idiv (two 0), abc 0x80000000 0xFFFFFFFF 0, 0x80000000),
    (.irem (two 0), abc 0x80000000 0xFFFFFFFF 0, 0), (.idiv (two 0), abc 0xFFFFFFF9 2 0, 0xFFFFFFFD),
    (.irem (two 0), abc 0xFFFFFFF9 2 0, 0xFFFFFFFF), (.idiv (two 0), abc 7 0 0, 0xFFFFFFFF), (.irem (two 0), abc 7 0 0, 7),
    (.bfe (two 0), abc 0xF00 0x408 0, 0xFFFFFFFF), (.bfe (two 1), abc 0xF00 0x408 0, 0xF),
    (.bfe (two 1), abc 0xC0000000 0x81E 0, 3), (.clz (one 0), abc 0 0 0, 32), (.ctz (one 0), abc 0x100 0 0, 8),
    (.bperm (three 0), abc 0x44332211 0x88776655 0x0021F004, 0x00FF1155)] : List (Instr × List (Nat × W32) × W32)).all
    (fun x => (after x.1 x.2.1).1 = x.2.2) = true := by decide +kernel

theorem test_shift_examples : ([
    (.shl (two 0), abc 1 32 0, 0), (.sra (two 0), abc 0x80000000 40 0, 0xFFFFFFFF), (.rotl (two 0), abc 0x80000001 33 0, 3),
    (.shf (three 0), abc 0x89ABCDEF 0x01234567 8, 0x6789ABCD), (.shf (three 1), abc 0x89ABCDEF 0x01234567 0xFFFFFFF8, 0x23456789),
    (.shf (three 2), abc 0x89ABCDEF 0x01234567 0xFFFFFFF8, 0xABCDEF01), (.shf (three 0), abc 0x89ABCDEF 0x01234567 64, 0)] :
    List (Instr × List (Nat × W32) × W32)).all (fun x => (after x.1 x.2.1).1 = x.2.2) = true := by decide +kernel

/-- The example of R152: bit 3 of v8, which was set, keeps v4 < 100 unsigned. -/
theorem test_compare_example :
    (after (.icmp (ops 0x0A (reg 4) (.imm 100) (.imm 0x23))) [(4, 50), (8, 8)]).1 = 8 ∧
    (after (.icmp (ops 0x0A (reg 4) (.imm 100) (.imm 0x23))) [(4, 0xFFFFFFFF), (8, 8)]).1 = 0 := by decide +kernel

/-- The example of R156: fields of an identifier in the layout of widths 2, 1, 8, 8 and 0. -/
theorem test_field_example :
    (after (.wfield (ops 1 (reg 4) (reg 6) (.imm 1))) (abc 0x000521E7 0 0x208042)).1 = 3 ∧
    (after (.wfield (ops 1 (reg 4) (reg 6) (.imm 3))) (abc 0x000521E7 0 0x208042)).1 = 0x21 ∧
    (after (.wfield (ops 1 (reg 4) (reg 6) (.imm 5))) (abc 0x000521E7 0 0x208042)).1 = 0 := by decide +kernel

/-- The rows of R185's table, with the flags that they set (NV 1, NX 0x10, SAT 0x20). -/
theorem test_conversion_examples : ([
    (.cvtf (ops 3 (reg 4) (.imm 1) .unused), abc 0x43E80000 0 0, 0x7E00, 0x10), (.cvtf (ops 5 (reg 4) (.imm 0) .unused), abc 0x40A00000 0 0, 6, 0x10),
    (.cvtf (ops 0x11 (reg 4) (.imm 1) .unused), abc 0xC1003C00 0 0, 0xC0200000, 0), (.cvtfi (one 0x11), abc 0xC302B333 0 0, 0xFFFFFF80, 1),
    (.cvtfi (one 4), abc 0xBECCCCCD 0 0, 0, 0x10), (.cvtif (one 1), abc 16777217 0 0, 0x4B800000, 0x10),
    (.cvti (one 4), abc 0x181 0 0, 0xFFFFFF81, 0), (.cvti (one 0x14), abc 0x181 0 0, 0x7F, 0x20),
    (.qcvt (ops 9 (reg 4) (reg 5) (.imm 3)), abc 0x40A9999A 0x3F000000 0, 7, 0x30), (.qcvt (ops 10 (reg 4) (reg 5) (.imm 3)), abc 0x40A9999A 0x3F000000 0, 0xE, 0x10),
    (.dqcvt (ops 10 (reg 4) (reg 5) (.imm 3)), abc 0xE 0x3F000000 0, 0x40B00000, 0),
    (.qpack (ops 1 (reg 4) (reg 5) (.imm 0)), abc 0x3F800000 0xC0200000 0, 0xC1003C00, 0), (.scexp (one 3), abc 0x41200000 0 0, 122, 0)] :
    List (Instr × List (Nat × W32) × W32 × FFlags)).all
    (fun x => (after x.1 x.2.1).1 = x.2.2.1 && (after x.1 x.2.1).2.2 = x.2.2.2) = true := by decide +kernel

theorem test_unpack_example : after (.qunpack { one 5 with dst := ⟨true, 8⟩, b := .imm 0 }) (abc 0xD6 0 0) = (0x40800000, 0xC0400000, 0) := by
  decide +kernel

end Sys2Proof.Tests
end

section
/-! The two shapes of a per-lane instruction, as `exec` answers them: a class-F instruction writes, a class-V instruction leaves its
result outstanding (R55). -/
namespace Sys2Proof.Machine

/-- A class-F instruction that writes `n` registers in each lane. -/
theorem classF_writes {s : State} {v : View} {o : Operands} {ins : Instr} {n : Nat} {f : View → Nat → LaneOut} (issue : s.view? = some v)
    (he : exec ins s = withIssue s fun v => v.classF o n (f v)) (hn : ∀ i, (f v i).1.length = n) :
    ∃ t, exec ins s = .next t ∧ Claims.WroteNow v o (f v) t := by
  obtain ⟨rfl, -, wave⟩ := State.view?_spec issue
  exact ⟨_, he.trans (withIssue_next issue _), View.classF_wrote wave hn⟩

/-- The flags of lanes that set none. -/
theorem orFlags_out32 (m : Mask) (x : Nat → W32) : orFlags m (fun i => out32 (x i)) = 0 := by
  have none_set (i : Nat) : (0 : FFlags) ||| (out32 (x i)).2 = 0 := BitVec.or_zero
  unfold orFlags
  induction lanesOf m with
  | nil => rfl
  | cons i l ih => rw [List.foldl_cons, none_set, ih]

/-- A class-V instruction with a 32-bit result in each lane that sets no flag. -/
theorem classV_out32_left {s : State} {v : View} {o : Operands} {ins : Instr} {f : View → Nat → W32} (issue : s.view? = some v)
    (room : v.resultsFull = false) (he : exec ins s = withIssue s fun v => v.classV o fun i => out32 (f v i)) :
    ∃ t, exec ins s = .next t ∧ Claims.LeftLater v o 0 (fun i => out32 (f v i)) t := by
  obtain ⟨rfl, -, wave⟩ := State.view?_spec issue
  have left := View.classV_left (o := o) (f := fun i => out32 (f v i)) wave room
  rw [orFlags_out32] at left
  exact ⟨_, he.trans (withIssue_next issue _), left⟩

end Sys2Proof.Machine
end

section
/-! Control transfers (R158 to R162): what a transfer leaves once the targets of its lanes pass the checks of R158. -/
namespace Sys2Proof.Machine

/-- R158: with no failing target a transfer moves the issue set. -/
theorem View.jump_of_targets_pass {v : View} {o : Operands} {p q : Mask} {next : Nat → W64} {f : Nat → Thread → Thread} {s : State}
    (h : ∀ i, q.getLsbD i = true → v.targetFault i (next i) = none) : v.jump o p q next f s = v.branch o s p next f := by
  have none_fails : ((lanesOf q).findSome? fun i => v.targetFault i (next i)) = none :=
    List.findSome?_eq_none_iff.2 fun i hi => h i (mem_lanesOf.1 hi)
  rw [View.jump, none_fails]

/-- A change of nothing in a slot. -/
theorem Slot.mapLive_same (x : Slot) : x.mapLive (fun t => t) = x := by cases x <;> rfl

/-- Lanes that move may be described by any relation that their change satisfies. -/
theorem Branched.of_moved {v : View} {o : Operands} {p : Mask} {ff : FFlags} {next : Nat → W64} {g : Nat → Thread → Thread}
    {R S : Nat → Thread → Thread → Prop} {t : State}
    (h : Claims.Moved v o v.active ff (fun i x y => if p.getLsbD i then R i x y else y = { g i x with pc := v.ic.pc + 12 }) t)
    (moves : ∀ i x y, p.getLsbD i = true → R i x y → y.pc = next i ∧ S i x y)
    (stays : ∀ i x, p.getLsbD i = false → g i x = x) : Claims.Branched v o p ff next S t := by
  obtain ⟨w, hw, after⟩ := h.wave
  refine ⟨h.others, w, hw, { after with moved := fun i x hi hx => ?_ }⟩
  obtain ⟨y, hy, changed⟩ := after.moved i x hi hx
  refine ⟨y, hy, ?_⟩
  cases hp : p.getLsbD i with
  | true =>
    rw [hp, if_pos rfl] at changed
    exact (if_pos rfl).mpr (moves i x y hp changed)
  | false =>
    rw [hp, if_neg Bool.false_ne_true, stays i x hp] at changed
    exact (if_neg Bool.false_ne_true).mpr changed

/-- A transfer from a state with the waves as they were: each lane that transfers changes by `f`. -/
theorem View.branch_branched {v : View} {o : Operands} {p : Mask} {s : State} {next : Nat → W64} {f : Nat → Thread → Thread}
    {R : Nat → Thread → Thread → Prop} (hv : v.s.wave? v.ic.core v.ic.wslot = some v.w) (hs : s.waves = v.s.waves)
    (hR : ∀ i x, R i x { f i x with pc := next i }) : Claims.Branched v o p 0 next R (v.branch o s p next f) := by
  have moved := View.branch_moved (v := v) (o := o) (p := p) (s := s) (next := next) (f := f) (g := fun _ t => t) (ff := 0) (w1 := v.w)
    (fun _ _ _ => State.wave?_congr hs _ _) ((State.wave?_congr hs _ _).trans hv)
    (by rw [show v.w.fflags ||| 0 = v.w.fflags from BitVec.or_zero])
    (fun i => by rw [Slot.mapLive_same, ite_self]) (fun _ _ => ⟨rfl, rfl⟩)
  refine Branched.of_moved moved (fun i x y _ changed => ?_) fun _ _ _ => rfl
  subst changed
  exact ⟨rfl, hR i x⟩

/-- R160: the link write and the depth of a call. -/
theorem linkThread_wrote (pc target : W64) (i : Nat) (t : Thread) :
    Claims.Wrote { t with depth := t.depth + 1 } { linkThread pc i t with pc := target } target 31 [(pc + 12).setWidth 32] :=
  have link := t.setRegs_wrote target 31 [(pc + 12).setWidth 32]
  { pc := rfl
    frame := congrArg (fun u : Thread => { u with depth := t.depth + 1 }) link.frame
    size := link.size
    regs := link.regs }

/-- R55, R56: a call marks the outstanding results for v31 and changes nothing else before its lanes move. -/
theorem View.linkState_marks (v : View) (p : Mask) : v.Marks (Claims.writes v p 31 fun _ => 1) v.s (v.linkState p) := by
  unfold View.linkState
  cases h : v.outstanding with
  | true => exact v.clobber_marks v.s p 31 1
  | false => exact ⟨rfl, (marked_drained h _).symm⟩

/-- Moving lanes changes nothing but the waves. -/
theorem View.branch_onlyWaves {v : View} {o : Operands} {p : Mask} {next : Nat → W64} {f : Nat → Thread → Thread} {s t : State}
    (h : Claims.OnlyWaves s t) : Claims.OnlyWaves s (v.branch o t p next f) := h

/-- A change of results alone is a change of waves and results. -/
theorem OnlyResults.onlyWaves {s t : State} (h : OnlyResults s t) : Claims.OnlyWaves s t := by
  have waves := congrArg (fun u : State => { u with waves := s.waves }) h
  exact waves

/-- R160: call and callx, from the state in which the results for v31 are marked. -/
theorem View.call_linked {v : View} {o : Operands} {p : Mask} {next : Nat → W64}
    (hv : v.s.wave? v.ic.core v.ic.wslot = some v.w) (h : ∀ i, p.getLsbD i = true → v.targetFault i (next i) = none) :
    let t := v.jump o p p next (linkThread v.ic.pc) (v.linkState p)
    Claims.OnlyWaves v.s t ∧ t.results = v.s.results.map (Claims.marked v (Claims.writes v p 31 fun _ => 1)) ∧
      Claims.Branched v o p 0 next (fun i x y =>
        Claims.Wrote { x with depth := x.depth + 1 } y (next i) 31 [(v.ic.pc + 12).setWidth 32]) t := by
  obtain ⟨frame, marks⟩ := v.linkState_marks p
  dsimp only
  rw [View.jump_of_targets_pass h]
  exact ⟨View.branch_onlyWaves frame.onlyWaves, marks,
    View.branch_branched hv frame.waves fun i x => linkThread_wrote v.ic.pc (next i) i x⟩

/-- R162: a transfer in which each lane of `p` writes a register on its way. -/
theorem View.branch_writeNow_branched {v : View} {o : Operands} {p : Mask} {lo : Nat} {x : Nat → W32} {next : Nat → W64}
    (hv : v.s.wave? v.ic.core v.ic.wslot = some v.w) (hp : ∀ i, p.getLsbD i = true → v.active.getLsbD i = true) :
    Claims.Branched v o p 0 next (fun i y z => Claims.Wrote y z (next i) lo [x i])
      (v.branch o (v.writeNow v.s p lo 1 fun i => out32 (x i)) p next sameThread) := by
  have waves := View.writeNow_waves (v := v) (m := p) (lo := lo) (n := 1) (f := fun i => out32 (x i)) v.s
  have keeps : Wave.Keeps fun w =>
    let w := w.mapLanes p fun i t => t.setRegs lo (out32 (x i)).1
    { w with fflags := w.fflags ||| orFlags p fun i => out32 (x i) } := fun _ => ⟨rfl, rfl⟩
  have moved := View.branch_moved (v := v) (o := o) (p := p) (s := v.writeNow v.s p lo 1 fun i => out32 (x i)) (next := next)
    (f := sameThread) (g := fun i t => if p.getLsbD i then t.setRegs lo [x i] else t) (ff := 0)
    (fun c k h => by rw [State.wave?_congr waves, State.wave?_mapWave_other keeps h])
    (by rw [State.wave?_congr waves, State.wave?_mapWave_same keeps hv]) (by rw [orFlags_out32]; rfl)
    (fun i => by
      refine (Wave.slot_mapLanes v.w p _ i).trans ?_
      cases h : p.getLsbD i with
      | true => rw [hp i h]; rfl
      | false => simp [Slot.mapLive_same])
    (fun i t => by
      split
      · exact Thread.setRegs_pc _ _ _
      · exact ⟨rfl, rfl⟩)
  refine Branched.of_moved moved (fun i y z h changed => ?_) fun i _ h => by rw [h]; rfl
  rw [h, if_pos rfl] at changed
  subst changed
  exact ⟨rfl, y.setRegs_wrote (next i) lo [x i]⟩

/-- R162: loopd with its result written at once. -/
theorem View.loop_branched {v : View} {o : Operands} {q : Mask} {lo : Nat} {x : Nat → W32} {next : Nat → W64}
    (hv : v.s.wave? v.ic.core v.ic.wslot = some v.w) (h : ∀ i, q.getLsbD i = true → v.targetFault i (next i) = none) :
    let p := v.passing o
    let t := v.jump o p q next sameThread (v.writeNow v.s p lo 1 fun i => out32 (x i))
    Claims.OnlyWaves v.s t ∧ t.results = v.s.results.map (Claims.marked v (Claims.writes v p lo fun _ => 1)) ∧
      Claims.Branched v o p 0 next (fun i y z => Claims.Wrote y z (next i) lo [x i]) t := by
  dsimp only
  rw [View.jump_of_targets_pass h]
  exact ⟨View.branch_onlyWaves (View.writeNow_rest ..), View.writeNow_results (f := fun i => out32 (x i)),
    View.branch_writeNow_branched hv fun _ => View.passing_active⟩

/-- A transfer that marks no result changes nothing but the waves. -/
theorem View.jump_branched {v : View} {o : Operands} {p : Mask} {next : Nat → W64} {f : Nat → Thread → Thread}
    {R : Nat → Thread → Thread → Prop} (hv : v.s.wave? v.ic.core v.ic.wslot = some v.w)
    (h : ∀ i, p.getLsbD i = true → v.targetFault i (next i) = none) (hR : ∀ i x, R i x { f i x with pc := next i }) :
    let t := v.jump o p p next f v.s
    { t with waves := v.s.waves } = v.s ∧ Claims.Branched v o p 0 next R t := by
  dsimp only
  rw [View.jump_of_targets_pass h]
  exact ⟨rfl, View.branch_branched hv rfl hR⟩

/-- Settles O7: each transfer is `View.jump` with its own next PCs, whose checks pass by hypothesis. -/
theorem transfers : Obligations.Transfers := by
  intro s v o issue
  obtain ⟨rfl, -, wave⟩ := State.view?_spec issue
  intro p passes near far back plain linked x round
  refine ⟨fun h => ?bra, fun h => ?brx, fun h => ?call, fun h => ?callx, fun h => ?ret, fun room h => ?loopd⟩
  case bra => exact ⟨_, withIssue_next issue _, View.jump_branched wave h fun _ _ => rfl⟩
  case brx => exact ⟨_, withIssue_next issue _, View.jump_branched wave h fun _ _ => rfl⟩
  case call => exact ⟨_, withIssue_next issue _, View.call_linked wave h⟩
  case callx => exact ⟨_, withIssue_next issue _, View.call_linked wave h⟩
  case ret => exact ⟨_, withIssue_next issue _, View.jump_branched wave h fun _ _ => rfl⟩
  case loopd =>
    have taken : ∀ i, (bitsWhere fun i => p.getLsbD i && x i ≠ 0).getLsbD i = true → v.targetFault i (round i) = none := by
      intro i hi
      simp only [bitsWhere_getLsbD, Bool.and_eq_true, decide_eq_true_eq] at hi
      obtain ⟨-, passing, again⟩ := hi
      simpa only [round, if_pos again] using h i passing again
    refine ⟨_, withIssue_next issue _, ?_⟩
    dsimp only
    rw [room]
    exact View.loop_branched wave taken

end Sys2Proof.Machine
end

section
/-! Division, remainder and shifts (R144, R149): the results of the model's integer functions as operations on bit vectors. -/
namespace Sys2Proof.Machine

/-- A MOD bit of the operands is a bit of the MOD field. -/
theorem modBit_toNat (m : BitVec 7) (k : Nat) : modBit m.toNat k = m.getLsbD k := rfl

/-! ### Division and remainder -/

/-- R144: the unsigned quotient. -/
theorem ofInt_tdiv_toNat (a b : W32) : BitVec.ofInt 32 ((a.toNat : Int).tdiv b.toNat) = a / b := by
  rw [← Int.ofNat_tdiv, BitVec.ofInt_natCast, ← BitVec.toNat_udiv, BitVec.ofNat_toNat, BitVec.setWidth_eq]

/-- R144: the unsigned remainder. -/
theorem ofInt_tmod_toNat (a b : W32) : BitVec.ofInt 32 ((a.toNat : Int).tmod b.toNat) = a % b := by
  rw [← Int.ofNat_tmod, BitVec.ofInt_natCast, ← BitVec.toNat_umod, BitVec.ofNat_toNat, BitVec.setWidth_eq]

/-- R144: idiv, where the quotient of the most negative value by -1 is the most negative value again. -/
theorem aluIdiv_eq (m : BitVec 7) (a b : W32) : aluIdiv m.toNat a b =
    if b = 0 then 0xFFFFFFFF
    else if m.getLsbD 0 then a / b
    else if a = 0x80000000 ∧ b = 0xFFFFFFFF then 0x80000000
    else BitVec.ofInt 32 (a.toInt.tdiv b.toInt) := by
  rw [aluIdiv, modBit_toNat]
  refine ite_congr rfl (fun _ => rfl) fun _ => ?_
  cases m.getLsbD 0 with
  | true => exact ofInt_tdiv_toNat a b
  | false =>
    by_cases overflow : a = 0x80000000 ∧ b = 0xFFFFFFFF
    · obtain ⟨rfl, rfl⟩ := overflow
      rfl
    · exact (if_neg overflow).symm

/-- R144: irem, where the most negative value leaves no remainder by -1. -/
theorem aluIrem_eq (m : BitVec 7) (a b : W32) : aluIrem m.toNat a b =
    if b = 0 then a
    else if m.getLsbD 0 then a % b
    else if a = 0x80000000 ∧ b = 0xFFFFFFFF then 0
    else BitVec.ofInt 32 (a.toInt - b.toInt * a.toInt.tdiv b.toInt) := by
  rw [aluIrem, modBit_toNat]
  refine ite_congr rfl (fun _ => rfl) fun _ => ?_
  cases m.getLsbD 0 with
  | true => exact ofInt_tmod_toNat a b
  | false =>
    by_cases overflow : a = 0x80000000 ∧ b = 0xFFFFFFFF
    · obtain ⟨rfl, rfl⟩ := overflow
      rfl
    · exact (congrArg (BitVec.ofInt 32) (Int.tmod_def _ _)).trans (if_neg overflow).symm

/-- R144: idiv and irem. -/
theorem division : Claims.Division := by
  intro s v o issue room
  simp only [← aluIdiv_eq, ← aluIrem_eq]
  exact ⟨classV_out32_left (f := fun v i => aluIdiv o.mod.toNat (v.intA o i) (v.intB o i)) issue room rfl,
    classV_out32_left (f := fun v i => aluIrem o.mod.toNat (v.intA o i) (v.intB o i)) issue room rfl⟩

/-! ### Shifts -/

/-- The model's shift function, on 64-bit values of which the low `w` bits count, computes an operation of every width to 64. -/
def ShiftComputes (f : Nat → W64 → W32 → W64) (g : (w : Nat) → BitVec w → Nat → BitVec w) : Prop :=
  ∀ (w : Nat) (a : BitVec w) (n : W32), 0 < w → w ≤ 64 → (f w (a.setWidth 64) n).setWidth w = g w a n.toNat

/-- A value of `w` bits held in 64. -/
theorem toNat_setWidth_64 {w : Nat} (a : BitVec w) (h : w ≤ 64) : (a.setWidth 64).toNat % 2 ^ w = a.toNat := by
  rw [BitVec.toNat_setWidth_of_le h, Nat.mod_eq_of_lt a.isLt]

/-- R149: shl, where a count of the width or more leaves nothing. -/
theorem aluShl_computes : ShiftComputes aluShl fun w a n => if n < w then a <<< n else 0 := by
  intro w a n _ h
  have shifted : (BitVec.ofNat 64 ((a.setWidth 64).toNat * 2 ^ n.toNat % 2 ^ w)).setWidth w = a <<< n.toNat := by
    rw [BitVec.setWidth_ofNat_of_le h, BitVec.toNat_setWidth_of_le h]
    refine BitVec.eq_of_toNat_eq ?_
    rw [BitVec.toNat_ofNat, Nat.mod_mod, BitVec.toNat_shiftLeft, Nat.shiftLeft_eq]
  rw [aluShl, apply_ite (BitVec.setWidth w)]
  exact ite_congr rfl (fun _ => shifted) fun _ => BitVec.setWidth_zero _ _

/-- R149: shr, likewise. -/
theorem aluShr_computes : ShiftComputes aluShr fun w a n => if n < w then a >>> n else 0 := by
  intro w a n _ h
  have shifted : (BitVec.ofNat 64 (a.toNat / 2 ^ n.toNat)).setWidth w = a >>> n.toNat := by
    rw [BitVec.setWidth_ofNat_of_le h, ← Nat.shiftRight_eq_div_pow, ← BitVec.toNat_ushiftRight, BitVec.ofNat_toNat, BitVec.setWidth_eq]
  rw [aluShr, toNat_setWidth_64 a h, apply_ite (BitVec.setWidth w)]
  exact ite_congr rfl (fun _ => shifted) fun _ => BitVec.setWidth_zero _ _

/-- The two's-complement value of a word's bits. -/
theorem signed_toNat {w : Nat} (a : BitVec w) (h : 0 < w) : signed w a.toNat = a.toInt := by
  have top : a.toNat.testBit (w - 1) = a.msb := (BitVec.msb_eq_getLsbD_last a).symm
  rw [signed, BitVec.toInt_eq_msb_cond, top]
  simp [h]

/-- R149: sra, which fills with the sign. -/
theorem aluSra_computes : ShiftComputes aluSra fun w a n =>
    if n < w then a.sshiftRight n else if a.msb then BitVec.allOnes w else 0 := by
  intro w a n pos h
  have reduced (r : Int) : (BitVec.ofNat 64 (r % 2 ^ w).toNat).setWidth w = BitVec.ofInt w r := by
    rw [BitVec.setWidth_ofNat_of_le h, ← BitVec.ofInt_natCast, Int.toNat_of_nonneg (Int.emod_nonneg _ (Int.ne_of_gt (Int.pow_pos (by decide))))]
    refine BitVec.eq_of_toInt_eq ?_
    rw [BitVec.toInt_ofInt, BitVec.toInt_ofInt, ← Int.emod_bmod r (2 ^ w), Int.natCast_pow]
    rfl
  rw [aluSra, toNat_setWidth_64 a h, signed_toNat a pos]
  dsimp only
  rw [reduced, apply_ite (BitVec.ofInt w), apply_ite (BitVec.ofInt w)]
  have shifted : BitVec.ofInt w (a.toInt / 2 ^ n.toNat) = a.sshiftRight n.toNat := by
    rw [BitVec.sshiftRight, Int.shiftRight_eq_div_pow, Int.natCast_pow]
    rfl
  have sign : a.toInt < 0 ↔ a.msb = true := by rw [BitVec.msb_eq_toInt, decide_eq_true_eq]
  have ones : BitVec.ofInt w (-1) = BitVec.allOnes w := BitVec.ofInt_neg.trans BitVec.neg_one_eq_allOnes
  exact ite_congr rfl (fun _ => shifted) fun _ => ite_congr (propext sign) (fun _ => ones) fun _ => rfl

/-- R149: rotl, whose count is taken modulo the width: the bits that leave at the top are added below those that stay. -/
theorem aluRotl_computes : ShiftComputes aluRotl fun w a n => a.rotateLeft (n % w) := by
  intro w a n pos h
  rw [aluRotl, toNat_setWidth_64 a h]
  dsimp only
  rw [BitVec.setWidth_ofNat_of_le h]
  have below : n.toNat % w < w := Nat.mod_lt _ pos
  generalize n.toNat % w = k at below ⊢
  have width : 2 ^ w = 2 ^ k * 2 ^ (w - k) := by rw [← Nat.pow_add, Nat.add_sub_cancel' (Nat.le_of_lt below)]
  have low : a.toNat / 2 ^ (w - k) < 2 ^ k := Nat.div_lt_of_lt_mul (by rw [Nat.mul_comm, ← width]; exact a.isLt)
  have high : a.toNat * 2 ^ k % 2 ^ w = 2 ^ k * (a.toNat % 2 ^ (w - k)) := by rw [Nat.mul_comm, width, Nat.mul_mod_mul_left]
  refine BitVec.eq_of_toNat_eq ?_
  rw [BitVec.toNat_rotateLeft, Nat.mod_eq_of_lt below, Nat.shiftLeft_eq, Nat.shiftRight_eq_div_pow, high,
    ← Nat.two_pow_add_eq_or_of_lt low, BitVec.toNat_ofNat]
  refine Nat.mod_eq_of_lt ?_
  have := Nat.mod_lt a.toNat (Nat.two_pow_pos (w - k))
  calc 2 ^ k * (a.toNat % 2 ^ (w - k)) + a.toNat / 2 ^ (w - k)
    _ < 2 ^ k * (a.toNat % 2 ^ (w - k) + 1) := by rw [Nat.mul_succ]; exact Nat.add_lt_add_left low _
    _ ≤ 2 ^ k * 2 ^ (w - k) := Nat.mul_le_mul_left _ this
    _ = 2 ^ w := width.symm

/-- R149: a right rotation is a left rotation by the complement of its count. -/
theorem rotateRight_eq_rotateLeft {w : Nat} (a : BitVec w) (n : Nat) (h : n < w) : a.rotateRight n = a.rotateLeft ((w - n) % w) := by
  rw [BitVec.rotateRight_def, BitVec.rotateLeft_def, Nat.mod_eq_of_lt h, Nat.mod_mod]
  rcases Nat.eq_zero_or_pos n with rfl | pos
  · simp [BitVec.ushiftRight_eq_zero]
  · rw [Nat.mod_eq_of_lt (Nat.sub_lt_self pos (Nat.le_of_lt h)), Nat.sub_sub_self (Nat.le_of_lt h), BitVec.or_comm]

/-- R149: what a shift writes, on 32 bits or with W on 64. -/
theorem View.shift_wrote {v : View} {o : Operands} {f : Nat → W64 → W32 → W64} {g : (w : Nat) → BitVec w → Nat → BitVec w}
    (wave : v.s.wave? v.ic.core v.ic.wslot = some v.w) (hf : ShiftComputes f g) :
    Claims.WroteNow v o (fun i =>
      if o.mod.getLsbD 0 then out64 (g 64 (v.wideA o i) (v.intB o i).toNat) else out32 (g 32 (v.intA o i) (v.intB o i).toNat))
      (v.shift o f) := by
  rw [View.shift, modBit_toNat]
  cases o.mod.getLsbD 0 with
  | true =>
    simp only [if_true, ← hf 64 _ _ (by decide) (by decide), BitVec.setWidth_eq]
    exact View.classF_wrote wave fun _ => rfl
  | false =>
    simp only [Bool.false_eq_true, if_false, ← hf 32 _ _ (by decide) (by decide)]
    exact View.classF_wrote wave fun _ => rfl

/-- R149: a row of the shifts. -/
theorem shift_row {ins : Operands → Instr} {f : Nat → W64 → W32 → W64} {g : (w : Nat) → BitVec w → Nat → BitVec w}
    (he : ∀ o s, exec (ins o) s = withIssue s fun v => v.shift o f) (hf : ShiftComputes f g)
    (s : State) (v : View) (o : Operands) (issue : s.view? = some v) :
    ∃ t, exec (ins o) s = .next t ∧ Claims.WroteNow v o (fun i =>
      if o.mod.getLsbD 0 then out64 (g 64 (v.wideA o i) (v.intB o i).toNat) else out32 (g 32 (v.intA o i) (v.intB o i).toNat)) t := by
  obtain ⟨rfl, -, wave⟩ := State.view?_spec issue
  exact ⟨_, (he o v.s).trans (withIssue_next issue _), View.shift_wrote wave hf⟩

/-- R149: the shifts, and a right rotation as a left one. -/
theorem shifts : Claims.Shifts := by
  refine ⟨?rows, fun n a h => rotateRight_eq_rotateLeft a n h, fun n a h => rotateRight_eq_rotateLeft a n h⟩
  case rows =>
    rw [Claims.shiftRows, List.forall_mem_cons, List.forall_mem_cons, List.forall_mem_cons, List.forall_mem_singleton]
    exact ⟨shift_row (fun _ _ => rfl) aluShl_computes, shift_row (fun _ _ => rfl) aluShr_computes,
      shift_row (fun _ _ => rfl) aluSra_computes, shift_row (fun _ _ => rfl) aluRotl_computes⟩

/-- Settles O3: division and remainder by cases of the divisor and MOD, the shifts by what each computes at every width. -/
theorem divisionAndShifts : Obligations.DivisionAndShifts := ⟨division, shifts⟩

end Sys2Proof.Machine
end

section
/-! Logic instructions, pack and moves (R145, R153, R155): what each of the model's functions computes, bit by bit. -/
namespace Sys2Proof.Machine

/-! ### Runs of clear bits -/

/-- The length of a first run of false bits among the first `n`. -/
theorem length_takeWhile_not (p : Nat → Bool) (n : Nat) :
    let k := (((List.range n).map p).takeWhile (!·)).length
    k ≤ n ∧ (∀ j, j < k → p j = false) ∧ (k < n → p k = true) := by
  have run : (((List.range n).map p).takeWhile (!·)).length = ((List.range n).map p).findIdx id := by
    rw [List.takeWhile_eq_take_findIdx_not, List.length_take]
    simp only [Bool.not_not]
    exact Nat.min_eq_left List.findIdx_le_length
  have size : ((List.range n).map p).length = n := by rw [List.length_map, List.length_range]
  have bound : ((List.range n).map p).findIdx id ≤ n := Nat.le_trans List.findIdx_le_length (Nat.le_of_eq size)
  dsimp only
  rw [run]
  refine ⟨bound, fun j hj => ?_, fun hk => ?_⟩
  · simpa using List.not_of_lt_findIdx hj
  · simpa using List.findIdx_getElem (w := Nat.lt_of_lt_of_eq hk size.symm)

/-- A count of at most 32 as a word. -/
theorem toNat_count {k : Nat} (h : k ≤ 32) : (BitVec.ofNat 32 k).toNat = k := by
  rw [BitVec.toNat_ofNat]
  omega

/-! ### The logic instructions -/

/-- R145: lop3. -/
theorem aluLop3_bits (f : Nat) (a b old : W32) (p : Nat) (h : p < 32) : (aluLop3 f a b old).getLsbD p =
    f.testBit ((a.getLsbD p).toNat + 2 * (b.getLsbD p).toNat + 4 * (old.getLsbD p).toNat) := by
  rw [aluLop3, bitsWhere_getLsbD, decide_eq_true h, Bool.true_and]

/-- R145: popc. -/
theorem aluPopc_counts (a : W32) : (aluPopc a).toNat = (lanesOf a).length := by
  rw [aluPopc, List.countP_eq_length_filter]
  exact toNat_count (Nat.le_trans (List.length_filter_le ..) (Nat.le_of_eq List.length_range))

/-- R145: clz, the run of clear bits from the top. -/
theorem aluClz_run (a : W32) : (aluClz a).toNat ≤ 32 ∧ (∀ k, k < (aluClz a).toNat → a.getLsbD (31 - k) = false) ∧
    ((aluClz a).toNat < 32 → a.getLsbD (31 - (aluClz a).toNat) = true) := by
  have run := length_takeWhile_not (fun k => a.getLsbD (31 - k)) 32
  rw [aluClz, toNat_count run.1]
  exact run

/-- R145: ctz, the run of clear bits from the bottom. -/
theorem aluCtz_run (a : W32) : (aluCtz a).toNat ≤ 32 ∧ (∀ k, k < (aluCtz a).toNat → a.getLsbD k = false) ∧
    ((aluCtz a).toNat < 32 → a.getLsbD (aluCtz a).toNat = true) := by
  have run := length_takeWhile_not (fun k => a.getLsbD k) 32
  rw [aluCtz, toNat_count run.1]
  exact run

/-- R145: brev. -/
theorem aluBrev_bits (a : W32) (p : Nat) (h : p < 32) : (aluBrev a).getLsbD (31 - p) = a.getLsbD p := by
  rw [aluBrev, bitsWhere_getLsbD, decide_eq_true (show 31 - p < 32 by omega), Bool.true_and, show 31 - (31 - p) = p by omega]

/-- R145: what `Claims.Logic` says of one row. -/
def LogicRow (row : (Operands → Instr) × (Nat → W32 → W32 → W32 → W32 → Prop)) : Prop :=
  ∀ (s : State) (v : View) (o : Operands), s.view? = some v →
    ∃ (x : Nat → W32) (t : State), exec (row.1 o) s = .next t ∧ Claims.WroteNow v o (fun i => out32 (x i)) t ∧
      ∀ i, row.2 (immNat o.c) (v.intA o i) (v.intB o i) (v.oldDst o i) (x i)

/-- A class-F instruction whose value in each lane is as its row says. -/
theorem LogicRow.of_classF {row : (Operands → Instr) × (Nat → W32 → W32 → W32 → W32 → Prop)} {f : View → Operands → Nat → W32}
    (he : ∀ o s, exec (row.1 o) s = withIssue s fun v => v.classF o 1 fun i => out32 (f v o i))
    (hf : ∀ v o i, row.2 (immNat o.c) (v.intA o i) (v.intB o i) (v.oldDst o i) (f v o i)) : LogicRow row := by
  intro s v o issue
  obtain ⟨t, next, wrote⟩ := classF_writes (f := fun v i => out32 (f v o i)) issue (he o s) fun _ => rfl
  exact ⟨f v o, t, next, wrote, hf v o⟩

/-- R145: the logic instructions. -/
theorem logic : Claims.Logic := by
  change ∀ row ∈ Claims.logicRows, LogicRow row
  simp only [Claims.logicRows, List.forall_mem_cons, List.not_mem_nil, false_imp_iff, implies_true, and_true]
  refine ⟨?and, ?or, ?xor, ?andn, ?not, ?lop3, ?popc, ?clz, ?ctz, ?brev⟩
  case and | or | xor | andn | not => exact .of_classF (fun _ _ => rfl) fun _ _ _ => rfl
  case lop3 => exact .of_classF (fun _ _ => rfl) fun _ _ _ => aluLop3_bits _ _ _ _
  case popc => exact .of_classF (fun _ _ => rfl) fun _ _ _ => aluPopc_counts _
  case clz => exact .of_classF (fun _ _ => rfl) fun _ _ _ => aluClz_run _
  case ctz => exact .of_classF (fun _ _ => rfl) fun _ _ _ => aluCtz_run _
  case brev => exact .of_classF (fun _ _ => rfl) fun _ _ _ => aluBrev_bits _

/-! ### Pack and moves -/

/-- A bit of two halves joined. -/
theorem joinHalves_getLsbD (lo hi : BitVec 16) (i : Nat) :
    (joinHalves lo hi).getLsbD i = if i < 16 then lo.getLsbD i else hi.getLsbD (i - 16) := BitVec.getLsbD_append

/-- The bits of the mask of the low half. -/
theorem lowHalf_getLsbD (i : Nat) : (0xFFFF : W32).getLsbD i = decide (i < 16) := by
  rw [show (0xFFFF : W32) = (BitVec.allOnes 16).setWidth 32 from rfl, BitVec.getLsbD_setWidth, BitVec.getLsbD_allOnes]
  by_cases h : i < 16
  · simp [h, show i < 32 by omega]
  · simp [h]

/-- The bits of the mask of the high half. -/
theorem highHalf_getLsbD {i : Nat} (h : i < 32) : (0xFFFF0000 : W32).getLsbD i = decide (16 ≤ i) := by
  rw [show (0xFFFF0000 : W32) = BitVec.allOnes 32 <<< 16 from rfl, BitVec.getLsbD_shiftLeft, BitVec.getLsbD_allOnes]
  by_cases low : i < 16
  · simp [low]
  · simp [h, low, show i - 16 < 32 by omega, show 16 ≤ i by omega]

/-- Joining the low halves of two words. -/
theorem joinHalves_low (a b : W32) : joinHalves (a.setWidth 16) (b.setWidth 16) = b <<< 16 ||| (a &&& (0xFFFF : W32)) := by
  refine BitVec.eq_of_getLsbD_eq fun i h => ?_
  rw [joinHalves_getLsbD, BitVec.getLsbD_or, BitVec.getLsbD_and, BitVec.getLsbD_shiftLeft, lowHalf_getLsbD]
  by_cases low : i < 16
  · simp [low]
  · simp [low, h, show i - 16 < 16 by omega]

/-- Joining the high halves of two words. -/
theorem joinHalves_high (a b : W32) :
    joinHalves (a.extractLsb' 16 16) (b.extractLsb' 16 16) = (b &&& (0xFFFF0000 : W32)) ||| a >>> 16 := by
  refine BitVec.eq_of_getLsbD_eq fun i h => ?_
  rw [joinHalves_getLsbD, BitVec.getLsbD_or, BitVec.getLsbD_and, BitVec.getLsbD_ushiftRight, highHalf_getLsbD h]
  by_cases low : i < 16
  · simp [low, show ¬ 16 ≤ i by omega]
  · have beyond : a.getLsbD (16 + i) = false := BitVec.getLsbD_of_ge a (16 + i) (by omega)
    simp [low, h, beyond, show i - 16 < 16 by omega, show 16 + (i - 16) = i by omega, show 16 ≤ i by omega]

/-- A shift to the high half drops the bits beyond the low half. -/
theorem lowHalf_shiftLeft (b : W32) : (b &&& (0xFFFF : W32)) <<< 16 = b <<< 16 := by
  refine BitVec.eq_of_getLsbD_eq fun i h => ?_
  rw [BitVec.getLsbD_shiftLeft, BitVec.getLsbD_shiftLeft, BitVec.getLsbD_and, lowHalf_getLsbD, decide_eq_true (show i - 16 < 16 by omega),
    Bool.and_true]

/-- The low half of an integer's word. -/
theorem ofInt_16 (x : Int) : BitVec.ofInt 16 x = (BitVec.ofInt 32 x).setWidth 16 := by
  refine BitVec.eq_of_toNat_eq ?_
  rw [BitVec.toNat_setWidth, BitVec.toNat_ofInt, BitVec.toNat_ofInt]
  omega

/-- A value of the low half loses nothing there. -/
theorem lowHalf_ofInt {x : Int} (h0 : 0 ≤ x) (h1 : x ≤ 65535) : BitVec.ofInt 32 x &&& (0xFFFF : W32) = BitVec.ofInt 32 x := by
  refine BitVec.eq_of_toNat_eq ?_
  rw [BitVec.toNat_and, show (0xFFFF : W32).toNat = 2 ^ 16 - 1 from rfl, Nat.and_two_pow_sub_one_eq_mod, BitVec.toNat_ofInt]
  omega

/-- The order of the two bounds of a clamp. -/
theorem clampInt_eq (lo hi x : Int) : clampInt lo hi x = max lo (min hi x) := by rw [clampInt, Int.min_comm]

/-- R155: the four forms of pack. -/
theorem aluPack_eq (m : Nat) (a b : W32) : aluPack m a b =
    if m % 4 = 0 then (b &&& (0xFFFF : W32)) <<< 16 ||| (a &&& (0xFFFF : W32))
    else if m % 4 = 1 then (b &&& (0xFFFF0000 : W32)) ||| a >>> 16
    else if m % 4 = 2 then
      BitVec.ofInt 32 (max (-32768) (min 32767 b.toInt)) <<< 16 ||| (BitVec.ofInt 32 (max (-32768) (min 32767 a.toInt)) &&& (0xFFFF : W32))
    else BitVec.ofInt 32 (max 0 (min 65535 b.toInt)) <<< 16 ||| BitVec.ofInt 32 (max 0 (min 65535 a.toInt)) := by
  have form : m % 4 = 0 ∨ m % 4 = 1 ∨ m % 4 = 2 ∨ m % 4 = 3 := by omega
  unfold aluPack
  rcases form with h | h | h | h
  · simp only [h, if_true]
    rw [joinHalves_low, lowHalf_shiftLeft]
  · simp only [h, Nat.one_ne_zero, if_true, if_false]
    exact joinHalves_high a b
  · simp only [h, Nat.reduceEqDiff, if_true, if_false]
    rw [ofInt_16, ofInt_16, joinHalves_low, clampInt_eq, clampInt_eq]
  · simp only [h, Nat.reduceEqDiff, if_false]
    rw [ofInt_16, ofInt_16, joinHalves_low, clampInt_eq, clampInt_eq, lowHalf_ofInt (by omega) (by omega)]

/-- R153, R155: pack, mov and movl. -/
theorem packAndMoves : Claims.PackAndMoves := by
  intro s v o issue
  refine ⟨?pack, ?mov, ?movl⟩
  case pack =>
    simp only [← aluPack_eq]
    exact classF_writes (f := fun v i => out32 (aluPack o.mod.toNat (v.intA o i) (v.intB o i))) issue rfl fun _ => rfl
  case mov => exact classF_writes (f := fun v i => out32 (v.intA o i)) issue rfl fun _ => rfl
  case movl => exact classF_writes (f := fun v i => out64 (v.wideA o i)) issue rfl fun _ => rfl

/-- Settles O4: each logic instruction by its row, pack by its four forms, and the moves as they stand. -/
theorem logicAndMoves : Obligations.LogicAndMoves := ⟨logic, packAndMoves⟩

end Sys2Proof.Machine
end
